-- ==== Sys2Proof/Word.lean ====
section
/-!
DEFINITION. The word types of the hardware (spec/00_scope.md R8, R10; spec/10_state.md R21, R33).

Everything is unsigned.  A byte has 8 bits, a control register 32 bits on the host side, a symbol cell
16 bits, a colour entry 24 bits.
-/

namespace Sys2Proof

/-- A byte, bit 7 the most significant (R10). -/
abbrev Byte := BitVec 8

/-- A control register as the host sees it, `REG_BITS = 32` bits (R8, R21). -/
abbrev Word := BitVec 32

/-- One cell of `SIN` or `SOUT`, `SYM_BITS = 16` bits (R8, R69). -/
abbrev Symbol := BitVec 16

/-- One cell of `CTM`: `R*65536 + G*256 + B` (R33, R64). -/
abbrev Color := BitVec 24

/-- A natural number written to a 32-bit register. -/
abbrev Word.ofNat (n : Nat) : Word := BitVec.ofNat 32 n

end Sys2Proof
end

