-- ==== Sys2Proof/Config.lean ====
section
/-!
DEFINITION. The constants the source fixes (spec/00_scope.md R7), the parameters the spec fixes by decision
(R8), the OPEN capacities (R9) and the values the spec leaves unspecified (spec/10_state.md R44).
-/

namespace Sys2Proof

namespace Config

/-- `W_MAX`: largest LZW code width in bits (R7). -/
abbrev wMax : Nat := 12
/-- `DICT_MAX`: dictionary entry limit (R7). -/
abbrev dictMax : Nat := 4096
/-- `SB_MAX`: largest sub-block payload (R7). -/
abbrev sbMax : Nat := 255
/-- `HDR_LEN` (R7). -/
abbrev hdrLen : Nat := 6
/-- `LSD_LEN` (R7). -/
abbrev lsdLen : Nat := 7
/-- `GCE_LEN` (R7). -/
abbrev gceLen : Nat := 8
/-- `APP_LEN` (R7). -/
abbrev appLen : Nat := 19
/-- `ID_LEN` (R7). -/
abbrev idLen : Nat := 10
/-- `TRAILER` (R7). -/
abbrev trailerByte : Byte := 0x3B
/-- `EXT_INTRO` (R7). -/
abbrev extIntro : Byte := 0x21
/-- `IMG_SEP` (R7). -/
abbrev imgSep : Byte := 0x2C
/-- Extension labels (R7). -/
abbrev labelGce : Byte := 0xF9
abbrev labelApp : Byte := 0xFF
abbrev labelPte : Byte := 0x01
abbrev labelCom : Byte := 0xFE

/-- `MCS_MIN` (R8). -/
abbrev mcsMin : Nat := 2
/-- `MCS_MAX` (R8). -/
abbrev mcsMax : Nat := 11
/-- `CT_MAX`: largest colour-table entry count, and the number of cells of `CTM` (R8, R33). -/
abbrev ctMax : Nat := 256
/-- Cells of `COMB` (R34). -/
abbrev combSize : Nat := 255

end Config

/-- The OPEN parameters of R9 (any value, `none` being "unbounded"): `IBUF_SIZE`, `OBUF_SIZE`, `SIN_SIZE`,
`SOUT_SIZE`, `BSTORE_SIZE`, `FRAMES_MAX`.  A field of `State` that no step writes, so that a statement
about every state holds for every choice of them (log entry 1). -/
structure Caps where
  ibuf : Option Nat
  obuf : Option Nat
  sin : Option Nat
  sout : Option Nat
  bstore : Option Nat
  frames : Option Nat
deriving DecidableEq, Repr

/-- Every capacity unbounded. -/
def Caps.unbounded : Caps := ⟨none, none, none, none, none, none⟩

namespace Config

/-- The unspecified byte in a cell of `IBUF` (`isComb = false`) or `COMB` (`isComb = true`) that nothing has
written since reset number `era` (R44; log entry 2).  No value: a statement holds whatever it is. -/
opaque freeByte (isComb : Bool) (era index : Nat) : Byte

/-- The unspecified symbol in a cell of `SIN` that nothing has written (R44; log entry 2). -/
opaque freeSymbol (era index : Nat) : Symbol

/-- The unspecified colour in a cell of `CTM` that nothing has written (R44; log entry 2). -/
opaque freeColor (era index : Nat) : Color

end Config

end Sys2Proof
end

