-- ==== Sys2Proof/Syntax.lean ====
section
/-!
DEFINITION. The instructions: one constructor per row of spec/opcode_table.json.

Three things are encoded in this hardware (spec/30_encoding.md): the 24 host commands (format CMD, R91), the six
items of the container byte stream the parser dispatches on (format BLK, R101), and one code of the LZW
code stream (format LZW, R115).
-/

namespace Sys2Proof

/-- The instructions.  A command has no operand bits (R90).  A block item's operands are the bytes after the
ones that select it, read from `IBUF` when it runs.  A code carries the number of bits it takes in the
stream, which is the decoder's `width` when it is read (R115), and its value. -/
inductive Instr where
  | sysNop | sysClrfault | sysAbort | sysReset
  | seqParse | seqSerialize | seqGetblk | seqSetblk
  | fldUnpackLsd | fldPackLsd
  | fldUnpackGce | fldPackGce
  | fldUnpackId | fldPackId
  | fldUnpackApp | fldPackApp
  | fldUnpackCom | fldPackCom
  | fldUnpackCt | fldPackCt
  | fldUnpackU16 | fldPackU16
  | lzwEnc | lzwDec
  | extGce | extApp | extPte | extCom | img | trailer
  | lzwCode (width : Nat) (code : BitVec 12)
deriving DecidableEq, Repr

/-- The bits of an instruction, in the format that holds it.
`code width nb acc`: `nb` bits are buffered, the low `nb` bits of `acc`, the oldest in bit 0 (R40), and a code of
`width` bits is wanted. -/
inductive Encoded where
  | cmd (op : Byte)
  | blk (bytes : List Byte)
  | code (width nb acc : Nat)
deriving DecidableEq, Repr

/-- Why bits decode to no instruction. -/
inductive DecodeError where
  /-- an opcode outside R91 (R95): the machine raises `BAD_COMMAND` -/
  | reservedOpcode (op : Byte)
  /-- no byte left where a frame may begin (R133): a decode error of the frame attempt -/
  | exhausted
  /-- an introducer with no label byte after it (R134): a decode error of the frame attempt -/
  | missingLabel
  /-- an introducer followed by a label other than F9, FF, 01, FE (R153): a decode error of the frame attempt -/
  | unknownLabel (label : Byte)
  /-- a byte that begins no block (R139): the decode error "absent image separator" -/
  | absentSeparator (b : Byte)
  /-- fewer bits buffered than the code's width (R244): more bytes must be pulled first -/
  | shortCode
  /-- a code width outside 3 to 12 (R37, R38) -/
  | badWidth (width : Nat)
deriving DecidableEq, Repr

end Sys2Proof
end

