-- ==== Sys2Proof/WellFormed.lean ====
section
/-!
DEFINITION. Which instructions have an encoding: every command and block item; a code when its width is one the
codec uses (`mcs + 1 .. 12` with `mcs` in `2 .. 11`, spec/10_state.md R37) and its value fits the width
(spec/43_lzw_encoder.md R214).
-/

namespace Sys2Proof

/-- The widths a code of the LZW stream can have: `MCS_MIN + 1 .. W_MAX` (R37, R38). -/
def codeWidthOk (width : Nat) : Bool :=
  decide (Config.mcsMin + 1 ≤ width) && decide (width ≤ Config.wMax)

/-- Well-formed instructions. -/
def Instr.wf : Instr → Bool
  | .lzwCode width code => codeWidthOk width && decide (code.toNat < 2 ^ width)
  | .sysNop | .sysClrfault | .sysAbort | .sysReset
  | .seqParse | .seqSerialize | .seqGetblk | .seqSetblk
  | .fldUnpackLsd | .fldPackLsd | .fldUnpackGce | .fldPackGce
  | .fldUnpackId | .fldPackId | .fldUnpackApp | .fldPackApp
  | .fldUnpackCom | .fldPackCom | .fldUnpackCt | .fldPackCt
  | .fldUnpackU16 | .fldPackU16 | .lzwEnc | .lzwDec
  | .extGce | .extApp | .extPte | .extCom | .img | .trailer => true

end Sys2Proof
end

