-- ==== Sys2Proof/Decode.lean ====
section
/-!
DEFINITION. The decoder and the encoder of the three formats (spec/30_encoding.md R91, R101, R115), and the
opcode table's numbering of bits (log entry 3).
-/

namespace Sys2Proof

/-- A host command from its opcode `CMD[7:0]` (R91); every other value is reserved (R95). -/
def decodeCmd (op : Byte) : Except DecodeError Instr :=
  match op.toNat with
  | 0x00 => .ok .sysNop
  | 0x01 => .ok .sysClrfault
  | 0x02 => .ok .sysAbort
  | 0x03 => .ok .sysReset
  | 0x10 => .ok .seqParse
  | 0x11 => .ok .seqSerialize
  | 0x12 => .ok .seqGetblk
  | 0x13 => .ok .seqSetblk
  | 0x20 => .ok .fldUnpackLsd
  | 0x21 => .ok .fldPackLsd
  | 0x22 => .ok .fldUnpackGce
  | 0x23 => .ok .fldPackGce
  | 0x24 => .ok .fldUnpackId
  | 0x25 => .ok .fldPackId
  | 0x26 => .ok .fldUnpackApp
  | 0x27 => .ok .fldPackApp
  | 0x28 => .ok .fldUnpackCom
  | 0x29 => .ok .fldPackCom
  | 0x2A => .ok .fldUnpackCt
  | 0x2B => .ok .fldPackCt
  | 0x2C => .ok .fldUnpackU16
  | 0x2D => .ok .fldPackU16
  | 0x30 => .ok .lzwEnc
  | 0x31 => .ok .lzwDec
  | _ => .error (.reservedOpcode op)

/-- The extension a label byte selects (R101). -/
def decodeLabel (label : Byte) : Except DecodeError Instr :=
  if label = Config.labelGce then .ok .extGce
  else if label = Config.labelApp then .ok .extApp
  else if label = Config.labelPte then .ok .extPte
  else if label = Config.labelCom then .ok .extCom
  else .error (.unknownLabel label)

/-- The item of the container stream that begins the given bytes (R101): the bytes from the input cursor on. -/
def decodeBlk : List Byte → Except DecodeError Instr
  | [] => .error .exhausted
  | b :: rest =>
    if b = Config.extIntro then
      match rest with
      | [] => .error .missingLabel
      | label :: _ => decodeLabel label
    else if b = Config.imgSep then .ok .img
    else if b = Config.trailerByte then .ok .trailer
    else .error (.absentSeparator b)

/-- The code in the low `width` of the `nb` buffered bits `acc` (R244, R115). -/
def decodeCode (width nb acc : Nat) : Except DecodeError Instr :=
  if codeWidthOk width = false then .error (.badWidth width)
  else if nb < width then .error .shortCode
  else .ok (.lzwCode width (BitVec.ofNat 12 (acc % 2 ^ width)))

/-- The decoder, total on any bits. -/
def decode : Encoded → Except DecodeError Instr
  | .cmd op => decodeCmd op
  | .blk bytes => decodeBlk bytes
  | .code width nb acc => decodeCode width nb acc

/-- The encoder: the opcode of R91, the selecting bytes of R101, or the code's bits, bit 0 first (R63). -/
def encode : Instr → Encoded
  | .sysNop => .cmd 0x00
  | .sysClrfault => .cmd 0x01
  | .sysAbort => .cmd 0x02
  | .sysReset => .cmd 0x03
  | .seqParse => .cmd 0x10
  | .seqSerialize => .cmd 0x11
  | .seqGetblk => .cmd 0x12
  | .seqSetblk => .cmd 0x13
  | .fldUnpackLsd => .cmd 0x20
  | .fldPackLsd => .cmd 0x21
  | .fldUnpackGce => .cmd 0x22
  | .fldPackGce => .cmd 0x23
  | .fldUnpackId => .cmd 0x24
  | .fldPackId => .cmd 0x25
  | .fldUnpackApp => .cmd 0x26
  | .fldPackApp => .cmd 0x27
  | .fldUnpackCom => .cmd 0x28
  | .fldPackCom => .cmd 0x29
  | .fldUnpackCt => .cmd 0x2A
  | .fldPackCt => .cmd 0x2B
  | .fldUnpackU16 => .cmd 0x2C
  | .fldPackU16 => .cmd 0x2D
  | .lzwEnc => .cmd 0x30
  | .lzwDec => .cmd 0x31
  | .extGce => .blk [Config.extIntro, Config.labelGce]
  | .extApp => .blk [Config.extIntro, Config.labelApp]
  | .extPte => .blk [Config.extIntro, Config.labelPte]
  | .extCom => .blk [Config.extIntro, Config.labelCom]
  | .img => .blk [Config.imgSep]
  | .trailer => .blk [Config.trailerByte]
  | .lzwCode width code => .code width width code.toNat

/-- The stored form of a row of spec/opcode_table.json, whose word is the number `w` of `nbits` bits.  The table
writes a block item of two bytes as ONE 16-bit word with its first byte as the more significant half
(`EXT.GCE` is `0x21F9`, byte 0 = `0x21`), and a code as a 12-bit number.  The two formats CMD and BLK share the 8-bit
numbers: a number that is an opcode is read as the command, `0x2C` (`IMG` and `FLD.UNPACK_U16`) among them, and one that
is not as a block byte (log entry 3). -/
def tableWord (nbits w : Nat) : Encoded :=
  if nbits = 8 then
    match decodeCmd (BitVec.ofNat 8 w) with
    | .ok _ => .cmd (BitVec.ofNat 8 w)
    | .error _ =>
      match decodeBlk [BitVec.ofNat 8 w] with
      | .ok _ => .blk [BitVec.ofNat 8 w]
      | .error _ => .cmd (BitVec.ofNat 8 w)
  else if w < 4096 then .code 12 12 w
  else .blk [BitVec.ofNat 8 (w / 256), BitVec.ofNat 8 w]

/-- The instruction the decoder reads from a row's word. -/
def decodeTableWord (nbits w : Nat) : Option Instr :=
  match decode (tableWord nbits w) with
  | .ok i => some i
  | .error _ => none

end Sys2Proof
end

