-- ==== Sys2Proof/Machine/State.lean ====
section
/-!
DEFINITION. The state of the core (spec/10_state.md R20), the reasons a step can stop, and the state after reset
(R45).  Plain data only.
-/

namespace Sys2Proof.Machine

/-! ### Memories (R32, R60) -/

/-- An array with cells that may be unspecified: (index, value) pairs, indices strictly rising; an unlisted cell has
NO value (R44).  `Host.Cell` is the pair for bytes. -/
abbrev Memory (α : Type) := List (Nat × α)

/-- The array spaces of R60 with cells the host can name. -/
inductive Space where
  | ibuf | obuf | sin | sout | ctm | comb
deriving DecidableEq, Repr

/-! ### The field register file (R22) -/

/-- The groups of field registers, one per record layout (R22). -/
inductive Group where
  | lsd | gce | id | app | com | ct | u16
deriving DecidableEq, Repr

/-- The names of the 52 field registers (R22). -/
inductive FieldReg where
  | lsdWidth | lsdHeight | lsdGcf | lsdCres | lsdSort | lsdGctsz | lsdBg | lsdAspect | gceIntro | gceLabel
  | gceBsize | gceRsvd | gceDisp | gceUin | gceTcf | gceDelay | gceTci | gceTerm | idSep | idLeft | idTop
  | idWidth | idHeight | idLctf | idIlace | idSort | idRsvd | idLctsz | appIntro | appLabel | appBsize
  | appIdent0 | appIdent1 | appIdent2 | appIdent3 | appIdent4 | appIdent5 | appIdent6 | appIdent7 | appAuth0
  | appAuth1 | appAuth2 | appSblen | appLoopind | appLoopcnt | appTerm | comIntro | comLabel | comSize
  | comTerm | ctN | u16Val
deriving DecidableEq, Repr

/-- The field register file `F`: each register exactly as wide as its field (R22). -/
structure Fields where
  lsdWidth : BitVec 16
  lsdHeight : BitVec 16
  lsdGcf : BitVec 1
  lsdCres : BitVec 3
  lsdSort : BitVec 1
  lsdGctsz : BitVec 3
  lsdBg : BitVec 8
  lsdAspect : BitVec 8
  gceIntro : BitVec 8
  gceLabel : BitVec 8
  gceBsize : BitVec 8
  gceRsvd : BitVec 3
  gceDisp : BitVec 3
  gceUin : BitVec 1
  gceTcf : BitVec 1
  gceDelay : BitVec 16
  gceTci : BitVec 8
  gceTerm : BitVec 8
  idSep : BitVec 8
  idLeft : BitVec 16
  idTop : BitVec 16
  idWidth : BitVec 16
  idHeight : BitVec 16
  idLctf : BitVec 1
  idIlace : BitVec 1
  idSort : BitVec 1
  idRsvd : BitVec 2
  idLctsz : BitVec 3
  appIntro : BitVec 8
  appLabel : BitVec 8
  appBsize : BitVec 8
  appIdent0 : BitVec 8
  appIdent1 : BitVec 8
  appIdent2 : BitVec 8
  appIdent3 : BitVec 8
  appIdent4 : BitVec 8
  appIdent5 : BitVec 8
  appIdent6 : BitVec 8
  appIdent7 : BitVec 8
  appAuth0 : BitVec 8
  appAuth1 : BitVec 8
  appAuth2 : BitVec 8
  appSblen : BitVec 8
  appLoopind : BitVec 8
  appLoopcnt : BitVec 16
  appTerm : BitVec 8
  comIntro : BitVec 8
  comLabel : BitVec 8
  comSize : BitVec 8
  comTerm : BitVec 8
  ctN : BitVec 9
  u16Val : BitVec 16
deriving DecidableEq, Repr

/-! ### The block store (R35) -/

/-- `ExtKind`: the kinds of extension block (R35). -/
inductive ExtKind where
  | gce | app | pte | com
deriving DecidableEq, Repr

/-- A frame (R35): its extensions in parse order, then the three blocks that are always present. -/
structure Frame where
  exts : List (ExtKind × List Byte)
  id : List Byte
  lct : List Byte
  idb : List Byte
deriving DecidableEq, Repr

/-- `DOC`, the GifDocument (R35). -/
structure Doc where
  header : List Byte
  lsd : List Byte
  gct : List Byte
  frames : List Frame
  trailer : List Byte
deriving DecidableEq, Repr

/-! ### Working state of the running command -/

/-- `SEQ.PARSE` inside its frame loop (R130, R134): the blocks cut so far, `start` of the current frame attempt and
the attempt's extensions. -/
structure ParseWork where
  header : List Byte
  lsd : List Byte
  gct : List Byte
  frames : List Frame
  start : Nat
  exts : List (ExtKind × List Byte)
deriving DecidableEq, Repr

/-- `LZW.ENC` inside its symbol loop (R37, R40, R41).  `dict` lists the keys in code order, so that a key's code is
its place in the list and `size` its length (R212: "the next unused code value is `size`"); `pre` is the spec's
`prefix`; `next` is the loop index `j` of R223.  `clear` and `eoi` are `2^mcs` and `2^mcs + 1`. -/
structure EncWork where
  mcs : Nat
  width : Nat
  dict : List (List Symbol)
  pre : List Symbol
  acc : Nat
  nb : Nat
  sb : List Byte
  next : Nat
deriving DecidableEq, Repr

/-- `LZW.DEC` inside its code loop (R38, R40). -/
structure DecWork where
  mcs : Nat
  width : Nat
  dict : List (List Symbol)
  prev : Option (List Symbol)
  acc : Nat
  nb : Nat
  rem : Nat
  ended : Bool
deriving DecidableEq, Repr

/-- The hidden state of the running command; it does not survive the command (R42). -/
inductive Work where
  | idle
  | parse (w : ParseWork)
  | enc (w : EncWork)
  | dec (w : DecWork)
deriving DecidableEq, Repr

/-! ### Faults of the hardware (R291) -/

/-- The fault codes (R291).  A fault is a NEXT state (R305), not a stop of the model. -/
inductive FaultCode where
  | fmtTruncated | fmtRemainder | fmtTrailerValue
  | decDesync | decTruncated | decBadMcs | decTableFull
  | idxFrame
  | badCommand | badOperand | capacity | noDocument | fldLength | encSymbolRange | encMcsRange | setInvalid
deriving DecidableEq, Repr

/-! ### Micro-steps (R274) -/

/-- One micro-step of a running command: "each `out`, `outs`, `take`, register write or `DOC` update of its
pseudocode" (R274), the fault entry (R305) and the completion (R274). -/
inductive Micro where
  /-- `out(b)` -/
  | out (b : Byte)
  /-- `outs(x)` -/
  | outs (x : Symbol)
  /-- `OLEN <- 0` -/
  | olen0
  /-- `SOLEN <- 0` -/
  | solen0
  /-- `ipos <- p`, also the cursor's advance in `take` -/
  | ipos (p : Word)
  /-- `MCS <- m` -/
  | mcs (m : BitVec 4)
  /-- `FAULT <- 0` (R271) -/
  | clearFault
  /-- `FCAUSE <- 0` (R271) -/
  | clearCause
  /-- `FINFO <- 0` (R271) -/
  | clearInfo
  /-- `DOCV <- 0 ; DOC <- none ; FCOUNT <- 0 ; ipos <- 0`, which comes with the start of `SEQ.PARSE` (R130, R144, R272) -/
  | dropDoc
  /-- `DOC <- d` with the `FCOUNT` and `DOCV` that go with it (R130's last line, R149's replacement) -/
  | doc (d : Doc)
  /-- `F[r] <- v` -/
  | field (r : FieldReg) (v : Word)
  /-- `CTM[k] <- c` -/
  | ctm (k : Nat) (c : Color)
  /-- `COMB[k] <- b` -/
  | comb (k : Nat) (b : Byte)
  /-- a change of the hidden working state, not observable (R40) -/
  | work (w : Work)
  /-- `raise Fault(code, info)` (R305) -/
  | raise (code : FaultCode) (info : Word)
  /-- completion (R274); `true` is the micro-step `NP <- 1` with it (R148) -/
  | finish (np : Bool)
deriving DecidableEq, Repr

/-! ### The host (R93, R333) -/

/-- One action of the host program (R93, R334). -/
inductive HostAction where
  /-- write `v` to `CMD`; the host's next action comes when `BUSY = 0` (`none`, the `<MNEMONIC>` line of R93) or after `n`
  steps of the core, if `BUSY` is then still 1 (`some n`, R274 "The host can act between any two micro-steps") -/
  | cmd (v : Word) (pace : Option Nat)
  /-- poll `STATUS` (R333 step 3): leave the core `n` more steps -/
  | poll (n : Nat)
  /-- `wr <REG>, <value>` by register number (R21, R22) -/
  | wr (r : Nat) (v : Word)
  /-- read a register by number (R21) -/
  | rd (r : Nat)
  /-- write one cell of a buffer or field memory (R32, R33, R34) -/
  | put (m : Space) (i : Nat) (v : Word)
  /-- read one cell (R32, R33, R34) -/
  | peek (m : Space) (i : Nat)
  /-- `ibuf <hex bytes>` -/
  | ibuf (bs : List Byte)
  /-- `sin [s0, s1, ...]` -/
  | sin (xs : List Symbol)
  /-- `ctm [e0, e1, ...]` -/
  | ctm (cs : List Color)
  /-- `comb <hex bytes>` -/
  | comb (bs : List Byte)
  /-- `mv` -/
  | mv
  /-- `mvs` -/
  | mvs
  /-- the platform's power-on or reset line (R330) -/
  | resetLine
deriving DecidableEq, Repr

/-! ### The state (R20) -/

/-- The whole state.  `STATUS` is the five flags of R24, of which `DOCV` and the register `FCOUNT` are not stored a second time:
they are `doc.isSome` and the number of its frames (R31, R35; Flags.lean, Operands.lean). -/
structure State where
  -- control registers (R21)
  cmd : Byte
  busy : Bool
  done : Bool
  fault : Bool
  np : Bool
  fcause : Byte
  finfo : Word
  ilen : Word
  ipos : Word
  olen : Word
  silen : Word
  solen : Word
  ctcnt : BitVec 9
  mcs : BitVec 4
  fidx : Word
  bkind : BitVec 4
  -- field register file and its memories (R22, R33, R34)
  fld : Fields
  ctm : Memory Color
  comb : List Host.Cell
  -- buffers (R32)
  ibuf : List Host.Cell
  obuf : List Host.Cell
  sin : Memory Symbol
  sout : Memory Symbol
  -- block store (R35)
  doc : Option Doc
  -- the running command: hidden working state (R37, R38) and the micro-steps already determined (R274)
  work : Work
  todo : List Micro
  -- the OPEN parameters (R9); no step writes them
  caps : Caps
  -- the model's own: number of resets so far, the host program still to come (R334), the steps the core has before the
  -- host's next action while BUSY = 1 (log entries 2, 4)
  era : Nat
  host : List HostAction
  grant : Option Nat
deriving DecidableEq, Repr

/-- Stops that the hardware has no state for.  None is raised by a command: a command's faults are next states. -/
inductive Fault where
  /-- a host action names a register number outside `0x00 .. 0x7F` (R60).  Safe. -/
  | noSuchRegister (r : Nat)
  /-- a host action names a cell outside its space (R60).  Safe. -/
  | noSuchCell (m : Space) (i : Nat)
deriving DecidableEq, Repr

/-- Moves the model does not offer. -/
inductive Refusal where
  /-- an instruction with no meaning yet (Dispatch.lean).  Safe. -/
  | notModelled (mnemonic : String)
  /-- a host write to anything but `CMD` while `BUSY = 1` (R341, U4: undefined, "a model gives the host no such move").  Safe. -/
  | hostWriteWhileBusy
  /-- a host read while `BUSY = 1` of anything but `STATUS`, `OLEN`, `SOLEN`, `IPOS` and the stable prefixes (R71, R333).  Safe. -/
  | hostReadWhileBusy
  /-- a host write to a register the host can only read (R21, log entry 8).  Safe. -/
  | readOnlyRegister (r : Nat)
  /-- a host access to a space in a direction the host does not have (R32).  Safe. -/
  | noHostAccess (m : Space)
  /-- a host read of a cell that has no specified value (R44).  Safe. -/
  | unspecifiedCell (m : Space) (i : Nat)
  /-- a block item where no frame attempt of a running `SEQ.PARSE` waits for one (R134): its bytes are data there.  Safe. -/
  | notInFrameAttempt
  /-- a code where no running `LZW.DEC` has that many bits buffered at that width (R244).  Safe. -/
  | noCodeBuffered
deriving DecidableEq, Repr

/-- All field registers at their reset value 0 (R45). -/
def Fields.zero : Fields :=
  {
    lsdWidth := 0, lsdHeight := 0, lsdGcf := 0, lsdCres := 0, lsdSort := 0, lsdGctsz := 0, lsdBg := 0,
    lsdAspect := 0, gceIntro := 0, gceLabel := 0, gceBsize := 0, gceRsvd := 0, gceDisp := 0, gceUin := 0,
    gceTcf := 0, gceDelay := 0, gceTci := 0, gceTerm := 0, idSep := 0, idLeft := 0, idTop := 0, idWidth := 0,
    idHeight := 0, idLctf := 0, idIlace := 0, idSort := 0, idRsvd := 0, idLctsz := 0, appIntro := 0,
    appLabel := 0, appBsize := 0, appIdent0 := 0, appIdent1 := 0, appIdent2 := 0, appIdent3 := 0,
    appIdent4 := 0, appIdent5 := 0, appIdent6 := 0, appIdent7 := 0, appAuth0 := 0, appAuth1 := 0,
    appAuth2 := 0, appSblen := 0, appLoopind := 0, appLoopcnt := 0, appTerm := 0, comIntro := 0,
    comLabel := 0, comSize := 0, comTerm := 0, ctN := 0, u16Val := 0 }

/-- The state after power-on reset (R45): every register 0, no document, no working state, every cell unspecified;
not busy.  The capacities (log entry 1), the reset count, the host program and the pace (log entry 4) are the model's. -/
def State.reset : State where
  cmd := 0
  busy := false
  done := false
  fault := false
  np := false
  fcause := 0
  finfo := 0
  ilen := 0
  ipos := 0
  olen := 0
  silen := 0
  solen := 0
  ctcnt := 0
  mcs := 0
  fidx := 0
  bkind := 0
  fld := Fields.zero
  ctm := []
  comb := []
  ibuf := []
  obuf := []
  sin := []
  sout := []
  doc := none
  work := .idle
  todo := []
  caps := Caps.unbounded
  era := 0
  host := []
  grant := none

end Sys2Proof.Machine
end

