-- ==== Sys2Proof/Machine/Flags.lean ====
section
/-!
DEFINITION. The flags of `STATUS` (spec/10_state.md R24): the word the host reads and what sets and clears each flag.  The
hardware has no other flags ("no data-path operation has condition codes").
-/

namespace Sys2Proof.Machine

/-- `STATUS.DOCV`: `DOC` is meaningful (R24, R35). -/
def State.docv (s : State) : Bool := s.doc.isSome

/-- `STATUS` as the host reads it: bit 0 `BUSY`, 1 `DONE`, 2 `FAULT`, 3 `NP`, 4 `DOCV` (R24); the rest 0 (R21). -/
def statusWord (s : State) : Word :=
  Word.ofNat (s.busy.toNat + 2 * s.done.toNat + 4 * s.fault.toNat + 8 * s.np.toNat + 16 * s.docv.toNat)

/-- Flags at command start: `DONE <- 0 ; NP <- 0 ; BUSY <- 1` (R274). -/
def startFlags (s : State) : State := { s with done := false, np := false, busy := true }

/-- Flags at completion: `BUSY <- 0 ; DONE <- 1` (R274), `NP` as the command says (R148). -/
def completeFlags (np : Bool) (s : State) : State := { s with busy := false, done := true, np := np }

/-- Flags at fault entry: `FAULT <- 1 ; BUSY <- 0`; `DONE` stays 0 (R305). -/
def faultFlags (s : State) : State := { s with fault := true, busy := false }

/-- Flags at an abort: `BUSY <- 0`; `DONE` stays 0, `FAULT` unchanged (R272). -/
def abortFlags (s : State) : State := { s with busy := false }

end Sys2Proof.Machine
end

