-- ==== Sys2Proof/Machine/Operands.lean ====
section
/-!
DEFINITION. Operands: the field registers by name and number (spec/10_state.md R22), bit fields and integers of records
(spec/20_memory.md R61, R62, R64; spec/30_encoding.md R113), table lengths, `bitlen` (spec/00_scope.md R11), block kinds (R96).
-/

namespace Sys2Proof.Machine

/-! ### Field registers (R22) -/

/-- The register number (R22). -/
def FieldReg.num : FieldReg → Nat
  | .lsdWidth => 0x20
  | .lsdHeight => 0x21
  | .lsdGcf => 0x22
  | .lsdCres => 0x23
  | .lsdSort => 0x24
  | .lsdGctsz => 0x25
  | .lsdBg => 0x26
  | .lsdAspect => 0x27
  | .gceIntro => 0x30
  | .gceLabel => 0x31
  | .gceBsize => 0x32
  | .gceRsvd => 0x33
  | .gceDisp => 0x34
  | .gceUin => 0x35
  | .gceTcf => 0x36
  | .gceDelay => 0x37
  | .gceTci => 0x38
  | .gceTerm => 0x39
  | .idSep => 0x40
  | .idLeft => 0x41
  | .idTop => 0x42
  | .idWidth => 0x43
  | .idHeight => 0x44
  | .idLctf => 0x45
  | .idIlace => 0x46
  | .idSort => 0x47
  | .idRsvd => 0x48
  | .idLctsz => 0x49
  | .appIntro => 0x50
  | .appLabel => 0x51
  | .appBsize => 0x52
  | .appIdent0 => 0x53
  | .appIdent1 => 0x54
  | .appIdent2 => 0x55
  | .appIdent3 => 0x56
  | .appIdent4 => 0x57
  | .appIdent5 => 0x58
  | .appIdent6 => 0x59
  | .appIdent7 => 0x5A
  | .appAuth0 => 0x5B
  | .appAuth1 => 0x5C
  | .appAuth2 => 0x5D
  | .appSblen => 0x5E
  | .appLoopind => 0x5F
  | .appLoopcnt => 0x60
  | .appTerm => 0x61
  | .comIntro => 0x68
  | .comLabel => 0x69
  | .comSize => 0x6A
  | .comTerm => 0x6B
  | .ctN => 0x70
  | .u16Val => 0x78

/-- The width in bits (R22). -/
def FieldReg.width : FieldReg → Nat
  | .lsdGcf | .lsdSort | .gceUin | .gceTcf | .idLctf | .idIlace | .idSort => 1
  | .idRsvd => 2
  | .lsdCres | .lsdGctsz | .gceRsvd | .gceDisp | .idLctsz => 3
  | .lsdBg | .lsdAspect | .gceIntro | .gceLabel | .gceBsize | .gceTci | .gceTerm | .idSep | .appIntro
  | .appLabel | .appBsize | .appIdent0 | .appIdent1 | .appIdent2 | .appIdent3 | .appIdent4 | .appIdent5
  | .appIdent6 | .appIdent7 | .appAuth0 | .appAuth1 | .appAuth2 | .appSblen | .appLoopind | .appTerm
  | .comIntro | .comLabel | .comSize | .comTerm => 8
  | .ctN => 9
  | .lsdWidth | .lsdHeight | .gceDelay | .idLeft | .idTop | .idWidth | .idHeight | .appLoopcnt | .u16Val
  => 16

/-- The group (R22). -/
def FieldReg.group : FieldReg → Group
  | .lsdWidth | .lsdHeight | .lsdGcf | .lsdCres | .lsdSort | .lsdGctsz | .lsdBg | .lsdAspect => .lsd
  | .gceIntro | .gceLabel | .gceBsize | .gceRsvd | .gceDisp | .gceUin | .gceTcf | .gceDelay | .gceTci
  | .gceTerm => .gce
  | .idSep | .idLeft | .idTop | .idWidth | .idHeight | .idLctf | .idIlace | .idSort | .idRsvd | .idLctsz
  => .id
  | .appIntro | .appLabel | .appBsize | .appIdent0 | .appIdent1 | .appIdent2 | .appIdent3 | .appIdent4
  | .appIdent5 | .appIdent6 | .appIdent7 | .appAuth0 | .appAuth1 | .appAuth2 | .appSblen | .appLoopind
  | .appLoopcnt | .appTerm => .app
  | .comIntro | .comLabel | .comSize | .comTerm => .com
  | .ctN => .ct
  | .u16Val => .u16

/-- All 52 field registers, in the order of their numbers. -/
def FieldReg.all : List FieldReg :=
  [
   .lsdWidth, .lsdHeight, .lsdGcf, .lsdCres, .lsdSort, .lsdGctsz, .lsdBg, .lsdAspect, .gceIntro, .gceLabel,
   .gceBsize, .gceRsvd, .gceDisp, .gceUin, .gceTcf, .gceDelay, .gceTci, .gceTerm, .idSep, .idLeft, .idTop,
   .idWidth, .idHeight, .idLctf, .idIlace, .idSort, .idRsvd, .idLctsz, .appIntro, .appLabel, .appBsize,
   .appIdent0, .appIdent1, .appIdent2, .appIdent3, .appIdent4, .appIdent5, .appIdent6, .appIdent7, .appAuth0,
   .appAuth1, .appAuth2, .appSblen, .appLoopind, .appLoopcnt, .appTerm, .comIntro, .comLabel, .comSize,
   .comTerm, .ctN, .u16Val]

/-- The field register with a given number, if that number is not reserved (R22). -/
def FieldReg.ofNum (n : Nat) : Option FieldReg := FieldReg.all.find? (fun r => r.num == n)

/-- `F[r]`, zero-extended to the host's 32 bits (R13, R21). -/
def Fields.get (f : Fields) : FieldReg → Word
  | .lsdWidth => f.lsdWidth.setWidth 32
  | .lsdHeight => f.lsdHeight.setWidth 32
  | .lsdGcf => f.lsdGcf.setWidth 32
  | .lsdCres => f.lsdCres.setWidth 32
  | .lsdSort => f.lsdSort.setWidth 32
  | .lsdGctsz => f.lsdGctsz.setWidth 32
  | .lsdBg => f.lsdBg.setWidth 32
  | .lsdAspect => f.lsdAspect.setWidth 32
  | .gceIntro => f.gceIntro.setWidth 32
  | .gceLabel => f.gceLabel.setWidth 32
  | .gceBsize => f.gceBsize.setWidth 32
  | .gceRsvd => f.gceRsvd.setWidth 32
  | .gceDisp => f.gceDisp.setWidth 32
  | .gceUin => f.gceUin.setWidth 32
  | .gceTcf => f.gceTcf.setWidth 32
  | .gceDelay => f.gceDelay.setWidth 32
  | .gceTci => f.gceTci.setWidth 32
  | .gceTerm => f.gceTerm.setWidth 32
  | .idSep => f.idSep.setWidth 32
  | .idLeft => f.idLeft.setWidth 32
  | .idTop => f.idTop.setWidth 32
  | .idWidth => f.idWidth.setWidth 32
  | .idHeight => f.idHeight.setWidth 32
  | .idLctf => f.idLctf.setWidth 32
  | .idIlace => f.idIlace.setWidth 32
  | .idSort => f.idSort.setWidth 32
  | .idRsvd => f.idRsvd.setWidth 32
  | .idLctsz => f.idLctsz.setWidth 32
  | .appIntro => f.appIntro.setWidth 32
  | .appLabel => f.appLabel.setWidth 32
  | .appBsize => f.appBsize.setWidth 32
  | .appIdent0 => f.appIdent0.setWidth 32
  | .appIdent1 => f.appIdent1.setWidth 32
  | .appIdent2 => f.appIdent2.setWidth 32
  | .appIdent3 => f.appIdent3.setWidth 32
  | .appIdent4 => f.appIdent4.setWidth 32
  | .appIdent5 => f.appIdent5.setWidth 32
  | .appIdent6 => f.appIdent6.setWidth 32
  | .appIdent7 => f.appIdent7.setWidth 32
  | .appAuth0 => f.appAuth0.setWidth 32
  | .appAuth1 => f.appAuth1.setWidth 32
  | .appAuth2 => f.appAuth2.setWidth 32
  | .appSblen => f.appSblen.setWidth 32
  | .appLoopind => f.appLoopind.setWidth 32
  | .appLoopcnt => f.appLoopcnt.setWidth 32
  | .appTerm => f.appTerm.setWidth 32
  | .comIntro => f.comIntro.setWidth 32
  | .comLabel => f.comLabel.setWidth 32
  | .comSize => f.comSize.setWidth 32
  | .comTerm => f.comTerm.setWidth 32
  | .ctN => f.ctN.setWidth 32
  | .u16Val => f.u16Val.setWidth 32

/-- `F[r] <- v`, keeping the low bits (R22 `trunc_N`). -/
def Fields.set (f : Fields) (v : Word) : FieldReg → Fields
  | .lsdWidth => { f with lsdWidth := v.setWidth 16 }
  | .lsdHeight => { f with lsdHeight := v.setWidth 16 }
  | .lsdGcf => { f with lsdGcf := v.setWidth 1 }
  | .lsdCres => { f with lsdCres := v.setWidth 3 }
  | .lsdSort => { f with lsdSort := v.setWidth 1 }
  | .lsdGctsz => { f with lsdGctsz := v.setWidth 3 }
  | .lsdBg => { f with lsdBg := v.setWidth 8 }
  | .lsdAspect => { f with lsdAspect := v.setWidth 8 }
  | .gceIntro => { f with gceIntro := v.setWidth 8 }
  | .gceLabel => { f with gceLabel := v.setWidth 8 }
  | .gceBsize => { f with gceBsize := v.setWidth 8 }
  | .gceRsvd => { f with gceRsvd := v.setWidth 3 }
  | .gceDisp => { f with gceDisp := v.setWidth 3 }
  | .gceUin => { f with gceUin := v.setWidth 1 }
  | .gceTcf => { f with gceTcf := v.setWidth 1 }
  | .gceDelay => { f with gceDelay := v.setWidth 16 }
  | .gceTci => { f with gceTci := v.setWidth 8 }
  | .gceTerm => { f with gceTerm := v.setWidth 8 }
  | .idSep => { f with idSep := v.setWidth 8 }
  | .idLeft => { f with idLeft := v.setWidth 16 }
  | .idTop => { f with idTop := v.setWidth 16 }
  | .idWidth => { f with idWidth := v.setWidth 16 }
  | .idHeight => { f with idHeight := v.setWidth 16 }
  | .idLctf => { f with idLctf := v.setWidth 1 }
  | .idIlace => { f with idIlace := v.setWidth 1 }
  | .idSort => { f with idSort := v.setWidth 1 }
  | .idRsvd => { f with idRsvd := v.setWidth 2 }
  | .idLctsz => { f with idLctsz := v.setWidth 3 }
  | .appIntro => { f with appIntro := v.setWidth 8 }
  | .appLabel => { f with appLabel := v.setWidth 8 }
  | .appBsize => { f with appBsize := v.setWidth 8 }
  | .appIdent0 => { f with appIdent0 := v.setWidth 8 }
  | .appIdent1 => { f with appIdent1 := v.setWidth 8 }
  | .appIdent2 => { f with appIdent2 := v.setWidth 8 }
  | .appIdent3 => { f with appIdent3 := v.setWidth 8 }
  | .appIdent4 => { f with appIdent4 := v.setWidth 8 }
  | .appIdent5 => { f with appIdent5 := v.setWidth 8 }
  | .appIdent6 => { f with appIdent6 := v.setWidth 8 }
  | .appIdent7 => { f with appIdent7 := v.setWidth 8 }
  | .appAuth0 => { f with appAuth0 := v.setWidth 8 }
  | .appAuth1 => { f with appAuth1 := v.setWidth 8 }
  | .appAuth2 => { f with appAuth2 := v.setWidth 8 }
  | .appSblen => { f with appSblen := v.setWidth 8 }
  | .appLoopind => { f with appLoopind := v.setWidth 8 }
  | .appLoopcnt => { f with appLoopcnt := v.setWidth 16 }
  | .appTerm => { f with appTerm := v.setWidth 8 }
  | .comIntro => { f with comIntro := v.setWidth 8 }
  | .comLabel => { f with comLabel := v.setWidth 8 }
  | .comSize => { f with comSize := v.setWidth 8 }
  | .comTerm => { f with comTerm := v.setWidth 8 }
  | .ctN => { f with ctN := v.setWidth 9 }
  | .u16Val => { f with u16Val := v.setWidth 16 }

/-! ### Operand assembly (R113) -/

/-- The sub-field of `n` bits at bit `lo` of a byte, `(p >> lo) mod 2^n` (R10, R62, R113). -/
def bitsAt (p : Byte) (lo n : Nat) : Word := ((p >>> lo).setWidth n).setWidth 32

/-- A 16-bit field: low byte first, `raw[o] + 256*raw[o+1]` (R61). -/
def u16le (lo hi : Byte) : BitVec 16 := hi ++ lo

/-- The two bytes of a 16-bit field, low byte first (R61, R13 `out16le`). -/
def bytes16 (v : BitVec 16) : List Byte := [v.setWidth 8, (v >>> 8).setWidth 8]

/-- A colour entry from its R, G, B bytes: `R*65536 + G*256 + B` (R64). -/
def colorOf (r g b : Byte) : Color := r ++ g ++ b

/-- The R, G, B bytes of a colour entry (R195). -/
def colorBytes (c : Color) : List Byte := [(c >>> 16).setWidth 8, (c >>> 8).setWidth 8, c.setWidth 8]

/-- A record's byte `i`; the records' lengths are checked before their bytes are used (R172). -/
def rawAt (raw : List Byte) (i : Nat) : Byte := raw.getD i 0

/-- A record's 16-bit field at offset `o` (R61). -/
def rawU16 (raw : List Byte) (o : Nat) : BitVec 16 := u16le (rawAt raw o) (rawAt raw (o + 1))

/-- A colour table's length in bytes from its size field, `3 * 2^(s+1)`: the size field is bits 2:0 of the packed
byte that owns it (R100, R107, R113). -/
def tableLen (packed : Byte) : Nat := 3 * 2 ^ ((packed &&& 7).toNat + 1)

/-- `bitlen(n)`: the number of bits of the shortest binary form, `bitlen(0) = 0` (R11). -/
def bitlen (n : Nat) : Nat := if n = 0 then 0 else Nat.log2 n + 1

/-- The largest of a list of symbols, 0 for the empty list (R113). -/
def maxSymbol (xs : List Symbol) : Nat := xs.foldl (fun m x => max m x.toNat) 0

/-! ### Block kinds (R96) -/

/-- What a value of `BKIND` selects (R96). -/
inductive BlockSel where
  | header | lsd | gct | trailer
  | ext (k : ExtKind)
  | id | lct | idb
deriving DecidableEq, Repr

/-- The block kind a value of `BKIND` selects; 11 to 15 are reserved (R96). -/
def blockSel (bkind : BitVec 4) : Option BlockSel :=
  match bkind.toNat with
  | 0 => some .header
  | 1 => some .lsd
  | 2 => some .gct
  | 3 => some .trailer
  | 4 => some (.ext .gce)
  | 5 => some (.ext .app)
  | 6 => some (.ext .pte)
  | 7 => some (.ext .com)
  | 8 => some .id
  | 9 => some .lct
  | 10 => some .idb
  | _ => none

/-- `FCOUNT`: the number of frames of `DOC`, 0 without a document (R31). -/
def State.fcount (s : State) : Word :=
  match s.doc with
  | some d => Word.ofNat d.frames.length
  | none => 0

end Sys2Proof.Machine
end

