-- ==== Sys2Proof/Machine/Ops.lean ====
section
/-!
DEFINITION. The shared operations: memories (spec/20_memory.md R60, R67, R68), the core's reads of its input, fault entry and
its return (spec/60_exceptions.md R305, R307), the micro-steps a command is made of (spec/45_system_commands.md R274).
-/

namespace Sys2Proof.Machine

/-! ### Memories -/

/-- The value of a cell, if it has one. -/
def Memory.read {α : Type} : Memory α → Nat → Option α
  | [], _ => none
  | (b, w) :: rest, a => if a = b then some w else Memory.read rest a

/-- Write one cell, keeping the indices strictly rising. -/
def Memory.write {α : Type} : Memory α → Nat → α → Memory α
  | [], a, v => [(a, v)]
  | (b, w) :: rest, a, v =>
    if a < b then (a, v) :: (b, w) :: rest
    else if a = b then (a, v) :: rest
    else (b, w) :: Memory.write rest a v

/-- The canonical form: indices strictly rising.  An unlisted cell has no value, so no entry repeats what an unlisted
cell reads as. -/
abbrev Memory.wf {α : Type} (m : Memory α) : Prop := m.Pairwise (fun x y => x.1 < y.1)

/-- Write consecutive cells from an index on. -/
def Memory.fill {α : Type} (m : Memory α) (a : Nat) : List α → Memory α
  | [] => m
  | v :: vs => Memory.fill (Memory.write m a v) (a + 1) vs

/-- Cells `0 .. n-1`, if all have a value. -/
def Memory.upTo {α : Type} (m : Memory α) (n : Nat) : Option (List α) := (List.range n).mapM (Memory.read m)

/-! ### The core's reads of its input.  A cell inside the valid range that nothing has written holds an unspecified
value (R44, log entry 2). -/

/-- `IBUF[a]`. -/
def State.ibufAt (s : State) (a : Nat) : Byte := (Memory.read s.ibuf a).getD (Config.freeByte false s.era a)

/-- `IBUF[0 : ILEN]`, the byte source of a command (R26). -/
def State.input (s : State) : List Byte := (List.range s.ilen.toNat).map s.ibufAt

/-- `SIN[a]`. -/
def State.sinAt (s : State) (a : Nat) : Symbol := (Memory.read s.sin a).getD (Config.freeSymbol s.era a)

/-- `SIN[0 : SILEN]`, the symbol source of `LZW.ENC` (R28). -/
def State.symbols (s : State) : List Symbol := (List.range s.silen.toNat).map s.sinAt

/-- `CTM[k]`. -/
def State.ctmAt (s : State) (k : Nat) : Color := (Memory.read s.ctm k).getD (Config.freeColor s.era k)

/-- `COMB[k]`. -/
def State.combAt (s : State) (k : Nat) : Byte := (Memory.read s.comb k).getD (Config.freeByte true s.era k)

/-- A length register over an input capacity: the `BAD_OPERAND` test of R26 and R28. -/
def overCap (cap : Option Nat) (len : Word) : Bool := cap.any (fun c => c < len.toNat)

/-- An output space that takes no further cell: its size is reached (R303), or its 32-bit length register can count no
further (log entry 5). -/
def outFull (cap : Option Nat) (len : Word) : Bool :=
  cap.any (fun c => c ≤ len.toNat) || decide (len = BitVec.allOnes 32)

/-! ### Fault entry and return (R305, R307) -/

/-- The number a fault code has in `FCAUSE` (R291). -/
def FaultCode.byte : FaultCode → Byte
  | .fmtTruncated => 0x10
  | .fmtRemainder => 0x11
  | .fmtTrailerValue => 0x12
  | .decDesync => 0x18
  | .decTruncated => 0x19
  | .decBadMcs => 0x1A
  | .decTableFull => 0x1B
  | .idxFrame => 0x20
  | .badCommand => 0x40
  | .badOperand => 0x41
  | .capacity => 0x42
  | .noDocument => 0x43
  | .fldLength => 0x44
  | .encSymbolRange => 0x45
  | .encMcsRange => 0x46
  | .setInvalid => 0x47

/-- `raise Fault(code, info)` (R305): record, set `FAULT`, clear `BUSY`; the command ends and its working state is dropped
(R331).  Nothing is saved and control goes nowhere. -/
def raiseFault (code : FaultCode) (info : Word) (s : State) : State :=
  { faultFlags s with fcause := code.byte, finfo := info, work := .idle, todo := [] }

/-- The only return from a fault but reset: `FAULT <- 0 ; FCAUSE <- 0 ; FINFO <- 0`, each a micro-step (R271, R274, R307). -/
def clearFaultMicros : List Micro := [.clearFault, .clearCause, .clearInfo]

/-- Completion (R274); the working state is dropped (R42). -/
def complete (np : Bool) (s : State) : State := { completeFlags np s with work := .idle, todo := [] }

/-- `abort()` (R272): the running command stops before its next micro-step; its working state is dropped. -/
def abortRunning (s : State) : State := { abortFlags s with work := .idle, todo := [] }

/-- `reset()` (R273, R330): every element at its value of R45.  The capacities are parameters; the host program goes on; the
cells are unspecified anew (log entries 1, 2, 4). -/
def resetCore (s : State) : State :=
  { State.reset with caps := s.caps, era := s.era + 1, host := s.host, grant := s.grant }

/-! ### Micro-steps -/

/-- `out(b)` (R13, R303): the cell, then the length. -/
def outByte (b : Byte) (s : State) : State :=
  if outFull s.caps.obuf s.olen then raiseFault .capacity s.olen s
  else { s with obuf := Memory.write s.obuf s.olen.toNat b, olen := s.olen + 1 }

/-- `outs(x)` (R13, R303). -/
def outSymbol (x : Symbol) (s : State) : State :=
  if outFull s.caps.sout s.solen then raiseFault .capacity s.solen s
  else { s with sout := Memory.write s.sout s.solen.toNat x, solen := s.solen + 1 }

/-- What a micro-step does.  When a length register goes to 0 the cells above it are unspecified from then on (R342, R44). -/
def Micro.apply : Micro → State → State
  | .out b, s => outByte b s
  | .outs x, s => outSymbol x s
  | .olen0, s => { s with olen := 0, obuf := [] }
  | .solen0, s => { s with solen := 0, sout := [] }
  | .ipos p, s => { s with ipos := p }
  | .mcs m, s => { s with mcs := m }
  | .clearFault, s => { s with fault := false }
  | .clearCause, s => { s with fcause := 0 }
  | .clearInfo, s => { s with finfo := 0 }
  | .dropDoc, s => { s with doc := none, ipos := 0 }
  | .doc d, s => { s with doc := some d }
  | .field r v, s => { s with fld := s.fld.set v r }
  | .ctm k c, s => { s with ctm := Memory.write s.ctm k c }
  | .comb k b, s => { s with comb := Memory.write s.comb k b }
  | .work w, s => { s with work := w }
  | .raise code info, s => raiseFault code info s
  | .finish np, s => complete np s

/-- A list of micro-steps in order; a fault ends it ("no later micro-step of it happens", R305). -/
def runMicros : List Micro → State → State
  | [], s => s
  | m :: ms, s => if (m.apply s).busy then runMicros ms (m.apply s) else m.apply s

/-- What happens together with the transition before it and not as a micro-step of its own: a change of the hidden working state (R40);
the bare completion, which comes on the command's last micro-step (R224, R272, R274); and the loss of the old document, which comes with the
start of `SEQ.PARSE` (R144, R272).  `NP <- 1` is a register write (R148; log entry 4). -/
def Micro.joins : Micro → Bool
  | .work _ => true
  | .finish np => !np
  | .dropDoc => true
  | .out _ | .outs _ | .olen0 | .solen0 | .ipos _ | .mcs _ | .clearFault | .clearCause | .clearInfo | .doc _ | .field _ _
  | .ctm _ _ | .comb _ _ | .raise _ _ => false

/-- Do a piece of the running command whose micro-steps are determined: at once when the host waits for `BUSY = 0`, and one
core step each when it interleaves (R274; log entry 4). -/
def issue (ms : List Micro) (s : State) : State :=
  match s.grant with
  | none => runMicros ms s
  | some _ => { s with todo := ms }

/-- The micro-steps of appending bytes to `OBUF`. -/
def outAll (bs : List Byte) : List Micro := bs.map .out

/-- The micro-steps of appending symbols to `SOUT`. -/
def outsAll (xs : List Symbol) : List Micro := xs.map .outs

end Sys2Proof.Machine
end

