-- ==== Sys2Proof/Machine/Blocks.lean ====
section
/-!
DEFINITION. The items of the container byte stream: what each consumes and what becomes of it inside a frame attempt of
`SEQ.PARSE` (spec/40_block_parser.md R133 to R143, R151 to R153), and the meanings of the BLK rows of the opcode table.
-/

namespace Sys2Proof.Machine

/-! ### The cursor inside one block -/

/-- The input cursor while one block is cut: its position, the bytes after it, and the positions it took, oldest first (each
`take` is a micro-step, R274). -/
structure Cut where
  pos : Nat
  rest : List Byte
  cuts : List Nat
deriving DecidableEq, Repr

/-- The cursor where the state's `IPOS` stands: "remaining byte slice + position" (R30). -/
def cutHere (s : State) : Cut := ⟨s.ipos.toNat, s.input.drop s.ipos.toNat, []⟩

/-- `take(n)` (R13): exhaustion leaves the cursor where it is. -/
def Cut.take (n : Nat) (c : Cut) : Except Cut (List Byte × Cut) :=
  if n ≤ c.rest.length then
    .ok (c.rest.take n, ⟨c.pos + n, c.rest.drop n, c.cuts ++ [c.pos + n]⟩)
  else .error c

/-- Walk a sub-block chain (R109, R151) over the bytes from position `pos`, `skip` payload bytes of the current sub-block still
to come: the cursor positions after each `take` that succeeds, and whether the zero terminator was reached. -/
def chainWalk : Nat → Nat → List Byte → List Nat × Bool
  | _, _, [] => ([], false)
  | 0, pos, b :: rest =>
    if b = 0 then ([pos + 1], true)
    else
      let r := chainWalk b.toNat (pos + 1) rest
      ((pos + 1) :: r.1, r.2)
  | k + 1, pos, _ :: rest =>
    let r := chainWalk k (pos + 1) rest
    if k = 0 then ((pos + 1) :: r.1, r.2) else r

/-- `chain()` (R151). -/
def Cut.chain (c : Cut) : Except Cut Cut :=
  let r := chainWalk 0 c.pos c.rest
  let pos := r.1.getLastD c.pos
  let c' : Cut := ⟨pos, c.rest.drop (pos - c.pos), c.cuts ++ r.1⟩
  if r.2 then .ok c' else .error c'

/-- The bytes between two cursor positions of one block. -/
def Cut.since (start now : Cut) : List Byte := start.rest.take (now.pos - start.pos)

/-- Cut one extension block, its selecting bytes included (R135, R136, R137, R138). -/
def cutExt (k : ExtKind) (c : Cut) : Except Cut Cut :=
  match k with
  | .gce => do
    let r ← c.take Config.gceLen
    pure r.2
  | .app => do
    let r ← c.take Config.appLen
    pure r.2
  | .pte => do
    let hdr ← c.take 2
    let len ← hdr.2.take 1
    let body ← len.2.take (rawAt len.1 0).toNat
    body.2.chain
  | .com => do
    let hdr ← c.take 2
    hdr.2.chain

/-- What `cutImg` cuts: ImageDescriptor, LocalColorTable, ImageDataBlock, and the cursor after them. -/
structure ImgCut where
  id : List Byte
  lct : List Byte
  idb : List Byte
  cur : Cut
deriving DecidableEq, Repr

/-- Cut the ImageDescriptor, the LocalColorTable if flagged and the ImageDataBlock (R139, R140). -/
def cutImg (c : Cut) : Except Cut ImgCut := do
  let id ← c.take Config.idLen
  if rawAt id.1 0 ≠ Config.imgSep then .error id.2
  else
    let lct ← (if (rawAt id.1 9).getLsbD 7 then id.2.take (tableLen (rawAt id.1 9)) else .ok ([], id.2))
    let m ← lct.2.take 1
    let c' ← m.2.chain
    pure ⟨id.1, lct.1, lct.2.since c', c'⟩

/-! ### The micro-steps of a frame attempt -/

/-- The cursor's moves. -/
def cursorMoves (c : Cut) : List Micro := c.cuts.map (fun p => Micro.ipos (Word.ofNat p))

/-- Bytes of all blocks of a document (R130, R303). -/
def Doc.size (d : Doc) : Nat :=
  d.header.length + d.lsd.length + d.gct.length
    + (d.frames.map (fun f => (f.exts.map (fun e => e.2.length)).sum + f.id.length + f.lct.length + f.idb.length)).sum
    + d.trailer.length

/-- The document would not fit the block store (R145, R149). -/
def overStore (caps : Caps) (d : Doc) : Bool := caps.bstore.any (fun c => c < d.size)

/-- The document of a parse that ends with the given trailer. -/
def ParseWork.toDoc (w : ParseWork) (trailer : List Byte) : Doc := ⟨w.header, w.lsd, w.gct, w.frames, trailer⟩

/-- A decode error of the frame attempt (R141): the cursor returns to where the attempt began, the frame loop ends, and exactly
the trailer must be left (R142); then completion (R143). -/
def endOfFrames (w : ParseWork) (s : State) : List Micro :=
  .ipos (Word.ofNat w.start) ::
    (if s.ilen.toNat - w.start ≠ 1 then [.raise .fmtRemainder (Word.ofNat w.start)]
    else if s.ibufAt w.start ≠ Config.trailerByte then [.raise .fmtTrailerValue (Word.ofNat w.start)]
    else
      .ipos (Word.ofNat (w.start + 1)) ::
        (if overStore s.caps (w.toDoc [s.ibufAt w.start]) then [.raise .capacity 0]
        else [.doc (w.toDoc [s.ibufAt w.start]), .finish false]))

/-- An extension of kind `k` at the cursor: a decode error if the attempt already has one (R152) or the input ends; else it joins
the attempt's extensions in the order met (R134). -/
def extMicros (k : ExtKind) (w : ParseWork) (s : State) : List Micro :=
  if w.exts.any (fun e => e.1 == k) then endOfFrames w s
  else
    match cutExt k (cutHere s) with
    | .error c => cursorMoves c ++ endOfFrames w s
    | .ok c => cursorMoves c ++ [.work (.parse { w with exts := w.exts ++ [(k, (cutHere s).since c)] })]

/-- `FRAMES_MAX` frames are already there (R145). -/
def framesFull (caps : Caps) (w : ParseWork) : Bool := caps.frames.any (fun c => c ≤ w.frames.length)

/-- The image at the cursor: the attempt succeeds and its frame joins the document's (R133, R134), or `CAPACITY` (R145), or a
decode error. -/
def imgMicros (w : ParseWork) (s : State) : List Micro :=
  match cutImg (cutHere s) with
  | .error c => cursorMoves c ++ endOfFrames w s
  | .ok r =>
    cursorMoves r.cur ++
      (if framesFull s.caps w then [.raise .capacity (Word.ofNat w.start)]
      else [.work (.parse { w with
        frames := w.frames ++ [⟨w.exts, r.id, r.lct, r.idb⟩], start := r.cur.pos, exts := [] })])

/-- A byte that is no separator where the descriptor should be, the trailer among them: the 10 bytes are taken if they are there,
then the attempt yields "absent image separator" (R134, R139, R141). -/
def noSeparatorMicros (w : ParseWork) (s : State) : List Micro :=
  match (cutHere s).take Config.idLen with
  | .error _ => endOfFrames w s
  | .ok r => cursorMoves r.2 ++ endOfFrames w s

/-- The micro-steps of a block item at the cursor of a frame attempt (R134).  The commands are no items of the stream: `decodeBlk` never
answers one. -/
def blkMicros : Instr → ParseWork → State → List Micro
  | .extGce => extMicros .gce
  | .extApp => extMicros .app
  | .extPte => extMicros .pte
  | .extCom => extMicros .com
  | .img => imgMicros
  | .trailer
  | .sysNop | .sysClrfault | .sysAbort | .sysReset
  | .seqParse | .seqSerialize | .seqGetblk | .seqSetblk
  | .fldUnpackLsd | .fldPackLsd | .fldUnpackGce | .fldPackGce
  | .fldUnpackId | .fldPackId | .fldUnpackApp | .fldPackApp
  | .fldUnpackCom | .fldPackCom | .fldUnpackCt | .fldPackCt
  | .fldUnpackU16 | .fldPackU16 | .lzwEnc | .lzwDec
  | .lzwCode _ _ => noSeparatorMicros

/-- The micro-steps at the cursor of a frame attempt, by what the decoder reads there (R134).  A missing or unknown label ends the
attempt with no `take` (R134, R153); any other byte that begins no block is taken for a descriptor (R139). -/
def attemptMicros (w : ParseWork) (s : State) : List Micro :=
  match decodeBlk (cutHere s).rest with
  | .ok i => blkMicros i w s
  | .error .missingLabel => endOfFrames w s
  | .error (.unknownLabel _) => endOfFrames w s
  | .error (.reservedOpcode _) => noSeparatorMicros w s
  | .error .exhausted => noSeparatorMicros w s
  | .error (.absentSeparator _) => noSeparatorMicros w s
  | .error .shortCode => noSeparatorMicros w s
  | .error (.badWidth _) => noSeparatorMicros w s

/-! ### The meanings of the BLK rows -/

/-- The frame attempt that waits for its next block, if one does: `SEQ.PARSE` runs, inside its frame loop, and no micro-step of an
earlier block is left. -/
def State.attempt (s : State) : Option ParseWork :=
  if s.busy && s.todo.isEmpty then
    match s.work with
    | .parse w => some w
    | .idle => none
    | .enc _ => none
    | .dec _ => none
  else none

/-- A block item runs in the frame attempt that waits for it; anywhere else its bytes are data. -/
def inAttempt (ms : ParseWork → State → List Micro) (s : State) : Host.Outcome State Fault Refusal :=
  match s.attempt with
  | some w => .next (issue (ms w s) s)
  | none => .refused .notInFrameAttempt

/-- `EXT.GCE` (R135). -/
def execExtGce (s : State) : Host.Outcome State Fault Refusal := inAttempt (extMicros .gce) s

/-- `EXT.APP` (R136). -/
def execExtApp (s : State) : Host.Outcome State Fault Refusal := inAttempt (extMicros .app) s

/-- `EXT.PTE` (R137). -/
def execExtPte (s : State) : Host.Outcome State Fault Refusal := inAttempt (extMicros .pte) s

/-- `EXT.COM` (R138). -/
def execExtCom (s : State) : Host.Outcome State Fault Refusal := inAttempt (extMicros .com) s

/-- `IMG` (R139, R140). -/
def execImg (s : State) : Host.Outcome State Fault Refusal := inAttempt imgMicros s

/-- `TRAILER` (R141, R142, R143): it is no separator, so the attempt and with it the frame loop end. -/
def execTrailer (s : State) : Host.Outcome State Fault Refusal := inAttempt noSeparatorMicros s

end Sys2Proof.Machine
end

