-- ==== Sys2Proof/Machine/LzwTable.lean ====
section
/-!
DEFINITION. What the two halves of the LZW codec share: the reserved codes and the initial dictionary (spec/43_lzw_encoder.md R212,
spec/44_lzw_decoder.md R242).
-/

namespace Sys2Proof.Machine

/-- The Clear code `2^mcs` (R113, R212). -/
def clearCode (mcs : Nat) : Nat := 2 ^ mcs

/-- The End-of-Information code `2^mcs + 1` (R113, R212). -/
def eoiCode (mcs : Nat) : Nat := 2 ^ mcs + 1

/-- The initial dictionary in code order: `(i,)` for `i` in `0 .. eoi` (R212, R242). -/
def initDict (mcs : Nat) : List (List Symbol) := (List.range (eoiCode mcs + 1)).map (fun i => [BitVec.ofNat 16 i])

end Sys2Proof.Machine
end

