-- ==== Sys2Proof/Machine/LzwDecoder.lean ====
section
/-!
DEFINITION. The LZW decoder over its working state (spec/44_lzw_decoder.md R241 to R256) and the meaning of the LZW row of the opcode
table, one code of the code stream (spec/30_encoding.md R115).
-/

namespace Sys2Proof.Machine

/-- The state a Clear code leaves, which is also the initial one (R242, R247). -/
def DecWork.cleared (w : DecWork) : DecWork := { w with dict := initDict w.mcs, width := w.mcs + 1, prev := none }

/-- The initial state (R242). -/
def DecWork.init (mcs : Nat) : DecWork :=
  { mcs := mcs, width := mcs + 1, dict := initDict mcs, prev := none, acc := 0, nb := 0, rem := 0, ended := false }

/-- The part of `LZW.DEC` before its code loop (R241). -/
def decPrelude (s : State) : List Micro :=
  if overCap s.caps.ibuf s.ilen then [.raise .badOperand s.ilen]
  else
    .ipos 0 :: .solen0 ::
      (if s.ilen = 0 then [.raise .decTruncated 0]
      else
        .ipos 1 ::
          (if (s.ibufAt 0).toNat < Config.mcsMin ∨ Config.mcsMax < (s.ibufAt 0).toNat then
            [.raise .decBadMcs ((s.ibufAt 0).setWidth 32)]
          else
            [.mcs ((s.ibufAt 0).setWidth 4), .work (.dec (DecWork.init (s.ibufAt 0).toNat))]))

/-- One byte access of the deframer `next_byte()` (R243) on behalf of the bit unpacker (R244): a length byte when the current
sub-block is used up, else a payload byte into the accumulator.  Exhaustion is `DEC_TRUNCATED` (R245). -/
def pullMicros (w : DecWork) (s : State) : List Micro :=
  if w.ended then [.raise .decTruncated s.ipos]
  else if s.ilen ≤ s.ipos then [.raise .decTruncated s.ipos]
  else if w.rem = 0 then
    if s.ibufAt s.ipos.toNat = 0 then
      [.ipos (s.ipos + 1), .work (.dec { w with ended := true }), .raise .decTruncated (s.ipos + 1)]
    else [.ipos (s.ipos + 1), .work (.dec { w with rem := (s.ibufAt s.ipos.toNat).toNat })]
  else
    [.ipos (s.ipos + 1),
      .work (.dec { w with
        acc := w.acc ||| ((s.ibufAt s.ipos.toNat).toNat <<< w.nb), nb := w.nb + 8, rem := w.rem - 1 })]

/-- The code leaves the accumulator: `acc <- acc >> width ; nb <- nb - width` (R244). -/
def DecWork.shift (w : DecWork) : DecWork := { w with acc := w.acc >>> w.width, nb := w.nb - w.width }

/-- Width growth (R251). -/
def DecWork.grow (w : DecWork) : DecWork :=
  if w.dict.length = 2 ^ w.width ∧ w.width < Config.wMax then { w with width := w.width + 1 } else w

/-- What a code does (R254, R246 to R253), the code's bits already taken. -/
def codeMicros (w : DecWork) (c : Nat) : List Micro :=
  if c = eoiCode w.mcs then [.finish false]
  else if c = clearCode w.mcs then [.work (.dec w.cleared)]
  else
    match w.prev with
    | none =>
      if eoiCode w.mcs < c then [.raise .decDesync (Word.ofNat c)]
      else [.outs (BitVec.ofNat 16 c), .work (.dec { w with prev := some [BitVec.ofNat 16 c] })]
    | some prev =>
      if w.dict.length = Config.dictMax then [.raise .decTableFull (Word.ofNat c)]
      else if w.dict.length < c then [.raise .decDesync (Word.ofNat c)]
      else
        let cur := if c < w.dict.length then w.dict.getD c [] else prev ++ prev.take 1
        let entry := if c < w.dict.length then prev ++ cur.take 1 else cur
        outsAll cur ++ [.work (.dec (DecWork.grow { w with dict := w.dict ++ [entry], prev := some cur }))]

/-- The decoder that has a code of the given width buffered, if `LZW.DEC` runs, is in its code loop and no micro-step of an earlier
code is left. -/
def State.codeReady (s : State) (width : Nat) : Option DecWork :=
  if s.busy && s.todo.isEmpty then
    match s.work with
    | .dec w => if w.width = width ∧ width ≤ w.nb then some w else none
    | .idle => none
    | .parse _ => none
    | .enc _ => none
  else none

/-- `LZW.CODE` (R254, R115): the code leaves the accumulator and is handled by its class. -/
def execLzwCode (width : Nat) (code : BitVec 12) (s : State) : Host.Outcome State Fault Refusal :=
  match s.codeReady width with
  | some w => .next (issue (codeMicros w.shift code.toNat) s)
  | none => .refused .noCodeBuffered

/-- The next micro-steps of a running `LZW.DEC` (R254): a byte if too few bits are buffered, else a code. -/
def decMicros (w : DecWork) (s : State) : List Micro :=
  if w.nb < w.width then pullMicros w s else codeMicros w.shift (w.acc % 2 ^ w.width)

end Sys2Proof.Machine
end

