-- ==== Sys2Proof/Machine/LzwEncoder.lean ====
section
/-!
DEFINITION. The LZW encoder over its working state (spec/43_lzw_encoder.md R211 to R223).  Each step answers the new working state
and the bytes it appends to `OBUF`.
-/

namespace Sys2Proof.Machine

/-- `put_byte(b)` (R221): greedy sub-blocks of 255 bytes. -/
def EncWork.putByte (w : EncWork) (b : Byte) : EncWork × List Byte :=
  if (w.sb ++ [b]).length = Config.sbMax then ({ w with sb := [] }, 255 :: (w.sb ++ [b]))
  else ({ w with sb := w.sb ++ [b] }, [])

/-- Drain `k` full bytes of the accumulator (R214). -/
def EncWork.drain : Nat → EncWork → EncWork × List Byte
  | 0, w => (w, [])
  | k + 1, w =>
    let p := EncWork.putByte { w with acc := w.acc >>> 8, nb := w.nb - 8 } (BitVec.ofNat 8 w.acc)
    let q := EncWork.drain k p.1
    (q.1, p.2 ++ q.2)

/-- `emit_code(c)` (R214): least significant bit first, at the current width. -/
def EncWork.emit (w : EncWork) (c : Nat) : EncWork × List Byte :=
  EncWork.drain ((w.nb + w.width) / 8) { w with acc := w.acc ||| (c <<< w.nb), nb := w.nb + w.width }

/-- `finish_frame()` (R222). -/
def EncWork.finishFrame (w : EncWork) : EncWork × List Byte :=
  let p := if 0 < w.nb then EncWork.putByte { w with acc := 0, nb := 0 } (BitVec.ofNat 8 w.acc) else (w, [])
  let q := if 0 < p.1.sb.length then BitVec.ofNat 8 p.1.sb.length :: p.1.sb else []
  ({ p.1 with sb := [] }, p.2 ++ q ++ [0])

/-- `grow()` (R216). -/
def EncWork.grow (w : EncWork) : EncWork :=
  if 2 ^ w.width < w.dict.length ∧ w.width < Config.wMax then { w with width := w.width + 1 } else w

/-- `reset_if_full()` (R217): the Clear code at the width before the reset. -/
def EncWork.resetIfFull (w : EncWork) : EncWork × List Byte :=
  if w.dict.length = Config.dictMax then
    let p := w.emit (clearCode w.mcs)
    ({ p.1 with dict := initDict w.mcs, width := w.mcs + 1 }, p.2)
  else (w, [])

/-- The state before the stream starts (R212). -/
def EncWork.init (mcs : Nat) : EncWork :=
  { mcs := mcs, width := mcs + 1, dict := initDict mcs, pre := [], acc := 0, nb := 0, sb := [], next := 0 }

/-- Stream start (R213): the `mcs` byte straight to `OBUF`, then the Clear code. -/
def encStart (mcs : Nat) : EncWork × List Byte :=
  let p := (EncWork.init mcs).emit (clearCode mcs)
  (p.1, BitVec.ofNat 8 mcs :: p.2)

/-- The symbol step (R215, R216, R217). -/
def EncWork.symbol (w : EncWork) (x : Symbol) : EncWork × List Byte :=
  if w.pre ++ [x] ∈ w.dict then ({ w with pre := w.pre ++ [x], next := w.next + 1 }, [])
  else
    let p := w.emit (w.dict.idxOf w.pre)
    let q := EncWork.resetIfFull
      (EncWork.grow { p.1 with dict := p.1.dict ++ [w.pre ++ [x]], pre := [x], next := w.next + 1 })
    (q.1, p.2 ++ q.2)

/-- The final code (R218) and the width check before the End-of-Information code (R219). -/
def EncWork.lastCode (w : EncWork) : EncWork × List Byte :=
  if w.pre = [] then (w, [])
  else
    let p := w.emit (w.dict.idxOf w.pre)
    (if 2 ^ p.1.width < p.1.dict.length + 1 ∧ p.1.width < Config.wMax then { p.1 with width := p.1.width + 1 } else p.1,
      p.2)

/-- Stream end (R218, R219, R220, R222). -/
def EncWork.close (w : EncWork) : List Byte :=
  let p := w.lastCode
  let q := p.1.emit (eoiCode w.mcs)
  p.2 ++ q.2 ++ q.1.finishFrame.2

/-- The minimum code size before the clamp (R211). -/
def encRawMcs (ctcnt : Nat) (xs : List Symbol) : Nat := if 0 < ctcnt then bitlen (ctcnt - 1) else bitlen (maxSymbol xs)

/-- `mcs = max(2, m)` (R211). -/
def encMcs (ctcnt : Nat) (xs : List Symbol) : Nat := max Config.mcsMin (encRawMcs ctcnt xs)

/-- The first symbol out of range, `S[j] >= 2^mcs` (R211). -/
def firstBadSymbol (mcs : Nat) (xs : List Symbol) : Option Nat := xs.findIdx? (fun x => decide (2 ^ mcs ≤ x.toNat))

/-- The checks of `LZW.ENC` and the start of the stream, in the order of R211, R213 and R227. -/
def encPrelude (s : State) : List Micro :=
  if overCap s.caps.sin s.silen then [.raise .badOperand s.silen]
  else if Config.ctMax < s.ctcnt.toNat then [.raise .badOperand (s.ctcnt.setWidth 32)]
  else if Config.mcsMax < encRawMcs s.ctcnt.toNat s.symbols then
    [.raise .encMcsRange (Word.ofNat (encRawMcs s.ctcnt.toNat s.symbols))]
  else
    .mcs (BitVec.ofNat 4 (encMcs s.ctcnt.toNat s.symbols)) ::
      (match firstBadSymbol (encMcs s.ctcnt.toNat s.symbols) s.symbols with
      | some j => [.raise .encSymbolRange (Word.ofNat j)]
      | none =>
        .olen0 :: (outAll (encStart (encMcs s.ctcnt.toNat s.symbols)).2
          ++ [.work (.enc (encStart (encMcs s.ctcnt.toNat s.symbols)).1)]))

/-- The next micro-steps of a running `LZW.ENC` (R223): one symbol, or the end of the stream. -/
def encMicros (w : EncWork) (s : State) : List Micro :=
  if w.next < s.silen.toNat then
    outAll (w.symbol (s.sinAt w.next)).2 ++ [.work (.enc (w.symbol (s.sinAt w.next)).1)]
  else outAll w.close ++ [.finish false]

end Sys2Proof.Machine
end

