-- ==== Sys2Proof/Machine/Engine.lean ====
section
/-!
DEFINITION. The life of a command (spec/45_system_commands.md R274): how the running command goes on, how it runs to its end, and the
shared start of every command.
-/

namespace Sys2Proof.Machine

/-- One step of the running command: its next determined micro-step; or, when none is left, the next block, symbol, byte or code of
its loop (R274, R133, R223, R254). -/
def coreTick (s : State) : State :=
  match s.todo with
  | m :: ms => m.apply { s with todo := ms }
  | [] =>
    match s.work with
    | .idle => complete false s
    | .parse w => issue (attemptMicros w s) s
    | .enc w => issue (encMicros w s) s
    | .dec w => issue (decMicros w s) s

/-- The core goes on while `BUSY = 1`, at most `n` steps. -/
def settle : Nat → State → State
  | 0, s => s
  | n + 1, s => if s.busy then settle n (coreTick s) else s

/-- Enough steps for any command to end: its loops are bounded by `ILEN` and `SILEN` (R274).  A block takes a byte or more, a code
three bits or more. -/
def stepBound (s : State) : Nat := 4 * s.ilen.toNat + s.silen.toNat + 8

/-- Nothing but joined transitions comes next: no host action can land before it. -/
def State.quiet (s : State) : Bool :=
  s.busy &&
    match s.todo with
    | m :: _ => m.joins
    | [] => true

/-- The joined transitions that come next, at most `n`. -/
def catchUp : Nat → State → State
  | 0, s => s
  | n + 1, s => if s.quiet then catchUp n (coreTick s) else s

/-- A command that has no micro-step left has ended: "on reaching the end: BUSY <- 0 ; DONE <- 1" (R274), "on the last `out(0)` the
command completes" (R224), "completes at once" (R253).  Looked for only where the host interleaves.  32 transitions are enough: at most 19 bits are
buffered (R40) and a code takes three of them or more. -/
def endIfDone (s : State) : State :=
  match s.grant with
  | none => s
  | some _ => if (catchUp 32 s).busy then s else catchUp 32 s

/-- The same after a step of the core. -/
def endIfDoneAfter : Host.Outcome State Fault Refusal → Host.Outcome State Fault Refusal
  | .next s => .next (endIfDone s)
  | .fault r => .fault r
  | .refused r => .refused r

/-- A paced command starts with its micro-steps still to come; the old document is gone with the start of `SEQ.PARSE` (R144, R272). -/
def beginPaced (ms : List Micro) (s : State) : State :=
  if ms.head? = some .dropDoc then { Micro.dropDoc.apply s with todo := ms.tail } else { s with todo := ms }

/-- Run the command whose first micro-steps are `ms`: to its end when the host waits for `BUSY = 0` ("A model that runs each command as
one atomic transition is exact for every host that only polls `BUSY`", R274), else leave it to the steps that follow. -/
def launch (ms : List Micro) (s : State) : State :=
  match s.grant with
  | none => settle (stepBound s) (runMicros ms s)
  | some _ => endIfDone (beginPaced ms s)

/-- Command start (R274): `DONE <- 0 ; NP <- 0 ; BUSY <- 1`, with no working state of an earlier command (R42). -/
def commandStart (s : State) : State := { startFlags s with work := .idle, todo := [] }

/-- The command starts whatever `FAULT` says. -/
def startCommand (micros : State → List Micro) (s : State) : State :=
  launch (micros (commandStart s)) (commandStart s)

/-- A host write of opcode `op` to `CMD` for a command other than `SYS.CLRFAULT`, `SYS.ABORT` and `SYS.RESET` (R274): `CMD` reads back the
opcode; while `BUSY = 1` or `FAULT = 1` nothing else happens (R306, R341); else the command runs. -/
def command (op : Byte) (micros : State → List Micro) (s : State) : State :=
  if s.busy || s.fault then { s with cmd := op } else startCommand micros { s with cmd := op }

/-- A reserved opcode (R95, R300): it starts as a command and raises `BAD_COMMAND`. -/
def reservedCommand (op : Byte) (s : State) : State :=
  command op (fun _ => [.raise .badCommand (op.setWidth 32)]) s

end Sys2Proof.Machine
end

