-- ==== Sys2Proof/Machine/FieldCodec.lean ====
section
/-!
DEFINITION. The FLD commands (spec/42_field_codec.md R170 to R201).  Unpack reads `IBUF[0 : ILEN]` and writes every register of the
record's group and no other; pack reads them and writes `OBUF`.  No value is checked (R173).
-/

namespace Sys2Proof.Machine

/-! ### Common part -/

/-- An unpack (R170, R172): the operand check, `ipos <- 0`, the length check, the register writes, `ipos <- ILEN`. -/
def unpackMicros (lengthOk : List Byte → Bool) (writes : List Byte → List Micro) (s : State) : List Micro :=
  if overCap s.caps.ibuf s.ilen then [.raise .badOperand s.ilen]
  else
    .ipos 0 ::
      (if lengthOk s.input then writes s.input ++ [.ipos s.ilen, .finish false]
      else [.raise .fldLength s.ilen])

/-- An unpack of a record of fixed length (R172). -/
def unpackFixed (len : Nat) (writes : List Byte → List Micro) : State → List Micro :=
  unpackMicros (fun raw => raw.length == len) writes

/-- A pack (R170): `OLEN <- 0`, then the record's bytes. -/
def packMicros (bytes : List Byte) : List Micro := .olen0 :: (outAll bytes ++ [.finish false])

/-- A byte written to an 8-bit register. -/
def setByte (r : FieldReg) (b : Byte) : Micro := .field r (b.setWidth 32)

/-- A 16-bit field written to its register. -/
def setU16 (r : FieldReg) (v : BitVec 16) : Micro := .field r (v.setWidth 32)

/-! ### LogicalScreenDescriptor -/

/-- The writes of R174. -/
def lsdWrites (raw : List Byte) : List Micro :=
  [setU16 .lsdWidth (rawU16 raw 0), setU16 .lsdHeight (rawU16 raw 2),
    .field .lsdGcf (bitsAt (rawAt raw 4) 7 1), .field .lsdCres (bitsAt (rawAt raw 4) 4 3),
    .field .lsdSort (bitsAt (rawAt raw 4) 3 1), .field .lsdGctsz (bitsAt (rawAt raw 4) 0 3),
    setByte .lsdBg (rawAt raw 5), setByte .lsdAspect (rawAt raw 6)]

/-- The packed byte of R175: "bit-shifting and OR-combining" (R200). -/
def lsdPacked (f : Fields) : Byte :=
  (f.lsdGcf.setWidth 8 <<< 7) ||| (f.lsdCres.setWidth 8 <<< 4) ||| (f.lsdSort.setWidth 8 <<< 3) ||| f.lsdGctsz.setWidth 8

/-- The record of R175. -/
def lsdBytes (f : Fields) : List Byte :=
  bytes16 f.lsdWidth ++ bytes16 f.lsdHeight ++ [lsdPacked f, f.lsdBg, f.lsdAspect]

/-- `FLD.UNPACK_LSD` (R174). -/
def execFldUnpackLsd (s : State) : Host.Outcome State Fault Refusal :=
  .next (command 0x20 (unpackFixed Config.lsdLen lsdWrites) s)

/-- `FLD.PACK_LSD` (R175). -/
def execFldPackLsd (s : State) : Host.Outcome State Fault Refusal :=
  .next (command 0x21 (fun s => packMicros (lsdBytes s.fld)) s)

/-! ### GraphicsControlExtension -/

/-- The writes of R178. -/
def gceWrites (raw : List Byte) : List Micro :=
  [setByte .gceIntro (rawAt raw 0), setByte .gceLabel (rawAt raw 1), setByte .gceBsize (rawAt raw 2),
    .field .gceRsvd (bitsAt (rawAt raw 3) 5 3), .field .gceDisp (bitsAt (rawAt raw 3) 2 3),
    .field .gceUin (bitsAt (rawAt raw 3) 1 1), .field .gceTcf (bitsAt (rawAt raw 3) 0 1),
    setU16 .gceDelay (rawU16 raw 4), setByte .gceTci (rawAt raw 6), setByte .gceTerm (rawAt raw 7)]

/-- The packed byte of R179. -/
def gcePacked (f : Fields) : Byte :=
  (f.gceRsvd.setWidth 8 <<< 5) ||| (f.gceDisp.setWidth 8 <<< 2) ||| (f.gceUin.setWidth 8 <<< 1) ||| f.gceTcf.setWidth 8

/-- The record of R179. -/
def gceBytes (f : Fields) : List Byte :=
  [f.gceIntro, f.gceLabel, f.gceBsize, gcePacked f] ++ bytes16 f.gceDelay ++ [f.gceTci, f.gceTerm]

/-- `FLD.UNPACK_GCE` (R178). -/
def execFldUnpackGce (s : State) : Host.Outcome State Fault Refusal :=
  .next (command 0x22 (unpackFixed Config.gceLen gceWrites) s)

/-- `FLD.PACK_GCE` (R179). -/
def execFldPackGce (s : State) : Host.Outcome State Fault Refusal :=
  .next (command 0x23 (fun s => packMicros (gceBytes s.fld)) s)

/-! ### ImageDescriptor -/

/-- The writes of R182. -/
def idWrites (raw : List Byte) : List Micro :=
  [setByte .idSep (rawAt raw 0), setU16 .idLeft (rawU16 raw 1), setU16 .idTop (rawU16 raw 3),
    setU16 .idWidth (rawU16 raw 5), setU16 .idHeight (rawU16 raw 7),
    .field .idLctf (bitsAt (rawAt raw 9) 7 1), .field .idIlace (bitsAt (rawAt raw 9) 6 1),
    .field .idSort (bitsAt (rawAt raw 9) 5 1), .field .idRsvd (bitsAt (rawAt raw 9) 3 2),
    .field .idLctsz (bitsAt (rawAt raw 9) 0 3)]

/-- The packed byte of R183. -/
def idPacked (f : Fields) : Byte :=
  (f.idLctf.setWidth 8 <<< 7) ||| (f.idIlace.setWidth 8 <<< 6) ||| (f.idSort.setWidth 8 <<< 5) |||
    (f.idRsvd.setWidth 8 <<< 3) ||| f.idLctsz.setWidth 8

/-- The record of R183. -/
def idBytes (f : Fields) : List Byte :=
  [f.idSep] ++ bytes16 f.idLeft ++ bytes16 f.idTop ++ bytes16 f.idWidth ++ bytes16 f.idHeight ++ [idPacked f]

/-- `FLD.UNPACK_ID` (R182). -/
def execFldUnpackId (s : State) : Host.Outcome State Fault Refusal :=
  .next (command 0x24 (unpackFixed Config.idLen idWrites) s)

/-- `FLD.PACK_ID` (R183). -/
def execFldPackId (s : State) : Host.Outcome State Fault Refusal :=
  .next (command 0x25 (fun s => packMicros (idBytes s.fld)) s)

/-! ### ApplicationExtension -/

/-- The writes of R186. -/
def appWrites (raw : List Byte) : List Micro :=
  [setByte .appIntro (rawAt raw 0), setByte .appLabel (rawAt raw 1), setByte .appBsize (rawAt raw 2),
    setByte .appIdent0 (rawAt raw 3), setByte .appIdent1 (rawAt raw 4), setByte .appIdent2 (rawAt raw 5),
    setByte .appIdent3 (rawAt raw 6), setByte .appIdent4 (rawAt raw 7), setByte .appIdent5 (rawAt raw 8),
    setByte .appIdent6 (rawAt raw 9), setByte .appIdent7 (rawAt raw 10),
    setByte .appAuth0 (rawAt raw 11), setByte .appAuth1 (rawAt raw 12), setByte .appAuth2 (rawAt raw 13),
    setByte .appSblen (rawAt raw 14), setByte .appLoopind (rawAt raw 15), setU16 .appLoopcnt (rawU16 raw 16),
    setByte .appTerm (rawAt raw 18)]

/-- The record of R187. -/
def appBytes (f : Fields) : List Byte :=
  [f.appIntro, f.appLabel, f.appBsize,
    f.appIdent0, f.appIdent1, f.appIdent2, f.appIdent3, f.appIdent4, f.appIdent5, f.appIdent6, f.appIdent7,
    f.appAuth0, f.appAuth1, f.appAuth2, f.appSblen, f.appLoopind] ++ bytes16 f.appLoopcnt ++ [f.appTerm]

/-- `FLD.UNPACK_APP` (R186). -/
def execFldUnpackApp (s : State) : Host.Outcome State Fault Refusal :=
  .next (command 0x26 (unpackFixed Config.appLen appWrites) s)

/-- `FLD.PACK_APP` (R187). -/
def execFldPackApp (s : State) : Host.Outcome State Fault Refusal :=
  .next (command 0x27 (fun s => packMicros (appBytes s.fld)) s)

/-! ### CommentExtension -/

/-- One sub-block exactly: at least 4 bytes and `n + 4` of them (R190). -/
def comLengthOk (raw : List Byte) : Bool := decide (4 ≤ raw.length) && raw.length == (rawAt raw 2).toNat + 4

/-- The writes of R190. -/
def comWrites (raw : List Byte) : List Micro :=
  [setByte .comIntro (rawAt raw 0), setByte .comLabel (rawAt raw 1), setByte .comSize (rawAt raw 2)]
    ++ (List.range (rawAt raw 2).toNat).map (fun k => Micro.comb k (rawAt raw (3 + k)))
    ++ [setByte .comTerm (rawAt raw (3 + (rawAt raw 2).toNat))]

/-- The record of R191. -/
def comBytes (s : State) : List Byte :=
  [s.fld.comIntro, s.fld.comLabel, s.fld.comSize] ++ (List.range s.fld.comSize.toNat).map s.combAt ++ [s.fld.comTerm]

/-- `FLD.UNPACK_COM` (R190). -/
def execFldUnpackCom (s : State) : Host.Outcome State Fault Refusal :=
  .next (command 0x28 (unpackMicros comLengthOk comWrites) s)

/-- `FLD.PACK_COM` (R191). -/
def execFldPackCom (s : State) : Host.Outcome State Fault Refusal :=
  .next (command 0x29 (fun s => packMicros (comBytes s)) s)

/-! ### Colour tables -/

/-- Whole entries, 256 at most (R194). -/
def ctLengthOk (raw : List Byte) : Bool := raw.length % 3 == 0 && decide (raw.length ≤ 768)

/-- The writes of R194. -/
def ctWrites (raw : List Byte) : List Micro :=
  .field .ctN (Word.ofNat (raw.length / 3)) ::
    (List.range (raw.length / 3)).map (fun k =>
      Micro.ctm k (colorOf (rawAt raw (3 * k)) (rawAt raw (3 * k + 1)) (rawAt raw (3 * k + 2))))

/-- The bytes of R195. -/
def ctBytes (s : State) : List Byte := ((List.range s.fld.ctN.toNat).map (fun k => colorBytes (s.ctmAt k))).flatten

/-- `FLD.UNPACK_CT` (R194). -/
def execFldUnpackCt (s : State) : Host.Outcome State Fault Refusal :=
  .next (command 0x2A (unpackMicros ctLengthOk ctWrites) s)

/-- `FLD.PACK_CT` (R195): `CT_N` can hold 257 to 511. -/
def packCtMicros (s : State) : List Micro :=
  if Config.ctMax < s.fld.ctN.toNat then [.raise .badOperand (s.fld.ctN.setWidth 32)] else packMicros (ctBytes s)

/-- `FLD.PACK_CT` (R195). -/
def execFldPackCt (s : State) : Host.Outcome State Fault Refusal := .next (command 0x2B packCtMicros s)

/-! ### 16-bit integer -/

/-- The write of R198. -/
def u16Writes (raw : List Byte) : List Micro := [setU16 .u16Val (rawU16 raw 0)]

/-- The bytes of R199. -/
def u16Bytes (f : Fields) : List Byte := bytes16 f.u16Val

/-- `FLD.UNPACK_U16` (R198). -/
def execFldUnpackU16 (s : State) : Host.Outcome State Fault Refusal :=
  .next (command 0x2C (unpackFixed 2 u16Writes) s)

/-- `FLD.PACK_U16` (R199). -/
def execFldPackU16 (s : State) : Host.Outcome State Fault Refusal :=
  .next (command 0x2D (fun s => packMicros (u16Bytes s.fld)) s)

end Sys2Proof.Machine
end

