-- ==== Sys2Proof/Machine/Lzw.lean ====
section
/-!
DEFINITION. The LZW commands (spec/43_lzw_encoder.md R210, spec/44_lzw_decoder.md R240); their loops are Engine.lean's.
-/

namespace Sys2Proof.Machine

/-- `LZW.ENC` (R210, R223). -/
def execLzwEnc (s : State) : Host.Outcome State Fault Refusal := .next (command 0x30 encPrelude s)

/-- `LZW.DEC` (R240, R254). -/
def execLzwDec (s : State) : Host.Outcome State Fault Refusal := .next (command 0x31 decPrelude s)

end Sys2Proof.Machine
end

