-- ==== Sys2Proof/Machine/Sequencer.lean ====
section
/-!
DEFINITION. The SEQ commands (spec/40_block_parser.md R130, R147, R149; spec/41_serializer.md R160).
-/

namespace Sys2Proof.Machine

/-! ### SEQ.PARSE -/

/-- The part of `SEQ.PARSE` before its frame loop (R130, R131, R132): header, screen descriptor and the global colour table, whose
length is the size field of the descriptor's byte 4 whatever its flag says. -/
def parsePrelude (s : State) : List Micro :=
  .dropDoc ::
    (if overCap s.caps.ibuf s.ilen then [.raise .badOperand s.ilen]
    else if s.input.length < 6 then [.raise .fmtTruncated 0]
    else
      .ipos 6 ::
        (if s.input.length < 13 then [.raise .fmtTruncated 6]
        else
          .ipos 13 ::
            (if s.input.length < 13 + tableLen (rawAt s.input 10) then [.raise .fmtTruncated 13]
            else
              [.ipos (Word.ofNat (13 + tableLen (rawAt s.input 10))),
                .work (.parse {
                  header := s.input.take 6
                  lsd := (s.input.drop 6).take 7
                  gct := (s.input.drop 13).take (tableLen (rawAt s.input 10))
                  frames := []
                  start := 13 + tableLen (rawAt s.input 10)
                  exts := [] })])))

/-- `SEQ.PARSE` (R130). -/
def execSeqParse (s : State) : Host.Outcome State Fault Refusal := .next (command 0x10 parsePrelude s)

/-! ### SEQ.SERIALIZE -/

/-- A frame's blocks in parse order: extensions as listed, ImageDescriptor, LocalColorTable, ImageDataBlock (R160, R161). -/
def Frame.bytes (f : Frame) : List Byte := (f.exts.map (fun e => e.2)).flatten ++ f.id ++ f.lct ++ f.idb

/-- The byte sequence of a document (R160). -/
def Doc.bytes (d : Doc) : List Byte :=
  d.header ++ d.lsd ++ d.gct ++ (d.frames.map Frame.bytes).flatten ++ d.trailer

/-- `SEQ.SERIALIZE` (R160, R163). -/
def serializeMicros (s : State) : List Micro :=
  match s.doc with
  | none => [.raise .noDocument 0]
  | some d => .olen0 :: (outAll d.bytes ++ [.finish false])

/-- `SEQ.SERIALIZE` (R160). -/
def execSeqSerialize (s : State) : Host.Outcome State Fault Refusal := .next (command 0x11 serializeMicros s)

/-! ### SEQ.GETBLK -/

/-- The bytes a frame pairs with an extension kind, if it has that extension (R35, R147). -/
def Frame.extBytes (f : Frame) (k : ExtKind) : Option (List Byte) :=
  (f.exts.find? (fun e => e.1 == k)).map (fun e => e.2)

/-- What a selected block of a document is: its bytes; absent (R148); or no such frame (R297). -/
inductive Found where
  | bytes (bs : List Byte)
  | absent
  | noFrame
deriving DecidableEq, Repr

/-- A block of frame `fidx` (R147). -/
def frameBlock (d : Doc) (fidx : Word) (get : Frame → Option (List Byte)) : Found :=
  match d.frames[fidx.toNat]? with
  | none => .noFrame
  | some f =>
    match get f with
    | some b => .bytes b
    | none => .absent

/-- The block `BKIND` and `FIDX` select; `FIDX` is ignored for the document's own blocks (R96, R147, R297). -/
def findBlock (d : Doc) (sel : BlockSel) (fidx : Word) : Found :=
  match sel with
  | .header => .bytes d.header
  | .lsd => .bytes d.lsd
  | .gct => .bytes d.gct
  | .trailer => .bytes d.trailer
  | .ext k => frameBlock d fidx (fun f => f.extBytes k)
  | .id => frameBlock d fidx (fun f => some f.id)
  | .lct => frameBlock d fidx (fun f => some f.lct)
  | .idb => frameBlock d fidx (fun f => some f.idb)

/-- `SEQ.GETBLK` (R147): `OLEN <- 0` comes after the `BKIND` test and before the frame test. -/
def getblkMicros (s : State) : List Micro :=
  match s.doc with
  | none => [.raise .noDocument 0]
  | some d =>
    match blockSel s.bkind with
    | none => [.raise .badOperand (s.bkind.setWidth 32)]
    | some sel =>
      .olen0 ::
        (match findBlock d sel s.fidx with
        | .noFrame => [.raise .idxFrame s.fidx]
        | .absent => [.finish true]
        | .bytes b => outAll b ++ [.finish false])

/-- `SEQ.GETBLK` (R147). -/
def execSeqGetblk (s : State) : Host.Outcome State Fault Refusal := .next (command 0x12 getblkMicros s)

/-! ### SEQ.SETBLK -/

/-- `length_ok(kind, new)` (R150). -/
def lengthOk (sel : BlockSel) (new : List Byte) : Bool :=
  match sel with
  | .header => new.length == Config.hdrLen
  | .lsd => new.length == Config.lsdLen
  | .gct => true
  | .trailer => new == [Config.trailerByte]
  | .ext .gce => new.length == Config.gceLen || new.length == 0
  | .ext .app => new.length == Config.appLen || new.length == 0
  | .ext .pte => true
  | .ext .com => true
  | .id => new.length == Config.idLen
  | .lct => true
  | .idb => true

/-- An extension list with kind `k` set to `new` (R149): removed by an empty block, replaced in its place, or appended. -/
def setExt (exts : List (ExtKind × List Byte)) (k : ExtKind) (new : List Byte) : List (ExtKind × List Byte) :=
  if new = [] then exts.filter (fun e => e.1 != k)
  else if exts.any (fun e => e.1 == k) then exts.map (fun e => if e.1 = k then (k, new) else e)
  else exts ++ [(k, new)]

/-- The document with frame `i` changed. -/
def Doc.setFrame (d : Doc) (i : Nat) (upd : Frame → Frame) : Doc := { d with frames := d.frames.modify i upd }

/-- The document with one block replaced (R149). -/
def Doc.setBlock (d : Doc) (sel : BlockSel) (fidx : Word) (new : List Byte) : Doc :=
  match sel with
  | .header => { d with header := new }
  | .lsd => { d with lsd := new }
  | .gct => { d with gct := new }
  | .trailer => { d with trailer := new }
  | .ext k => d.setFrame fidx.toNat (fun f => { f with exts := setExt f.exts k new })
  | .id => d.setFrame fidx.toNat (fun f => { f with id := new })
  | .lct => d.setFrame fidx.toNat (fun f => { f with lct := new })
  | .idb => d.setFrame fidx.toNat (fun f => { f with idb := new })

/-- The block is one of a frame (`BKIND >= 4`, R96). -/
def BlockSel.scoped : BlockSel → Bool
  | .header | .lsd | .gct | .trailer => false
  | .ext _ | .id | .lct | .idb => true

/-- `SEQ.SETBLK` (R149): every test comes before the one micro-step that replaces the block. -/
def setblkMicros (s : State) : List Micro :=
  match s.doc with
  | none => [.raise .noDocument 0]
  | some d =>
    match blockSel s.bkind with
    | none => [.raise .badOperand (s.bkind.setWidth 32)]
    | some sel =>
      if overCap s.caps.ibuf s.ilen then [.raise .badOperand s.ilen]
      else if sel.scoped && decide (d.frames.length ≤ s.fidx.toNat) then [.raise .idxFrame s.fidx]
      else if lengthOk sel s.input = false then [.raise .setInvalid (s.bkind.setWidth 32)]
      else if overStore s.caps (d.setBlock sel s.fidx s.input) then [.raise .capacity s.ilen]
      else [.doc (d.setBlock sel s.fidx s.input), .ipos s.ilen, .finish false]

/-- `SEQ.SETBLK` (R149). -/
def execSeqSetblk (s : State) : Host.Outcome State Fault Refusal := .next (command 0x13 setblkMicros s)

end Sys2Proof.Machine
end

