-- ==== Sys2Proof/Machine/System.lean ====
section
/-!
DEFINITION. The SYS commands (spec/45_system_commands.md R270 to R273).
-/

namespace Sys2Proof.Machine

/-- `SYS.NOP` (R270): nothing between start and completion. -/
def execSysNop (s : State) : Host.Outcome State Fault Refusal := .next (command 0x00 (fun _ => [.finish false]) s)

/-- `SYS.CLRFAULT` (R271): accepted whether or not `FAULT` is set. -/
def execSysClrfault (s : State) : Host.Outcome State Fault Refusal :=
  .next (if s.busy then { s with cmd := 0x01 }
    else startCommand (fun _ => clearFaultMicros ++ [.finish false]) { s with cmd := 0x01 })

/-- `SYS.ABORT` (R272): stops a running command; without one it is a command like `SYS.NOP`. -/
def execSysAbort (s : State) : Host.Outcome State Fault Refusal :=
  .next (if s.busy then abortRunning { s with cmd := 0x02 } else command 0x02 (fun _ => [.finish false]) s)

/-- `SYS.RESET` (R273): accepted in every state; `CMD` then reads 0x00. -/
def execSysReset (s : State) : Host.Outcome State Fault Refusal := .next (resetCore s)

end Sys2Proof.Machine
end

