-- ==== Sys2Proof/Machine/Dispatch.lean ====
section
/-!
DEFINITION. One arm per instruction.
-/

namespace Sys2Proof.Machine

def exec (i : Instr) (s : State) : Host.Outcome State Fault Refusal :=
  match i with
  | .sysNop => Sys2Proof.Machine.execSysNop s
  | .sysClrfault => Sys2Proof.Machine.execSysClrfault s
  | .sysAbort => Sys2Proof.Machine.execSysAbort s
  | .sysReset => Sys2Proof.Machine.execSysReset s
  | .seqParse => Sys2Proof.Machine.execSeqParse s
  | .seqSerialize => Sys2Proof.Machine.execSeqSerialize s
  | .seqGetblk => Sys2Proof.Machine.execSeqGetblk s
  | .seqSetblk => Sys2Proof.Machine.execSeqSetblk s
  | .fldUnpackLsd => Sys2Proof.Machine.execFldUnpackLsd s
  | .fldPackLsd => Sys2Proof.Machine.execFldPackLsd s
  | .fldUnpackGce => Sys2Proof.Machine.execFldUnpackGce s
  | .fldPackGce => Sys2Proof.Machine.execFldPackGce s
  | .fldUnpackId => Sys2Proof.Machine.execFldUnpackId s
  | .fldPackId => Sys2Proof.Machine.execFldPackId s
  | .fldUnpackApp => Sys2Proof.Machine.execFldUnpackApp s
  | .fldPackApp => Sys2Proof.Machine.execFldPackApp s
  | .fldUnpackCom => Sys2Proof.Machine.execFldUnpackCom s
  | .fldPackCom => Sys2Proof.Machine.execFldPackCom s
  | .fldUnpackCt => Sys2Proof.Machine.execFldUnpackCt s
  | .fldPackCt => Sys2Proof.Machine.execFldPackCt s
  | .fldUnpackU16 => Sys2Proof.Machine.execFldUnpackU16 s
  | .fldPackU16 => Sys2Proof.Machine.execFldPackU16 s
  | .lzwEnc => Sys2Proof.Machine.execLzwEnc s
  | .lzwDec => Sys2Proof.Machine.execLzwDec s
  | .extGce => Sys2Proof.Machine.execExtGce s
  | .extApp => Sys2Proof.Machine.execExtApp s
  | .extPte => Sys2Proof.Machine.execExtPte s
  | .extCom => Sys2Proof.Machine.execExtCom s
  | .img => Sys2Proof.Machine.execImg s
  | .trailer => Sys2Proof.Machine.execTrailer s
  | .lzwCode width code => Sys2Proof.Machine.execLzwCode width code s

end Sys2Proof.Machine
end

