-- ==== Sys2Proof/Machine/HostPort.lean ====
section
/-!
DEFINITION. The host's side (spec/10_state.md R21, R22, R32; spec/30_encoding.md R93; spec/70_reset_and_hazards.md R333, R341): register and
cell accesses by number and index, and the effect of one host action.
-/

namespace Sys2Proof.Machine

/-! ### Registers by number -/

/-- What the host reads from register `n`: reserved numbers read 0, unused upper bits read 0 (R21, R22); `none` outside
`0x00 .. 0x7F` (R60). -/
def readReg (s : State) (n : Nat) : Option Word :=
  match n with
  | 0x00 => some (s.cmd.setWidth 32)
  | 0x01 => some (statusWord s)
  | 0x02 => some (s.fcause.setWidth 32)
  | 0x03 => some s.finfo
  | 0x04 => some s.ilen
  | 0x05 => some s.ipos
  | 0x06 => some s.olen
  | 0x07 => some s.silen
  | 0x08 => some s.solen
  | 0x09 => some (s.ctcnt.setWidth 32)
  | 0x0A => some (s.mcs.setWidth 32)
  | 0x0B => some s.fidx
  | 0x0C => some (s.bkind.setWidth 32)
  | 0x0D => some s.fcount
  | n =>
    if 0x80 ≤ n then none
    else
      match FieldReg.ofNum n with
      | some r => some (s.fld.get r)
      | none => some 0

/-- A host write to register `n` other than `CMD`, `BUSY = 0` (R21, R22): reserved numbers ignore it, unused upper bits are ignored. -/
def writeReg (n : Nat) (v : Word) (s : State) : Host.Outcome State Fault Refusal :=
  match n with
  | 0x04 => .next { s with ilen := v }
  | 0x07 => .next { s with silen := v }
  | 0x09 => .next { s with ctcnt := v.setWidth 9 }
  | 0x0B => .next { s with fidx := v }
  | 0x0C => .next { s with bkind := v.setWidth 4 }
  | 0x01 => .refused (.readOnlyRegister 0x01)
  | 0x02 => .refused (.readOnlyRegister 0x02)
  | 0x03 => .refused (.readOnlyRegister 0x03)
  | 0x05 => .refused (.readOnlyRegister 0x05)
  | 0x06 => .refused (.readOnlyRegister 0x06)
  | 0x08 => .refused (.readOnlyRegister 0x08)
  | 0x0A => .refused (.readOnlyRegister 0x0A)
  | 0x0D => .refused (.readOnlyRegister 0x0D)
  | n =>
    if 0x80 ≤ n then .fault (.noSuchRegister n)
    else
      match FieldReg.ofNum n with
      | some r => .next { s with fld := s.fld.set v r }
      | none => .next s

/-- The registers the host may read while `BUSY = 1`: `STATUS`, `IPOS`, `OLEN`, `SOLEN` (R71, R333). -/
def busyReadable (n : Nat) : Bool := n == 0x01 || n == 0x05 || n == 0x06 || n == 0x08

/-- A host read of register `n` changes nothing (R67). -/
def hostRead (n : Nat) (s : State) : Host.Outcome State Fault Refusal :=
  if s.busy && !busyReadable n then .refused .hostReadWhileBusy
  else
    match readReg s n with
    | some _ => .next s
    | none => .fault (.noSuchRegister n)

/-! ### Cells -/

/-- The number of cells of a space, `none` when unbounded (R9, R33, R34, R60). -/
def spaceSize (s : State) : Space → Option Nat
  | .ibuf => s.caps.ibuf
  | .obuf => s.caps.obuf
  | .sin => s.caps.sin
  | .sout => s.caps.sout
  | .ctm => some Config.ctMax
  | .comb => some Config.combSize

/-- Cell `i` exists. -/
def cellExists (s : State) (m : Space) (i : Nat) : Bool :=
  match spaceSize s m with
  | some n => decide (i < n)
  | none => true

/-- `n` cells from index 0 exist. -/
def cellsExist (s : State) (m : Space) (n : Nat) : Bool :=
  match spaceSize s m with
  | some c => decide (n ≤ c)
  | none => true

/-- What the host reads from a cell: a value only inside the valid range (R44, R60), and only from a space it reads (R32). -/
def readCell (s : State) (m : Space) (i : Nat) : Option Word :=
  match m with
  | .obuf => if i < s.olen.toNat then (Memory.read s.obuf i).map (fun b => b.setWidth 32) else none
  | .sout => if i < s.solen.toNat then (Memory.read s.sout i).map (fun x => x.setWidth 32) else none
  | .ctm => if i < s.fld.ctN.toNat then (Memory.read s.ctm i).map (fun c => c.setWidth 32) else none
  | .comb => if i < s.fld.comSize.toNat then (Memory.read s.comb i).map (fun b => b.setWidth 32) else none
  | .ibuf => none
  | .sin => none

/-- A host read of one cell.  While `BUSY = 1` only the stable prefixes of `OBUF` and `SOUT` are readable (R71). -/
def hostPeek (m : Space) (i : Nat) (s : State) : Host.Outcome State Fault Refusal :=
  if m = .ibuf ∨ m = .sin then .refused (.noHostAccess m)
  else if s.busy && (m == .ctm || m == .comb) then .refused .hostReadWhileBusy
  else if cellExists s m i = false then .fault (.noSuchCell m i)
  else
    match readCell s m i with
    | some _ => .next s
    | none => .refused (.unspecifiedCell m i)

/-- A host write of one cell (R32, R33, R34), low bits kept. -/
def hostPut (m : Space) (i : Nat) (v : Word) (s : State) : Host.Outcome State Fault Refusal :=
  if m = .obuf ∨ m = .sout then .refused (.noHostAccess m)
  else if cellExists s m i = false then .fault (.noSuchCell m i)
  else
    match m with
    | .ibuf => .next { s with ibuf := Memory.write s.ibuf i (v.setWidth 8) }
    | .sin => .next { s with sin := Memory.write s.sin i (v.setWidth 16) }
    | .ctm => .next { s with ctm := Memory.write s.ctm i (v.setWidth 24) }
    | .comb => .next { s with comb := Memory.write s.comb i (v.setWidth 8) }
    | .obuf => .refused (.noHostAccess m)
    | .sout => .refused (.noHostAccess m)

/-- `ibuf <hex bytes>`: `IBUF[0:n]` and `ILEN <- n` (R93). -/
def hostIbuf (bs : List Byte) (s : State) : Host.Outcome State Fault Refusal :=
  if cellsExist s .ibuf bs.length then
    .next { s with ibuf := Memory.fill s.ibuf 0 bs, ilen := Word.ofNat bs.length }
  else .fault (.noSuchCell .ibuf (bs.length - 1))

/-- `sin [s0, s1, ...]`: `SIN[0:n]` and `SILEN <- n` (R93). -/
def hostSin (xs : List Symbol) (s : State) : Host.Outcome State Fault Refusal :=
  if cellsExist s .sin xs.length then
    .next { s with sin := Memory.fill s.sin 0 xs, silen := Word.ofNat xs.length }
  else .fault (.noSuchCell .sin (xs.length - 1))

/-- `ctm [e0, e1, ...]`: `CTM[0:n]` and `CT_N <- n` (R93). -/
def hostCtm (cs : List Color) (s : State) : Host.Outcome State Fault Refusal :=
  if cellsExist s .ctm cs.length then
    .next { s with ctm := Memory.fill s.ctm 0 cs, fld := s.fld.set (Word.ofNat cs.length) .ctN }
  else .fault (.noSuchCell .ctm (cs.length - 1))

/-- `comb <hex bytes>`: `COMB[0:n]` (R93). -/
def hostComb (bs : List Byte) (s : State) : Host.Outcome State Fault Refusal :=
  if cellsExist s .comb bs.length then .next { s with comb := Memory.fill s.comb 0 bs }
  else .fault (.noSuchCell .comb (bs.length - 1))

/-- `mv`: `OBUF[0:OLEN]` to `IBUF[0:OLEN]` and `ILEN <- OLEN` (R93). -/
def hostMv (s : State) : Host.Outcome State Fault Refusal :=
  match Memory.upTo s.obuf s.olen.toNat with
  | some bs => hostIbuf bs s
  | none => .refused (.unspecifiedCell .obuf s.olen.toNat)

/-- `mvs`: `SOUT[0:SOLEN]` to `SIN[0:SOLEN]` and `SILEN <- SOLEN` (R93). -/
def hostMvs (s : State) : Host.Outcome State Fault Refusal :=
  match Memory.upTo s.sout s.solen.toNat with
  | some xs => hostSin xs s
  | none => .refused (.unspecifiedCell .sout s.solen.toNat)

/-! ### Commands and actions -/

/-- A host write of `v` to `CMD` (R23, R274): the opcode is `v[7:0]`; `pace` says when the host acts next. -/
def hostCmd (v : Word) (pace : Option Nat) (s : State) : Host.Outcome State Fault Refusal :=
  match decodeCmd (v.setWidth 8) with
  | .ok i => exec i { s with grant := pace }
  | .error _ => .next (reservedCommand (v.setWidth 8) { s with grant := pace })

/-- A host move that writes registers or cells: not offered while `BUSY = 1` (R341). -/
def whenIdle (act : State → Host.Outcome State Fault Refusal) (s : State) : Host.Outcome State Fault Refusal :=
  if s.busy then .refused .hostWriteWhileBusy else act s

/-- One host action (R93).  A `wr` to register 0 is a write to `CMD`. -/
def hostAct (a : HostAction) (s : State) : Host.Outcome State Fault Refusal :=
  match a with
  | .cmd v pace => hostCmd v pace s
  | .poll n => .next { s with grant := some n }
  | .wr r v => if r = 0 then hostCmd v none s else whenIdle (writeReg r v) s
  | .rd r => hostRead r s
  | .put m i v => whenIdle (hostPut m i v) s
  | .peek m i => hostPeek m i s
  | .ibuf bs => whenIdle (hostIbuf bs) s
  | .sin xs => whenIdle (hostSin xs) s
  | .ctm cs => whenIdle (hostCtm cs) s
  | .comb bs => whenIdle (hostComb bs) s
  | .mv => whenIdle hostMv s
  | .mvs => whenIdle hostMvs s
  | .resetLine => .next (resetCore s)

end Sys2Proof.Machine
end

