-- ==== Sys2Proof/Machine/Step.lean ====
section
/-!
DEFINITION. One step of the machine, and the word the next step runs.

The hardware fetches no program of its own (spec/10_state.md R30, spec/70_reset_and_hazards.md R334).  Commands come from the host program
held in `State.host`; the items of the container stream come from `IBUF` at `IPOS` while `SEQ.PARSE` runs; the codes of the LZW stream come
from the bit accumulator while `LZW.DEC` runs (log entry 4).
-/

namespace Sys2Proof.Machine

/-- The instruction the running command reads at its cursor: the block item at `IBUF[IPOS]`, or the code in the accumulator.  `none` when
the next step of the command is not an instruction (a determined micro-step, a symbol of `LZW.ENC`, a byte of `LZW.DEC`), and on a
decode error. -/
def fetched (s : State) : Option Instr :=
  if s.todo.isEmpty then
    match s.work with
    | .parse _ => (decodeBlk (cutHere s).rest).toOption
    | .dec w => (decodeCode w.width w.nb w.acc).toOption
    | .idle => none
    | .enc _ => none
  else none

/-- One of the core's steps before the host acts again is used up. -/
def spendGrant (s : State) : State :=
  match s.grant with
  | some (n + 1) => { s with grant := some n }
  | some 0 => s
  | none => s

/-- While `BUSY = 1` the host moves when the steps it left the core are used up and its program goes on (R274). -/
def hostMoves (s : State) : Bool := s.grant == some 0 && !s.host.isEmpty

/-- The core's move while `BUSY = 1`. -/
def coreStep (s : State) : Host.Outcome State Fault Refusal :=
  match fetched s with
  | some i => exec i s
  | none => .next (coreTick s)

/-- The host's move; with no action left the core is idle "with all its state held" (R317). -/
def hostStep (s : State) : Host.Outcome State Fault Refusal :=
  match s.host with
  | [] => .next s
  | a :: rest => hostAct a { s with host := rest }

/-- One step. -/
def step (s : State) : Host.Outcome State Fault Refusal :=
  if s.busy && !hostMoves s then endIfDoneAfter (coreStep (spendGrant s)) else hostStep s

/-- The bytes of a block item followed by zeros, up to the longest item of fixed length (`APP_LEN`); `TRAILER` is the last byte of its
stream (R142). -/
def padItem (bs : List Byte) : List Byte :=
  if bs = [Config.trailerByte] then bs else bs ++ List.replicate (Config.appLen - bs.length) 0

/-- `s` with the word stored where the next step takes its instruction (log entry 3): a command as the next write of the host; a block
item in `IBUF` at the cursor of a running `SEQ.PARSE` that waits for one; a code in the accumulator of a running `LZW.DEC`. -/
def State.withFetchWord (s : State) (nbits w : Nat) : State :=
  match tableWord nbits w with
  | .cmd op => { s with host := .cmd (op.setWidth 32) none :: s.host, grant := some 0 }
  | .blk bs =>
    { s with
      busy := true, grant := none, todo := [], ipos := 0
      ilen := Word.ofNat (padItem bs).length
      ibuf := Memory.fill s.ibuf 0 (padItem bs)
      work := .parse ⟨[], [], [], [], 0, []⟩ }
  | .code width nb acc =>
    { s with
      busy := true, grant := none, todo := []
      work := .dec { DecWork.init (width - 1) with acc := acc % 2 ^ nb, nb := nb } }

end Sys2Proof.Machine
end

