-- ==== Sys2Proof/Safety.lean ====
section
/-!
DEFINITION. The terms statements use: when a command starts and how it ends (spec/45_system_commands.md R274, spec/60_exceptions.md R305), the
shapes of the container stream (spec/30_encoding.md R97 to R110), the invariants (spec/10_state.md R24, R25, R36, R40, R41), and what a good end
of a session is (spec/70_reset_and_hazards.md R334).
-/

namespace Sys2Proof.Machine

/-! ### Start and end of a command -/

/-- The host may start a command (`BUSY = 0`, `FAULT = 0`, R333 step 1) and waits for its end. -/
def Starts (s : State) : Prop := s.busy = false ∧ s.fault = false ∧ s.grant = none

/-- `s` after command `op` completed and changed nothing else: `CMD` reads the opcode, `BUSY = 0`, `DONE = 1`, `NP` as given, no working
state. -/
def finished (op : Byte) (np : Bool) (s : State) : State :=
  { s with cmd := op, busy := false, done := true, np := np, work := .idle, todo := [] }

/-- `s` after command `op` raised a fault and changed nothing else: `FAULT = 1`, `BUSY = DONE = NP = 0`, `FCAUSE` and `FINFO` recorded. -/
def faulted (op : Byte) (cause : Byte) (info : Word) (s : State) : State :=
  { s with
    cmd := op, busy := false, done := false, np := false, fault := true, fcause := cause, finfo := info
    work := .idle, todo := [] }

/-- The memory that holds exactly the given cells, from index 0 on. -/
def cells {α : Type} (xs : List α) : Memory α := (List.range xs.length).zip xs

/-- How many cells an output space takes: its size, and what its 32-bit length register counts (R9, R21, R303; log entry 5). -/
def outLimit (cap : Option Nat) : Nat :=
  match cap with
  | none => 2 ^ 32 - 1
  | some c => min c (2 ^ 32 - 1)

/-- `s` after command `op` appended `bytes` to an empty `OBUF` and did nothing else: completion if they fit (R27), else `CAPACITY` with
the part that fits (R303, R305). -/
def emitted (op : Byte) (bytes : List Byte) (s : State) : State :=
  if bytes.length ≤ outLimit s.caps.obuf then
    finished op false { s with obuf := cells bytes, olen := Word.ofNat bytes.length }
  else
    faulted op 0x42 (Word.ofNat (outLimit s.caps.obuf))
      { s with obuf := cells (bytes.take (outLimit s.caps.obuf)), olen := Word.ofNat (outLimit s.caps.obuf) }

/-- `s` after the running command raised a fault and changed nothing else (R305). -/
def stopped (cause : Byte) (info : Word) (s : State) : State :=
  { s with busy := false, fault := true, fcause := cause, finfo := info, work := .idle, todo := [] }

/-- `s` after the running command completed and changed nothing else (R274). -/
def ended (s : State) : State := { s with busy := false, done := true, np := false, work := .idle, todo := [] }

/-- The byte source is within `IBUF_SIZE` (R26). -/
def inputFits (s : State) : Prop := ∀ c, s.caps.ibuf = some c → s.ilen.toNat ≤ c

/-- The instruction is the host command with opcode `op`. -/
def IsCommand (i : Instr) (op : Byte) : Prop := encode i = .cmd op

/-- A command the hardware turns away (R306, R341): `BUSY = 1` and not `SYS.ABORT` or `SYS.RESET`, or `FAULT = 1` and not `SYS.CLRFAULT` or
`SYS.RESET`.  Only `CMD` changes; a host must not rely on it (R306). -/
def TurnedAway (op : Byte) (s : State) : Prop :=
  (s.busy = true ∧ op ≠ 0x02 ∧ op ≠ 0x03) ∨ (s.busy = false ∧ s.fault = true ∧ op ≠ 0x01 ∧ op ≠ 0x03)

/-- The host program has ended well (R334). -/
def EndedWell (s : State) : Prop := s.host = [] ∧ s.busy = false ∧ s.fault = false

/-- What an action writes to `CMD`, if it does (R23, R93). -/
def HostAction.toCmd : HostAction → Option Word
  | .cmd v _ => some v
  | .wr r v => if r = 0 then some v else none
  | .poll _ | .rd _ | .put _ _ _ | .peek _ _ | .ibuf _ | .sin _ | .ctm _ | .comb _ | .mv | .mvs | .resetLine => none

/-- An action that only looks: no action of R93's list. -/
def HostAction.looks : HostAction → Bool
  | .poll _ | .rd _ | .peek _ _ => true
  | .cmd _ _ | .wr _ _ | .put _ _ _ | .ibuf _ | .sin _ | .ctm _ | .comb _ | .mv | .mvs | .resetLine => false

/-- A step a session may take and still end well (R334): it has a next state, and it is not a command that is turned away. -/
def SafeStep (s : State) : Prop :=
  (∃ t, step s = .next t) ∧
    ∀ a rest v, s.host = a :: rest → a.toCmd = some v → (s.busy = false ∨ hostMoves s = true) → ¬ TurnedAway (v.setWidth 8) s

/-- "a command faults and the list has no `SYS.CLRFAULT` next" (R334): the next action that does more than look is another one, or none is
left. -/
def FaultUnanswered (s : State) : Prop :=
  s.busy = false ∧ s.fault = true ∧
    ∀ a v, (s.host.dropWhile HostAction.looks).head? = some a → a.toCmd = some v → v.setWidth 8 ≠ 0x01#8

/-- The host program has ended badly (R334): a fault is left unanswered, or the next action is refused. -/
def EndedBadly (s : State) : Prop := FaultUnanswered s ∨ ¬ SafeStep s

/-- What every `FLD.UNPACK` does with an input it does not take (R170, R172, R305): `BAD_OPERAND` beyond `IBUF_SIZE`, nothing changed; `FLD_LENGTH` for a
record of the wrong length, `IPOS` at 0. -/
def UnpackFaults (i : Instr) (op : Byte) (fits : List Byte → Prop) (s : State) : Prop :=
  (¬ inputFits s → exec i s = .next (faulted op 0x41 s.ilen s)) ∧
  (inputFits s → ¬ fits s.input → exec i s = .next (faulted op 0x44 s.ilen { s with ipos := 0 }))

/-- The extensions `exts'` are `exts` with kind `k` set to `new` (R149): removed by an empty block, replaced in its place, or put at the
end. -/
def ExtReplaced (exts : List (ExtKind × List Byte)) (k : ExtKind) (new : List Byte) (exts' : List (ExtKind × List Byte)) : Prop :=
  (new = [] ∧ exts' = exts.filter (fun e => decide (e.1 ≠ k))) ∨
  (new ≠ [] ∧ k ∉ exts.map (fun e => e.1) ∧ exts' = exts ++ [(k, new)]) ∨
  (new ≠ [] ∧ ∃ a old b, exts = a ++ (k, old) :: b ∧ exts' = a ++ (k, new) :: b)

/-- `d'` is `d` with the block that `BKIND` and `FIDX` select replaced by the input, which the block's kind takes (R96, R149, R150). -/
def BlockReplaced (s : State) (d d' : Doc) : Prop :=
  (s.bkind = 0 ∧ s.input.length = 6 ∧ d' = { d with header := s.input }) ∨
  (s.bkind = 1 ∧ s.input.length = 7 ∧ d' = { d with lsd := s.input }) ∨
  (s.bkind = 2 ∧ d' = { d with gct := s.input }) ∨
  (s.bkind = 3 ∧ s.input = [0x3B] ∧ d' = { d with trailer := s.input }) ∨
  (∃ pre f post f', d.frames = pre ++ f :: post ∧ pre.length = s.fidx.toNat ∧ d' = { d with frames := pre ++ f' :: post } ∧
    ((s.bkind = 8 ∧ s.input.length = 10 ∧ f' = { f with id := s.input }) ∨
      (s.bkind = 9 ∧ f' = { f with lct := s.input }) ∨
      (s.bkind = 10 ∧ f' = { f with idb := s.input }) ∨
      (∃ k exts', (s.bkind.toNat, k) ∈ [(4, ExtKind.gce), (5, .app), (6, .pte), (7, .com)] ∧
        (f.exts.map (fun e => e.1)).Nodup ∧ (k = .gce → s.input.length = 8 ∨ s.input = []) ∧
        (k = .app → s.input.length = 19 ∨ s.input = []) ∧ ExtReplaced f.exts k s.input exts' ∧ f' = { f with exts := exts' })))

/-! ### Shapes of the container stream -/

/-- The bytes of a chain with the given sub-blocks (R109). -/
def chainBytes (blocks : List (List Byte)) : List Byte :=
  (blocks.map (fun b => BitVec.ofNat 8 b.length :: b)).flatten ++ [0]

/-- A sub-block chain: sub-blocks of 1 to 255 payload bytes, then the zero byte (R109). -/
def IsChain (bs : List Byte) : Prop :=
  ∃ blocks : List (List Byte), (∀ b ∈ blocks, 1 ≤ b.length ∧ b.length ≤ 255) ∧ bs = chainBytes blocks

/-- The bytes of an extension block of each kind (R97, R135 to R138). -/
def ExtShape (k : ExtKind) (bs : List Byte) : Prop :=
  match k with
  | .gce => ∃ x, x.length = 6 ∧ bs = 0x21 :: 0xF9 :: x
  | .app => ∃ x, x.length = 17 ∧ bs = 0x21 :: 0xFF :: x
  | .pte => ∃ x c, x.length ≤ 255 ∧ IsChain c ∧ bs = 0x21 :: 0x01 :: BitVec.ofNat 8 x.length :: (x ++ c)
  | .com => ∃ c, IsChain c ∧ bs = 0x21 :: 0xFE :: c

/-- The bytes of an image: descriptor, local table, data block (R97, R106, R107, R108). -/
def ImageShape (id lct idb : List Byte) : Prop :=
  id.length = 10 ∧ id.head? = some 0x2C ∧
  (if 128 ≤ (id.getD 9 0).toNat then lct.length = 3 * 2 ^ ((id.getD 9 0).toNat % 8 + 1) else lct = []) ∧
  ∃ m c, IsChain c ∧ idb = m :: c

/-- A frame as a parse cuts it (R36.3, R36.5, R152). -/
def FrameShape (f : Frame) : Prop :=
  (f.exts.map (fun e => e.1)).Nodup ∧ (∀ e ∈ f.exts, ExtShape e.1 e.2) ∧ ImageShape f.id f.lct f.idb

/-- A document as a parse cuts it (R36, R97). -/
def DocShape (d : Doc) : Prop :=
  d.header.length = 6 ∧ d.lsd.length = 7 ∧ d.gct.length = 3 * 2 ^ ((d.lsd.getD 4 0).toNat % 8 + 1) ∧
  (∀ f ∈ d.frames, FrameShape f) ∧ d.trailer = [0x3B]

/-- The document fits the block store (R9, R145). -/
def docFits (caps : Caps) (d : Doc) : Prop :=
  (∀ c, caps.bstore = some c → d.bytes.length ≤ c) ∧ (∀ c, caps.frames = some c → d.frames.length ≤ c)

/-- A frame attempt waits for its next item: `SEQ.PARSE` runs with working state `w`, and the host waits for its end. -/
def AttemptWaits (w : ParseWork) (s : State) : Prop :=
  s.busy = true ∧ s.todo = [] ∧ s.work = .parse w ∧ s.grant = none

/-- The input from the cursor on starts with `bs` (R30: the "remaining byte slice"). -/
def CursorAt (bs : List Byte) (s : State) : Prop := bs <+: s.input.drop s.ipos.toNat

/-- The item at the cursor is whole and may join the frame attempt `w` (R134, R141, R152). -/
def ItemFits (i : Instr) (w : ParseWork) (s : State) : Prop :=
  (∃ k bs, (k, i) ∈ [(ExtKind.gce, Instr.extGce), (.app, .extApp), (.pte, .extPte), (.com, .extCom)] ∧
    k ∉ w.exts.map (fun e => e.1) ∧ ExtShape k bs ∧ CursorAt bs s) ∨
  (i = .img ∧ ∃ id lct idb, ImageShape id lct idb ∧ CursorAt (id ++ lct ++ idb) s)

/-- What a decode error of the frame attempt `w` leads to (R141, R142, R143, R145): the attempt is undone and the one byte left must be the
trailer. -/
def framesEnd (w : ParseWork) (s : State) : State :=
  if s.ilen.toNat - w.start ≠ 1 then
    stopped 0x11 (Word.ofNat w.start) { s with ipos := Word.ofNat w.start }
  else if s.ibufAt w.start ≠ 0x3B then
    stopped 0x12 (Word.ofNat w.start) { s with ipos := Word.ofNat w.start }
  else if s.caps.bstore.all (fun c => decide ((Doc.bytes ⟨w.header, w.lsd, w.gct, w.frames, [0x3B]⟩).length ≤ c)) then
    ended { s with ipos := Word.ofNat (w.start + 1), doc := some ⟨w.header, w.lsd, w.gct, w.frames, [0x3B]⟩ }
  else stopped 0x42 0 { s with ipos := Word.ofNat (w.start + 1) }

/-- A code of `w.width` bits waits in the accumulator of a running `LZW.DEC`, and the host waits for its end. -/
def CodeWaits (w : DecWork) (s : State) : Prop :=
  s.busy = true ∧ s.todo = [] ∧ s.work = .dec w ∧ s.grant = none ∧ w.width ≤ w.nb

/-! ### The code stream -/

/-- The least `m` with `n < 2^m`, for `n < 2^16`: the length of the shortest binary form (R11). -/
def shortestForm (n : Nat) : Nat := ((List.range 17).find? (fun m => decide (n < 2 ^ m))).getD 17

/-- `m` of R211: the bit length of `CTCNT - 1` with a table, of the largest symbol without. -/
def codeSize (s : State) : Nat :=
  shortestForm (if s.ctcnt = 0 then (s.symbols.map BitVec.toNat).foldr max 0 else s.ctcnt.toNat - 1)

/-- The codes written after the first Clear code, each with its width, for the symbols still to come and the encoder's dictionary (in code
order), width and candidate prefix (R215 to R220, R223). -/
def encCodes (mcs : Nat) : List Symbol → List (List Symbol) → Nat → List Symbol → List (Nat × Nat)
  | [], dict, width, pre =>
    if pre = [] then [(2 ^ mcs + 1, width)]
    else
      [(dict.idxOf pre, width),
        (2 ^ mcs + 1, if 2 ^ width < dict.length + 1 ∧ width < 12 then width + 1 else width)]
  | x :: xs, dict, width, pre =>
    if pre ++ [x] ∈ dict then encCodes mcs xs dict width (pre ++ [x])
    else
      let dict' := dict ++ [pre ++ [x]]
      let width' := if 2 ^ width < dict'.length ∧ width < 12 then width + 1 else width
      (dict.idxOf pre, width) ::
        (if dict'.length = 4096 then
          (2 ^ mcs, width') :: encCodes mcs xs ((List.range (2 ^ mcs + 2)).map (fun i => [BitVec.ofNat 16 i])) (mcs + 1) [x]
        else encCodes mcs xs dict' width' [x])

/-- The code stream of a symbol sequence: Clear, then its codes, then End-of-Information (R212, R213, R223). -/
def codeStream (mcs : Nat) (xs : List Symbol) : List (Nat × Nat) :=
  (2 ^ mcs, mcs + 1) ::
    encCodes mcs xs ((List.range (2 ^ mcs + 2)).map (fun i => [BitVec.ofNat 16 i])) (mcs + 1) []

/-- The bits of a code stream, each code least significant bit first (R63). -/
def codeBits (codes : List (Nat × Nat)) : List Bool := codes.flatMap (fun c => (List.range c.2).map (Nat.testBit c.1))

/-- The bits of a byte sequence, bit 0 of each byte first (R63). -/
def byteBits (bytes : List Byte) : List Bool := bytes.flatMap (fun b => (List.range 8).map b.getLsbD)

/-- The payload bytes carry exactly these codes; fewer than 8 zero bits pad the last byte (R114, R222, R228.4). -/
def CarriesCodes (codes : List (Nat × Nat)) (payload : List Byte) : Prop :=
  ∃ pad, pad < 8 ∧ byteBits payload = codeBits codes ++ List.replicate pad false

/-- Sub-blocks of 1 to 255 payload bytes (R109). -/
def SubBlocks (blocks : List (List Byte)) : Prop := ∀ b ∈ blocks, 1 ≤ b.length ∧ b.length ≤ 255

/-- An ImageDataBlock that carries the encoding of a symbol sequence, however its payload is cut into sub-blocks (R114). -/
def EncodedBlock (mcs : Nat) (xs : List Symbol) (bytes : List Byte) : Prop :=
  ∃ blocks, SubBlocks blocks ∧ CarriesCodes (codeStream mcs xs) blocks.flatten ∧
    bytes = BitVec.ofNat 8 mcs :: chainBytes blocks

/-! ### Invariants -/

/-- Every memory is in its canonical form. -/
def MemoriesCanonical (s : State) : Prop :=
  Memory.wf s.ibuf ∧ Memory.wf s.obuf ∧ Memory.wf s.sin ∧ Memory.wf s.sout ∧ Memory.wf s.ctm ∧ Memory.wf s.comb

/-- Every cell that has a value, or that a pending micro-step will write, has an index of its space (R60). -/
def CellsExist (s : State) : Prop :=
  (∀ x ∈ s.ibuf, cellExists s .ibuf x.1 = true) ∧ (∀ x ∈ s.obuf, cellExists s .obuf x.1 = true) ∧
  (∀ x ∈ s.sin, cellExists s .sin x.1 = true) ∧ (∀ x ∈ s.sout, cellExists s .sout x.1 = true) ∧
  (∀ x ∈ s.ctm, cellExists s .ctm x.1 = true) ∧ (∀ x ∈ s.comb, cellExists s .comb x.1 = true) ∧
  ∀ m ∈ s.todo, (∀ k c, m = .ctm k c → k < 256) ∧ (∀ k b, m = .comb k b → k < 255)

/-- The flags and the fault registers agree (R24, R25, R305): `DONE` is never set with `FAULT` or `BUSY`; `NP` implies `DONE`; `FCAUSE` is non-zero
under `FAULT`; the only command that runs under `FAULT` is `SYS.CLRFAULT`, before its first micro-step.  (A `SYS.CLRFAULT` that is aborted after it
leaves `FCAUSE` without `FAULT`, R271, R272.) -/
def StatusConsistent (s : State) : Prop :=
  (s.done = true → s.fault = false ∧ s.busy = false) ∧ (s.np = true → s.done = true) ∧
  (s.fault = true → s.fcause ≠ 0) ∧
  (s.busy = true → s.fault = true → s.work = .idle ∧ s.todo = clearFaultMicros ++ [.finish false])

/-- What `SEQ.SETBLK` keeps of a document (R36.1, R36.2, R36.3). -/
def DocKept (d : Doc) : Prop :=
  d.header.length = 6 ∧ d.lsd.length = 7 ∧ d.trailer = [0x3B] ∧
  ∀ f ∈ d.frames, f.id.length = 10 ∧ (f.exts.map (fun e => e.1)).Nodup ∧
    ∀ e ∈ f.exts, (e.1 = .gce → e.2.length = 8) ∧ (e.1 = .app → e.2.length = 19)

/-- The parts of a document being cut are as they will stand in it. -/
def ParseKept (w : ParseWork) : Prop := DocKept ⟨w.header, w.lsd, w.gct, w.frames ++ [⟨w.exts, List.replicate 10 0, [], []⟩], [0x3B]⟩

/-- The working state of the parser, if there is one, is as it will stand in the document. -/
def WorkKept (w : Work) : Prop := ∀ p, w = .parse p → ParseKept p

/-- The document, and every document and working state a pending micro-step will store, keep R36.1, R36.2, R36.3. -/
def DocumentKept (s : State) : Prop :=
  (∀ d, s.doc = some d → DocKept d) ∧ WorkKept s.work ∧
  ∀ m ∈ s.todo, (∀ d, m = .doc d → DocKept d) ∧ (∀ w, m = .work w → WorkKept w)

/-- The encoder's working state is in range between two symbols (R37, R40, R41, R216, R217). -/
def EncInRange (w : EncWork) : Prop :=
  2 ≤ w.mcs ∧ w.mcs ≤ 11 ∧ w.mcs + 1 ≤ w.width ∧ w.width ≤ 12 ∧
  2 ^ w.mcs + 2 ≤ w.dict.length ∧ w.dict.length < 4096 ∧ w.dict.length ≤ 2 ^ w.width ∧
  w.nb ≤ 7 ∧ w.sb.length ≤ 254

/-- The decoder's working state is in range (R38, R40, R251). -/
def DecInRange (w : DecWork) : Prop :=
  2 ≤ w.mcs ∧ w.mcs ≤ 11 ∧ w.mcs + 1 ≤ w.width ∧ w.width ≤ 12 ∧
  2 ^ w.mcs + 2 ≤ w.dict.length ∧ w.dict.length ≤ 4096 ∧ (w.width < 12 → w.dict.length < 2 ^ w.width) ∧
  w.nb ≤ 19 ∧ w.acc < 2 ^ w.nb ∧ w.rem ≤ 255 ∧ (w.prev = none → w.dict = initDict w.mcs)

/-- The working state of a running LZW command is in range. -/
def LzwWorkInRange (w : Work) : Prop := (∀ e, w = .enc e → EncInRange e) ∧ (∀ d, w = .dec d → DecInRange d)

/-- So is every working state a pending micro-step will store. -/
def LzwInRange (s : State) : Prop := LzwWorkInRange s.work ∧ ∀ m ∈ s.todo, ∀ w, m = .work w → LzwWorkInRange w

end Sys2Proof.Machine
end

