-- ==== Sys2Proof/Certificates/Slice0/Obligations.lean ====
section
/-!
DEFINITION. The statements for the provers.
-/

open Sys2Proof Sys2Proof.Machine

/-! ### Encodings -/

/-- The words of spec/30_encoding.md R91, R101 and R115, written out bit by bit, decode to their instructions. -/
def Obligations.SampleWordsDecode : Prop :=
  decode (.cmd 0b00000000) = .ok .sysNop ∧ decode (.cmd 0b00000011) = .ok .sysReset ∧
  decode (.cmd 0b00010000) = .ok .seqParse ∧ decode (.cmd 0b00010011) = .ok .seqSetblk ∧
  decode (.cmd 0b00100000) = .ok .fldUnpackLsd ∧ decode (.cmd 0b00101101) = .ok .fldPackU16 ∧
  decode (.cmd 0b00110000) = .ok .lzwEnc ∧ decode (.cmd 0b00110001) = .ok .lzwDec ∧
  decode (.blk [0b00100001, 0b11111001, 0b00000100]) = .ok .extGce ∧
  decode (.blk [0b00100001, 0b00000001]) = .ok .extPte ∧
  decode (.blk [0b00101100, 0b00000000]) = .ok .img ∧ decode (.blk [0b00111011]) = .ok .trailer ∧
  decode (.code 3 8 0b01000100) = .ok (.lzwCode 3 4) ∧ decode (.code 12 16 0b0111100000000000) = .ok (.lzwCode 12 2048)

/-- Decoding an encoded well-formed instruction gives it back, whatever bytes or bits follow it in its stream; and what decodes is
well-formed and begins with its encoding. -/
def Obligations.DecodeEncodeAgree : Prop :=
  (∀ i : Instr, i.wf = true → decode (encode i) = .ok i) ∧
  (∀ (i : Instr) (bs rest : List Byte), encode i = .blk bs → decode (.blk (bs ++ rest)) = .ok i) ∧
  (∀ (i : Instr) (width n acc nb acc' : Nat), i.wf = true → encode i = .code width n acc → width ≤ nb →
    acc' % 2 ^ width = acc → decode (.code width nb acc') = .ok i) ∧
  (∀ (e : Encoded) (i : Instr), decode e = .ok i → i.wf = true ∧
    match e with
    | .cmd op => encode i = .cmd op
    | .blk bytes => ∃ bs rest, encode i = .blk bs ∧ bytes = bs ++ rest
    | .code width nb acc => encode i = .code width width (acc % 2 ^ width) ∧ width ≤ nb)

/-- Reserved encodings are refused: the opcodes that are commands are exactly the 24 of R91, and an introducer selects a block exactly with
the four labels of R101. -/
def Obligations.ReservedEncodingsRefused : Prop :=
  (∀ op : Byte, (∃ i, decode (.cmd op) = .ok i) ↔
    op ∈ ([0x00, 0x01, 0x02, 0x03, 0x10, 0x11, 0x12, 0x13, 0x20, 0x21, 0x22, 0x23, 0x24, 0x25, 0x26, 0x27, 0x28, 0x29,
      0x2A, 0x2B, 0x2C, 0x2D, 0x30, 0x31] : List Byte)) ∧
  (∀ (label : Byte) (rest : List Byte), (∃ i, decode (.blk (0x21 :: label :: rest)) = .ok i) ↔
    label ∈ ([0xF9, 0xFF, 0x01, 0xFE] : List Byte)) ∧
  (∀ (b : Byte) (rest : List Byte), b ≠ 0x21 →
    ((∃ i, decode (.blk (b :: rest)) = .ok i) ↔ b = 0x2C ∨ b = 0x3B)) ∧
  (∀ width nb acc : Nat, (∃ i, decode (.code width nb acc) = .ok i) ↔ 3 ≤ width ∧ width ≤ 12 ∧ width ≤ nb)

/-! ### A step runs the decoded instruction -/

/-- A step runs the instruction that decodes where it is fetched, by `exec`.  When the host's move is a write to `CMD` (R23, R274): the opcode's command, the
action taken off the host program and its pace noted.  When it is the core's move: the item at the cursor of `IBUF` for `SEQ.PARSE` (R30, R101), the
code in the accumulator for `LZW.DEC` (R115, R244); one of the steps left to the core is used up.  Host program and pace are the
model's own (log entry 4), and so is `endIfDone`: where the host interleaves, a command with no micro-step left ends at once (R274). -/
def Obligations.StepRunsDecodedInstruction : Prop :=
  (∀ (s : State) (v : Word) (pace : Option Nat) (rest : List HostAction) (i : Instr),
     (s.busy = false ∨ hostMoves s = true) → decode (.cmd (v.setWidth 8)) = .ok i →
     (s.host = .cmd v pace :: rest → step s = exec i { s with host := rest, grant := pace }) ∧
     (s.host = .wr 0 v :: rest → step s = exec i { s with host := rest, grant := none })) ∧
  (∀ (s : State) (i : Instr), s.busy = true → hostMoves s = false → s.todo = [] →
     ((∃ w, s.work = .parse w ∧ decode (.blk (s.input.drop s.ipos.toNat)) = .ok i) ∨
       (∃ w, s.work = .dec w ∧ decode (.code w.width w.nb w.acc) = .ok i)) →
     (s.grant = none → step s = exec i s) ∧
     (∃ t, exec i (spendGrant s) = .next t ∧ step s = .next (endIfDone t)))

/-! ### System commands and the life of a command -/

/-- `SYS.NOP` (R270).  That the command it refuses while `FAULT = 1` has a next state, with only `CMD` changed, is the model's choice (R306 asks a model not
to let a program rely on it; log entry 6). -/
def Obligations.NopOnlyCompletes : Prop :=
  (∀ s, Starts s → exec .sysNop s = .next (finished 0x00 false s)) ∧
  (∀ s, s.fault = true → exec .sysNop s = .next { s with cmd := 0x00 }) ∧
  (∀ t, exec .sysNop State.reset = .next t → statusWord t = 0x02)

/-- `SYS.CLRFAULT` (R271): accepted whether or not `FAULT` is set; it clears the fault record and restores nothing else. -/
def Obligations.ClrfaultClearsTheRecord : Prop :=
  ∀ s, s.busy = false → s.grant = none →
    exec .sysClrfault s = .next (finished 0x01 false { s with fault := false, fcause := 0, finfo := 0 })

/-- `SYS.ABORT` (R272): it stops a running command where it stands; without one it is a command like `SYS.NOP`; under `FAULT` it is
refused.  That the refused one has a next state, with only `CMD` changed, is the model's choice (R306; log entry 6). -/
def Obligations.AbortStops : Prop :=
  (∀ s, s.busy = true → exec .sysAbort s = .next { s with cmd := 0x02, busy := false, work := .idle, todo := [] }) ∧
  (∀ s, Starts s → exec .sysAbort s = .next (finished 0x02 false s)) ∧
  (∀ s, s.busy = false → s.fault = true → exec .sysAbort s = .next { s with cmd := 0x02 })

/-- `SYS.RESET` and the reset line (R273, R330): accepted in every state; every register reads 0, there is no document and no working state and
no cell has a value.  That the capacities, the host program and the count of resets live on is the model's (log entries 1, 2, 11). -/
def Obligations.ResetRestores : Prop :=
  ∀ s : State, ∃ t, exec .sysReset s = .next t ∧ hostAct .resetLine s = .next t ∧
    (∀ n, n < 0x80 → readReg t n = some 0) ∧ t.doc = none ∧ t.work = .idle ∧ t.todo = [] ∧
    t.ibuf = [] ∧ t.obuf = [] ∧ t.sin = [] ∧ t.sout = [] ∧ t.ctm = [] ∧ t.comb = [] ∧
    t.caps = s.caps ∧ t.host = s.host ∧ t.grant = s.grant ∧ t.era = s.era + 1

/-- The state after power-on (R45): every register the host can read is 0, no document, no working state, no cell of any memory with a
value (R44). -/
def Obligations.ResetValues : Prop :=
  (∀ n, n < 0x80 → readReg State.reset n = some 0) ∧ State.reset.doc = none ∧ State.reset.work = .idle ∧
  State.reset.todo = [] ∧ (∀ m i, readCell State.reset m i = none) ∧
  (∀ a, Memory.read State.reset.ibuf a = none) ∧ (∀ a, Memory.read State.reset.sin a = none) ∧
  (∀ a, Memory.read State.reset.obuf a = none) ∧ (∀ a, Memory.read State.reset.sout a = none) ∧
  (∀ a, Memory.read State.reset.ctm a = none) ∧ (∀ a, Memory.read State.reset.comb a = none)

/-- A command that is turned away (R274, R306, R341), or a reserved opcode written while `BUSY = 1` or `FAULT = 1` (R95: `BAD_COMMAND` only with
both 0), changes nothing but what `CMD` reads.  (That it has a next state is the model's choice: R306 asks a model not to let a program rely on it, and
`SafeStep` of Safety.lean excludes it; log entry 6.) -/
def Obligations.TurnedAwayChangesOnlyCmd : Prop :=
  (∀ (i : Instr) (op : Byte) (s : State), IsCommand i op → TurnedAway op s → exec i s = .next { s with cmd := op }) ∧
  (∀ (s : State) (v : Word) (rest : List HostAction) (e : DecodeError), decode (.cmd (v.setWidth 8)) = .error e →
     (s.busy = false ∨ hostMoves s = true) → (s.busy = true ∨ s.fault = true) →
     (∀ pace, s.host = .cmd v pace :: rest → step s = .next { s with cmd := v.setWidth 8, host := rest, grant := pace }) ∧
     (s.host = .wr 0 v :: rest → step s = .next { s with cmd := v.setWidth 8, host := rest, grant := none }))

/-- A reserved opcode (R95, R300) written by the host: `BAD_COMMAND` with the opcode, nothing else. -/
def Obligations.ReservedOpcodeFaults : Prop :=
  ∀ (s : State) (v : Word) (rest : List HostAction) (e : DecodeError),
    s.host = .cmd v none :: rest → s.busy = false → s.fault = false → decode (.cmd (v.setWidth 8)) = .error e →
    step s = .next (faulted (v.setWidth 8) 0x40 (v &&& 0xFF) { s with host := rest, grant := none })

/-- Every command that starts, ends (R274): completion without fault, or a fault without completion.  (`SYS.RESET`, which sets neither, apart.) -/
def Obligations.EveryCommandEnds : Prop :=
  ∀ (i : Instr) (op : Byte) (s : State), IsCommand i op → op ≠ 0x03 → Starts s →
    ∃ t, exec i s = .next t ∧ t.busy = false ∧ t.done = !t.fault ∧ t.work = .idle ∧ t.todo = [] ∧ t.cmd = op

/-- A command run one micro-step at a time by a host that only waits ends in the state its atomic run gives (R274). -/
def Obligations.PacedRunReachesAtomicResult : Prop :=
  ∀ (i : Instr) (op : Byte) (s t : State) (n : Nat), IsCommand i op → Starts s → s.host = [] → exec i s = .next t →
    ∃ u k m, exec i { s with grant := some n } = .next u ∧
      Host.Core.run Sys2Proof.core k u = .next { t with grant := some m }

/-! ### SEQ.PARSE -/

/-- The parser accepts every stream of the grammar (R97, R130): the document is the one its blocks spell, and nothing but `DOC`, `IPOS` and the
flags changes (R143). -/
def Obligations.ParseAcceptsTheGrammar : Prop :=
  ∀ (s : State) (d : Doc), Starts s → inputFits s → DocShape d → docFits s.caps d → s.input = d.bytes →
    exec .seqParse s = .next (finished 0x10 false { s with doc := some d, ipos := s.ilen })

/-- What the parser accepts is a stream of the grammar (R97, R143): a completed `SEQ.PARSE` leaves a document of the right shape that spells the
input and fits the store, and changes nothing but `DOC`, `IPOS` and the flags. -/
def Obligations.ParsedDocumentSpellsTheInput : Prop :=
  ∀ s t : State, Starts s → exec .seqParse s = .next t → t.done = true →
    inputFits s ∧ ∃ d, DocShape d ∧ docFits s.caps d ∧ d.bytes = s.input ∧
      t = finished 0x10 false { s with doc := some d, ipos := s.ilen }

/-- A `SEQ.PARSE` of anything else faults with one of its own faults and leaves no document, neither the old one nor part of a new one (R144,
R130); `OBUF`, the field registers and the other operands stay.  Nor is there a document at any moment while a `SEQ.PARSE` runs step by step, so an
aborted one leaves none (R272). -/
def Obligations.FailedParseLeavesNoDocument : Prop :=
  (∀ s : State, Starts s → (¬ ∃ d, DocShape d ∧ docFits s.caps d ∧ d.bytes = s.input) →
    ∃ cause info p, exec .seqParse s = .next (faulted 0x10 cause info { s with doc := none, ipos := p }) ∧
      cause ∈ ([0x10, 0x11, 0x12, 0x41, 0x42] : List Byte)) ∧
  (∀ (s u v : State) (n k : Nat), Starts s → s.host = [] → exec .seqParse { s with grant := some n } = .next u →
    Host.Core.run Sys2Proof.core k u = .next v → v.busy = true → v.doc = none)

/-- Truncation before the frames (R131, R132, R292): `FMT_TRUNCATED` with the offset of the item that does not fit, 0, 6 or 13; an input
beyond `IBUF_SIZE` is `BAD_OPERAND` before that (R301), the old document gone all the same (R144). -/
def Obligations.ParseTruncatedBeforeFrames : Prop :=
  ∀ s : State, Starts s →
    (¬ inputFits s → exec .seqParse s = .next (faulted 0x10 0x41 s.ilen { s with doc := none, ipos := 0 })) ∧
    (inputFits s → s.input.length < 6 →
      exec .seqParse s = .next (faulted 0x10 0x10 0 { s with doc := none, ipos := 0 })) ∧
    (inputFits s → 6 ≤ s.input.length → s.input.length < 13 →
      exec .seqParse s = .next (faulted 0x10 0x10 6 { s with doc := none, ipos := 6 })) ∧
    (inputFits s → 13 ≤ s.input.length →
      s.input.length < 13 + 3 * 2 ^ ((s.input.getD 10 0).toNat % 8 + 1) →
      exec .seqParse s = .next (faulted 0x10 0x10 13 { s with doc := none, ipos := 13 }))

/-- `Serializer(BlockParser(bytes)) == bytes` (R162, R14.1): after a `SEQ.PARSE` that completed, `SEQ.SERIALIZE` outputs exactly the parsed
bytes. -/
def Obligations.SerializerInvertsParser : Prop :=
  ∀ s t : State, Starts s → exec .seqParse s = .next t → t.done = true → s.ilen.toNat ≤ outLimit s.caps.obuf →
    exec .seqSerialize t = .next (finished 0x11 false { t with obuf := cells s.input, olen := s.ilen })

/-! ### The items of the container stream -/

/-- A whole extension of a kind the attempt does not have yet joins it, in the order met; the cursor goes behind it (R134 to R138, R151). -/
def Obligations.ExtensionJoinsAttempt : Prop :=
  ∀ (s : State) (w : ParseWork) (k : ExtKind) (i : Instr) (bs : List Byte),
    (k, i) ∈ [(ExtKind.gce, Instr.extGce), (.app, .extApp), (.pte, .extPte), (.com, .extCom)] →
    AttemptWaits w s → k ∉ w.exts.map (fun e => e.1) → ExtShape k bs → CursorAt bs s →
    exec i s = .next { s with
      ipos := s.ipos + Word.ofNat bs.length
      work := .parse { w with exts := w.exts ++ [(k, bs)] } }

/-- A whole image ends the attempt with a frame (R133, R139, R140), or with `CAPACITY` when `FRAMES_MAX` frames are there already (R145,
R303). -/
def Obligations.ImageMakesAFrame : Prop :=
  ∀ (s : State) (w : ParseWork) (id lct idb : List Byte),
    AttemptWaits w s → ImageShape id lct idb → CursorAt (id ++ lct ++ idb) s →
    ((∀ c, s.caps.frames = some c → w.frames.length < c) →
      exec .img s = .next { s with
        ipos := s.ipos + Word.ofNat (id ++ lct ++ idb).length
        work := .parse { w with
          frames := w.frames ++ [⟨w.exts, id, lct, idb⟩]
          start := s.ipos.toNat + (id ++ lct ++ idb).length
          exts := [] } }) ∧
    (∀ c, s.caps.frames = some c → c ≤ w.frames.length →
      exec .img s = .next (stopped 0x42 (Word.ofNat w.start)
        { s with ipos := s.ipos + Word.ofNat (id ++ lct ++ idb).length }))

/-- `TRAILER` where a frame may begin ends the frame loop (R141): the attempt is undone, and the command completes if exactly the trailer is
left, else it faults (R142, R143).  So does any item the decoder reads at the cursor that is not whole, or whose kind the attempt has already (R141,
R152), and whatever the decoder refuses there: no byte, no label, an unknown label (R153), a byte that begins no block.  None has a fault of its
own. -/
def Obligations.DecodeErrorEndsFrames : Prop :=
  (∀ (s : State) (w : ParseWork), AttemptWaits w s → exec .trailer s = .next (framesEnd w s)) ∧
  (∀ (s : State) (w : ParseWork) (i : Instr), AttemptWaits w s →
     decode (.blk (s.input.drop s.ipos.toNat)) = .ok i → ¬ ItemFits i w s → exec i s = .next (framesEnd w s)) ∧
  (∀ (s : State) (w : ParseWork) (e : DecodeError), AttemptWaits w s →
     decode (.blk (s.input.drop s.ipos.toNat)) = .error e → step s = .next (framesEnd w s))

/-! ### SEQ.SERIALIZE, SEQ.GETBLK, SEQ.SETBLK -/

/-- `SEQ.SERIALIZE` (R160, R161, R303): the blocks in order, extensions as listed in each frame; `DOC` stays.  That an output of more than 2^32 - 1 bytes
is `CAPACITY` even where `OBUF_SIZE` is larger or unbounded is the model's choice (log entry 5). -/
def Obligations.SerializeEmitsTheDocument : Prop :=
  ∀ (s : State) (d : Doc), Starts s → s.doc = some d →
    exec .seqSerialize s = .next (emitted 0x11
      (d.header ++ d.lsd ++ d.gct ++
        d.frames.flatMap (fun f => f.exts.flatMap (fun e => e.2) ++ f.id ++ f.lct ++ f.idb) ++ d.trailer) s)

/-- `SEQ.SERIALIZE`, `SEQ.GETBLK` and `SEQ.SETBLK` without a document (R163): `NO_DOCUMENT`, no output. -/
def Obligations.NoDocumentFaults : Prop :=
  ∀ s : State, Starts s → s.doc = none →
    exec .seqSerialize s = .next (faulted 0x11 0x43 0 s) ∧ exec .seqGetblk s = .next (faulted 0x12 0x43 0 s) ∧
    exec .seqSetblk s = .next (faulted 0x13 0x43 0 s)

/-- `SEQ.GETBLK` (R147): a document's own block for `BKIND` 0 to 3, whatever `FIDX` is; the frame's extension of the kind, descriptor, table or data block
for 4 to 10, as many bytes as fit (R303); an absent extension completes with `NP = 1`, no output and no fault (R148).  That a block of more than 2^32 - 1 bytes
is `CAPACITY` even where `OBUF_SIZE` is larger or unbounded is the model's choice (log entry 5). -/
def Obligations.GetblkCopiesOneBlock : Prop :=
  (∀ (s : State) (d : Doc), Starts s → s.doc = some d →
     (s.bkind = 0 → exec .seqGetblk s = .next (emitted 0x12 d.header s)) ∧
     (s.bkind = 1 → exec .seqGetblk s = .next (emitted 0x12 d.lsd s)) ∧
     (s.bkind = 2 → exec .seqGetblk s = .next (emitted 0x12 d.gct s)) ∧
     (s.bkind = 3 → exec .seqGetblk s = .next (emitted 0x12 d.trailer s))) ∧
  (∀ (s : State) (d : Doc) (f : Frame), Starts s → s.doc = some d → d.frames[s.fidx.toNat]? = some f →
     (∀ p ∈ [(4, ExtKind.gce), (5, .app), (6, .pte), (7, .com)], s.bkind.toNat = p.1 →
       (∀ pre bs post, f.exts = pre ++ (p.2, bs) :: post → p.2 ∉ pre.map (fun e => e.1) →
         exec .seqGetblk s = .next (emitted 0x12 bs s)) ∧
       (p.2 ∉ f.exts.map (fun e => e.1) →
         exec .seqGetblk s = .next (finished 0x12 true { s with obuf := [], olen := 0 }))) ∧
     (s.bkind = 8 → exec .seqGetblk s = .next (emitted 0x12 f.id s)) ∧
     (s.bkind = 9 → exec .seqGetblk s = .next (emitted 0x12 f.lct s)) ∧
     (s.bkind = 10 → exec .seqGetblk s = .next (emitted 0x12 f.idb s)))

/-- The faults of `SEQ.GETBLK` and `SEQ.SETBLK` with a document (R96, R297, R301, R308): a reserved `BKIND` first; then, for a frame's block, `FIDX` at or
beyond the number of frames; then a block the kind does not take (R150); then a document beyond `BSTORE_SIZE` (R303).  `SEQ.GETBLK` has cleared `OLEN` by the frame test, `SEQ.SETBLK` has changed
nothing (R149, R305). -/
def Obligations.BlockCommandFaults : Prop :=
  (∀ (s : State) (d : Doc), Starts s → s.doc = some d →
     (10 < s.bkind.toNat → exec .seqGetblk s = .next (faulted 0x12 0x41 (s.bkind.setWidth 32) s) ∧
       exec .seqSetblk s = .next (faulted 0x13 0x41 (s.bkind.setWidth 32) s)) ∧
     (4 ≤ s.bkind.toNat → s.bkind.toNat ≤ 10 → d.frames.length ≤ s.fidx.toNat →
       exec .seqGetblk s = .next (faulted 0x12 0x20 s.fidx { s with obuf := [], olen := 0 }) ∧
       (inputFits s → exec .seqSetblk s = .next (faulted 0x13 0x20 s.fidx s))) ∧
     (s.bkind.toNat ≤ 10 → ¬ inputFits s → exec .seqSetblk s = .next (faulted 0x13 0x41 s.ilen s))) ∧
  (∀ (s : State) (d : Doc), Starts s → inputFits s → s.doc = some d →
     ((s.bkind = 0 ∧ s.input.length ≠ 6) ∨ (s.bkind = 1 ∧ s.input.length ≠ 7) ∨ (s.bkind = 3 ∧ s.input ≠ [0x3B]) ∨
       (s.fidx.toNat < d.frames.length ∧
         ((s.bkind = 4 ∧ s.input.length ≠ 8 ∧ s.input ≠ []) ∨ (s.bkind = 5 ∧ s.input.length ≠ 19 ∧ s.input ≠ []) ∨
           (s.bkind = 8 ∧ s.input.length ≠ 10)))) →
     exec .seqSetblk s = .next (faulted 0x13 0x47 (s.bkind.setWidth 32) s)) ∧
  (∀ (s : State) (d d' : Doc) (c : Nat), Starts s → inputFits s → s.doc = some d → BlockReplaced s d d' →
     s.caps.bstore = some c → c < d'.bytes.length → exec .seqSetblk s = .next (faulted 0x13 0x42 s.ilen s))

/-- `SEQ.SETBLK` replaces exactly the selected block by the input (R149); nothing but `DOC`, `IPOS` and the flags changes.  Given: the input fits,
the block kind takes it (R150) and the store holds the new document. -/
def Obligations.SetblkReplacesOneBlock : Prop :=
  ∀ (s : State) (d d' : Doc), Starts s → inputFits s → s.doc = some d →
    (∀ c, s.caps.bstore = some c → d'.bytes.length ≤ c) →
    ((s.bkind = 0 ∧ s.input.length = 6 ∧ d' = { d with header := s.input }) ∨
      (s.bkind = 1 ∧ s.input.length = 7 ∧ d' = { d with lsd := s.input }) ∨
      (s.bkind = 2 ∧ d' = { d with gct := s.input }) ∨
      (s.bkind = 3 ∧ s.input = [0x3B] ∧ d' = { d with trailer := s.input }) ∨
      (∃ pre f post, d.frames = pre ++ f :: post ∧ pre.length = s.fidx.toNat ∧
        ((s.bkind = 8 ∧ s.input.length = 10 ∧ d' = { d with frames := pre ++ { f with id := s.input } :: post }) ∨
          (s.bkind = 9 ∧ d' = { d with frames := pre ++ { f with lct := s.input } :: post }) ∨
          (s.bkind = 10 ∧ d' = { d with frames := pre ++ { f with idb := s.input } :: post })))) →
    exec .seqSetblk s = .next (finished 0x13 false { s with doc := some d', ipos := s.ilen })

/-- `SEQ.SETBLK` of an extension (R149): an empty input removes it, else it is replaced in its place or, where the frame has none of the kind,
put at the end. -/
def Obligations.SetblkChangesOneExtension : Prop :=
  ∀ (s : State) (d d' : Doc) (pre post : List Frame) (f : Frame) (k : ExtKind) (exts' : List (ExtKind × List Byte)),
    Starts s → inputFits s → s.doc = some d → d.frames = pre ++ f :: post → pre.length = s.fidx.toNat →
    (s.bkind.toNat, k) ∈ [(4, ExtKind.gce), (5, .app), (6, .pte), (7, .com)] → (f.exts.map (fun e => e.1)).Nodup →
    (k = .gce → s.input.length = 8 ∨ s.input = []) → (k = .app → s.input.length = 19 ∨ s.input = []) →
    ((s.input = [] ∧ exts' = f.exts.filter (fun e => decide (e.1 ≠ k))) ∨
      (s.input ≠ [] ∧ k ∉ f.exts.map (fun e => e.1) ∧ exts' = f.exts ++ [(k, s.input)]) ∨
      (s.input ≠ [] ∧ ∃ a old b, f.exts = a ++ (k, old) :: b ∧ exts' = a ++ (k, s.input) :: b)) →
    d' = { d with frames := pre ++ { f with exts := exts' } :: post } →
    (∀ c, s.caps.bstore = some c → d'.bytes.length ≤ c) →
    exec .seqSetblk s = .next (finished 0x13 false { s with doc := some d', ipos := s.ilen })

/-! ### The field codec -/

/-- `FLD.UNPACK_LSD` (R174, R170, R172): every register of the group from its bits, no other; nothing else but `IPOS` and the flags changes.
`FLD.PACK_LSD` (R175, R170, R303): the record the registers spell; the registers stay. -/
def Obligations.FieldCodecLsd : Prop :=
  (∀ s : State, Starts s → UnpackFaults .fldUnpackLsd 0x20 (fun raw => raw.length = 7) s ∧
     (inputFits s → ∀ b0 b1 b2 b3 b4 b5 b6 : Byte, s.input = [b0, b1, b2, b3, b4, b5, b6] →
       exec .fldUnpackLsd s = .next (finished 0x20 false { s with
         ipos := 7
         fld := { s.fld with
           lsdWidth := BitVec.ofNat 16 (b0.toNat + 256 * b1.toNat),
           lsdHeight := BitVec.ofNat 16 (b2.toNat + 256 * b3.toNat), lsdGcf := BitVec.ofNat 1 (b4.toNat / 128),
           lsdCres := BitVec.ofNat 3 (b4.toNat / 16), lsdSort := BitVec.ofNat 1 (b4.toNat / 8),
           lsdGctsz := BitVec.ofNat 3 b4.toNat, lsdBg := b5, lsdAspect := b6 } }))) ∧
  (∀ s : State, Starts s → exec .fldPackLsd s = .next (emitted 0x21
     [BitVec.ofNat 8 s.fld.lsdWidth.toNat, BitVec.ofNat 8 (s.fld.lsdWidth.toNat / 256),
       BitVec.ofNat 8 s.fld.lsdHeight.toNat, BitVec.ofNat 8 (s.fld.lsdHeight.toNat / 256),
       BitVec.ofNat 8 (128 * s.fld.lsdGcf.toNat + 16 * s.fld.lsdCres.toNat +
         8 * s.fld.lsdSort.toNat + s.fld.lsdGctsz.toNat),
       s.fld.lsdBg, s.fld.lsdAspect] s))

/-- `FLD.UNPACK_GCE` (R178, R170, R172): every register of the group from its bits, no other; nothing else but `IPOS` and the flags changes.
`FLD.PACK_GCE` (R179, R170, R303): the record the registers spell; the registers stay. -/
def Obligations.FieldCodecGce : Prop :=
  (∀ s : State, Starts s → UnpackFaults .fldUnpackGce 0x22 (fun raw => raw.length = 8) s ∧
     (inputFits s → ∀ b0 b1 b2 b3 b4 b5 b6 b7 : Byte, s.input = [b0, b1, b2, b3, b4, b5, b6, b7] →
       exec .fldUnpackGce s = .next (finished 0x22 false { s with
         ipos := 8
         fld := { s.fld with
           gceIntro := b0, gceLabel := b1, gceBsize := b2, gceRsvd := BitVec.ofNat 3 (b3.toNat / 32),
           gceDisp := BitVec.ofNat 3 (b3.toNat / 4), gceUin := BitVec.ofNat 1 (b3.toNat / 2),
           gceTcf := BitVec.ofNat 1 b3.toNat, gceDelay := BitVec.ofNat 16 (b4.toNat + 256 * b5.toNat), gceTci := b6,
           gceTerm := b7 } }))) ∧
  (∀ s : State, Starts s → exec .fldPackGce s = .next (emitted 0x23
     [s.fld.gceIntro, s.fld.gceLabel, s.fld.gceBsize,
       BitVec.ofNat 8 (32 * s.fld.gceRsvd.toNat + 4 * s.fld.gceDisp.toNat + 2 * s.fld.gceUin.toNat + s.fld.gceTcf.toNat),
       BitVec.ofNat 8 s.fld.gceDelay.toNat, BitVec.ofNat 8 (s.fld.gceDelay.toNat / 256), s.fld.gceTci, s.fld.gceTerm] s))

/-- `FLD.UNPACK_ID` (R182, R170, R172): every register of the group from its bits, no other; nothing else but `IPOS` and the flags changes.
`FLD.PACK_ID` (R183, R170, R303): the record the registers spell; the registers stay. -/
def Obligations.FieldCodecId : Prop :=
  (∀ s : State, Starts s → UnpackFaults .fldUnpackId 0x24 (fun raw => raw.length = 10) s ∧
     (inputFits s → ∀ b0 b1 b2 b3 b4 b5 b6 b7 b8 b9 : Byte, s.input = [b0, b1, b2, b3, b4, b5, b6, b7, b8, b9] →
       exec .fldUnpackId s = .next (finished 0x24 false { s with
         ipos := 10
         fld := { s.fld with
           idSep := b0, idLeft := BitVec.ofNat 16 (b1.toNat + 256 * b2.toNat),
           idTop := BitVec.ofNat 16 (b3.toNat + 256 * b4.toNat),
           idWidth := BitVec.ofNat 16 (b5.toNat + 256 * b6.toNat),
           idHeight := BitVec.ofNat 16 (b7.toNat + 256 * b8.toNat), idLctf := BitVec.ofNat 1 (b9.toNat / 128),
           idIlace := BitVec.ofNat 1 (b9.toNat / 64), idSort := BitVec.ofNat 1 (b9.toNat / 32),
           idRsvd := BitVec.ofNat 2 (b9.toNat / 8), idLctsz := BitVec.ofNat 3 b9.toNat } }))) ∧
  (∀ s : State, Starts s → exec .fldPackId s = .next (emitted 0x25
     [s.fld.idSep, BitVec.ofNat 8 s.fld.idLeft.toNat, BitVec.ofNat 8 (s.fld.idLeft.toNat / 256),
       BitVec.ofNat 8 s.fld.idTop.toNat, BitVec.ofNat 8 (s.fld.idTop.toNat / 256), BitVec.ofNat 8 s.fld.idWidth.toNat,
       BitVec.ofNat 8 (s.fld.idWidth.toNat / 256), BitVec.ofNat 8 s.fld.idHeight.toNat,
       BitVec.ofNat 8 (s.fld.idHeight.toNat / 256),
       BitVec.ofNat 8 (128 * s.fld.idLctf.toNat + 64 * s.fld.idIlace.toNat + 32 * s.fld.idSort.toNat +
         8 * s.fld.idRsvd.toNat + s.fld.idLctsz.toNat)] s))

/-- `FLD.UNPACK_APP` (R186, R170, R172): every register of the group from its bits, no other; nothing else but `IPOS` and the flags changes.
`FLD.PACK_APP` (R187, R170, R303): the record the registers spell; the registers stay. -/
def Obligations.FieldCodecApp : Prop :=
  (∀ s : State, Starts s → UnpackFaults .fldUnpackApp 0x26 (fun raw => raw.length = 19) s ∧
     (inputFits s → ∀ b0 b1 b2 b3 b4 b5 b6 b7 b8 b9 b10 b11 b12 b13 b14 b15 b16 b17 b18 : Byte,
       s.input = [b0, b1, b2, b3, b4, b5, b6, b7, b8, b9, b10, b11, b12, b13, b14, b15, b16, b17, b18] →
       exec .fldUnpackApp s = .next (finished 0x26 false { s with
         ipos := 19
         fld := { s.fld with
           appIntro := b0, appLabel := b1, appBsize := b2, appIdent0 := b3, appIdent1 := b4, appIdent2 := b5,
           appIdent3 := b6, appIdent4 := b7, appIdent5 := b8, appIdent6 := b9, appIdent7 := b10, appAuth0 := b11,
           appAuth1 := b12, appAuth2 := b13, appSblen := b14, appLoopind := b15,
           appLoopcnt := BitVec.ofNat 16 (b16.toNat + 256 * b17.toNat), appTerm := b18 } }))) ∧
  (∀ s : State, Starts s → exec .fldPackApp s = .next (emitted 0x27
     [s.fld.appIntro, s.fld.appLabel, s.fld.appBsize, s.fld.appIdent0, s.fld.appIdent1, s.fld.appIdent2,
       s.fld.appIdent3, s.fld.appIdent4, s.fld.appIdent5, s.fld.appIdent6, s.fld.appIdent7, s.fld.appAuth0,
       s.fld.appAuth1, s.fld.appAuth2, s.fld.appSblen, s.fld.appLoopind, BitVec.ofNat 8 s.fld.appLoopcnt.toNat,
       BitVec.ofNat 8 (s.fld.appLoopcnt.toNat / 256), s.fld.appTerm] s))

/-- `FLD.UNPACK_U16` (R198, R170, R172): every register of the group from its bits, no other; nothing else but `IPOS` and the flags changes.
`FLD.PACK_U16` (R199, R170, R303): the record the registers spell; the registers stay. -/
def Obligations.FieldCodecU16 : Prop :=
  (∀ s : State, Starts s → UnpackFaults .fldUnpackU16 0x2C (fun raw => raw.length = 2) s ∧
     (inputFits s → ∀ b0 b1 : Byte, s.input = [b0, b1] →
       exec .fldUnpackU16 s = .next (finished 0x2C false { s with
         ipos := 2
         fld := { s.fld with
           u16Val := BitVec.ofNat 16 (b0.toNat + 256 * b1.toNat) } }))) ∧
  (∀ s : State, Starts s → exec .fldPackU16 s = .next (emitted 0x2D
     [BitVec.ofNat 8 s.fld.u16Val.toNat, BitVec.ofNat 8 (s.fld.u16Val.toNat / 256)] s))

/-- `FLD.UNPACK_COM` (R190, R170, R172): exactly one sub-block; the body goes to `COMB`, cells beyond it stay.
`FLD.PACK_COM` (R191, R170, R303): the record with the first `COM_SIZE` cells of `COMB`.  A cell nothing has written counts with its
unspecified value, whatever that is (R44, log entry 2). -/
def Obligations.FieldCodecCom : Prop :=
  (∀ s : State, Starts s →
     UnpackFaults .fldUnpackCom 0x28 (fun raw => 4 ≤ raw.length ∧ raw.length = (raw.getD 2 0).toNat + 4) s ∧
     (inputFits s → ∀ (intro label term : Byte) (body : List Byte), body.length ≤ 255 →
       s.input = intro :: label :: BitVec.ofNat 8 body.length :: (body ++ [term]) →
       exec .fldUnpackCom s = .next (finished 0x28 false { s with
         ipos := s.ilen
         comb := Memory.fill s.comb 0 body
         fld := { s.fld with
           comIntro := intro, comLabel := label, comSize := BitVec.ofNat 8 body.length, comTerm := term } }))) ∧
  (∀ s : State, Starts s → exec .fldPackCom s = .next (emitted 0x29
     ([s.fld.comIntro, s.fld.comLabel, s.fld.comSize] ++ (List.range s.fld.comSize.toNat).map s.combAt ++ [s.fld.comTerm]) s))

/-- `FLD.UNPACK_CT` (R194, R64, R170, R172): whole entries, 256 at most; `CT_N` and that many cells of `CTM`.
`FLD.PACK_CT` (R195, R170, R301, R303): the first `CT_N` entries, red first; `CT_N` above 256 is `BAD_OPERAND`.  A cell nothing has written
counts with its unspecified value, whatever that is (R44, log entry 2). -/
def Obligations.FieldCodecCt : Prop :=
  (∀ s : State, Starts s →
     UnpackFaults .fldUnpackCt 0x2A (fun raw => raw.length % 3 = 0 ∧ raw.length ≤ 768) s ∧
     (inputFits s → ∀ entries : List (Byte × Byte × Byte), entries.length ≤ 256 →
       s.input = entries.flatMap (fun e => [e.1, e.2.1, e.2.2]) →
       exec .fldUnpackCt s = .next (finished 0x2A false { s with
         ipos := s.ilen
         ctm := Memory.fill s.ctm 0
           (entries.map (fun e => BitVec.ofNat 24 (e.1.toNat * 65536 + e.2.1.toNat * 256 + e.2.2.toNat)))
         fld := { s.fld with ctN := BitVec.ofNat 9 entries.length } }))) ∧
  (∀ s : State, Starts s →
     (256 < s.fld.ctN.toNat → exec .fldPackCt s = .next (faulted 0x2B 0x41 (s.fld.ctN.setWidth 32) s)) ∧
     (s.fld.ctN.toNat ≤ 256 → exec .fldPackCt s = .next (emitted 0x2B
       ((List.range s.fld.ctN.toNat).flatMap (fun k =>
         [BitVec.ofNat 8 ((s.ctmAt k).toNat / 65536), BitVec.ofNat 8 ((s.ctmAt k).toNat / 256),
           BitVec.ofNat 8 (s.ctmAt k).toNat])) s)))

/-- `pack(unpack(raw)) == raw` and `unpack(pack(record)) == record` (R171, R14.2): after an unpack that completed, the pack of the same record outputs
the record; pack, `mv`, unpack leaves every field register, `CTM` and `COMB` as they were. -/
def Obligations.FieldRoundTrip : Prop :=
  (∀ p ∈ [(Instr.fldUnpackLsd, Instr.fldPackLsd, (0x21 : Byte)), (.fldUnpackGce, .fldPackGce, 0x23),
       (.fldUnpackId, .fldPackId, 0x25), (.fldUnpackApp, .fldPackApp, 0x27), (.fldUnpackCom, .fldPackCom, 0x29),
       (.fldUnpackCt, .fldPackCt, 0x2B), (.fldUnpackU16, .fldPackU16, 0x2D)],
     ∀ s t : State, Starts s → exec p.1 s = .next t → t.done = true →
       exec p.2.1 t = .next (emitted p.2.2 s.input t)) ∧
  (∀ p ∈ [(Instr.fldPackLsd, Instr.fldUnpackLsd), (.fldPackGce, .fldUnpackGce), (.fldPackId, .fldUnpackId),
       (.fldPackApp, .fldUnpackApp), (.fldPackCom, .fldUnpackCom), (.fldPackCt, .fldUnpackCt), (.fldPackU16, .fldUnpackU16)],
     ∀ s t u : State, Starts s → exec p.1 s = .next t → t.done = true → hostAct .mv t = .next u →
       ∃ v, exec p.2 u = .next v ∧ v.done = true ∧ v.fld = s.fld ∧
         (∀ k, k < 256 → v.ctmAt k = s.ctmAt k) ∧ (∀ k, k < 255 → v.combAt k = s.combAt k))

/-! ### The LZW encoder -/

/-- The checks of `LZW.ENC` before any output, in their order (R211, R227, R301, R304, R308). -/
def Obligations.EncoderChecks : Prop :=
  ∀ s : State, Starts s →
    ((∃ c, s.caps.sin = some c ∧ c < s.silen.toNat) → exec .lzwEnc s = .next (faulted 0x30 0x41 s.silen s)) ∧
    ((∀ c, s.caps.sin = some c → s.silen.toNat ≤ c) →
      (256 < s.ctcnt.toNat → exec .lzwEnc s = .next (faulted 0x30 0x41 (s.ctcnt.setWidth 32) s)) ∧
      (s.ctcnt.toNat ≤ 256 → 11 < codeSize s →
        exec .lzwEnc s = .next (faulted 0x30 0x46 (Word.ofNat (codeSize s)) s)) ∧
      (s.ctcnt.toNat ≤ 256 → codeSize s ≤ 11 → ∀ pre x post, s.symbols = pre ++ x :: post →
        (∀ y ∈ pre, y.toNat < 2 ^ max 2 (codeSize s)) → 2 ^ max 2 (codeSize s) ≤ x.toNat →
        exec .lzwEnc s = .next (faulted 0x30 0x45 (Word.ofNat pre.length)
          { s with mcs := BitVec.ofNat 4 (max 2 (codeSize s)) })))

/-- `LZW.ENC` of every sequence that passes the checks (R223): the minimum code size, then sub-blocks whose payload carries exactly the code
stream (R212 to R220), every sub-block but the last full (R221, R222, R228.1, R228.4), then the terminator; as many of these bytes as fit (R227, R303).  That an output of more
than 2^32 - 1 bytes is `CAPACITY` even where `OBUF_SIZE` is larger or unbounded is the model's choice (log entry 5). -/
def Obligations.EncoderEmitsTheCodeStream : Prop :=
  ∀ s : State, Starts s → (∀ c, s.caps.sin = some c → s.silen.toNat ≤ c) → s.ctcnt.toNat ≤ 256 → codeSize s ≤ 11 →
    (∀ x ∈ s.symbols, x.toNat < 2 ^ max 2 (codeSize s)) →
    ∃ blocks : List (List Byte), SubBlocks blocks ∧ (∀ b ∈ blocks.dropLast, b.length = 255) ∧
      CarriesCodes (codeStream (max 2 (codeSize s)) s.symbols) blocks.flatten ∧
      exec .lzwEnc s = .next (emitted 0x30 (BitVec.ofNat 8 (max 2 (codeSize s)) :: chainBytes blocks)
        { s with mcs := BitVec.ofNat 4 (max 2 (codeSize s)) })

/-! ### The LZW decoder -/

/-- The part of `LZW.DEC` before its code loop (R241, R259, R305): the faults on the operand, an empty input and the first byte. -/
def Obligations.DecoderChecks : Prop :=
  ∀ s : State, Starts s →
    (¬ inputFits s → exec .lzwDec s = .next (faulted 0x31 0x41 s.ilen s)) ∧
    (inputFits s → s.ilen = 0 →
      exec .lzwDec s = .next (faulted 0x31 0x19 0 { s with ipos := 0, sout := [], solen := 0 })) ∧
    (inputFits s → s.ilen ≠ 0 → ((s.ibufAt 0).toNat < 2 ∨ 11 < (s.ibufAt 0).toNat) →
      exec .lzwDec s = .next (faulted 0x31 0x1A ((s.ibufAt 0).setWidth 32)
        { s with ipos := 1, sout := [], solen := 0 }))

/-- `decode(encode(S)) == S` for any cut of the payload into sub-blocks (R258, R243): `LZW.DEC` of a block that carries the code stream of a
sequence completes with that sequence, the cursor before the terminator (R256). -/
def Obligations.DecoderReadsTheCodeStream : Prop :=
  ∀ (s : State) (mcs : Nat) (xs : List Symbol), Starts s → inputFits s → 2 ≤ mcs → mcs ≤ 11 →
    (∀ x ∈ xs, x.toNat < 2 ^ mcs) → EncodedBlock mcs xs s.input → xs.length ≤ outLimit s.caps.sout →
    exec .lzwDec s = .next (finished 0x31 false { s with
      sout := cells xs, solen := Word.ofNat xs.length, mcs := BitVec.ofNat 4 mcs, ipos := s.ilen - 1 })

/-- `sin S ; LZW.ENC ; mv ; LZW.DEC` (R258, R14.3): the symbols come back, with the encoder's `MCS` and `IPOS = ILEN - 1`. -/
def Obligations.LzwRoundTrip : Prop :=
  ∀ s t u : State, Starts s → exec .lzwEnc s = .next t → t.done = true → hostAct .mv t = .next u →
    s.silen.toNat ≤ outLimit s.caps.sout →
    exec .lzwDec u = .next (finished 0x31 false { u with
      sout := cells s.symbols, solen := s.silen, mcs := t.mcs, ipos := u.ilen - 1 })

/-- The Clear code empties the dictionary and restores the width, the End-of-Information code ends the command at once (R247, R253). -/
def Obligations.ReservedCodes : Prop :=
  ∀ (s : State) (w : DecWork) (code : BitVec 12), CodeWaits w s →
    (code.toNat = 2 ^ w.mcs → exec (.lzwCode w.width code) s = .next { s with
      work := .dec { w with
        acc := w.acc / 2 ^ w.width, nb := w.nb - w.width
        dict := (List.range (2 ^ w.mcs + 2)).map (fun i => [BitVec.ofNat 16 i]), width := w.mcs + 1, prev := none } }) ∧
    (code.toNat = 2 ^ w.mcs + 1 → exec (.lzwCode w.width code) s = .next (ended s))

/-- The first data code of a segment (R246): a literal is output and inserts nothing; a code above End-of-Information is `DEC_DESYNC` (R250); no
room is `CAPACITY` (R255).  That there is no room at `SOLEN = 2^32 - 1` even where `SOUT_SIZE` is larger or unbounded is the model's choice (log
entry 5). -/
def Obligations.FirstCodeOfASegment : Prop :=
  ∀ (s : State) (w : DecWork) (code : BitVec 12), CodeWaits w s → w.prev = none →
    (code.toNat < 2 ^ w.mcs → s.solen.toNat < outLimit s.caps.sout →
      exec (.lzwCode w.width code) s = .next { s with
        sout := Memory.write s.sout s.solen.toNat (code.setWidth 16), solen := s.solen + 1
        work := .dec { w with
          acc := w.acc / 2 ^ w.width, nb := w.nb - w.width, prev := some [code.setWidth 16] } }) ∧
    (code.toNat < 2 ^ w.mcs → outLimit s.caps.sout ≤ s.solen.toNat →
      exec (.lzwCode w.width code) s = .next (stopped 0x42 s.solen s)) ∧
    (2 ^ w.mcs + 1 < code.toNat →
      exec (.lzwCode w.width code) s = .next (stopped 0x18 (code.setWidth 32) s))

/-- A later data code (R246, R248, R249): its sequence is output, one entry is inserted, the width grows when the size reaches it (R251); a code with
an entry, or the one about to be created.  With a full table it is `DEC_TABLE_FULL` (R252), above the dictionary size `DEC_DESYNC` (R250): nothing is
output for it.  A sequence that does not fit is `CAPACITY` after the symbols that fit (R255, R303); that nothing fits beyond 2^32 - 1 symbols even where
`SOUT_SIZE` is larger or unbounded is the model's choice (log entry 5). -/
def Obligations.LaterDataCode : Prop :=
  (∀ (s : State) (w : DecWork) (code : BitVec 12) (prev cur entry : List Symbol),
     CodeWaits w s → w.prev = some prev → w.dict.length < 4096 →
     code.toNat ≠ 2 ^ w.mcs → code.toNat ≠ 2 ^ w.mcs + 1 →
     ((w.dict[code.toNat]? = some cur ∧ entry = prev ++ cur.take 1) ∨
       (code.toNat = w.dict.length ∧ cur = prev ++ prev.take 1 ∧ entry = cur)) →
     s.solen.toNat + cur.length ≤ outLimit s.caps.sout →
     exec (.lzwCode w.width code) s = .next { s with
       sout := Memory.fill s.sout s.solen.toNat cur, solen := s.solen + Word.ofNat cur.length
       work := .dec { w with
         acc := w.acc / 2 ^ w.width, nb := w.nb - w.width, prev := some cur, dict := w.dict ++ [entry]
         width := if w.dict.length + 1 = 2 ^ w.width ∧ w.width < 12 then w.width + 1 else w.width } }) ∧
  (∀ (s : State) (w : DecWork) (code : BitVec 12) (prev cur : List Symbol),
     CodeWaits w s → w.prev = some prev → w.dict.length < 4096 →
     code.toNat ≠ 2 ^ w.mcs → code.toNat ≠ 2 ^ w.mcs + 1 →
     (w.dict[code.toNat]? = some cur ∨ (code.toNat = w.dict.length ∧ cur = prev ++ prev.take 1)) →
     s.solen.toNat ≤ outLimit s.caps.sout → outLimit s.caps.sout < s.solen.toNat + cur.length →
     exec (.lzwCode w.width code) s = .next (stopped 0x42 (Word.ofNat (outLimit s.caps.sout)) { s with
       sout := Memory.fill s.sout s.solen.toNat (cur.take (outLimit s.caps.sout - s.solen.toNat))
       solen := Word.ofNat (outLimit s.caps.sout) })) ∧
  (∀ (s : State) (w : DecWork) (code : BitVec 12) (prev : List Symbol), CodeWaits w s → w.prev = some prev →
     code.toNat ≠ 2 ^ w.mcs → code.toNat ≠ 2 ^ w.mcs + 1 →
     (w.dict.length = 4096 → exec (.lzwCode w.width code) s = .next (stopped 0x1B (code.setWidth 32) s)) ∧
     (w.dict.length ≠ 4096 → w.dict.length < code.toNat →
       exec (.lzwCode w.width code) s = .next (stopped 0x18 (code.setWidth 32) s)))

/-- The deframer under the bit unpacker (R243, R244, R245), one byte of `IBUF` a step: a length byte when the sub-block is used up, a payload byte
into the accumulator, `DEC_TRUNCATED` at the terminator or the end of the input. -/
def Obligations.DeframerTakesOneByte : Prop :=
  ∀ (s : State) (w : DecWork), s.busy = true → s.grant = none → s.todo = [] → s.work = .dec w → DecInRange w →
    w.nb < w.width →
    (w.ended = true ∨ s.ilen ≤ s.ipos → step s = .next (stopped 0x19 s.ipos s)) ∧
    (w.ended = false → s.ipos < s.ilen → w.rem = 0 → s.ibufAt s.ipos.toNat = 0 →
      step s = .next (stopped 0x19 (s.ipos + 1) { s with ipos := s.ipos + 1 })) ∧
    (w.ended = false → s.ipos < s.ilen → w.rem = 0 → s.ibufAt s.ipos.toNat ≠ 0 →
      step s = .next { s with
        ipos := s.ipos + 1, work := .dec { w with rem := (s.ibufAt s.ipos.toNat).toNat } }) ∧
    (w.ended = false → s.ipos < s.ilen → w.rem ≠ 0 →
      step s = .next { s with
        ipos := s.ipos + 1
        work := .dec { w with
          acc := w.acc + (s.ibufAt s.ipos.toNat).toNat * 2 ^ w.nb, nb := w.nb + 8, rem := w.rem - 1 } })

/-! ### The host's side -/

/-- Host writes of registers while `BUSY = 0` (R21, R22): the field registers keep the low bits, no register aliases another, reserved numbers
ignore writes and read 0; the operand registers keep their bits. -/
def Obligations.HostWritesRegisters : Prop :=
  ∀ (s : State) (v : Word), s.busy = false →
    (∀ r : FieldReg, ∃ t, hostAct (.wr r.num v) s = .next t ∧ readReg t r.num = some (v % BitVec.ofNat 32 (2 ^ r.width)) ∧
      (∀ n, n < 0x80 → n ≠ r.num → readReg t n = readReg s n) ∧ t = { s with fld := t.fld }) ∧
    (∀ n, 0x0E ≤ n → n < 0x80 → (∀ r : FieldReg, r.num ≠ n) → hostAct (.wr n v) s = .next s ∧ readReg s n = some 0) ∧
    hostAct (.wr 0x04 v) s = .next { s with ilen := v } ∧ hostAct (.wr 0x07 v) s = .next { s with silen := v } ∧
    hostAct (.wr 0x09 v) s = .next { s with ctcnt := v.setWidth 9 } ∧
    hostAct (.wr 0x0B v) s = .next { s with fidx := v } ∧ hostAct (.wr 0x0C v) s = .next { s with bkind := v.setWidth 4 }

/-- While `BUSY = 1` no host move writes a register other than `CMD` or a cell (R341, U4). -/
def Obligations.NoHostWritesWhileBusy : Prop :=
  ∀ (s : State) (a : HostAction), s.busy = true →
    ((∃ r v, r ≠ 0 ∧ a = .wr r v) ∨ (∃ m i v, a = .put m i v) ∨ (∃ bs, a = .ibuf bs) ∨ (∃ xs, a = .sin xs) ∨
      (∃ cs, a = .ctm cs) ∨ (∃ bs, a = .comb bs) ∨ a = .mv ∨ a = .mvs) →
    hostAct a s = .refused .hostWriteWhileBusy

/-- The host's loads (R93), cell writes (R32, R33, R34) and reads (R21, R67, R71, R333).  `ibuf` and `sin` give the next command exactly those bytes and
symbols, `mv` and `mvs` the outputs; `ctm` sets `CT_N` too, `comb` does not set `COM_SIZE`; a cell write writes that cell; a read changes nothing, and while
`BUSY = 1` only what R71 names is read.  Nothing else changes.  That cells outside the new valid range keep their value is the model's choice (R44 leaves them
unspecified; log entry 2); that R333's list of reads is meant and not R21's is log entry 7. -/
def Obligations.HostLoadsBuffers : Prop :=
  (∀ s : State, s.busy = false →
    (∀ bs : List Byte, bs.length < 2 ^ 32 → (∀ c, s.caps.ibuf = some c → bs.length ≤ c) →
      ∃ t, hostAct (.ibuf bs) s = .next t ∧ t.input = bs ∧ (∀ a, bs.length ≤ a → Memory.read t.ibuf a = Memory.read s.ibuf a) ∧
        t = { s with ibuf := t.ibuf, ilen := Word.ofNat bs.length }) ∧
    (∀ xs : List Symbol, xs.length < 2 ^ 32 → (∀ c, s.caps.sin = some c → xs.length ≤ c) →
      ∃ t, hostAct (.sin xs) s = .next t ∧ t.symbols = xs ∧ (∀ a, xs.length ≤ a → Memory.read t.sin a = Memory.read s.sin a) ∧
        t = { s with sin := t.sin, silen := Word.ofNat xs.length }) ∧
    (∀ bs : List Byte, s.obuf = cells bs → s.olen.toNat = bs.length → hostAct .mv s = hostAct (.ibuf bs) s) ∧
    (∀ xs : List Symbol, s.sout = cells xs → s.solen.toNat = xs.length → hostAct .mvs s = hostAct (.sin xs) s) ∧
    (∀ cs : List Color, cs.length ≤ 256 →
      ∃ t, hostAct (.ctm cs) s = .next t ∧ (∀ k, k < cs.length → Memory.read t.ctm k = cs[k]?) ∧
        (∀ k, cs.length ≤ k → Memory.read t.ctm k = Memory.read s.ctm k) ∧
        t = { s with ctm := t.ctm, fld := { s.fld with ctN := BitVec.ofNat 9 cs.length } }) ∧
    (∀ bs : List Byte, bs.length ≤ 255 →
      ∃ t, hostAct (.comb bs) s = .next t ∧ (∀ k, k < bs.length → Memory.read t.comb k = bs[k]?) ∧
        (∀ k, bs.length ≤ k → Memory.read t.comb k = Memory.read s.comb k) ∧ t = { s with comb := t.comb }) ∧
    (∀ (i : Nat) (v : Word),
      (cellExists s .ibuf i = true → ∃ t, hostAct (.put .ibuf i v) s = .next t ∧ t = { s with ibuf := t.ibuf } ∧
        Memory.read t.ibuf i = some (v.setWidth 8) ∧ ∀ a, a ≠ i → Memory.read t.ibuf a = Memory.read s.ibuf a) ∧
      (cellExists s .sin i = true → ∃ t, hostAct (.put .sin i v) s = .next t ∧ t = { s with sin := t.sin } ∧
        Memory.read t.sin i = some (v.setWidth 16) ∧ ∀ a, a ≠ i → Memory.read t.sin a = Memory.read s.sin a) ∧
      (i < 256 → ∃ t, hostAct (.put .ctm i v) s = .next t ∧ t = { s with ctm := t.ctm } ∧
        Memory.read t.ctm i = some (v.setWidth 24) ∧ ∀ a, a ≠ i → Memory.read t.ctm a = Memory.read s.ctm a) ∧
      (i < 255 → ∃ t, hostAct (.put .comb i v) s = .next t ∧ t = { s with comb := t.comb } ∧
        Memory.read t.comb i = some (v.setWidth 8) ∧ ∀ a, a ≠ i → Memory.read t.comb a = Memory.read s.comb a))) ∧
  (∀ (s : State) (n : Nat), n < 0x80 →
    (s.busy = false ∨ n ∈ [0x01, 0x05, 0x06, 0x08] → hostAct (.rd n) s = .next s) ∧
    (s.busy = true → n ∉ [0x01, 0x05, 0x06, 0x08] → hostAct (.rd n) s = .refused .hostReadWhileBusy)) ∧
  (∀ (s : State) (i : Nat),
    (cellExists s .obuf i = true → i < s.olen.toNat → (Memory.read s.obuf i).isSome = true →
      hostAct (.peek .obuf i) s = .next s ∧ readCell s .obuf i = (Memory.read s.obuf i).map (fun b => b.setWidth 32)) ∧
    (cellExists s .sout i = true → i < s.solen.toNat → (Memory.read s.sout i).isSome = true →
      hostAct (.peek .sout i) s = .next s ∧ readCell s .sout i = (Memory.read s.sout i).map (fun x => x.setWidth 32)) ∧
    (i < 256 → i < s.fld.ctN.toNat → (Memory.read s.ctm i).isSome = true →
      readCell s .ctm i = (Memory.read s.ctm i).map (fun c => c.setWidth 32) ∧
      hostAct (.peek .ctm i) s = if s.busy then .refused .hostReadWhileBusy else .next s) ∧
    (i < 255 → i < s.fld.comSize.toNat → (Memory.read s.comb i).isSome = true →
      readCell s .comb i = (Memory.read s.comb i).map (fun b => b.setWidth 32) ∧
      hostAct (.peek .comb i) s = if s.busy then .refused .hostReadWhileBusy else .next s))

/-- A host write to `CMD`, as a command or by register number, always has a next state, and is a step a session may rely on exactly when the command is not
turned away (R274, R306, R334; log entry 6).  How a session ends (R334): well, with the list exhausted and `BUSY = FAULT = 0`, where the core stays as it is;
badly after a fault with no `SYS.CLRFAULT` next. -/
def Obligations.CommandWritesAlwaysStep : Prop :=
  (∀ (s : State) (v : Word) (rest : List HostAction), ((∃ pace, s.host = .cmd v pace :: rest) ∨ s.host = .wr 0 v :: rest) →
    (s.busy = false ∨ hostMoves s = true) →
    (∃ t, step s = .next t) ∧ (SafeStep s ↔ ¬ TurnedAway (v.setWidth 8) s)) ∧
  (∀ s, EndedWell s → step s = .next s ∧ ¬ EndedBadly s) ∧
  (∀ s, s.busy = false → s.fault = true →
    (s.host = [] → EndedBadly s) ∧
    (∀ v pace rest, s.host = .cmd v pace :: rest → (EndedBadly s ↔ v.setWidth 8 ≠ 0x01#8)))

/-! ### Frames: what no instruction outside a unit changes (R92, R333: "no change to anything the rule does not name") -/

/-- No instruction but `SYS.RESET` writes the host's inputs: `IBUF`, `SIN`, the operand registers (R21, R32); none at all changes the capacities
(R9) or the model's host program (log entries 1, 4). -/
def Obligations.InputsAreNeverWritten : Prop :=
  ∀ (i : Instr) (s t : State), exec i s = .next t →
    t.caps = s.caps ∧ t.host = s.host ∧ t.grant = s.grant ∧
    (i ≠ .sysReset → t.ibuf = s.ibuf ∧ t.sin = s.sin ∧ t.ilen = s.ilen ∧ t.silen = s.silen ∧ t.ctcnt = s.ctcnt ∧
      t.fidx = s.fidx ∧ t.bkind = s.bkind ∧ t.era = s.era)

/-- A field register changes only by the `FLD.UNPACK` of its group (R22), `CTM` only by `FLD.UNPACK_CT`, `COMB` only by `FLD.UNPACK_COM` (R33,
R34), `SYS.RESET` apart. -/
def Obligations.FieldsChangeOnlyByTheirUnpack : Prop :=
  ∀ (i : Instr) (s t : State), exec i s = .next t → i ≠ .sysReset →
    (∀ r : FieldReg, (r.group, i) ∉ [(Group.lsd, Instr.fldUnpackLsd), (.gce, .fldUnpackGce), (.id, .fldUnpackId),
        (.app, .fldUnpackApp), (.com, .fldUnpackCom), (.ct, .fldUnpackCt), (.u16, .fldUnpackU16)] →
      t.fld.get r = s.fld.get r) ∧
    (i ≠ .fldUnpackCt → t.ctm = s.ctm) ∧ (i ≠ .fldUnpackCom → t.comb = s.comb)

/-- The outputs, the cursor and the document change only by the commands and stream items R92 names for them (R27, R28, R30, R35), `SYS.RESET`
apart. -/
def Obligations.OutputsChangeOnlyByTheirCommands : Prop :=
  ∀ (i : Instr) (s t : State), exec i s = .next t → i ≠ .sysReset →
    (i ∉ [Instr.seqSerialize, .seqGetblk, .fldPackLsd, .fldPackGce, .fldPackId, .fldPackApp, .fldPackCom, .fldPackCt,
        .fldPackU16, .lzwEnc] → t.obuf = s.obuf ∧ t.olen = s.olen) ∧
    (i ≠ .lzwDec → (∀ n c, i ≠ .lzwCode n c) → t.sout = s.sout ∧ t.solen = s.solen) ∧
    (i ∉ [Instr.lzwEnc, .lzwDec] → t.mcs = s.mcs) ∧
    (i ∉ [Instr.seqParse, .seqSetblk, .fldUnpackLsd, .fldUnpackGce, .fldUnpackId, .fldUnpackApp, .fldUnpackCom,
        .fldUnpackCt, .fldUnpackU16, .lzwDec, .extGce, .extApp, .extPte, .extCom, .img, .trailer] → t.ipos = s.ipos) ∧
    (i ∉ [Instr.seqParse, .seqSetblk, .extGce, .extApp, .extPte, .extCom, .img, .trailer] → t.doc = s.doc)

/-! ### Whole-machine rules -/

/-- The output prefixes are stable (R27, R28, R71): a step of the running command never shortens an output nor changes a cell below its length,
unless its next micro-step is the one that starts a new output. -/
def Obligations.OutputPrefixIsStable : Prop :=
  ∀ s t : State, s.busy = true → hostMoves s = false → step s = .next t →
    (s.todo.head? ≠ some .olen0 → s.olen.toNat ≤ t.olen.toNat ∧
      ∀ a, a < s.olen.toNat → Memory.read t.obuf a = Memory.read s.obuf a) ∧
    (s.todo.head? ≠ some .solen0 → s.solen.toNat ≤ t.solen.toNat ∧
      ∀ a, a < s.solen.toNat → Memory.read t.sout a = Memory.read s.sout a)

/-- The cursor never stands behind the input (R30, R68): a command that moves `IPOS` leaves it at most at `ILEN`.  (A host that then writes a smaller
`ILEN` does not move it, log entry 12.) -/
def Obligations.CursorStaysInInput : Prop :=
  ∀ (i : Instr) (op : Byte) (s t : State), IsCommand i op → Starts s → exec i s = .next t →
    t.ipos = s.ipos ∨ t.ipos.toNat ≤ t.ilen.toNat

/-- The faulted state is left only by `SYS.CLRFAULT` and reset, and until then `FCAUSE` and `FINFO` keep the first fault (R24, R25, R306, R307). -/
def Obligations.FaultIsSticky : Prop :=
  ∀ s t : State, s.busy = false → s.fault = true → step s = .next t →
    (t.fault = true → t.fcause = s.fcause ∧ t.finfo = s.finfo) ∧
    (t.fault = false → ∃ a rest, s.host = a :: rest ∧
      (a = .resetLine ∨ ∃ v pace, (a = .cmd v pace ∨ a = .wr 0 v) ∧ (v.setWidth 8 = 0x01#8 ∨ v.setWidth 8 = 0x03#8)))

/-- The invariants hold after reset (R45). -/
def Obligations.ResetMeetsTheInvariants : Prop :=
  MemoriesCanonical State.reset ∧ CellsExist State.reset ∧ StatusConsistent State.reset ∧ DocumentKept State.reset ∧
  LzwInRange State.reset

/-- Every step keeps every memory in its canonical form (the model's, log entry 2). -/
def Obligations.StepKeepsMemoriesCanonical : Prop :=
  ∀ s t : State, MemoriesCanonical s → step s = .next t → MemoriesCanonical t

/-- Every step keeps every listed cell inside its space (R60): indices do not leave it and do not wrap (R68). -/
def Obligations.StepKeepsCellsInTheirSpaces : Prop :=
  ∀ s t : State, CellsExist s → step s = .next t → CellsExist t

/-- Every step keeps the flags and the fault record in agreement (R24, R25, R305). -/
def Obligations.StepKeepsStatusConsistent : Prop :=
  ∀ s t : State, StatusConsistent s → step s = .next t → StatusConsistent t

/-- Every step, `SEQ.SETBLK` included, keeps the lengths, the trailer and the distinct extension kinds of the document (R36.1, R36.2, R36.3). -/
def Obligations.StepKeepsTheDocument : Prop :=
  ∀ s t : State, DocumentKept s → step s = .next t → DocumentKept t

/-- Every step keeps the LZW working state in range: width, dictionary size, accumulator, sub-block buffer (R37, R38, R40, R41, R216, R217,
R251). -/
def Obligations.StepKeepsLzwInRange : Prop :=
  ∀ s t : State, LzwInRange s → step s = .next t → LzwInRange t
end

