-- ==== Sys2Proof/Laws/Memory.lean ====
section
/-!
SUPPORT. The laws of the memories: a read after a write, a read after a fill, and that every memory operation keeps the canonical form.
-/

namespace Sys2Proof.Machine

variable {α : Type}

@[simp] theorem Memory.read_nil (a : Nat) : Memory.read ([] : Memory α) a = none := rfl

theorem Memory.read_cons (b : Nat) (w : α) (m : Memory α) (a : Nat) :
    Memory.read ((b, w) :: m) a = if a = b then some w else Memory.read m a := rfl

/-- A read after a write gives the value written there and the old value everywhere else. -/
theorem Memory.read_write (m : Memory α) (a b : Nat) (v : α) :
    Memory.read (Memory.write m a v) b = if b = a then some v else Memory.read m b := by
  induction m with
  | nil => rfl
  | cons x rest ih =>
    obtain ⟨c, w⟩ := x
    simp only [Memory.write]
    by_cases hlt : a < c
    · simp [hlt, Memory.read_cons]
    · by_cases heq : a = c
      · subst heq; simp [Memory.read_cons]
        split <;> rfl
      · simp only [hlt, heq, if_false, Memory.read_cons, ih]
        by_cases h : b = c
        · have : b ≠ a := by omega
          simp [h, Ne.symm heq]
        · simp [h]

@[simp] theorem Memory.read_write_same (m : Memory α) (a : Nat) (v : α) :
    Memory.read (Memory.write m a v) a = some v := by simp [Memory.read_write]

theorem Memory.read_write_other (m : Memory α) {a b : Nat} (v : α) (h : b ≠ a) :
    Memory.read (Memory.write m a v) b = Memory.read m b := by simp [Memory.read_write, h]

/-- The cells of a memory after a write are the written one and old ones. -/
theorem Memory.mem_write {m : Memory α} {a : Nat} {v : α} {x : Nat × α} (h : x ∈ Memory.write m a v) :
    x = (a, v) ∨ x ∈ m := by
  induction m with
  | nil => simpa [Memory.write] using h
  | cons y rest ih =>
    obtain ⟨c, w⟩ := y
    simp only [Memory.write] at h
    split at h
    · simpa using h
    · split at h
      · rcases List.mem_cons.1 h with h | h
        · exact .inl h
        · exact .inr (List.mem_cons_of_mem _ h)
      · rcases List.mem_cons.1 h with h | h
        · exact .inr (h ▸ List.mem_cons_self)
        · exact (ih h).imp id (List.mem_cons_of_mem _)

theorem Memory.wf_nil : Memory.wf ([] : Memory α) := List.Pairwise.nil

/-- A write keeps the canonical form. -/
theorem Memory.write_wf {m : Memory α} (h : Memory.wf m) (a : Nat) (v : α) : Memory.wf (Memory.write m a v) := by
  induction m with
  | nil => simp [Memory.write, Memory.wf]
  | cons x rest ih =>
    obtain ⟨c, w⟩ := x
    have hc := List.pairwise_cons.1 h
    simp only [Memory.write]
    split
    · rename_i hlt
      refine List.pairwise_cons.2 ⟨fun y hy => ?_, h⟩
      rcases List.mem_cons.1 hy with rfl | hy
      · exact hlt
      · exact lt_trans hlt (hc.1 y hy)
    · rename_i hnl
      split
      · rename_i heq
        exact List.pairwise_cons.2 ⟨fun y hy => by have := hc.1 y hy; simp at this ⊢; omega, hc.2⟩
      · rename_i hne
        refine List.pairwise_cons.2 ⟨fun y hy => ?_, ih hc.2⟩
        rcases Memory.mem_write hy with rfl | hy
        · simp; omega
        · exact hc.1 y hy

@[simp] theorem Memory.fill_nil (m : Memory α) (a : Nat) : Memory.fill m a [] = m := rfl

theorem Memory.fill_cons (m : Memory α) (a : Nat) (v : α) (vs : List α) :
    Memory.fill m a (v :: vs) = Memory.fill (Memory.write m a v) (a + 1) vs := rfl

theorem Memory.fill_append (m : Memory α) (a : Nat) (xs ys : List α) :
    Memory.fill m a (xs ++ ys) = Memory.fill (Memory.fill m a xs) (a + xs.length) ys := by
  induction xs generalizing m a with
  | nil => rfl
  | cons x xs ih => simp [Memory.fill_cons, ih, Nat.add_assoc, Nat.add_comm 1]

/-- A fill keeps the canonical form. -/
theorem Memory.fill_wf {m : Memory α} (h : Memory.wf m) (a : Nat) (vs : List α) : Memory.wf (Memory.fill m a vs) := by
  induction vs generalizing m a with
  | nil => exact h
  | cons v vs ih => exact ih (Memory.write_wf h a v) (a + 1)

/-- A read after a fill gives the cell filled in, and the old value outside the filled range. -/
theorem Memory.read_fill (m : Memory α) (a : Nat) (vs : List α) (b : Nat) :
    Memory.read (Memory.fill m a vs) b =
      if a ≤ b ∧ b < a + vs.length then vs[b - a]? else Memory.read m b := by
  induction vs generalizing m a with
  | nil => simp
  | cons v vs ih =>
    rw [Memory.fill_cons, ih, Memory.read_write]
    by_cases h1 : a + 1 ≤ b ∧ b < a + 1 + vs.length
    · obtain ⟨k, rfl⟩ : ∃ k, b = a + 1 + k := ⟨b - (a + 1), by omega⟩
      have e1 : a + 1 + k - (a + 1) = k := by omega
      have e2 : a + 1 + k - a = k + 1 := by omega
      have e3 : a ≤ a + 1 + k ∧ a + 1 + k < a + (v :: vs).length := by simp; omega
      rw [if_pos h1, if_pos e3, e1, e2, List.getElem?_cons_succ]
    · rw [if_neg h1]
      by_cases h2 : b = a
      · subst h2; simp
      · have h3 : ¬(a ≤ b ∧ b < a + (v :: vs).length) := by
          simp only [List.length_cons]; omega
        rw [if_neg h2, if_neg h3]

/-! ### The memory with exactly the given cells -/

@[simp] theorem cells_nil : cells ([] : List α) = [] := rfl

theorem cells_wf (xs : List α) : Memory.wf (cells xs) := by
  have h : (cells xs).map Prod.fst = List.range xs.length := by simp [cells, List.map_fst_zip]
  have := List.pairwise_lt_range (n := xs.length)
  rw [← h] at this
  exact List.pairwise_map.1 this

theorem Memory.write_end {m : Memory α} {a : Nat} (v : α) (h : ∀ x ∈ m, x.1 < a) : Memory.write m a v = m ++ [(a, v)] := by
  induction m with
  | nil => rfl
  | cons x rest ih =>
    obtain ⟨c, w⟩ := x
    have hc : c < a := h (c, w) List.mem_cons_self
    simp [Memory.write, Nat.not_lt.2 (le_of_lt hc), Nat.ne_of_gt hc, ih (fun y hy => h y (List.mem_cons_of_mem _ hy))]

/-- Appending to an output is a write at its length. -/
theorem Memory.write_cells (xs : List α) (v : α) : Memory.write (cells xs) xs.length v = cells (xs ++ [v]) := by
  rw [Memory.write_end]
  · simp [cells, List.range_succ, List.zip_append]
  · intro x hx
    have := (List.of_mem_zip hx).1
    simpa using this

theorem Memory.fill_cells (xs ys : List α) : Memory.fill (cells xs) xs.length ys = cells (xs ++ ys) := by
  induction ys generalizing xs with
  | nil => simp
  | cons y ys ih =>
    rw [Memory.fill_cons, Memory.write_cells]
    have := ih (xs ++ [y])
    simpa using this

theorem Memory.read_cells (xs : List α) (a : Nat) : Memory.read (cells xs) a = xs[a]? := by
  have h := Memory.read_fill ([] : Memory α) 0 xs a
  have e := Memory.fill_cells ([] : List α) xs
  simp only [cells_nil, List.length_nil, List.nil_append] at e
  rw [e] at h
  rw [h]
  split
  · simp
  · rename_i hn
    simp at hn
    simp [List.getElem?_eq_none hn]

theorem mapM_eq_some_iff {β γ : Type} (f : β → Option γ) (l : List β) (ys : List γ) :
    l.mapM f = some ys ↔ l.map f = ys.map some := by
  induction l generalizing ys with
  | nil => cases ys <;> simp
  | cons x l ih =>
    cases h : f x with
    | none => cases ys <;> simp [h]
    | some y =>
      cases h2 : l.mapM f with
      | none =>
        have : ∀ ys : List γ, l.map f ≠ ys.map some := fun ys e => by simpa [h2] using (ih ys).2 e
        cases ys with
        | nil => simp [h, h2]
        | cons z zs => simpa [h, h2] using fun _ => this zs
      | some zs =>
        have := (ih zs).1 h2
        cases ys with
        | nil => simp [h, h2]
        | cons z ws =>
          simp only [List.mapM_cons, h, h2, List.map_cons, this]
          simp [List.map_inj_right]

/-- What `Memory.upTo` answers: the first `n` values, if all are there. -/
theorem Memory.upTo_eq_some {m : Memory α} {n : Nat} {xs : List α} :
    Memory.upTo m n = some xs ↔ xs.length = n ∧ ∀ a, a < n → Memory.read m a = xs[a]? := by
  rw [Memory.upTo, mapM_eq_some_iff]
  constructor
  · intro h
    have hl : xs.length = n := by simpa using (congrArg List.length h).symm
    refine ⟨hl, fun a ha => ?_⟩
    have := congrArg (fun l => l[a]?) h
    simpa [ha, hl, List.getElem?_eq_getElem (hl ▸ ha : a < xs.length)] using this
  · rintro ⟨hl, h⟩
    apply List.ext_getElem?
    intro a
    by_cases ha : a < n
    · have hx : a < xs.length := by omega
      simp [ha, h a ha, List.getElem?_eq_getElem hx]
    · have hx : ¬ a < xs.length := by omega
      simp [ha, hx]

theorem Memory.upTo_cells (xs : List α) : Memory.upTo (cells xs) xs.length = some xs :=
  Memory.upTo_eq_some.2 ⟨rfl, fun a _ => Memory.read_cells xs a⟩

end Sys2Proof.Machine
end

