-- ==== Sys2Proof/Laws/State.lean ====
section
/-!
SUPPORT. What each whole-state update does to each field, one lemma a field.
-/

namespace Sys2Proof.Machine

/-! ### raiseFault: fault entry (R305) -/

section
variable (code : FaultCode) (info : Word) (s : State)

@[simp] theorem raiseFault_cmd : (raiseFault code info s).cmd = s.cmd := rfl
@[simp] theorem raiseFault_busy : (raiseFault code info s).busy = false := rfl
@[simp] theorem raiseFault_done : (raiseFault code info s).done = s.done := rfl
@[simp] theorem raiseFault_fault : (raiseFault code info s).fault = true := rfl
@[simp] theorem raiseFault_np : (raiseFault code info s).np = s.np := rfl
@[simp] theorem raiseFault_fcause : (raiseFault code info s).fcause = code.byte := rfl
@[simp] theorem raiseFault_finfo : (raiseFault code info s).finfo = info := rfl
@[simp] theorem raiseFault_ilen : (raiseFault code info s).ilen = s.ilen := rfl
@[simp] theorem raiseFault_ipos : (raiseFault code info s).ipos = s.ipos := rfl
@[simp] theorem raiseFault_olen : (raiseFault code info s).olen = s.olen := rfl
@[simp] theorem raiseFault_silen : (raiseFault code info s).silen = s.silen := rfl
@[simp] theorem raiseFault_solen : (raiseFault code info s).solen = s.solen := rfl
@[simp] theorem raiseFault_ctcnt : (raiseFault code info s).ctcnt = s.ctcnt := rfl
@[simp] theorem raiseFault_mcs : (raiseFault code info s).mcs = s.mcs := rfl
@[simp] theorem raiseFault_fidx : (raiseFault code info s).fidx = s.fidx := rfl
@[simp] theorem raiseFault_bkind : (raiseFault code info s).bkind = s.bkind := rfl
@[simp] theorem raiseFault_fld : (raiseFault code info s).fld = s.fld := rfl
@[simp] theorem raiseFault_ctm : (raiseFault code info s).ctm = s.ctm := rfl
@[simp] theorem raiseFault_comb : (raiseFault code info s).comb = s.comb := rfl
@[simp] theorem raiseFault_ibuf : (raiseFault code info s).ibuf = s.ibuf := rfl
@[simp] theorem raiseFault_obuf : (raiseFault code info s).obuf = s.obuf := rfl
@[simp] theorem raiseFault_sin : (raiseFault code info s).sin = s.sin := rfl
@[simp] theorem raiseFault_sout : (raiseFault code info s).sout = s.sout := rfl
@[simp] theorem raiseFault_doc : (raiseFault code info s).doc = s.doc := rfl
@[simp] theorem raiseFault_work : (raiseFault code info s).work = .idle := rfl
@[simp] theorem raiseFault_todo : (raiseFault code info s).todo = [] := rfl
@[simp] theorem raiseFault_caps : (raiseFault code info s).caps = s.caps := rfl
@[simp] theorem raiseFault_era : (raiseFault code info s).era = s.era := rfl
@[simp] theorem raiseFault_host : (raiseFault code info s).host = s.host := rfl
@[simp] theorem raiseFault_grant : (raiseFault code info s).grant = s.grant := rfl

end

/-! ### complete: completion (R274) -/

section
variable (np : Bool) (s : State)

@[simp] theorem complete_cmd : (complete np s).cmd = s.cmd := rfl
@[simp] theorem complete_busy : (complete np s).busy = false := rfl
@[simp] theorem complete_done : (complete np s).done = true := rfl
@[simp] theorem complete_fault : (complete np s).fault = s.fault := rfl
@[simp] theorem complete_np : (complete np s).np = np := rfl
@[simp] theorem complete_fcause : (complete np s).fcause = s.fcause := rfl
@[simp] theorem complete_finfo : (complete np s).finfo = s.finfo := rfl
@[simp] theorem complete_ilen : (complete np s).ilen = s.ilen := rfl
@[simp] theorem complete_ipos : (complete np s).ipos = s.ipos := rfl
@[simp] theorem complete_olen : (complete np s).olen = s.olen := rfl
@[simp] theorem complete_silen : (complete np s).silen = s.silen := rfl
@[simp] theorem complete_solen : (complete np s).solen = s.solen := rfl
@[simp] theorem complete_ctcnt : (complete np s).ctcnt = s.ctcnt := rfl
@[simp] theorem complete_mcs : (complete np s).mcs = s.mcs := rfl
@[simp] theorem complete_fidx : (complete np s).fidx = s.fidx := rfl
@[simp] theorem complete_bkind : (complete np s).bkind = s.bkind := rfl
@[simp] theorem complete_fld : (complete np s).fld = s.fld := rfl
@[simp] theorem complete_ctm : (complete np s).ctm = s.ctm := rfl
@[simp] theorem complete_comb : (complete np s).comb = s.comb := rfl
@[simp] theorem complete_ibuf : (complete np s).ibuf = s.ibuf := rfl
@[simp] theorem complete_obuf : (complete np s).obuf = s.obuf := rfl
@[simp] theorem complete_sin : (complete np s).sin = s.sin := rfl
@[simp] theorem complete_sout : (complete np s).sout = s.sout := rfl
@[simp] theorem complete_doc : (complete np s).doc = s.doc := rfl
@[simp] theorem complete_work : (complete np s).work = .idle := rfl
@[simp] theorem complete_todo : (complete np s).todo = [] := rfl
@[simp] theorem complete_caps : (complete np s).caps = s.caps := rfl
@[simp] theorem complete_era : (complete np s).era = s.era := rfl
@[simp] theorem complete_host : (complete np s).host = s.host := rfl
@[simp] theorem complete_grant : (complete np s).grant = s.grant := rfl

end

/-! ### abortRunning: an abort (R272) -/

section
variable (s : State)

@[simp] theorem abortRunning_cmd : (abortRunning s).cmd = s.cmd := rfl
@[simp] theorem abortRunning_busy : (abortRunning s).busy = false := rfl
@[simp] theorem abortRunning_done : (abortRunning s).done = s.done := rfl
@[simp] theorem abortRunning_fault : (abortRunning s).fault = s.fault := rfl
@[simp] theorem abortRunning_np : (abortRunning s).np = s.np := rfl
@[simp] theorem abortRunning_fcause : (abortRunning s).fcause = s.fcause := rfl
@[simp] theorem abortRunning_finfo : (abortRunning s).finfo = s.finfo := rfl
@[simp] theorem abortRunning_ilen : (abortRunning s).ilen = s.ilen := rfl
@[simp] theorem abortRunning_ipos : (abortRunning s).ipos = s.ipos := rfl
@[simp] theorem abortRunning_olen : (abortRunning s).olen = s.olen := rfl
@[simp] theorem abortRunning_silen : (abortRunning s).silen = s.silen := rfl
@[simp] theorem abortRunning_solen : (abortRunning s).solen = s.solen := rfl
@[simp] theorem abortRunning_ctcnt : (abortRunning s).ctcnt = s.ctcnt := rfl
@[simp] theorem abortRunning_mcs : (abortRunning s).mcs = s.mcs := rfl
@[simp] theorem abortRunning_fidx : (abortRunning s).fidx = s.fidx := rfl
@[simp] theorem abortRunning_bkind : (abortRunning s).bkind = s.bkind := rfl
@[simp] theorem abortRunning_fld : (abortRunning s).fld = s.fld := rfl
@[simp] theorem abortRunning_ctm : (abortRunning s).ctm = s.ctm := rfl
@[simp] theorem abortRunning_comb : (abortRunning s).comb = s.comb := rfl
@[simp] theorem abortRunning_ibuf : (abortRunning s).ibuf = s.ibuf := rfl
@[simp] theorem abortRunning_obuf : (abortRunning s).obuf = s.obuf := rfl
@[simp] theorem abortRunning_sin : (abortRunning s).sin = s.sin := rfl
@[simp] theorem abortRunning_sout : (abortRunning s).sout = s.sout := rfl
@[simp] theorem abortRunning_doc : (abortRunning s).doc = s.doc := rfl
@[simp] theorem abortRunning_work : (abortRunning s).work = .idle := rfl
@[simp] theorem abortRunning_todo : (abortRunning s).todo = [] := rfl
@[simp] theorem abortRunning_caps : (abortRunning s).caps = s.caps := rfl
@[simp] theorem abortRunning_era : (abortRunning s).era = s.era := rfl
@[simp] theorem abortRunning_host : (abortRunning s).host = s.host := rfl
@[simp] theorem abortRunning_grant : (abortRunning s).grant = s.grant := rfl

end

/-! ### commandStart: command start (R274) -/

section
variable (s : State)

@[simp] theorem commandStart_cmd : (commandStart s).cmd = s.cmd := rfl
@[simp] theorem commandStart_busy : (commandStart s).busy = true := rfl
@[simp] theorem commandStart_done : (commandStart s).done = false := rfl
@[simp] theorem commandStart_fault : (commandStart s).fault = s.fault := rfl
@[simp] theorem commandStart_np : (commandStart s).np = false := rfl
@[simp] theorem commandStart_fcause : (commandStart s).fcause = s.fcause := rfl
@[simp] theorem commandStart_finfo : (commandStart s).finfo = s.finfo := rfl
@[simp] theorem commandStart_ilen : (commandStart s).ilen = s.ilen := rfl
@[simp] theorem commandStart_ipos : (commandStart s).ipos = s.ipos := rfl
@[simp] theorem commandStart_olen : (commandStart s).olen = s.olen := rfl
@[simp] theorem commandStart_silen : (commandStart s).silen = s.silen := rfl
@[simp] theorem commandStart_solen : (commandStart s).solen = s.solen := rfl
@[simp] theorem commandStart_ctcnt : (commandStart s).ctcnt = s.ctcnt := rfl
@[simp] theorem commandStart_mcs : (commandStart s).mcs = s.mcs := rfl
@[simp] theorem commandStart_fidx : (commandStart s).fidx = s.fidx := rfl
@[simp] theorem commandStart_bkind : (commandStart s).bkind = s.bkind := rfl
@[simp] theorem commandStart_fld : (commandStart s).fld = s.fld := rfl
@[simp] theorem commandStart_ctm : (commandStart s).ctm = s.ctm := rfl
@[simp] theorem commandStart_comb : (commandStart s).comb = s.comb := rfl
@[simp] theorem commandStart_ibuf : (commandStart s).ibuf = s.ibuf := rfl
@[simp] theorem commandStart_obuf : (commandStart s).obuf = s.obuf := rfl
@[simp] theorem commandStart_sin : (commandStart s).sin = s.sin := rfl
@[simp] theorem commandStart_sout : (commandStart s).sout = s.sout := rfl
@[simp] theorem commandStart_doc : (commandStart s).doc = s.doc := rfl
@[simp] theorem commandStart_work : (commandStart s).work = .idle := rfl
@[simp] theorem commandStart_todo : (commandStart s).todo = [] := rfl
@[simp] theorem commandStart_caps : (commandStart s).caps = s.caps := rfl
@[simp] theorem commandStart_era : (commandStart s).era = s.era := rfl
@[simp] theorem commandStart_host : (commandStart s).host = s.host := rfl
@[simp] theorem commandStart_grant : (commandStart s).grant = s.grant := rfl

end

/-! ### resetCore: reset (R273, R330) -/

section
variable (s : State)

@[simp] theorem resetCore_cmd : (resetCore s).cmd = State.reset.cmd := rfl
@[simp] theorem resetCore_busy : (resetCore s).busy = State.reset.busy := rfl
@[simp] theorem resetCore_done : (resetCore s).done = State.reset.done := rfl
@[simp] theorem resetCore_fault : (resetCore s).fault = State.reset.fault := rfl
@[simp] theorem resetCore_np : (resetCore s).np = State.reset.np := rfl
@[simp] theorem resetCore_fcause : (resetCore s).fcause = State.reset.fcause := rfl
@[simp] theorem resetCore_finfo : (resetCore s).finfo = State.reset.finfo := rfl
@[simp] theorem resetCore_ilen : (resetCore s).ilen = State.reset.ilen := rfl
@[simp] theorem resetCore_ipos : (resetCore s).ipos = State.reset.ipos := rfl
@[simp] theorem resetCore_olen : (resetCore s).olen = State.reset.olen := rfl
@[simp] theorem resetCore_silen : (resetCore s).silen = State.reset.silen := rfl
@[simp] theorem resetCore_solen : (resetCore s).solen = State.reset.solen := rfl
@[simp] theorem resetCore_ctcnt : (resetCore s).ctcnt = State.reset.ctcnt := rfl
@[simp] theorem resetCore_mcs : (resetCore s).mcs = State.reset.mcs := rfl
@[simp] theorem resetCore_fidx : (resetCore s).fidx = State.reset.fidx := rfl
@[simp] theorem resetCore_bkind : (resetCore s).bkind = State.reset.bkind := rfl
@[simp] theorem resetCore_fld : (resetCore s).fld = State.reset.fld := rfl
@[simp] theorem resetCore_ctm : (resetCore s).ctm = State.reset.ctm := rfl
@[simp] theorem resetCore_comb : (resetCore s).comb = State.reset.comb := rfl
@[simp] theorem resetCore_ibuf : (resetCore s).ibuf = State.reset.ibuf := rfl
@[simp] theorem resetCore_obuf : (resetCore s).obuf = State.reset.obuf := rfl
@[simp] theorem resetCore_sin : (resetCore s).sin = State.reset.sin := rfl
@[simp] theorem resetCore_sout : (resetCore s).sout = State.reset.sout := rfl
@[simp] theorem resetCore_doc : (resetCore s).doc = State.reset.doc := rfl
@[simp] theorem resetCore_work : (resetCore s).work = State.reset.work := rfl
@[simp] theorem resetCore_todo : (resetCore s).todo = State.reset.todo := rfl
@[simp] theorem resetCore_caps : (resetCore s).caps = s.caps := rfl
@[simp] theorem resetCore_era : (resetCore s).era = s.era + 1 := rfl
@[simp] theorem resetCore_host : (resetCore s).host = s.host := rfl
@[simp] theorem resetCore_grant : (resetCore s).grant = s.grant := rfl

end

end Sys2Proof.Machine
end

