-- ==== Sys2Proof/Laws/Micro.lean ====
section
/-!
SUPPORT. What a micro-step can do, what a list of them can do, and what appending to an output does: the inductions over a running
command, packaged once.
-/

namespace Sys2Proof.Machine

/-! ### One micro-step -/

/-- The two outcomes of `out(b)` (R13, R303). -/
theorem outByte_cases (b : Byte) (s : State) :
    (outFull s.caps.obuf s.olen = true ∧ outByte b s = raiseFault .capacity s.olen s) ∨
    (outFull s.caps.obuf s.olen = false ∧
      outByte b s = { s with obuf := Memory.write s.obuf s.olen.toNat b, olen := s.olen + 1 }) := by
  unfold outByte
  cases outFull s.caps.obuf s.olen <;> simp

/-- The two outcomes of `outs(x)` (R13, R303). -/
theorem outSymbol_cases (x : Symbol) (s : State) :
    (outFull s.caps.sout s.solen = true ∧ outSymbol x s = raiseFault .capacity s.solen s) ∨
    (outFull s.caps.sout s.solen = false ∧
      outSymbol x s = { s with sout := Memory.write s.sout s.solen.toNat x, solen := s.solen + 1 }) := by
  unfold outSymbol
  cases outFull s.caps.sout s.solen <;> simp

/-- An output space is full exactly at its limit. -/
theorem outFull_iff (cap : Option Nat) (len : Word) : outFull cap len = true ↔ outLimit cap ≤ len.toNat := by
  have hlen := len.isLt
  have h1 : decide (len = BitVec.allOnes 32) = true ↔ len.toNat = 2 ^ 32 - 1 := by
    rw [decide_eq_true_iff]
    constructor
    · rintro rfl; rfl
    · intro h; exact BitVec.eq_of_toNat_eq (by rw [h]; rfl)
  rw [outFull, Bool.or_eq_true, h1]
  cases cap with
  | none => simp only [Option.any_none, outLimit]; simp; omega
  | some c => simp only [Option.any_some, outLimit, decide_eq_true_iff]; omega

/-- What no micro-step writes: `CMD`, the host's inputs and operands, the capacities, and the model's own fields. -/
structure SameInputs (s t : State) : Prop where
  cmd : t.cmd = s.cmd
  ilen : t.ilen = s.ilen
  silen : t.silen = s.silen
  ctcnt : t.ctcnt = s.ctcnt
  fidx : t.fidx = s.fidx
  bkind : t.bkind = s.bkind
  ibuf : t.ibuf = s.ibuf
  sin : t.sin = s.sin
  caps : t.caps = s.caps
  era : t.era = s.era
  host : t.host = s.host
  grant : t.grant = s.grant

theorem SameInputs.rfl {s : State} : SameInputs s s := by constructor <;> exact Eq.refl _

theorem SameInputs.trans {s t u : State} (h : SameInputs s t) (k : SameInputs t u) : SameInputs s u where
  cmd := k.cmd.trans h.cmd
  ilen := k.ilen.trans h.ilen
  silen := k.silen.trans h.silen
  ctcnt := k.ctcnt.trans h.ctcnt
  fidx := k.fidx.trans h.fidx
  bkind := k.bkind.trans h.bkind
  ibuf := k.ibuf.trans h.ibuf
  sin := k.sin.trans h.sin
  caps := k.caps.trans h.caps
  era := k.era.trans h.era
  host := k.host.trans h.host
  grant := k.grant.trans h.grant

/-- Equal inputs give equal input sequences. -/
theorem SameInputs.input {s t : State} (h : SameInputs s t) : t.input = s.input := by
  have : t.ibufAt = s.ibufAt := by funext a; simp [State.ibufAt, h.ibuf, h.era]
  simp [State.input, h.ilen, this]

theorem SameInputs.symbols {s t : State} (h : SameInputs s t) : t.symbols = s.symbols := by
  have : t.sinAt = s.sinAt := by funext a; simp [State.sinAt, h.sin, h.era]
  simp [State.symbols, h.silen, this]

theorem Micro.apply_sameInputs (m : Micro) (s : State) : SameInputs s (m.apply s) := by
  cases m with
  | out b => rcases outByte_cases b s with ⟨_, h⟩ | ⟨_, h⟩ <;> simp only [Micro.apply, h] <;> constructor <;> rfl
  | outs x => rcases outSymbol_cases x s with ⟨_, h⟩ | ⟨_, h⟩ <;> simp only [Micro.apply, h] <;> constructor <;> rfl
  | olen0 | solen0 | ipos | mcs | clearFault | clearCause | clearInfo | dropDoc | doc | field | ctm | comb | work | raise | finish =>
    constructor <;> rfl

/-- A micro-step ends the command or leaves it running with the micro-steps it had. -/
theorem Micro.apply_todo (m : Micro) {s : State} (hb : s.busy = true) :
    ((m.apply s).busy = true ∧ (m.apply s).todo = s.todo) ∨
    ((m.apply s).busy = false ∧ (m.apply s).todo = [] ∧ (m.apply s).work = .idle) := by
  cases m with
  | out b => rcases outByte_cases b s with ⟨_, h⟩ | ⟨_, h⟩ <;> simp [Micro.apply, h, hb]
  | outs x => rcases outSymbol_cases x s with ⟨_, h⟩ | ⟨_, h⟩ <;> simp [Micro.apply, h, hb]
  | raise | finish => right; simp [Micro.apply]
  | olen0 | solen0 | ipos | mcs | clearFault | clearCause | clearInfo | dropDoc | doc | field | ctm | comb | work => left; simp [Micro.apply, hb]

/-! ### A list of micro-steps -/

@[simp] theorem runMicros_nil (s : State) : runMicros [] s = s := rfl

theorem runMicros_cons (m : Micro) (ms : List Micro) (s : State) :
    runMicros (m :: ms) s = if (m.apply s).busy then runMicros ms (m.apply s) else m.apply s := rfl

/-- The second part runs only if the first leaves the command running. -/
theorem runMicros_append (ms ns : List Micro) (s : State) (hb : s.busy = true) :
    runMicros (ms ++ ns) s = if (runMicros ms s).busy then runMicros ns (runMicros ms s) else runMicros ms s := by
  induction ms generalizing s with
  | nil => simp [hb]
  | cons m ms ih =>
    simp only [List.cons_append, runMicros_cons]
    split
    · exact ih _ ‹_›
    · simp_all

/-- What every micro-step of a list keeps, the list keeps. -/
theorem runMicros_keeps {P : State → Prop} {ms : List Micro} {s : State} (hs : P s)
    (h : ∀ m ∈ ms, ∀ u, P u → P (m.apply u)) : P (runMicros ms s) := by
  induction ms generalizing s with
  | nil => exact hs
  | cons m ms ih =>
    have hm := h m List.mem_cons_self s hs
    rw [runMicros_cons]
    split
    · exact ih hm (fun n hn => h n (List.mem_cons_of_mem _ hn))
    · exact hm

theorem runMicros_sameInputs (ms : List Micro) (s : State) : SameInputs s (runMicros ms s) :=
  runMicros_keeps (P := SameInputs s) SameInputs.rfl (fun m _ u hu => hu.trans (m.apply_sameInputs u))

/-- A list of micro-steps ends the command or leaves it running with the micro-steps it had. -/
theorem runMicros_todo (ms : List Micro) {s : State} (hb : s.busy = true) :
    ((runMicros ms s).busy = true ∧ (runMicros ms s).todo = s.todo) ∨
    ((runMicros ms s).busy = false ∧ (runMicros ms s).todo = [] ∧ (runMicros ms s).work = .idle) := by
  induction ms generalizing s with
  | nil => exact .inl ⟨hb, rfl⟩
  | cons m ms ih =>
    rw [runMicros_cons]
    rcases m.apply_todo hb with ⟨h, ht⟩ | ⟨h, ht⟩
    · rw [if_pos h, ← ht]; exact ih h
    · rw [if_neg (by simp [h])]; exact .inr ⟨h, ht⟩

/-- Micro-steps that end no command just follow each other. -/
theorem runMicros_cons_busy {m : Micro} {s : State} (ms : List Micro) (h : (m.apply s).busy = true) :
    runMicros (m :: ms) s = runMicros ms (m.apply s) := by simp [runMicros_cons, h]

@[simp] theorem runMicros_raise (code : FaultCode) (info : Word) (ms : List Micro) (s : State) :
    runMicros (.raise code info :: ms) s = raiseFault code info s := by simp [runMicros_cons, Micro.apply]

@[simp] theorem runMicros_finish (np : Bool) (ms : List Micro) (s : State) :
    runMicros (.finish np :: ms) s = complete np s := by simp [runMicros_cons, Micro.apply]

/-- The return from a fault (R271, R307), then the rest of the command. -/
theorem runMicros_clearFault {s : State} (rest : List Micro) (hb : s.busy = true) :
    runMicros (clearFaultMicros ++ rest) s = runMicros rest { s with fault := false, fcause := 0, finfo := 0 } := by
  simp [clearFaultMicros, runMicros_cons, Micro.apply, hb]

/-! ### Appending to an output -/

/-- Appending bytes that fit to `OBUF`, then the rest of the command (R13, R27). -/
theorem runMicros_outAll {pre bs : List Byte} {s : State} (rest : List Micro) (hb : s.busy = true)
    (ho : s.obuf = cells pre) (hl : s.olen = Word.ofNat pre.length) (hfit : pre.length + bs.length ≤ outLimit s.caps.obuf) :
    runMicros (outAll bs ++ rest) s =
      runMicros rest { s with obuf := cells (pre ++ bs), olen := Word.ofNat (pre.length + bs.length) } := by
  induction bs generalizing pre s with
  | nil => simp [outAll, ← ho, ← hl]
  | cons b bs ih =>
    have hlim : outLimit s.caps.obuf < 2 ^ 32 := by cases h : s.caps.obuf <;> simp [outLimit]
    have hn : s.olen.toNat = pre.length := by
      rw [hl]; exact Nat.mod_eq_of_lt (by simp at hfit; omega)
    have hf : outFull s.caps.obuf s.olen = false := by
      rw [Bool.eq_false_iff, ne_eq, outFull_iff, hn]; simp at hfit; omega
    have hstep : Micro.apply (.out b) s = { s with obuf := cells (pre ++ [b]), olen := Word.ofNat (pre ++ [b]).length } := by
      rcases outByte_cases b s with ⟨h, _⟩ | ⟨_, h⟩
      · simp [hf] at h
      · have e : Word.ofNat pre.length + 1 = Word.ofNat (pre ++ [b]).length := by
          simp [Word.ofNat, BitVec.ofNat_add]
        simp only [Micro.apply, h, hn]
        rw [ho, Memory.write_cells, hl, e]
    rw [outAll, List.map_cons, List.cons_append, runMicros_cons_busy _ (by rw [hstep]; exact hb), hstep]
    have := ih (pre := pre ++ [b])
      (s := { s with obuf := cells (pre ++ [b]), olen := Word.ofNat (pre ++ [b]).length }) hb rfl rfl
      (by simp at hfit ⊢; omega)
    rw [outAll] at this
    rw [this]
    simp [Nat.add_assoc, Nat.add_comm 1]

/-- Appending bytes that do not fit ends the command with `CAPACITY` and the part that fits (R303, R305). -/
theorem runMicros_outAll_full {pre bs : List Byte} {s : State} (rest : List Micro) (hb : s.busy = true)
    (ho : s.obuf = cells pre) (hl : s.olen = Word.ofNat pre.length) (hpre : pre.length ≤ outLimit s.caps.obuf)
    (hfull : outLimit s.caps.obuf < pre.length + bs.length) :
    runMicros (outAll bs ++ rest) s =
      raiseFault .capacity (Word.ofNat (outLimit s.caps.obuf))
        { s with
          obuf := cells (pre ++ bs.take (outLimit s.caps.obuf - pre.length))
          olen := Word.ofNat (outLimit s.caps.obuf) } := by
  have hlim : outLimit s.caps.obuf < 2 ^ 32 := by cases h : s.caps.obuf <;> simp [outLimit]
  obtain ⟨k, hk⟩ : ∃ k, outLimit s.caps.obuf = pre.length + k := ⟨_, (Nat.add_sub_of_le hpre).symm⟩
  have hkl : k < bs.length := by omega
  have hsplit : bs = bs.take k ++ bs[k] :: bs.drop (k + 1) := by simp
  have e : outAll bs ++ rest = outAll (bs.take k) ++ (.out bs[k] :: (outAll (bs.drop (k + 1)) ++ rest)) := by
    rw [← List.cons_append, ← List.append_assoc]
    simp only [outAll, ← List.map_cons, ← List.map_append, ← hsplit]
  have htl : (bs.take k).length = k := by simp; omega
  rw [e, runMicros_outAll _ hb ho hl (by rw [htl]; omega), htl, ← hk, show outLimit s.caps.obuf - pre.length = k by omega]
  have hn : (Word.ofNat (outLimit s.caps.obuf)).toNat = outLimit s.caps.obuf := Nat.mod_eq_of_lt hlim
  have hf : outFull s.caps.obuf (Word.ofNat (outLimit s.caps.obuf)) = true := by rw [outFull_iff, hn]
  rw [runMicros_cons, if_neg] <;> simp [Micro.apply, outByte, hf]

/-- Appending symbols that fit to `SOUT`, then the rest of the command (R13, R28). -/
theorem runMicros_outsAll {xs : List Symbol} {s : State} (rest : List Micro) (hb : s.busy = true)
    (hfit : s.solen.toNat + xs.length ≤ outLimit s.caps.sout) :
    runMicros (outsAll xs ++ rest) s =
      runMicros rest { s with
        sout := Memory.fill s.sout s.solen.toNat xs, solen := s.solen + Word.ofNat xs.length } := by
  induction xs generalizing s with
  | nil => simp [outsAll]
  | cons x xs ih =>
    have hlim : outLimit s.caps.sout < 2 ^ 32 := by cases h : s.caps.sout <;> simp [outLimit]
    simp only [List.length_cons] at hfit
    have hf : outFull s.caps.sout s.solen = false := by
      rw [Bool.eq_false_iff, ne_eq, outFull_iff]; omega
    have hn : (s.solen + 1).toNat = s.solen.toNat + 1 := by
      rw [BitVec.toNat_add]; exact Nat.mod_eq_of_lt (by simp; omega)
    have hstep : Micro.apply (.outs x) s =
        { s with sout := Memory.write s.sout s.solen.toNat x, solen := s.solen + 1 } := by
      simp [Micro.apply, outSymbol, hf]
    rw [outsAll, List.map_cons, List.cons_append, runMicros_cons_busy _ (by rw [hstep]; exact hb), hstep]
    have := ih (s := { s with sout := Memory.write s.sout s.solen.toNat x, solen := s.solen + 1 }) hb
      (by simp only [hn]; omega)
    rw [outsAll] at this
    rw [this]
    simp only [hn, Memory.fill_cons, List.length_cons, BitVec.add_assoc]
    rw [show (1 : Word) + Word.ofNat xs.length = Word.ofNat (xs.length + 1) by
      rw [BitVec.add_comm]; simp [Word.ofNat, BitVec.ofNat_add]]

end Sys2Proof.Machine
end

