-- ==== Sys2Proof/Laws/Engine.lean ====
section
/-!
SUPPORT. What the shared operations of a command's life can do (spec/45_system_commands.md R274), what a step can do, and the induction over a
running command.
-/

namespace Sys2Proof.Machine

/-! ### The running command -/

/-- A piece of the running command happens at once, or becomes the micro-steps to come. -/
theorem issue_cases (ms : List Micro) (s : State) :
    (s.grant = none ∧ issue ms s = runMicros ms s) ∨ (∃ n, s.grant = some n ∧ issue ms s = { s with todo := ms }) := by
  unfold issue
  cases h : s.grant with
  | none => exact .inl ⟨rfl, rfl⟩
  | some n => exact .inr ⟨n, rfl, rfl⟩

theorem issue_sameInputs (ms : List Micro) (s : State) : SameInputs s (issue ms s) := by
  rcases issue_cases ms s with ⟨_, h⟩ | ⟨_, _, h⟩ <;> rw [h]
  · exact runMicros_sameInputs ms s
  · constructor <;> rfl

/-- What a step of the running command is: a pending micro-step; completion of a command with nothing left; or the next piece of its loop. -/
theorem coreTick_cases (s : State) :
    (∃ m ms, s.todo = m :: ms ∧ coreTick s = m.apply { s with todo := ms }) ∨
    (s.todo = [] ∧ s.work = .idle ∧ coreTick s = complete false s) ∨
    (∃ w, s.todo = [] ∧ s.work = .parse w ∧ coreTick s = issue (attemptMicros w s) s) ∨
    (∃ w, s.todo = [] ∧ s.work = .enc w ∧ coreTick s = issue (encMicros w s) s) ∨
    (∃ w, s.todo = [] ∧ s.work = .dec w ∧ coreTick s = issue (decMicros w s) s) := by
  unfold coreTick
  cases ht : s.todo with
  | cons m ms => exact .inl ⟨m, ms, rfl, rfl⟩
  | nil => cases hw : s.work <;> simp

theorem coreTick_sameInputs (s : State) : SameInputs s (coreTick s) := by
  rcases coreTick_cases s with ⟨m, ms, _, h⟩ | ⟨_, _, h⟩ | ⟨w, _, _, h⟩ | ⟨w, _, _, h⟩ | ⟨w, _, _, h⟩ <;> rw [h]
  · exact SameInputs.trans (t := { s with todo := ms }) (by constructor <;> rfl) (m.apply_sameInputs _)
  · constructor <;> rfl
  all_goals exact issue_sameInputs _ _

/-- A command that has ended stays as it is. -/
@[simp] theorem settle_ended {s : State} (h : s.busy = false) (n : Nat) : settle n s = s := by
  cases n <;> simp [settle, h]

/-- What every step of a running command keeps, the run keeps. -/
theorem settle_keeps {P : State → Prop} {s : State} (hs : P s) (h : ∀ u, u.busy = true → P u → P (coreTick u)) (n : Nat) :
    P (settle n s) := by
  induction n generalizing s with
  | zero => exact hs
  | succ n ih =>
    unfold settle
    split
    · exact ih (h s ‹_› hs)
    · exact hs

theorem settle_sameInputs (n : Nat) (s : State) : SameInputs s (settle n s) :=
  settle_keeps (P := SameInputs s) SameInputs.rfl (fun u _ hu => hu.trans (coreTick_sameInputs u)) n

/-- What every step of a running command keeps, the joined transitions keep. -/
theorem catchUp_keeps {P : State → Prop} {s : State} (hs : P s) (h : ∀ u, u.busy = true → P u → P (coreTick u)) (n : Nat) :
    P (catchUp n s) := by
  induction n generalizing s with
  | zero => exact hs
  | succ n ih =>
    unfold catchUp
    split
    · rename_i hq
      exact ih (h s (by simp only [State.quiet, Bool.and_eq_true] at hq; exact hq.1) hs)
    · exact hs

/-- A command that has no micro-step left ends; any other stays where it is. -/
theorem endIfDone_cases (s : State) : endIfDone s = s ∨ (endIfDone s = catchUp 32 s ∧ (catchUp 32 s).busy = false) := by
  unfold endIfDone
  split
  · exact .inl rfl
  · split
    · exact .inl rfl
    · exact .inr ⟨rfl, by simp_all⟩

@[simp] theorem endIfDone_waits {s : State} (h : s.grant = none) : endIfDone s = s := by simp [endIfDone, h]

theorem endIfDone_keeps {P : State → Prop} {s : State} (hs : P s) (h : ∀ u, u.busy = true → P u → P (coreTick u)) :
    P (endIfDone s) := by
  rcases endIfDone_cases s with e | ⟨e, _⟩ <;> rw [e]
  · exact hs
  · exact catchUp_keeps hs h 32

theorem endIfDone_sameInputs (s : State) : SameInputs s (endIfDone s) :=
  endIfDone_keeps (P := SameInputs s) SameInputs.rfl (fun u _ hu => hu.trans (coreTick_sameInputs u))

/-- A paced command starts with all its micro-steps to come, or, `SEQ.PARSE`, with the old document gone. -/
theorem beginPaced_cases (ms : List Micro) (s : State) :
    beginPaced ms s = { s with todo := ms } ∨
    (∃ rest, ms = .dropDoc :: rest ∧ beginPaced ms s = { s with doc := none, ipos := 0, todo := rest }) := by
  cases ms with
  | nil => exact .inl rfl
  | cons m rest =>
    by_cases h : m = .dropDoc
    · exact .inr ⟨rest, by rw [h], by simp [beginPaced, h, Micro.apply]⟩
    · exact .inl (by simp [beginPaced, h])

theorem launch_sameInputs (ms : List Micro) (s : State) : SameInputs s (launch ms s) := by
  unfold launch
  split
  · exact (runMicros_sameInputs ms s).trans (settle_sameInputs _ _)
  · refine SameInputs.trans (t := beginPaced ms s) ?_ (endIfDone_sameInputs _)
    rcases beginPaced_cases ms s with h | ⟨_, _, h⟩ <;> rw [h] <;> constructor <;> rfl

/-! ### The start of a command -/

/-- What a command's start is, for a host that waits: its first micro-steps, then the rest of its run. -/
theorem startCommand_waits (micros : State → List Micro) {s : State} (h : s.grant = none) :
    startCommand micros s =
      settle (stepBound s) (runMicros (micros (commandStart s)) (commandStart s)) := by
  unfold startCommand launch
  simp [h, stepBound]

theorem startCommand_sameInputs (micros : State → List Micro) (s : State) : SameInputs s (startCommand micros s) :=
  SameInputs.trans (t := commandStart s) (by constructor <;> rfl) (launch_sameInputs _ _)

/-- A command other than `SYS.CLRFAULT`, `SYS.ABORT`, `SYS.RESET` is turned away or starts (R274). -/
theorem command_cases (op : Byte) (micros : State → List Micro) (s : State) :
    ((s.busy = true ∨ s.fault = true) ∧ command op micros s = { s with cmd := op }) ∨
    (s.busy = false ∧ s.fault = false ∧ command op micros s = startCommand micros { s with cmd := op }) := by
  unfold command
  cases s.busy <;> cases s.fault <;> simp

/-- What a command leaves of the inputs (R32, R21): all but `CMD`. -/
theorem command_sameInputs (op : Byte) (micros : State → List Micro) (s : State) :
    SameInputs { s with cmd := op } (command op micros s) := by
  rcases command_cases op micros s with ⟨_, h⟩ | ⟨_, _, h⟩ <;> rw [h]
  · exact SameInputs.rfl
  · exact startCommand_sameInputs _ _

/-- A command that only produces bytes (R170, R160): they are output, or as many as fit. -/
theorem command_emits (op : Byte) (bytes : List Byte) {micros : State → List Micro} {s : State} (h : Starts s)
    (hm : micros (commandStart { s with cmd := op }) = .olen0 :: (outAll bytes ++ [.finish false])) :
    command op micros s = emitted op bytes s := by
  obtain ⟨hb, hf, hg⟩ := h
  rcases command_cases op micros s with ⟨h | h, _⟩ | ⟨_, _, hc⟩
  · simp [hb] at h
  · simp [hf] at h
  rw [hc, startCommand_waits _ (by exact hg), hm, runMicros_cons_busy _ (by simp [Micro.apply])]
  by_cases hfit : bytes.length ≤ outLimit s.caps.obuf
  · rw [runMicros_outAll (pre := []) [.finish false] (by simp [Micro.apply]) rfl rfl (by simpa [Micro.apply] using hfit)]
    rw [runMicros_finish, settle_ended (complete_busy _ _), emitted, if_pos hfit, List.nil_append, List.length_nil, Nat.zero_add]
    rfl
  · rw [runMicros_outAll_full (pre := []) [.finish false] (by simp [Micro.apply]) rfl rfl (Nat.zero_le _)
      (by simpa [Micro.apply] using hfit)]
    rw [settle_ended (raiseFault_busy _ _ _), emitted, if_neg hfit, List.nil_append, List.length_nil, Nat.sub_zero]
    rfl

/-! ### A step -/

/-- The core's move is the next step of the running command: where it stands at an instruction, that instruction's `exec` is the step. -/
theorem coreStep_eq {s : State} (hb : s.busy = true) : coreStep s = .next (coreTick s) := by
  unfold coreStep
  cases hf : fetched s with
  | none => rfl
  | some i =>
    simp only [fetched] at hf
    cases ht : s.todo with
    | cons m ms => simp [ht] at hf
    | nil =>
      simp only [ht, List.isEmpty_nil, if_true] at hf
      cases hw : s.work with
      | idle => simp [hw] at hf
      | enc w => simp [hw] at hf
      | parse w =>
        simp only [hw] at hf
        have ha : s.attempt = some w := by simp [State.attempt, hb, ht, hw]
        have hd : decodeBlk (cutHere s).rest = .ok i := by
          cases h : decodeBlk (cutHere s).rest with
          | error e => simp [h, Except.toOption] at hf
          | ok j => simpa [h, Except.toOption] using hf
        have hk : coreTick s = issue (blkMicros i w s) s := by
          simp only [coreTick, ht, hw, attemptMicros, hd]
        rw [hk]
        have hi : i ∈ [Instr.extGce, .extApp, .extPte, .extCom, .img, .trailer] := by
          unfold decodeBlk decodeLabel at hd
          repeat' split at hd
          all_goals simp_all
        simp only [List.mem_cons, List.not_mem_nil, or_false] at hi
        rcases hi with rfl | rfl | rfl | rfl | rfl | rfl <;>
          simp [exec, execExtGce, execExtApp, execExtPte, execExtCom, execImg, execTrailer, inAttempt, ha, blkMicros]
      | dec w =>
        simp only [hw, decodeCode] at hf
        by_cases hok : codeWidthOk w.width = false
        · simp [hok, Except.toOption] at hf
        · by_cases hnb : w.nb < w.width
          · simp [hok, hnb, Except.toOption] at hf
          · rw [if_neg hok, if_neg hnb] at hf
            simp only [Except.toOption, Option.some.injEq] at hf
            subst hf
            have h12 : w.width ≤ 12 := by
              simp [codeWidthOk, Config.wMax] at hok; omega
            have hr : s.codeReady w.width = some w := by
              simp [State.codeReady, hb, ht, hw, Nat.not_lt.1 hnb]
            have hc : (BitVec.ofNat 12 (w.acc % 2 ^ w.width)).toNat = w.acc % 2 ^ w.width := by
              rw [BitVec.toNat_ofNat]
              exact Nat.mod_eq_of_lt (lt_of_lt_of_le (Nat.mod_lt _ (by positivity)) (Nat.pow_le_pow_right (by norm_num) h12))
            simp only [exec, execLzwCode, hr, hc, coreTick, ht, hw, decMicros, hnb, if_false]

/-- What a step can do: the core goes on while `BUSY = 1` and it is not the host's move; else the host acts, or nothing happens. -/
theorem step_cases (s : State) :
    (s.busy = true ∧ hostMoves s = false ∧ step s = .next (endIfDone (coreTick (spendGrant s)))) ∨
    ((s.busy = false ∨ hostMoves s = true) ∧ s.host = [] ∧ step s = .next s) ∨
    (∃ a rest, (s.busy = false ∨ hostMoves s = true) ∧ s.host = a :: rest ∧ step s = hostAct a { s with host := rest }) := by
  have hsp : (spendGrant s).busy = s.busy := by unfold spendGrant; split <;> rfl
  unfold step
  by_cases h : s.busy = true ∧ hostMoves s = false
  · exact .inl ⟨h.1, h.2, by rw [h.1, h.2, coreStep_eq (by rw [hsp, h.1])]; rfl⟩
  · have hm : s.busy = false ∨ hostMoves s = true := by
      cases hb : s.busy <;> cases hm : hostMoves s <;> simp_all
    have hc : (s.busy && !hostMoves s) = false := by rcases hm with hm | hm <;> simp [hm]
    rw [hc, if_neg (by simp)]
    unfold hostStep
    cases hh : s.host with
    | nil => exact .inr (.inl ⟨hm, rfl, rfl⟩)
    | cons a rest => exact .inr (.inr ⟨a, rest, hm, rfl, rfl⟩)

end Sys2Proof.Machine
end

