-- ==== Sys2Proof/Laws/PerInstr.lean ====
section
/-!
SUPPORT. What holds of every instruction as syntax, one lemma a constructor.
-/

namespace Sys2Proof.Laws.EncodedShape

/-- An encoding has the shape of its format (spec/30_encoding.md R91, R101, R115): a command's opcode names one of the four units in its high
half; a block item is selected by one or two bytes, of which the first is `0x21` exactly when there are two; a code is as many bits as its width,
and fits it when the instruction is well-formed. -/
def Statement (i : Instr) : Prop :=
  match encode i with
  | .cmd op => op.toNat / 16 ≤ 3
  | .blk bytes => (bytes.length = 1 ∨ bytes.length = 2) ∧ (bytes.length = 2 ↔ bytes.head? = some Config.extIntro)
  | .code width nb acc => nb = width ∧ (i.wf = true → acc < 2 ^ width)

theorem of_cmd {i : Instr} (op : Byte) (e : encode i = .cmd op) (h : op.toNat / 16 ≤ 3) : Statement i := by
  rw [Statement, e]; exact h

theorem of_pair {i : Instr} (label : Byte) (e : encode i = .blk [Config.extIntro, label]) : Statement i := by
  rw [Statement, e]; simp

theorem of_single {i : Instr} (b : Byte) (e : encode i = .blk [b]) (h : b ≠ Config.extIntro) : Statement i := by
  rw [Statement, e]; simpa using h

theorem sysNop : Statement .sysNop := of_cmd 0x00 rfl (by decide)
theorem sysClrfault : Statement .sysClrfault := of_cmd 0x01 rfl (by decide)
theorem sysAbort : Statement .sysAbort := of_cmd 0x02 rfl (by decide)
theorem sysReset : Statement .sysReset := of_cmd 0x03 rfl (by decide)
theorem seqParse : Statement .seqParse := of_cmd 0x10 rfl (by decide)
theorem seqSerialize : Statement .seqSerialize := of_cmd 0x11 rfl (by decide)
theorem seqGetblk : Statement .seqGetblk := of_cmd 0x12 rfl (by decide)
theorem seqSetblk : Statement .seqSetblk := of_cmd 0x13 rfl (by decide)
theorem fldUnpackLsd : Statement .fldUnpackLsd := of_cmd 0x20 rfl (by decide)
theorem fldPackLsd : Statement .fldPackLsd := of_cmd 0x21 rfl (by decide)
theorem fldUnpackGce : Statement .fldUnpackGce := of_cmd 0x22 rfl (by decide)
theorem fldPackGce : Statement .fldPackGce := of_cmd 0x23 rfl (by decide)
theorem fldUnpackId : Statement .fldUnpackId := of_cmd 0x24 rfl (by decide)
theorem fldPackId : Statement .fldPackId := of_cmd 0x25 rfl (by decide)
theorem fldUnpackApp : Statement .fldUnpackApp := of_cmd 0x26 rfl (by decide)
theorem fldPackApp : Statement .fldPackApp := of_cmd 0x27 rfl (by decide)
theorem fldUnpackCom : Statement .fldUnpackCom := of_cmd 0x28 rfl (by decide)
theorem fldPackCom : Statement .fldPackCom := of_cmd 0x29 rfl (by decide)
theorem fldUnpackCt : Statement .fldUnpackCt := of_cmd 0x2A rfl (by decide)
theorem fldPackCt : Statement .fldPackCt := of_cmd 0x2B rfl (by decide)
theorem fldUnpackU16 : Statement .fldUnpackU16 := of_cmd 0x2C rfl (by decide)
theorem fldPackU16 : Statement .fldPackU16 := of_cmd 0x2D rfl (by decide)
theorem lzwEnc : Statement .lzwEnc := of_cmd 0x30 rfl (by decide)
theorem lzwDec : Statement .lzwDec := of_cmd 0x31 rfl (by decide)
theorem extGce : Statement .extGce := of_pair Config.labelGce rfl
theorem extApp : Statement .extApp := of_pair Config.labelApp rfl
theorem extPte : Statement .extPte := of_pair Config.labelPte rfl
theorem extCom : Statement .extCom := of_pair Config.labelCom rfl
theorem img : Statement .img := of_single Config.imgSep rfl (by decide)
theorem trailer : Statement .trailer := of_single Config.trailerByte rfl (by decide)

theorem lzwCode (width : Nat) (code : BitVec 12) : Statement (.lzwCode width code) :=
  ⟨rfl, fun h => by simpa [Instr.wf] using (Bool.and_eq_true_iff.1 h).2⟩

end Sys2Proof.Laws.EncodedShape
end

