-- ==== Sys2Proof/Tests/Slice0.lean ====
section
/-!
SUPPORT. Tests: what WellFormed refuses, one word of every constructor, steps from the vectors of spec/95_test_vectors.md (each test names its
row), and for every statement with hypotheses states that meet them.
-/

open Sys2Proof Sys2Proof.Machine

namespace Sys2Proof.Tests

-- one theorem after the other: evaluated side by side they take more memory than the check allows
set_option Elab.async false

/-! ### Helpers -/

/-- Reset, then `ibuf`. -/
def loaded (bs : List Byte) : State := { State.reset with ibuf := cells bs, ilen := Word.ofNat bs.length }

/-- Reset, then `sin` and `CTCNT`. -/
def given (xs : List Symbol) (ctcnt : BitVec 9) : State :=
  { State.reset with sin := cells xs, silen := Word.ofNat xs.length, ctcnt := ctcnt }

/-- The next state of an instruction (the state itself where it has none). -/
def after (i : Instr) (s : State) : State :=
  match exec i s with
  | .next t => t
  | .fault _ => s
  | .refused _ => s

/-- What is seen of the state after one step. -/
def seen {α : Type} (f : State → α) (o : Host.Outcome State Fault Refusal) : Option α :=
  match o with
  | .next t => some (f t)
  | .fault _ => none
  | .refused _ => none

/-- `s` about to execute the command with opcode `v`. -/
def about (v : Word) (s : State) : State := { s with host := [.cmd v none] }

def status (t : State) : Word × Byte × Word := (statusWord t, t.fcause, t.finfo)

def header : List Byte := [0x47, 0x49, 0x46, 0x38, 0x39, 0x61]

/-- `MINI` of spec/95_test_vectors.md section 2.2. -/
def mini : List Byte := header ++ [0x01, 0x00, 0x01, 0x00, 0x00, 0x00, 0x00, 0x00, 0x00, 0x00, 0x00, 0x00, 0x00, 0x3B]

/-- The document of `MINI`. -/
def miniDoc : Doc := ⟨header, [0x01, 0x00, 0x01, 0x00, 0x00, 0x00, 0x00], [0, 0, 0, 0, 0, 0], [], [0x3B]⟩

def gceBlock : List Byte := [0x21, 0xF9, 0x04, 0x0D, 0x0A, 0x00, 0x03, 0x00]
def idBlock : List Byte := [0x2C, 0x00, 0x00, 0x00, 0x00, 0x04, 0x00, 0x04, 0x00, 0x00]
def dataBlock : List Byte := [0x02, 0x08, 0x44, 0x34, 0x71, 0x02, 0x30, 0x2F, 0x02, 0x28, 0x00]

/-- The frame and the document of `TINY`, program P1. -/
def tinyFrame : Frame := ⟨[(.gce, gceBlock)], idBlock, [], dataBlock⟩
def tinyDoc : Doc :=
  ⟨header, [0x04, 0x00, 0x04, 0x00, 0x91, 0x00, 0x00],
    [0x00, 0x00, 0x00, 0xFF, 0x00, 0x00, 0x00, 0xFF, 0x00, 0x00, 0x00, 0xFF], [tinyFrame], [0x3B]⟩

/-- The bytes of `TINY`, written out as program P1 lists them. -/
def tiny : List Byte :=
  [0x47, 0x49, 0x46, 0x38, 0x39, 0x61, 0x04, 0x00, 0x04, 0x00, 0x91, 0x00, 0x00, 0x00, 0x00, 0x00, 0xFF, 0x00, 0x00, 0x00,
    0xFF, 0x00, 0x00, 0x00, 0xFF, 0x21, 0xF9, 0x04, 0x0D, 0x0A, 0x00, 0x03, 0x00] ++ idBlock ++ dataBlock ++ [0x3B]

/-- `TINY` loaded. -/
def withTiny (bkind : BitVec 4) (fidx : Word) (bs : List Byte) : State :=
  { loaded bs with doc := some tinyDoc, bkind := bkind, fidx := fidx }

/-- A frame attempt that waits for its next item at the start of `bs`. -/
def attempting (bs : List Byte) (exts : List (ExtKind × List Byte)) : State :=
  { loaded bs with busy := true, work := .parse ⟨[], [], [], [], 0, exts⟩ }

/-- A code of `width` bits in the accumulator of a running `LZW.DEC` of minimum code size 2. -/
def coded (width acc : Nat) (dict : List (List Symbol)) (prev : Option (List Symbol)) : State :=
  { State.reset with
    busy := true
    work := .dec { mcs := 2, width := width, dict := dict, prev := prev, acc := acc, nb := 12, rem := 0, ended := false } }

/-! ### WellFormed: each check refuses an ill-formed term -/

theorem test_wf_refuses_width_two : (Instr.lzwCode 2 0).wf = false := by decide
theorem test_wf_refuses_width_thirteen : (Instr.lzwCode 13 0).wf = false := by decide
theorem test_wf_refuses_code_beyond_width : (Instr.lzwCode 3 8).wf = false := by decide
theorem test_wf_takes_the_largest_code : (Instr.lzwCode 12 4095).wf = true := by decide

/-! ### Decoding: every constructor's word, written from R91, R101, R115 -/

theorem test_decode_sys :
    decode (.cmd 0b00000000) = .ok .sysNop ∧ decode (.cmd 0b00000001) = .ok .sysClrfault ∧
    decode (.cmd 0b00000010) = .ok .sysAbort ∧ decode (.cmd 0b00000011) = .ok .sysReset := by decide
theorem test_decode_seq :
    decode (.cmd 0b00010000) = .ok .seqParse ∧ decode (.cmd 0b00010001) = .ok .seqSerialize ∧
    decode (.cmd 0b00010010) = .ok .seqGetblk ∧ decode (.cmd 0b00010011) = .ok .seqSetblk := by decide
theorem test_decode_fld_unpack :
    decode (.cmd 0b00100000) = .ok .fldUnpackLsd ∧ decode (.cmd 0b00100010) = .ok .fldUnpackGce ∧
    decode (.cmd 0b00100100) = .ok .fldUnpackId ∧ decode (.cmd 0b00100110) = .ok .fldUnpackApp ∧
    decode (.cmd 0b00101000) = .ok .fldUnpackCom ∧ decode (.cmd 0b00101010) = .ok .fldUnpackCt ∧
    decode (.cmd 0b00101100) = .ok .fldUnpackU16 := by decide
theorem test_decode_fld_pack :
    decode (.cmd 0b00100001) = .ok .fldPackLsd ∧ decode (.cmd 0b00100011) = .ok .fldPackGce ∧
    decode (.cmd 0b00100101) = .ok .fldPackId ∧ decode (.cmd 0b00100111) = .ok .fldPackApp ∧
    decode (.cmd 0b00101001) = .ok .fldPackCom ∧ decode (.cmd 0b00101011) = .ok .fldPackCt ∧
    decode (.cmd 0b00101101) = .ok .fldPackU16 := by decide
theorem test_decode_lzw : decode (.cmd 0b00110000) = .ok .lzwEnc ∧ decode (.cmd 0b00110001) = .ok .lzwDec := by decide
theorem test_decode_blk :
    decode (.blk [0b00100001, 0b11111001]) = .ok .extGce ∧ decode (.blk [0b00100001, 0b11111111]) = .ok .extApp ∧
    decode (.blk [0b00100001, 0b00000001]) = .ok .extPte ∧ decode (.blk [0b00100001, 0b11111110]) = .ok .extCom ∧
    decode (.blk [0b00101100]) = .ok .img ∧ decode (.blk [0b00111011]) = .ok .trailer := by decide
/-- Vector E2: codes 4, 0, 5 of three bits in `44 01`. -/
theorem test_decode_code :
    decode (.code 3 16 0x0144) = .ok (.lzwCode 3 4) ∧ decode (.code 3 13 (0x0144 / 8)) = .ok (.lzwCode 3 0) ∧
    decode (.code 3 10 (0x0144 / 64)) = .ok (.lzwCode 3 5) := by decide
theorem test_decode_reserved :
    decode (.cmd 0x04) = .error (.reservedOpcode 0x04) ∧ decode (.blk [0x21, 0xCE]) = .error (.unknownLabel 0xCE) ∧
    decode (.blk [0x21]) = .error .missingLabel ∧ decode (.blk [0x00]) = .error (.absentSeparator 0x00) ∧
    decode (.code 3 2 0) = .error .shortCode := by decide
theorem test_table_words :
    decodeTableWord 8 0x2C = some .fldUnpackU16 ∧ decodeTableWord 8 0x3B = some .trailer ∧
    decodeTableWord 16 0x21F9 = some .extGce ∧ decodeTableWord 12 0 = some (.lzwCode 12 0) ∧
    decodeTableWord 8 0x04 = none := by decide

/-! ### Steps: the vectors of spec/95_test_vectors.md -/

/-- S1. -/
theorem test_nop : seen status (step (about 0x00 State.reset)) = some (0x02, 0, 0) := by decide +kernel
/-- S2. -/
theorem test_clrfault : seen status
    (step (about 0x01 { State.reset with fault := true, fcause := 0x11, finfo := 3 })) = some (0x02, 0, 0) := by decide +kernel
/-- S4, S5: turned away, `CMD` reads the opcode. -/
theorem test_turned_away : seen (fun t => (status t, t.cmd))
    (step (about 0x10 { State.reset with fault := true, fcause := 0x11, finfo := 3 })) = some ((0x04, 0x11, 3), 0x10) := by
  decide +kernel
/-- S9. -/
theorem test_abort_idle : seen status (step (about 0x02 { State.reset with doc := some miniDoc })) = some (0x12, 0, 0) := by
  decide +kernel
/-- S10: an abort leaves the partial output. -/
theorem test_abort_running : seen (fun t => (status t, t.olen))
    (exec .sysAbort { State.reset with busy := true, olen := 300 }) = some ((0x00, 0, 0), 300) := by decide +kernel
/-- S6. -/
theorem test_reset : seen (fun t => (status t, t.cmd, t.ilen, t.olen, t.doc))
    (step (about 0x03 { State.reset with fault := true, doc := some tinyDoc, ilen := 55, olen := 11 })) =
    some ((0x00, 0, 0), 0x00, 0, 0, none) := by decide +kernel
/-- S8: the opcode is the low byte of what the host writes. -/
theorem test_reserved_opcode : seen status (step (about 0x1FF State.reset)) = some (0x04, 0x40, 0xFF) := by decide +kernel
/-- T12: `TINY` parses to the document of program P1. -/
theorem test_parse_tiny : seen (fun t => (status t, t.ipos, t.fcount, t.doc)) (step (about 0x10 (loaded tiny))) =
    some ((0x12, 0, 0), 55, 1, some tinyDoc) := by decide +kernel
/-- T14: a chain that runs past the end. -/
theorem test_parse_cut_chain : seen (fun t => (status t, t.fcount)) (step (about 0x10 (loaded (tiny.take 50 ++ [0x3B])))) =
    some ((0x04, 0x11, 25), 0) := by decide +kernel
/-- B11. -/
theorem test_serialize : seen (fun t => (status t, t.olen, t.obuf)) (step (about 0x11 (withTiny 0 0 []))) =
    some ((0x12, 0, 0), 55, cells tiny) := by decide +kernel
/-- B17: `OBUF_SIZE = 40`. -/
theorem test_serialize_overrun : seen (fun t => (status t, t.olen, t.obuf))
    (step (about 0x11 { withTiny 0 0 [] with caps := { Caps.unbounded with obuf := some 40 } })) =
    some ((0x14, 0x42, 40), 40, cells (tiny.take 40)) := by decide +kernel
/-- B5. -/
theorem test_getblk : seen (fun t => (status t, t.obuf)) (step (about 0x12 (withTiny 4 0 []))) =
    some ((0x12, 0, 0), cells gceBlock) := by decide +kernel
/-- B6: an absent extension. -/
theorem test_getblk_absent : seen (fun t => (status t, t.olen)) (step (about 0x12 (withTiny 5 0 []))) =
    some ((0x1A, 0, 0), 0) := by decide +kernel
/-- B12: the empty block removes the extension. -/
theorem test_setblk_removes : seen (fun t => (status t, t.doc)) (step (about 0x13 (withTiny 4 0 []))) =
    some ((0x12, 0, 0), some { tinyDoc with frames := [{ tinyFrame with exts := [] }] }) := by decide +kernel
/-- B13. -/
theorem test_setblk_length : seen (fun t => (status t, t.doc)) (step (about 0x13 (withTiny 4 0 [0x21, 0xF9, 0x04]))) =
    some ((0x14, 0x47, 4), some tinyDoc) := by decide +kernel
/-- F1. -/
theorem test_unpack_lsd : seen (fun t => (t.ipos, [.lsdWidth, .lsdHeight, .lsdGcf, .lsdCres, .lsdSort, .lsdGctsz].map t.fld.get))
    (step (about 0x20 (loaded [0x04, 0x00, 0x04, 0x00, 0x91, 0x00, 0x00]))) = some (7, [4, 4, 1, 1, 0, 1]) := by
  decide +kernel
/-- F5. -/
theorem test_unpack_lsd_length : seen (fun t => (status t, t.ipos, t.fld))
    (step (about 0x20 (loaded [0x04, 0x00, 0x04, 0x00, 0x91, 0x00]))) = some ((0x04, 0x44, 6), 0, Fields.zero) := by
  decide +kernel
/-- F3. -/
theorem test_pack_lsd : seen (fun t => t.obuf) (step (about 0x21 { State.reset with
      fld := { Fields.zero with lsdWidth := 640, lsdHeight := 480, lsdGcf := 1, lsdCres := 7, lsdGctsz := 7 } })) =
    some (cells [0x80, 0x02, 0xE0, 0x01, 0xF7, 0x00, 0x00]) := by decide +kernel
/-- F7: reserved bits are carried. -/
theorem test_unpack_gce : seen (fun t => [.gceRsvd, .gceDisp, .gceUin, .gceTcf].map t.fld.get)
    (step (about 0x22 (loaded [0x21, 0xF9, 0x04, 0xE2, 0x00, 0x00, 0x00, 0x00]))) = some [7, 0, 1, 0] := by decide +kernel
/-- F8. -/
theorem test_pack_gce : seen (fun t => t.obuf) (step (about 0x23 { State.reset with
      fld := { Fields.zero with
        gceIntro := 0x21, gceLabel := 0xF9, gceBsize := 4, gceDisp := 1, gceTcf := 1, gceDelay := 500, gceTci := 255 } })) =
    some (cells [0x21, 0xF9, 0x04, 0x05, 0xF4, 0x01, 0xFF, 0x00]) := by decide +kernel
/-- F10. -/
theorem test_unpack_id : seen (fun t => [.idSep, .idLeft, .idTop, .idWidth, .idHeight, .idLctf, .idIlace, .idSort, .idRsvd,
      .idLctsz].map t.fld.get)
    (step (about 0x24 (loaded [0x2C, 0x01, 0x00, 0x02, 0x00, 0x0A, 0x00, 0x14, 0x00, 0xC2]))) =
    some [0x2C, 1, 2, 10, 20, 1, 1, 0, 0, 2] := by decide +kernel
/-- F11. -/
theorem test_pack_id : seen (fun t => t.obuf) (step (about 0x25 { State.reset with
      fld := { Fields.zero with idSep := 0x2C, idWidth := 300, idHeight := 200, idRsvd := 3 } })) =
    some (cells [0x2C, 0x00, 0x00, 0x00, 0x00, 0x2C, 0x01, 0xC8, 0x00, 0x18]) := by decide +kernel

def appBlock : List Byte :=
  [0x21, 0xFF, 0x0B, 0x4E, 0x45, 0x54, 0x53, 0x43, 0x41, 0x50, 0x45, 0x32, 0x2E, 0x30, 0x03, 0x01, 0x05, 0x00, 0x00]

/-- F12. -/
theorem test_unpack_app : seen (fun t => [.appBsize, .appIdent0, .appIdent7, .appAuth0, .appAuth2, .appSblen, .appLoopind,
      .appLoopcnt, .appTerm].map t.fld.get) (step (about 0x26 (loaded appBlock))) =
    some [11, 0x4E, 0x45, 0x32, 0x30, 3, 1, 5, 0] := by decide +kernel
/-- F13. -/
theorem test_pack_app : seen (fun t => t.obuf) (step (about 0x27 { State.reset with
      fld := { Fields.zero with
        appIntro := 0x21, appLabel := 0xFF, appBsize := 11, appIdent0 := 0x4E, appIdent1 := 0x45, appIdent2 := 0x54,
        appIdent3 := 0x53, appIdent4 := 0x43, appIdent5 := 0x41, appIdent6 := 0x50, appIdent7 := 0x45, appAuth0 := 0x32,
        appAuth1 := 0x2E, appAuth2 := 0x30, appSblen := 3, appLoopind := 1 } })) =
    some (cells [0x21, 0xFF, 0x0B, 0x4E, 0x45, 0x54, 0x53, 0x43, 0x41, 0x50, 0x45, 0x32, 0x2E, 0x30, 0x03, 0x01, 0x00, 0x00,
      0x00]) := by decide +kernel
/-- F15: a zero byte inside the body is data. -/
theorem test_unpack_com : seen (fun t => (t.comb, t.fld.get .comSize, t.fld.get .comTerm))
    (step (about 0x28 (loaded [0x21, 0xFE, 0x03, 0x61, 0x00, 0x62, 0x00]))) = some (cells [0x61, 0x00, 0x62], 3, 0) := by
  decide +kernel
/-- F16: two sub-blocks. -/
theorem test_unpack_com_two : seen status (step (about 0x28 (loaded [0x21, 0xFE, 0x01, 0x61, 0x01, 0x62, 0x00]))) =
    some (0x04, 0x44, 7) := by decide +kernel
/-- F17. -/
theorem test_pack_com : seen (fun t => t.obuf) (step (about 0x29 { State.reset with
      comb := cells [0x68, 0x69], fld := { Fields.zero with comIntro := 0x21, comLabel := 0xFE, comSize := 2 } })) =
    some (cells [0x21, 0xFE, 0x02, 0x68, 0x69, 0x00]) := by decide +kernel
/-- F18. -/
theorem test_unpack_ct : seen (fun t => (t.fld.get .ctN, t.ctm))
    (step (about 0x2A (loaded [0x00, 0x00, 0x00, 0xFF, 0x00, 0x00, 0x00, 0xFF, 0x00, 0x00, 0x00, 0xFF]))) =
    some (4, cells [0x000000, 0xFF0000, 0x00FF00, 0x0000FF]) := by decide +kernel
/-- F21. -/
theorem test_pack_ct : seen (fun t => t.obuf) (step (about 0x2B { State.reset with
      ctm := cells [0x102030, 0xA0B0C0], fld := { Fields.zero with ctN := 2 } })) =
    some (cells [0x10, 0x20, 0x30, 0xA0, 0xB0, 0xC0]) := by decide +kernel
/-- F22. -/
theorem test_pack_ct_operand : seen status
    (step (about 0x2B { State.reset with fld := { Fields.zero with ctN := 300 } })) = some (0x04, 0x41, 300) := by decide +kernel
/-- F23. -/
theorem test_unpack_u16 : seen (fun t => t.fld.get .u16Val) (step (about 0x2C (loaded [0x34, 0x12]))) = some 0x1234 := by
  decide +kernel
/-- F24. -/
theorem test_pack_u16 : seen (fun t => t.obuf)
    (step (about 0x2D { State.reset with fld := { Fields.zero with u16Val := 10 } })) = some (cells [0x0A, 0x00]) := by
  decide +kernel
/-- E12: the width check before End-of-Information. -/
theorem test_enc : seen (fun t => (t.mcs, t.obuf)) (step (about 0x30 (given [3, 1, 0, 2, 2, 0, 3, 3, 2, 1, 3] 0))) =
    some (2, cells [0x02, 0x07, 0x5C, 0x20, 0x02, 0x33, 0x12, 0x53, 0x00, 0x00]) := by decide +kernel
/-- E17. -/
theorem test_enc_symbol_range : seen (fun t => (status t, t.mcs)) (step (about 0x30 (given [4] 4))) =
    some ((0x04, 0x45, 0), 2) := by decide +kernel
/-- V5: two deferred codes. -/
theorem test_dec : seen (fun t => (status t, t.sout, t.ipos)) (step (about 0x31 (loaded [0x02, 0x03, 0x84, 0x0F, 0x05, 0x00]))) =
    some ((0x02, 0, 0), cells [0, 0, 0, 0, 0, 0, 0], 5) := by decide +kernel
/-- V19. -/
theorem test_dec_desync : seen (fun t => (status t, t.solen)) (step (about 0x31 (loaded [0x02, 0x02, 0xC4, 0x01, 0x00]))) =
    some ((0x04, 0x18, 7), 1) := by decide +kernel
/-- R135: eight bytes, whatever bytes 2 to 7 hold. -/
theorem test_ext_gce : seen (fun t => (t.ipos, t.work)) (exec .extGce (attempting [0x21, 0xF9, 9, 9, 9, 9, 9, 9, 0x2C] [])) =
    some (8, .parse ⟨[], [], [], [], 0, [(.gce, [0x21, 0xF9, 9, 9, 9, 9, 9, 9])]⟩) := by decide +kernel
/-- T15: a second block of the kind ends the frames; 17 bytes are left. -/
theorem test_ext_gce_twice : seen (fun t => (status t, t.ipos))
    (exec .extGce (attempting (gceBlock ++ gceBlock ++ [0x3B]) [(.gce, gceBlock)])) = some ((0x04, 0x11, 0), 0) := by
  decide +kernel
/-- R136: nineteen bytes. -/
theorem test_ext_app : seen (fun t => t.ipos) (exec .extApp (attempting (appBlock ++ [0x2C]) [])) = some 19 := by decide +kernel
/-- T20: `L` bytes and a chain. -/
theorem test_ext_pte : seen (fun t => t.ipos)
    (exec .extPte (attempting [0x21, 0x01, 0x02, 0x00, 0x00, 0x02, 0x68, 0x69, 0x00, 0x2C] [])) = some 9 := by decide +kernel
/-- R138: the chain walk does not stop at a zero payload byte. -/
theorem test_ext_com : seen (fun t => t.ipos)
    (exec .extCom (attempting [0x21, 0xFE, 0x03, 0x61, 0x00, 0x62, 0x00, 0x2C] [])) = some 7 := by decide +kernel
/-- R140: a flagged local table of size field 0 has six bytes. -/
theorem test_img : seen (fun t => (t.ipos, t.work))
    (exec .img (attempting [0x2C, 0, 0, 0, 0, 0, 0, 0, 0, 0x80, 1, 2, 3, 4, 5, 6, 0x02, 0x00, 0x3B] [])) =
    some (18, .parse ⟨[], [], [],
      [⟨[], [0x2C, 0, 0, 0, 0, 0, 0, 0, 0, 0x80], [1, 2, 3, 4, 5, 6], [0x02, 0x00]⟩], 18, []⟩) := by decide +kernel
/-- T18: two bytes after the trailer. -/
theorem test_trailer_garbage : seen status (exec .trailer (attempting [0x3B, 0x00, 0x00] [])) = some (0x04, 0x11, 0) := by
  decide +kernel
/-- R142, R143: the trailer alone. -/
theorem test_trailer : seen (fun t => (status t, t.ipos)) (exec .trailer (attempting [0x3B] [])) = some ((0x12, 0, 0), 1) := by
  decide +kernel
/-- R249 at size 6: the deferred code. -/
theorem test_code_deferred : seen (fun t => t.sout)
    (exec (.lzwCode 3 6) (coded 3 6 (initDict 2) (some [1, 2]))) = some (cells [1, 2, 1]) := by decide +kernel
/-- R250: above the size. -/
theorem test_code_desync : seen status (exec (.lzwCode 3 7) (coded 3 7 (initDict 2) (some [1]))) = some (0x04, 0x18, 7) := by
  decide +kernel
/-- F25, F26: host writes keep the low bits. -/
theorem test_host_write : seen (fun t => t.fld.get .gceDisp) (hostAct (.wr 0x34 9) State.reset) = some 1 ∧
    seen (fun t => t.fld.get .lsdWidth) (hostAct (.wr 0x20 70000) State.reset) = some 4464 := by decide +kernel

/-! ### A host that interleaves (R272, R274) -/

/-- R224: `LZW.ENC` completes on its last `out(0)`. -/
theorem test_paced_enc_completes_on_last_out : seen status
    (step { State.reset with busy := true, grant := some 5, todo := [.out 0, .finish false] }) = some (0x02, 0, 0) := by
  decide +kernel
/-- R253: after the last `take` of an End-of-Information code (5 at width 3) nothing is left to abort. -/
theorem test_paced_dec_completes_at_once : seen (fun t => (status t, t.ipos))
    (step { coded 3 5 (initDict 2) none with grant := some 5, todo := [.ipos 3] }) = some ((0x02, 0, 0), 3) := by decide +kernel
/-- R272: the document comes with the completion of `SEQ.PARSE`. -/
theorem test_paced_parse_completes_with_document : seen status
    (step { State.reset with busy := true, grant := some 5, todo := [.doc miniDoc, .finish false] }) = some (0x12, 0, 0) := by
  decide +kernel
/-- R144, R272: the old document is gone as soon as `SEQ.PARSE` has started. -/
theorem test_paced_parse_drops_document : seen (fun t => (status t, t.ipos))
    (exec .seqParse { withTiny 0 0 header with grant := some 0, ipos := 9 }) = some ((0x01, 0, 0), 0) := by decide +kernel
/-- R271, R274: three register writes, of which the first clears `FAULT` alone. -/
theorem test_paced_clrfault : seen status
    (step { State.reset with busy := true, grant := some 5, fault := true, fcause := 0x11, finfo := 3, todo := clearFaultMicros ++ [.finish false] }) =
    some (0x01, 0x11, 3) := by decide +kernel

/-! ### Witnesses: states and operands that meet the hypotheses of the statements -/

/-- A command never stops. -/
theorem next_of_seen {o : Host.Outcome State Fault Refusal} (h : (seen (fun _ => ()) o).isSome = true) : ∃ u, o = .next u := by
  cases o with
  | next t => exact ⟨t, rfl⟩
  | fault _ => cases h
  | refused _ => cases h

theorem seqParse_after (s : State) : exec .seqParse s = .next (after .seqParse s) := rfl
theorem unpackGce_after (s : State) : exec .fldUnpackGce s = .next (after .fldUnpackGce s) := rfl
theorem packLsd_after (s : State) : exec .fldPackLsd s = .next (after .fldPackLsd s) := rfl
theorem lzwEnc_after (s : State) : exec .lzwEnc s = .next (after .lzwEnc s) := rfl

theorem loaded_input (bs : List Byte) (h : bs.length < 2 ^ 32) : (loaded bs).input = bs := by
  have hn : (Word.ofNat bs.length).toNat = bs.length := Nat.mod_eq_of_lt h
  apply List.ext_getElem?
  intro a
  by_cases ha : a < bs.length
  · simp [State.input, loaded, hn, ha, State.ibufAt, Memory.read_cells]
  · simp [State.input, loaded, hn, ha]

theorem loaded_fits (bs : List Byte) : inputFits (loaded bs) := by intro c h; cases h

theorem loaded_starts (bs : List Byte) : Starts (loaded bs) ∧ inputFits (loaded bs) := ⟨⟨rfl, rfl, rfl⟩, loaded_fits bs⟩

theorem given_starts (xs : List Symbol) (n : BitVec 9) : Starts (given xs n) := ⟨rfl, rfl, rfl⟩

theorem withTiny_starts (k : BitVec 4) (i : Word) (bs : List Byte) :
    Starts (withTiny k i bs) ∧ inputFits (withTiny k i bs) ∧ (withTiny k i bs).doc = some tinyDoc ∧ (withTiny k i bs).bkind = k ∧
      (withTiny k i bs).fidx = i := ⟨⟨rfl, rfl, rfl⟩, loaded_fits bs, rfl, rfl, rfl⟩

theorem witness_DecodeEncodeAgree :
    (Instr.lzwCode 12 4095).wf = true ∧ encode .extCom = .blk [0x21, 0xFE] ∧
    (encode (.lzwCode 3 5) = .code 3 3 5 ∧ 3 ≤ 19 ∧ 0x7FFFD % 2 ^ 3 = 5) ∧
    decode (.code 12 12 4095) = .ok (.lzwCode 12 4095) := by decide

theorem witness_StepRunsDecodedInstruction :
    (∃ (s : State) (rest : List HostAction), s.busy = false ∧ decode (.cmd ((0x110 : Word).setWidth 8)) = .ok .seqParse ∧
      s.host = HostAction.cmd 0x110 (some 3) :: rest) ∧
    (∃ (s : State) (rest : List HostAction), s.busy = true ∧ hostMoves s = true ∧ s.host = HostAction.wr 0 0x02 :: rest) ∧
    (∃ (s : State) (w : ParseWork), s.busy = true ∧ hostMoves s = false ∧ s.todo = [] ∧ s.work = .parse w ∧
      decode (.blk (s.input.drop s.ipos.toNat)) = .ok .extGce) ∧
    (∃ (s : State) (w : DecWork), s.busy = true ∧ hostMoves s = false ∧ s.todo = [] ∧ s.work = .dec w ∧
      decode (.code w.width w.nb w.acc) = .ok (.lzwCode 12 4095)) :=
  ⟨⟨{ State.reset with host := [.cmd 0x110 (some 3)] }, [], rfl, rfl, rfl⟩,
    ⟨{ State.reset with busy := true, grant := some 0, host := [.wr 0 0x02] }, [], rfl, rfl, rfl⟩,
    ⟨attempting gceBlock [], _, rfl, rfl, rfl, rfl, by decide +kernel⟩,
    ⟨coded 12 4095 [] none, _, rfl, rfl, rfl, rfl, by decide⟩⟩

theorem witness_Starts : Starts State.reset ∧ Starts (loaded tiny) ∧ Starts (given [0] 0) := ⟨⟨rfl, rfl, rfl⟩, ⟨rfl, rfl, rfl⟩, ⟨rfl, rfl, rfl⟩⟩

theorem witness_ClrfaultClearsTheRecord : ∃ s : State, s.busy = false ∧ s.grant = none ∧ s.fault = true :=
  ⟨{ State.reset with fault := true }, rfl, rfl, rfl⟩

theorem witness_AbortStops : (∃ s : State, s.busy = true) ∧ ∃ s : State, s.busy = false ∧ s.fault = true :=
  ⟨⟨{ State.reset with busy := true }, rfl⟩, ⟨{ State.reset with fault := true }, rfl, rfl⟩⟩

theorem witness_TurnedAwayChangesOnlyCmd :
    IsCommand .seqParse 0x10 ∧ TurnedAway 0x10 { State.reset with busy := true } ∧
    TurnedAway 0x10 { State.reset with fault := true } ∧ TurnedAway 0x01 { State.reset with busy := true } ∧
    TurnedAway 0x02 { State.reset with fault := true } := by
  refine ⟨rfl, .inl ?_, .inr ?_, .inl ?_, .inr ?_⟩ <;> decide

/-- The second clause: a reserved opcode under `FAULT`, and while `BUSY = 1`, as a command and by register number. -/
theorem witness_TurnedAwayReserved :
    decode (.cmd ((0x1FF : Word).setWidth 8)) = .error (.reservedOpcode 0xFF) ∧
    (about 0x1FF { State.reset with fault := true }).busy = false ∧ (about 0x1FF { State.reset with fault := true }).fault = true ∧
    ∃ s : State, s.busy = true ∧ hostMoves s = true ∧ s.host = [.wr 0 0x1FF] :=
  ⟨rfl, rfl, rfl, { State.reset with busy := true, grant := some 0, host := [.wr 0 0x1FF] }, rfl, rfl, rfl⟩

theorem witness_ReservedOpcodeFaults : ∃ (s : State) (e : DecodeError) (rest : List HostAction),
    s.host = .cmd 0x1FF none :: rest ∧ s.busy = false ∧ s.fault = false ∧ decode (.cmd ((0x1FF : Word).setWidth 8)) = .error e :=
  ⟨about 0x1FF State.reset, _, _, rfl, rfl, rfl, rfl⟩

theorem witness_EveryCommandEnds : IsCommand .lzwEnc 0x30 ∧ (0x30 : Byte) ≠ 0x03 ∧ Starts (given [0, 1] 0) :=
  ⟨rfl, by decide, rfl, rfl, rfl⟩

theorem witness_PacedRunReachesAtomicResult :
    IsCommand .seqParse 0x10 ∧ Starts (loaded mini) ∧ (loaded mini).host = [] ∧
    exec .seqParse (loaded mini) = .next (after .seqParse (loaded mini)) :=
  ⟨rfl, ⟨rfl, rfl, rfl⟩, rfl, seqParse_after _⟩

theorem gce_shape : ExtShape .gce gceBlock := ⟨_, rfl, rfl⟩

theorem data_chain : IsChain [0x08, 0x44, 0x34, 0x71, 0x02, 0x30, 0x2F, 0x02, 0x28, 0x00] :=
  ⟨[[0x44, 0x34, 0x71, 0x02, 0x30, 0x2F, 0x02, 0x28]], by simp, rfl⟩

theorem tiny_shape : DocShape tinyDoc := by
  refine ⟨rfl, rfl, rfl, ?_, rfl⟩
  intro f hf
  obtain rfl : f = tinyFrame := by simpa [tinyDoc] using hf
  refine ⟨by decide, ?_, rfl, rfl, by decide, _, _, data_chain, rfl⟩
  intro e he
  obtain rfl : e = (.gce, gceBlock) := by simpa [tinyFrame] using he
  exact gce_shape

/-- A document with a frame, and, with every size at its smallest, one without. -/
theorem witness_ParseAcceptsTheGrammar :
    (Starts (loaded tiny) ∧ inputFits (loaded tiny) ∧ DocShape tinyDoc ∧ docFits (loaded tiny).caps tinyDoc ∧
      (loaded tiny).input = tinyDoc.bytes) ∧
    (DocShape miniDoc ∧ docFits ⟨some 20, none, none, none, some 20, some 0⟩ miniDoc) := by
  refine ⟨⟨⟨rfl, rfl, rfl⟩, loaded_fits _, tiny_shape, ⟨by simp [loaded, State.reset, Caps.unbounded], by simp [loaded, State.reset, Caps.unbounded]⟩, ?_⟩,
    ⟨rfl, rfl, rfl, by simp [miniDoc], rfl⟩, ?_, ?_⟩
  · rw [loaded_input tiny (by decide)]; rfl
  · intro c h; obtain rfl : 20 = c := by simpa using h
    decide
  · intro c h; obtain rfl : 0 = c := by simpa using h
    decide

theorem witness_ParsedDocumentSpellsTheInput :
    Starts (loaded tiny) ∧ exec .seqParse (loaded tiny) = .next (after .seqParse (loaded tiny)) ∧
    (after .seqParse (loaded tiny)).done = true := ⟨⟨rfl, rfl, rfl⟩, seqParse_after _, by decide +kernel⟩

theorem witness_FailedParseLeavesNoDocument :
    Starts (loaded []) ∧ ¬ ∃ d, DocShape d ∧ docFits (loaded []).caps d ∧ d.bytes = (loaded []).input := by
  refine ⟨⟨rfl, rfl, rfl⟩, ?_⟩
  rintro ⟨d, h, _, hb⟩
  have := congrArg List.length hb
  rw [loaded_input [] (by decide)] at this
  simp [Doc.bytes, h.1] at this

/-- The second clause: a parse that a pace of 0 has just started. -/
theorem witness_ParseHasNoDocumentWhileItRuns : ∃ u v : State, Starts (withTiny 0 0 header) ∧ (withTiny 0 0 header).host = [] ∧
    exec .seqParse { withTiny 0 0 header with grant := some 0 } = .next u ∧ Host.Core.run Sys2Proof.core 0 u = .next v ∧ v.busy = true :=
  ⟨after .seqParse { withTiny 0 0 header with grant := some 0 }, _, ⟨rfl, rfl, rfl⟩, rfl, seqParse_after _, rfl, by decide +kernel⟩

theorem witness_ParseTruncatedBeforeFrames :
    (∀ bs, Starts (loaded bs) ∧ inputFits (loaded bs)) ∧
    (¬ inputFits { loaded mini with caps := { Caps.unbounded with ibuf := some 19 } }) ∧
    (loaded (mini.take 5)).input.length < 6 ∧
    (6 ≤ (loaded (mini.take 6)).input.length ∧ (loaded (mini.take 12)).input.length < 13) ∧
    (13 ≤ (loaded (mini.take 13)).input.length ∧ (loaded (mini.take 18)).input.length <
      13 + 3 * 2 ^ (((loaded (mini.take 18)).input.getD 10 0).toNat % 8 + 1)) := by
  refine ⟨loaded_starts, fun h => ?_, by decide +kernel, by decide +kernel, by decide +kernel⟩
  exact absurd (h 19 rfl) (by decide)

theorem witness_SerializerInvertsParser :
    Starts (loaded tiny) ∧ exec .seqParse (loaded tiny) = .next (after .seqParse (loaded tiny)) ∧
    (after .seqParse (loaded tiny)).done = true ∧ (loaded tiny).ilen.toNat ≤ outLimit (loaded tiny).caps.obuf :=
  ⟨⟨rfl, rfl, rfl⟩, seqParse_after _, by decide +kernel, by decide +kernel⟩

theorem attempting_waits (bs : List Byte) (exts : List (ExtKind × List Byte)) :
    AttemptWaits ⟨[], [], [], [], 0, exts⟩ (attempting bs exts) := ⟨rfl, rfl, rfl, rfl⟩

theorem attempting_cursor (bs rest : List Byte) (exts : List (ExtKind × List Byte)) (h : (bs ++ rest).length < 2 ^ 32) :
    CursorAt bs (attempting (bs ++ rest) exts) := by
  have : (attempting (bs ++ rest) exts).input = bs ++ rest := loaded_input (bs ++ rest) h
  rw [CursorAt, this]
  exact List.prefix_append bs rest

/-- Each kind, the chains and the counted part at their shortest. -/
theorem witness_ExtensionJoinsAttempt :
    (ExtShape .gce gceBlock ∧ CursorAt gceBlock (attempting (gceBlock ++ idBlock) [])) ∧
    (ExtShape .app appBlock ∧ CursorAt appBlock (attempting (appBlock ++ []) [(.gce, gceBlock)])) ∧
    (ExtShape .pte [0x21, 0x01, 0x00, 0x00] ∧ CursorAt [0x21, 0x01, 0x00, 0x00] (attempting ([0x21, 0x01, 0x00, 0x00] ++ []) [])) ∧
    (ExtShape .com [0x21, 0xFE, 0x00] ∧ CursorAt [0x21, 0xFE, 0x00] (attempting ([0x21, 0xFE, 0x00] ++ [0x3B]) [])) ∧
    AttemptWaits ⟨[], [], [], [], 0, []⟩ (attempting (gceBlock ++ idBlock) []) :=
  ⟨⟨gce_shape, attempting_cursor _ _ _ (by decide)⟩, ⟨⟨_, rfl, rfl⟩, attempting_cursor _ _ _ (by decide)⟩,
    ⟨⟨[], [0x00], by decide, ⟨[], by simp, rfl⟩, rfl⟩, attempting_cursor _ _ _ (by decide)⟩,
    ⟨⟨[0x00], ⟨[], by simp, rfl⟩, rfl⟩, attempting_cursor _ _ _ (by decide)⟩, attempting_waits _ _⟩

/-- The smallest image, with room for its frame and without. -/
theorem witness_ImageMakesAFrame :
    ImageShape idBlock [] [0x02, 0x00] ∧ CursorAt (idBlock ++ [] ++ [0x02, 0x00]) (attempting (idBlock ++ [] ++ [0x02, 0x00] ++ []) []) ∧
    AttemptWaits ⟨[], [], [], [], 0, []⟩ (attempting (idBlock ++ [] ++ [0x02, 0x00] ++ []) []) ∧
    (∀ c, (attempting [] []).caps.frames = some c → ([] : List Frame).length < c) ∧
    (∃ c, (⟨none, none, none, none, none, some 0⟩ : Caps).frames = some c ∧ c ≤ ([] : List Frame).length) :=
  ⟨⟨rfl, rfl, by decide, _, _, ⟨[], by simp, rfl⟩, rfl⟩, attempting_cursor _ _ _ (by decide), attempting_waits _ _,
    (fun c h => by cases h), ⟨0, rfl, le_refl 0⟩⟩

/-- The trailer; a second block of a kind the attempt has; and what the decoder refuses: nothing, no label, an unknown label, another byte. -/
theorem witness_DecodeErrorEndsFrames :
    AttemptWaits ⟨[], [], [], [], 0, []⟩ (attempting [0x3B] []) ∧
    decode (.blk ((attempting (gceBlock ++ []) [(.gce, gceBlock)]).input.drop 0)) = .ok .extGce ∧
    ¬ ItemFits .extGce ⟨[], [], [], [], 0, [(.gce, gceBlock)]⟩ (attempting (gceBlock ++ []) [(.gce, gceBlock)]) ∧
    ¬ ItemFits .trailer ⟨[], [], [], [], 0, []⟩ (attempting [0x3B] []) ∧
    (∀ bs, AttemptWaits ⟨[], [], [], [], 0, []⟩ (attempting bs [])) ∧
    decode (.blk ((attempting [] []).input.drop 0)) = .error .exhausted ∧
    decode (.blk ((attempting [0x21] []).input.drop 0)) = .error .missingLabel ∧
    decode (.blk ((attempting [0x21, 0x00] []).input.drop 0)) = .error (.unknownLabel 0x00) ∧
    decode (.blk ((attempting [0x2B] []).input.drop 0)) = .error (.absentSeparator 0x2B) := by
  refine ⟨attempting_waits _ _, by decide +kernel, ?_, by simp [ItemFits], fun _ => attempting_waits _ _, by decide +kernel,
    by decide +kernel, by decide +kernel, by decide +kernel⟩
  rintro (⟨k, bs, hk, hn, _⟩ | ⟨h, _⟩)
  · obtain rfl : k = .gce := by simpa using hk
    simp at hn
  · cases h

theorem witness_SerializeEmitsTheDocument : Starts (withTiny 0 0 []) ∧ (withTiny 0 0 []).doc = some tinyDoc :=
  ⟨⟨rfl, rfl, rfl⟩, rfl⟩

theorem witness_NoDocumentFaults : Starts State.reset ∧ State.reset.doc = none := ⟨⟨rfl, rfl, rfl⟩, rfl⟩

theorem witness_GetblkCopiesOneBlock :
    (∀ k, Starts (withTiny k 0 []) ∧ inputFits (withTiny k 0 []) ∧ (withTiny k 0 []).doc = some tinyDoc ∧
      (withTiny k 0 []).bkind = k ∧ (withTiny k 0 []).fidx = 0) ∧
    tinyDoc.frames[(0 : Word).toNat]? = some tinyFrame ∧ tinyFrame.exts = [] ++ (ExtKind.gce, gceBlock) :: [] ∧
    ExtKind.app ∉ tinyFrame.exts.map (fun e => e.1) :=
  ⟨fun k => withTiny_starts k 0 [], rfl, rfl, by decide⟩

theorem witness_BlockCommandFaults :
    (∀ k i bs, Starts (withTiny k i bs) ∧ inputFits (withTiny k i bs) ∧ (withTiny k i bs).doc = some tinyDoc ∧
      (withTiny k i bs).bkind = k ∧ (withTiny k i bs).fidx = i) ∧
    10 < (withTiny 11 0 []).bkind.toNat ∧
    (4 ≤ (withTiny 4 1 []).bkind.toNat ∧ (withTiny 10 1 []).bkind.toNat ≤ 10 ∧ tinyDoc.frames.length ≤ (withTiny 4 1 []).fidx.toNat) ∧
    ¬ inputFits { withTiny 0 0 [0x00] with caps := { Caps.unbounded with ibuf := some 0 } } ∧
    ((withTiny 0 0 []).input.length ≠ 6 ∧ (withTiny 1 0 header).input.length ≠ 7 ∧ (withTiny 3 0 [0x3A]).input ≠ [0x3B] ∧
      (withTiny 4 0 [0x21]).input.length ≠ 8 ∧ (withTiny 5 0 gceBlock).input.length ≠ 19 ∧
      (withTiny 8 0 []).input.length ≠ 10 ∧ (0 : Word).toNat < tinyDoc.frames.length) := by
  refine ⟨withTiny_starts, by decide, by decide, fun h => ?_, by decide +kernel⟩
  exact absurd (h 0 rfl) (by decide)

/-- The last clause: a store that holds the document and not a header more; a document-level block, a frame's block, an extension. -/
theorem witness_SetblkCapacity :
    (∀ k bs, Starts { withTiny k 0 bs with caps := { Caps.unbounded with bstore := some 0 } } ∧
      inputFits { withTiny k 0 bs with caps := { Caps.unbounded with bstore := some 0 } }) ∧
    BlockReplaced (withTiny 0 0 header) tinyDoc { tinyDoc with header := (withTiny 0 0 header).input } ∧
    0 < ({ tinyDoc with header := (withTiny 0 0 header).input } : Doc).bytes.length ∧
    BlockReplaced (withTiny 4 0 []) tinyDoc { tinyDoc with frames := [{ tinyFrame with exts := [] }] } ∧
    BlockReplaced (withTiny 9 0 []) tinyDoc { tinyDoc with frames := [{ tinyFrame with lct := (withTiny 9 0 []).input }] } := by
  refine ⟨fun k bs => ⟨⟨rfl, rfl, rfl⟩, fun c h => by cases h⟩, .inl ⟨rfl, by decide +kernel, rfl⟩, by decide +kernel,
    .inr (.inr (.inr (.inr ⟨[], tinyFrame, [], _, rfl, rfl, rfl, .inr (.inr (.inr ⟨.gce, [], by decide, by decide,
      fun _ => .inr rfl, (fun h => by cases h), .inl ⟨rfl, by decide⟩, rfl⟩))⟩))),
    .inr (.inr (.inr (.inr ⟨[], tinyFrame, [], _, rfl, rfl, rfl, .inr (.inl ⟨rfl, rfl⟩)⟩)))⟩

theorem witness_SetblkReplacesOneBlock :
    (∀ k i bs, Starts (withTiny k i bs) ∧ inputFits (withTiny k i bs) ∧ (withTiny k i bs).doc = some tinyDoc ∧
      (withTiny k i bs).bkind = k ∧ (withTiny k i bs).fidx = i) ∧
    (withTiny 0 0 header).input.length = 6 ∧
    (withTiny 1 0 [1, 2, 3, 4, 5, 6, 7]).input.length = 7 ∧ (withTiny 3 0 [0x3B]).input = [0x3B] ∧
    (withTiny 8 0 idBlock).input.length = 10 ∧ tinyDoc.frames = [] ++ tinyFrame :: [] ∧ ([] : List Frame).length = (0 : Word).toNat ∧
    (∀ c, (withTiny 0 0 header).caps.bstore = some c → tinyDoc.bytes.length ≤ c) :=
  ⟨withTiny_starts, by decide +kernel, by decide +kernel, by decide +kernel, by decide +kernel, rfl, rfl,
    (fun c h => by cases h)⟩

/-- Removal, replacement and a new kind at the end. -/
theorem witness_SetblkChangesOneExtension :
    (∀ k i bs, Starts (withTiny k i bs) ∧ inputFits (withTiny k i bs) ∧ (withTiny k i bs).doc = some tinyDoc ∧
      (withTiny k i bs).bkind = k ∧ (withTiny k i bs).fidx = i) ∧
    tinyDoc.frames = [] ++ tinyFrame :: [] ∧
    (tinyFrame.exts.map (fun e => e.1)).Nodup ∧ (withTiny 4 0 []).input = [] ∧ (withTiny 4 0 gceBlock).input.length = 8 ∧
    tinyFrame.exts = [] ++ (ExtKind.gce, gceBlock) :: [] ∧ (withTiny 5 0 appBlock).input.length = 19 ∧
    ExtKind.app ∉ tinyFrame.exts.map (fun e => e.1) := by
  refine ⟨withTiny_starts, rfl, by decide, by decide +kernel, by decide +kernel, rfl, by decide +kernel, by decide⟩

/-- For every unpack: an input beyond the buffer, one of the wrong length, one it takes. -/
theorem witness_FieldCodec :
    (¬ inputFits { loaded [0x00] with caps := { Caps.unbounded with ibuf := some 0 } }) ∧
    (∀ bs, Starts (loaded bs) ∧ inputFits (loaded bs)) ∧ (loaded [0x00]).input = [0x00] ∧
    (loaded [1, 2, 3, 4, 5, 6, 7]).input = [1, 2, 3, 4, 5, 6, 7] ∧ (loaded gceBlock).input = gceBlock ∧
    (loaded idBlock).input = idBlock ∧ (loaded appBlock).input = appBlock ∧ (loaded [0x34, 0x12]).input = [0x34, 0x12] ∧
    (loaded [0x21, 0xFE, 0x00, 0x00]).input = 0x21 :: 0xFE :: BitVec.ofNat 8 ([] : List Byte).length :: ([] ++ [0x00]) ∧
    (loaded [1, 2, 3]).input = [((1 : Byte), (2 : Byte), (3 : Byte))].flatMap (fun e => [e.1, e.2.1, e.2.2]) ∧
    256 < (300 : BitVec 9).toNat ∧ State.reset.fld.ctN.toNat ≤ 256 := by
  refine ⟨fun h => absurd (h 0 rfl) (by decide), fun bs => ⟨⟨rfl, rfl, rfl⟩, loaded_fits bs⟩, ?_, ?_, ?_, ?_, ?_, ?_, ?_, ?_,
    by decide, by decide⟩
  all_goals exact loaded_input _ (by decide)

theorem witness_FieldRoundTrip :
    (Starts (loaded gceBlock) ∧ exec .fldUnpackGce (loaded gceBlock) = .next (after .fldUnpackGce (loaded gceBlock)) ∧
      (after .fldUnpackGce (loaded gceBlock)).done = true) ∧
    (∃ t u, Starts State.reset ∧ exec .fldPackLsd State.reset = .next t ∧ t.done = true ∧ hostAct .mv t = .next u) :=
  ⟨⟨⟨rfl, rfl, rfl⟩, unpackGce_after _, by decide +kernel⟩,
    (next_of_seen (o := hostAct .mv (after .fldPackLsd State.reset)) (by decide +kernel)).elim fun u hu =>
      ⟨_, u, ⟨rfl, rfl, rfl⟩, packLsd_after _, by decide +kernel, hu⟩⟩

theorem size_2048 : codeSize (given [2048] 0) = 12 := by decide +kernel
theorem size_2047 : codeSize (given [2047] 0) = 11 := by decide +kernel
theorem size_table : codeSize (given [255] 256) = 8 := by decide +kernel
theorem size_four : codeSize (given [3, 4] 4) = 2 := by decide +kernel
theorem size_none : codeSize (given [] 0) = 0 := by decide +kernel
theorem symbols_2047 : (given [2047] 0).symbols = [2047] := by decide +kernel
theorem symbols_255 : (given [255] 256).symbols = [255] := by decide +kernel
theorem symbols_four : (given [3, 4] 4).symbols = [3, 4] := by decide +kernel
theorem symbols_none : (given [] 0).symbols = [] := by decide +kernel

theorem witness_EncoderChecks :
    (∀ xs n, Starts (given xs n)) ∧
    (∃ c, ({ given [0] 0 with caps := { Caps.unbounded with sin := some 0 } } : State).caps.sin = some c ∧
      c < (given [0] 0).silen.toNat) ∧
    (∀ c, (given [0] 257).caps.sin = some c → (given [0] 257).silen.toNat ≤ c) ∧ 256 < (given [0] 257).ctcnt.toNat ∧
    (11 < codeSize (given [2048] 0)) ∧
    ((given [3, 4] 4).ctcnt.toNat ≤ 256 ∧ codeSize (given [3, 4] 4) ≤ 11 ∧ (given [3, 4] 4).symbols = [3] ++ 4 :: [] ∧
      (∀ y ∈ ([3] : List Symbol), y.toNat < 2 ^ max 2 (codeSize (given [3, 4] 4))) ∧
      2 ^ max 2 (codeSize (given [3, 4] 4)) ≤ (4 : Symbol).toNat) :=
  by
  rw [size_2048, size_four, symbols_four]
  exact ⟨given_starts, ⟨0, rfl, by decide⟩, (fun c h => by cases h), by decide, by decide, by decide, by decide, by simp, by simp, by simp⟩

/-- The largest symbol; the largest table; no symbol at all. -/
theorem witness_EncoderEmitsTheCodeStream :
    (∀ xs n, Starts (given xs n)) ∧
    (∀ c, (given [2047] 0).caps.sin = some c → (given [2047] 0).silen.toNat ≤ c) ∧
    (codeSize (given [2047] 0) ≤ 11 ∧ ∀ x ∈ (given [2047] 0).symbols, x.toNat < 2 ^ max 2 (codeSize (given [2047] 0))) ∧
    ((given [255] 256).ctcnt.toNat ≤ 256 ∧ ∀ x ∈ (given [255] 256).symbols, x.toNat < 2 ^ max 2 (codeSize (given [255] 256))) ∧
    (codeSize (given [] 0) ≤ 11 ∧ ∀ x ∈ (given [] 0).symbols, x.toNat < 2 ^ max 2 (codeSize (given [] 0))) :=
  by
  rw [size_2047, size_table, size_none, symbols_2047, symbols_255, symbols_none]
  exact ⟨given_starts, (fun c h => by cases h), by simp, ⟨by decide, by simp⟩, by simp⟩

theorem witness_DecoderChecks :
    (∀ bs, Starts (loaded bs) ∧ inputFits (loaded bs)) ∧
    (¬ inputFits { loaded [0x02] with caps := { Caps.unbounded with ibuf := some 0 } }) ∧ (loaded []).ilen = 0 ∧
    ((loaded [0x01]).ilen ≠ 0 ∧ ((loaded [0x01]).ibufAt 0).toNat < 2) ∧ 11 < ((loaded [0x0C]).ibufAt 0).toNat :=
  ⟨loaded_starts, fun h => absurd (h 0 rfl) (by decide), rfl, by decide +kernel, by decide +kernel⟩

/-- Vector V4: the payload of `[0]` in two sub-blocks. -/
theorem witness_DecoderReadsTheCodeStream :
    Starts (loaded [0x02, 0x01, 0x44, 0x01, 0x01, 0x00]) ∧ inputFits (loaded [0x02, 0x01, 0x44, 0x01, 0x01, 0x00]) ∧
    EncodedBlock 2 [0] (loaded [0x02, 0x01, 0x44, 0x01, 0x01, 0x00]).input ∧ (∀ x ∈ ([0] : List Symbol), x.toNat < 2 ^ 2) ∧
    ([0] : List Symbol).length ≤ outLimit none := by
  refine ⟨⟨rfl, rfl, rfl⟩, loaded_fits _, ⟨[[0x44], [0x01]], by simp [SubBlocks], ⟨7, by decide, by decide +kernel⟩, ?_⟩,
    by simp, by simp [outLimit]⟩
  rw [loaded_input _ (by decide)]
  decide

theorem witness_LzwRoundTrip : ∃ t u, Starts (given [0] 0) ∧ exec .lzwEnc (given [0] 0) = .next t ∧ t.done = true ∧
    hostAct .mv t = .next u ∧ (given [0] 0).silen.toNat ≤ outLimit (given [0] 0).caps.sout :=
  (next_of_seen (o := hostAct .mv (after .lzwEnc (given [0] 0))) (by decide +kernel)).elim fun u hu =>
    ⟨_, u, ⟨rfl, rfl, rfl⟩, lzwEnc_after _, by decide +kernel, hu, by decide⟩

theorem coded_waits (width acc : Nat) (dict : List (List Symbol)) (prev : Option (List Symbol)) (h : width ≤ 12) :
    CodeWaits { mcs := 2, width := width, dict := dict, prev := prev, acc := acc, nb := 12, rem := 0, ended := false }
      (coded width acc dict prev) := ⟨rfl, rfl, rfl, rfl, h⟩

/-- Every class of code: Clear, End-of-Information, a first literal with and without room, a first code above End-of-Information. -/
theorem witness_SegmentCodes :
    (∀ acc, CodeWaits { mcs := 2, width := 3, dict := initDict 2, prev := none, acc := acc, nb := 12, rem := 0, ended := false }
      (coded 3 acc (initDict 2) none)) ∧
    (4 : BitVec 12).toNat = 2 ^ 2 ∧ (5 : BitVec 12).toNat = 2 ^ 2 + 1 ∧
    ((3 : BitVec 12).toNat < 2 ^ 2 ∧ (coded 3 3 (initDict 2) none).solen.toNat < outLimit (coded 3 3 (initDict 2) none).caps.sout) ∧
    (CodeWaits { mcs := 2, width := 3, dict := initDict 2, prev := none, acc := 3, nb := 12, rem := 0, ended := false }
        { coded 3 3 (initDict 2) none with caps := { Caps.unbounded with sout := some 0 } } ∧
      outLimit (some 0) ≤ (coded 3 3 (initDict 2) none).solen.toNat) ∧
    2 ^ 2 + 1 < (6 : BitVec 12).toNat :=
  ⟨fun acc => coded_waits 3 acc _ _ (by decide), rfl, rfl, by decide, ⟨⟨rfl, rfl, rfl, rfl, by decide⟩, by decide⟩, by decide⟩

/-- A known code, the one about to be created, a full table, a code above the size; two symbols where one more fits, and where none does. -/
theorem witness_LaterDataCode :
    (∀ width acc dict prev, width ≤ 12 →
      CodeWaits { mcs := 2, width := width, dict := dict, prev := some prev, acc := acc, nb := 12, rem := 0, ended := false }
        (coded width acc dict (some prev))) ∧
    ((initDict 2)[(3 : BitVec 12).toNat]? = some [3] ∧ (initDict 2).length < 4096) ∧ (6 : BitVec 12).toNat = (initDict 2).length ∧
    (List.replicate 4096 ([0] : List Symbol)).length = 4096 ∧
    ((initDict 2).length ≠ 4096 ∧ (initDict 2).length < (7 : BitVec 12).toNat) ∧
    (∀ c, CodeWaits { mcs := 2, width := 3, dict := initDict 2, prev := some [1], acc := 6, nb := 12, rem := 0, ended := false }
      { coded 3 6 (initDict 2) (some [1]) with caps := { Caps.unbounded with sout := some c } }) ∧
    ((0 : Word).toNat ≤ outLimit (some 1) ∧ outLimit (some 1) < (0 : Word).toNat + ([1, 1] : List Symbol).length) ∧
    ((0 : Word).toNat ≤ outLimit (some 0) ∧ outLimit (some 0) < (0 : Word).toNat + ([1, 1] : List Symbol).length) :=
  ⟨fun width acc dict prev h => coded_waits width acc dict (some prev) h, by decide, rfl, List.length_replicate, by decide,
    fun _ => ⟨rfl, rfl, rfl, rfl, by decide⟩, by simp [outLimit], by simp [outLimit]⟩

/-- A running `LZW.DEC` at byte 0 of `bs` with no bit buffered. -/
def deframing (bs : List Byte) (rem : Nat) (ended : Bool) : State :=
  { loaded bs with
    busy := true
    work := .dec { mcs := 2, width := 3, dict := initDict 2, prev := none, acc := 0, nb := 0, rem := rem, ended := ended } }

/-- The deframer after the terminator, at the end of the input, before a terminator, a length byte and a payload byte. -/
theorem witness_DeframerTakesOneByte :
    (∀ bs rem ended, rem ≤ 255 → ∃ w, (deframing bs rem ended).work = .dec w ∧ DecInRange w ∧ w.nb < w.width ∧ w.rem = rem ∧
      w.ended = ended ∧ (deframing bs rem ended).busy = true ∧ (deframing bs rem ended).grant = none ∧
      (deframing bs rem ended).todo = []) ∧
    (deframing [] 1 false).ilen ≤ (deframing [] 1 false).ipos ∧ (deframing [0x00] 0 false).ipos < (deframing [0x00] 0 false).ilen ∧
    (deframing [0x00] 0 false).ibufAt 0 = 0 ∧ (deframing [0xFF] 0 false).ibufAt 0 ≠ 0 := by
  refine ⟨fun bs rem ended hr => ⟨_, rfl, ?_, Nat.zero_lt_succ 2, rfl, rfl, rfl, rfl, rfl⟩, by decide, by decide, by decide +kernel,
    by decide +kernel⟩
  have hd : (initDict 2).length = 6 := by decide
  refine ⟨?_, ?_, ?_, ?_, ?_, ?_, fun _ => ?_, ?_, ?_, hr, fun _ => rfl⟩ <;> simp only [hd] <;> omega

theorem witness_HostWritesRegisters : State.reset.busy = false ∧ (∀ r : FieldReg, r.num ≠ 0x0E) ∧ (∀ r : FieldReg, r.num ≠ 0x7F) := by
  refine ⟨rfl, fun r => ?_, fun r => ?_⟩ <;> cases r <;> decide

theorem witness_NoHostWritesWhileBusy : (attempting [] []).busy = true ∧ HostAction.wr 4 0 = .wr 4 0 ∧ (4 : Nat) ≠ 0 :=
  ⟨rfl, rfl, by decide⟩

theorem witness_HostLoadsBuffers :
    (∀ c, State.reset.caps.ibuf = some c → ([1] : List Byte).length ≤ c) ∧
    (∃ c, (⟨some 1, none, none, none, none, none⟩ : Caps).ibuf = some c ∧ ([1] : List Byte).length ≤ c) ∧
    (∃ s : State, s.busy = false ∧ s.obuf = cells [1, 2] ∧ s.olen.toNat = 2 ∧ s.sout = cells [3] ∧ s.solen.toNat = 1) :=
  ⟨(fun c h => by cases h), ⟨1, rfl, by decide⟩,
    ⟨{ State.reset with obuf := cells [1, 2], olen := 2, sout := cells [3], solen := 1 }, rfl, rfl, rfl, rfl, rfl⟩⟩

/-- Reads: the last readable cells of every space, idle and busy; the registers on both sides of R333's list. -/
theorem witness_HostReads :
    (∃ s : State, s.busy = true ∧ cellExists s .obuf 1 = true ∧ 1 < s.olen.toNat ∧ (Memory.read s.obuf 1).isSome = true) ∧
    (∃ s : State, s.busy = true ∧ cellExists s .sout 0 = true ∧ 0 < s.solen.toNat ∧ (Memory.read s.sout 0).isSome = true) ∧
    (∃ s : State, 255 < s.fld.ctN.toNat ∧ (Memory.read s.ctm 255).isSome = true) ∧
    (∃ s : State, 254 < s.fld.comSize.toNat ∧ (Memory.read s.comb 254).isSome = true) ∧
    (0x06 : Nat) ∈ [0x01, 0x05, 0x06, 0x08] ∧ (0x07 : Nat) ∉ [0x01, 0x05, 0x06, 0x08] ∧
    cellExists State.reset .ibuf 0 = true ∧ cellExists State.reset .sin 0 = true :=
  ⟨⟨{ State.reset with busy := true, obuf := cells [1, 2], olen := 2 }, rfl, rfl, by decide, by decide⟩,
    ⟨{ State.reset with busy := true, sout := cells [3], solen := 1 }, rfl, rfl, by decide, by decide⟩,
    ⟨{ State.reset with ctm := [(255, 0)], fld := { Fields.zero with ctN := 256 } }, by decide, by decide⟩,
    ⟨{ State.reset with comb := [(254, 0)], fld := { Fields.zero with comSize := 255 } }, by decide, by decide⟩,
    by decide, by decide, rfl, rfl⟩

theorem witness_CommandWritesAlwaysStep :
    (EndedWell State.reset ∧ (∃ s : State, s.busy = false ∧ s.fault = true ∧ s.host = []) ∧
      ∃ s : State, s.busy = false ∧ s.fault = true ∧ s.host = [HostAction.cmd 0x01 none]) ∧
    (∃ (s : State) (rest : List HostAction), s.host = HostAction.cmd 0x10 none :: rest ∧ s.busy = false) ∧
    (∃ (s : State) (rest : List HostAction), s.host = HostAction.cmd 0x02 none :: rest ∧ s.busy = true ∧ hostMoves s = true) :=
  ⟨⟨⟨rfl, rfl, rfl⟩, ⟨{ State.reset with fault := true }, rfl, rfl, rfl⟩, ⟨about 0x01 { State.reset with fault := true }, rfl, rfl, rfl⟩⟩,
    ⟨about 0x10 State.reset, [], rfl, rfl⟩,
    ⟨{ attempting [] [] with host := [.cmd 0x02 none], grant := some 0 }, [], rfl, rfl, rfl⟩⟩

theorem witness_Frames : (∃ t, exec .seqParse (loaded tiny) = .next t) ∧ (∃ t, exec .extGce (attempting gceBlock []) = .next t) ∧
    (∃ t, exec (.lzwCode 3 4) (coded 3 4 (initDict 2) none) = .next t) :=
  ⟨⟨_, seqParse_after _⟩, next_of_seen (by decide +kernel), next_of_seen (by decide +kernel)⟩

theorem witness_OutputPrefixIsStable : ∃ s t : State, s.busy = true ∧ hostMoves s = false ∧ step s = .next t ∧
    s.todo.head? ≠ some .olen0 ∧ s.todo.head? ≠ some .solen0 ∧ Micro.olen0 ∈ s.todo ∧ 0 < s.olen.toNat := by
  refine ⟨{ State.reset with busy := true, todo := [.mcs 2, .olen0], olen := 1, obuf := cells [9] },
    { State.reset with busy := true, todo := [.olen0], mcs := 2, olen := 1, obuf := cells [9] }, rfl, rfl, rfl, by simp, by simp,
    by simp, by decide⟩

theorem witness_CursorStaysInInput :
    IsCommand .seqParse 0x10 ∧ Starts (loaded tiny) ∧ exec .seqParse (loaded tiny) = .next (after .seqParse (loaded tiny)) :=
  ⟨rfl, ⟨rfl, rfl, rfl⟩, seqParse_after _⟩

theorem witness_FaultIsSticky :
    (∃ s t : State, s.busy = false ∧ s.fault = true ∧ step s = .next t ∧ t.fault = true) ∧
    (∃ s t : State, s.busy = false ∧ s.fault = true ∧ step s = .next t ∧ t.fault = false) := by
  refine ⟨⟨about 0x10 { State.reset with fault := true }, { State.reset with fault := true, cmd := 0x10 }, rfl, rfl, rfl, rfl⟩,
    ⟨{ State.reset with fault := true, host := [.resetLine] }, { State.reset with era := 1 }, rfl, rfl, rfl, rfl⟩⟩

theorem polled_step (s : State) (h : s.busy = false) : ∃ t, step { s with host := [.poll 0] } = .next t := by
  simp [step, h, hostStep, hostAct]

/-- States other than reset that meet the invariants and have a next state. -/
theorem witness_Invariants :
    (∃ s t : State, MemoriesCanonical s ∧ s.ibuf ≠ [] ∧ step s = .next t) ∧
    (∃ s t : State, CellsExist s ∧ s.caps.ibuf = some 55 ∧ s.ibuf ≠ [] ∧ step s = .next t) ∧
    (∃ s t : State, StatusConsistent s ∧ s.fault = true ∧ step s = .next t) ∧
    (∃ s t : State, DocumentKept s ∧ s.doc = some tinyDoc ∧ step s = .next t) ∧
    (∃ s t : State, LzwInRange s ∧ s.busy = true ∧ step s = .next t) := by
  refine ⟨?_, ?_, ?_, ?_, ?_⟩
  · obtain ⟨t, ht⟩ := polled_step (loaded tiny) rfl
    exact ⟨_, t, ⟨cells_wf _, .nil, .nil, .nil, .nil, .nil⟩, by simp [loaded, cells, tiny], ht⟩
  · obtain ⟨t, ht⟩ := polled_step { loaded tiny with caps := { Caps.unbounded with ibuf := some 55 } } rfl
    refine ⟨_, t, ⟨?_, by simp [loaded, State.reset], by simp [loaded, State.reset], by simp [loaded, State.reset],
      by simp [loaded, State.reset], by simp [loaded, State.reset], by simp [loaded, State.reset]⟩, rfl,
      by simp [loaded, cells, tiny], ht⟩
    show ∀ x ∈ cells tiny, decide (x.1 < 55) = true
    decide +kernel
  · obtain ⟨t, ht⟩ := polled_step { State.reset with fault := true, fcause := 0x11, finfo := 25 } rfl
    exact ⟨_, t, ⟨by decide, by decide, by decide, by decide⟩, rfl, ht⟩
  · obtain ⟨t, ht⟩ := polled_step (withTiny 0 0 []) rfl
    refine ⟨_, t, ⟨fun d h => ?_, (fun p h => by cases h), by simp [withTiny, loaded, State.reset]⟩, rfl, ht⟩
    obtain rfl : tinyDoc = d := by simpa [withTiny] using h
    exact ⟨rfl, rfl, rfl, by decide⟩
  · obtain ⟨t, ht⟩ := next_of_seen (o := step (coded 3 0 (initDict 2) none)) (by decide +kernel)
    refine ⟨_, t, ⟨⟨(fun e h => by cases h), fun d h => ?_⟩, by simp [coded, State.reset]⟩, rfl, ht⟩
    simp only [coded, Work.dec.injEq] at h
    subst h
    have hd : (initDict 2).length = 6 := by decide
    refine ⟨?_, ?_, ?_, ?_, ?_, ?_, fun _ => ?_, ?_, ?_, ?_, fun _ => rfl⟩ <;> simp only [hd] <;> omega

end Sys2Proof.Tests
end

section
/-!
SUPPORT. Laws the proofs share: single micro-steps of a running command, a command from its start (spec/45_system_commands.md R274), the sequences a
command reads (spec/10_state.md R26, R28, R30) and the host's copy of an output (spec/30_encoding.md R93).
-/

namespace Sys2Proof.Machine

/-! ### Micro-steps that end no command -/

section
variable {s : State} (ms : List Micro) (hb : s.busy = true)
include hb

theorem runMicros_ipos (p : Word) : runMicros (.ipos p :: ms) s = runMicros ms { s with ipos := p } := runMicros_cons_busy ms hb
theorem runMicros_work (w : Work) : runMicros (.work w :: ms) s = runMicros ms { s with work := w } := runMicros_cons_busy ms hb
theorem runMicros_doc (d : Doc) : runMicros (.doc d :: ms) s = runMicros ms { s with doc := some d } := runMicros_cons_busy ms hb
theorem runMicros_dropDoc : runMicros (.dropDoc :: ms) s = runMicros ms { s with doc := none, ipos := 0 } :=
  runMicros_cons_busy ms hb
theorem runMicros_mcs (m : BitVec 4) : runMicros (.mcs m :: ms) s = runMicros ms { s with mcs := m } := runMicros_cons_busy ms hb
theorem runMicros_olen0 : runMicros (.olen0 :: ms) s = runMicros ms { s with olen := 0, obuf := [] } := runMicros_cons_busy ms hb
theorem runMicros_solen0 : runMicros (.solen0 :: ms) s = runMicros ms { s with solen := 0, sout := [] } :=
  runMicros_cons_busy ms hb

end

/-! ### Lengths in 32-bit registers -/

theorem Word.toNat_ofNat_of_lt {n : Nat} (h : n < 2 ^ 32) : (Word.ofNat n).toNat = n := Nat.mod_eq_of_lt h

theorem Word.ofNat_toNat (v : Word) : Word.ofNat v.toNat = v := by simp [Word.ofNat]

/-- What an output space takes is counted by its length register (R21). -/
theorem outLimit_lt (cap : Option Nat) : outLimit cap < 2 ^ 32 := by cases cap <;> simp [outLimit]

/-! ### Whole commands -/

section
variable {s : State} (h : Starts s)
include h

theorem Starts.busy : s.busy = false := h.1
theorem Starts.fault : s.fault = false := h.2.1
theorem Starts.grant : s.grant = none := h.2.2

end

@[simp] theorem outAll_append (as bs : List Byte) : outAll (as ++ bs) = outAll as ++ outAll bs := by simp [outAll]

/-- A list of micro-steps that ends with the completion ends the command. -/
theorem runMicros_finish_last {ms : List Micro} {np : Bool} {s : State} (hb : s.busy = true) :
    (runMicros (ms ++ [.finish np]) s).busy = false := by
  rw [runMicros_append _ _ _ hb]
  split
  · rw [runMicros_finish, complete_busy]
  · simp_all

/-- A command of a host that waits, on a core that is ready: its first micro-steps, then the rest of its run (R274). -/
theorem command_starts (op : Byte) (micros : State → List Micro) {s : State} (h : Starts s) :
    command op micros s = settle (stepBound s)
      (runMicros (micros (commandStart { s with cmd := op })) (commandStart { s with cmd := op })) := by
  have hgo : (s.busy || s.fault) = false := by rw [h.busy, h.fault]; rfl
  rw [command, hgo, if_neg (by decide), startCommand_waits _ (by exact h.grant)]
  rfl

/-- A command that only outputs bytes is done with its first micro-steps (R170, R160). -/
theorem runMicros_emitted (op : Byte) (bytes : List Byte) {s : State} (hs : Starts s) :
    runMicros (.olen0 :: (outAll bytes ++ [.finish false])) (commandStart { s with cmd := op }) = emitted op bytes s := by
  rw [← command_emits op bytes (micros := fun _ => .olen0 :: (outAll bytes ++ [.finish false])) hs rfl, command_starts op _ hs,
    settle_ended]
  exact runMicros_finish_last (ms := .olen0 :: outAll bytes) rfl

/-! ### The sequences a command reads -/

theorem State.input_length (s : State) : s.input.length = s.ilen.toNat := by simp [State.input]

theorem State.input_getElem? {s : State} {a : Nat} (h : a < s.ilen.toNat) : s.input[a]? = some (s.ibufAt a) := by
  simp [State.input, h]

theorem State.symbols_length (s : State) : s.symbols.length = s.silen.toNat := by simp [State.symbols]

theorem State.symbols_getElem? {s : State} {a : Nat} (h : a < s.silen.toNat) : s.symbols[a]? = some (s.sinAt a) := by
  simp [State.symbols, h]

/-- A byte at the cursor, and the cursor behind it (R30). -/
theorem input_at_cursor {s : State} {b : Byte} {rest : List Byte} (h : s.input.drop s.ipos.toNat = b :: rest) :
    s.ibufAt s.ipos.toNat = b ∧ s.ipos < s.ilen ∧ s.input.drop (s.ipos + 1).toNat = rest := by
  have hlt : s.ipos.toNat < s.ilen.toNat := by
    rw [← s.input_length]
    exact Nat.not_le.1 fun hle => by simp [List.drop_eq_nil_of_le hle] at h
  have hnext : (s.ipos + 1).toNat = s.ipos.toNat + 1 := by
    have := s.ilen.isLt
    rw [BitVec.toNat_add, show (1 : Word).toNat = 1 from rfl]
    exact Nat.mod_eq_of_lt (by omega)
  refine ⟨?_, BitVec.lt_def.2 hlt, ?_⟩
  · have hhead := List.head?_drop (l := s.input) (i := s.ipos.toNat)
    rw [State.input_getElem? hlt, h] at hhead
    exact (Option.some.inj hhead).symm
  · rw [hnext, ← List.tail_drop, h, List.tail_cons]

/-- The last byte at the cursor (R30). -/
theorem ipos_of_last {s : State} {b : Byte} (h : s.input.drop s.ipos.toNat = [b]) : s.ipos = s.ilen - 1 := by
  have hlen := congrArg List.length h
  rw [List.length_drop, s.input_length, List.length_singleton] at hlen
  have := s.ilen.isLt
  apply BitVec.eq_of_toNat_eq
  rw [BitVec.toNat_sub, show (1 : Word).toNat = 1 from rfl]
  omega

/-! ### The host's copy -/

/-- The input after a load (R93). -/
theorem input_of_fill {s : State} {bs : List Byte} (hlen : bs.length < 2 ^ 32) :
    State.input { s with ibuf := Memory.fill s.ibuf 0 bs, ilen := Word.ofNat bs.length } = bs := by
  have hn : (Word.ofNat bs.length).toNat = bs.length := Word.toNat_ofNat_of_lt hlen
  apply List.ext_getElem?
  intro a
  by_cases ha : a < bs.length
  · rw [State.input_getElem? (by rw [hn]; exact ha)]
    simp [State.ibufAt, Memory.read_fill, ha]
  · rw [List.getElem?_eq_none (by rw [State.input_length, hn]; omega), List.getElem?_eq_none (by omega)]

/-- `mv` (R93): the output becomes the next input. -/
theorem hostAct_mv {s u : State} {bs : List Byte} (hobuf : s.obuf = cells bs) (holen : s.olen = Word.ofNat bs.length)
    (hlen : bs.length < 2 ^ 32) (h : hostAct .mv s = .next u) :
    u = { s with ibuf := Memory.fill s.ibuf 0 bs, ilen := Word.ofNat bs.length } ∧ inputFits u := by
  have hn : (Word.ofNat bs.length).toNat = bs.length := Word.toNat_ofNat_of_lt hlen
  have hload : hostMv s = hostIbuf bs s := by rw [hostMv, hobuf, holen, hn, Memory.upTo_cells]
  change whenIdle hostMv s = _ at h
  rw [whenIdle] at h
  split at h
  · cases h
  · rw [hload, hostIbuf] at h
    split at h
    · rename_i hexist
      obtain rfl := Host.Outcome.next.inj h
      refine ⟨rfl, fun c hc => ?_⟩
      rw [cellsExist, spaceSize, show s.caps.ibuf = some c from hc] at hexist
      rw [hn]
      exact of_decide_eq_true hexist
    · cases h

end Sys2Proof.Machine
end

section
/-!
SUPPORT. The cursor of `SEQ.PARSE` and the blocks it cuts: what a frame attempt can do, and that the blocks cut so far spell the input up to the
cursor (spec/40_block_parser.md R130, R134, R143).
-/

namespace Sys2Proof.Machine

/-! ### The cursor inside one block -/

/-- `c` is the cursor `o` moved on over bytes that were there. -/
structure Cut.Along (o c : Cut) : Prop where
  le : o.pos ≤ c.pos
  inside : c.pos - o.pos ≤ o.rest.length
  rest : c.rest = o.rest.drop (c.pos - o.pos)
  cuts : ∃ l, c.cuts = o.cuts ++ l ∧ l.getLastD o.pos = c.pos

theorem Cut.Along.trans {a b c : Cut} (h : a.Along b) (k : b.Along c) : a.Along c := by
  obtain ⟨l, hl, hlast⟩ := h.cuts
  obtain ⟨m, hm, hmlast⟩ := k.cuts
  have hab := h.le
  have hbc := k.le
  have hin := h.inside
  have hlen := k.inside
  rw [h.rest, List.length_drop] at hlen
  refine ⟨by omega, by omega, ?_, l ++ m, by rw [hm, hl, List.append_assoc], ?_⟩
  · rw [k.rest, h.rest, List.drop_drop]
    congr 1
    omega
  · rw [List.getLastD_eq_getLast?] at *
    rw [List.getLast?_append, ← hmlast, ← hlast]
    cases m.getLast? <;> rfl

/-- What is cut in two moves is cut in one. -/
theorem Cut.since_append {a b c : Cut} (h : a.Along b) (k : b.Along c) : a.since b ++ b.since c = a.since c := by
  have hab := h.le
  have hbc := k.le
  rw [Cut.since, Cut.since, Cut.since, h.rest, show c.pos - a.pos = (b.pos - a.pos) + (c.pos - b.pos) by omega, List.take_add]

/-- `take(n)` (R13): the bytes it gives are those the cursor passed. -/
theorem Cut.take_ok {n : Nat} {c c' : Cut} {bs : List Byte} (h : c.take n = .ok (bs, c')) :
    c.Along c' ∧ bs = c.since c' := by
  unfold Cut.take at h
  split at h
  · rename_i hn
    cases h
    exact ⟨⟨by simp, by simpa using hn, by simp, [c.pos + n], rfl, rfl⟩, by simp [Cut.since]⟩
  · cases h

/-- A walk along a chain stops inside the bytes it is given. -/
theorem chainWalk_bounds (k pos : Nat) (bs : List Byte) :
    ∀ x ∈ (chainWalk k pos bs).1, pos < x ∧ x ≤ pos + bs.length := by
  induction bs generalizing k pos with
  | nil => simp [chainWalk]
  | cons b rest ih =>
    have hpos : pos < pos + 1 ∧ pos + 1 ≤ pos + (b :: rest).length := by
      simp only [List.length_cons]
      omega
    have htail (k : Nat) : ∀ x ∈ (chainWalk k (pos + 1) rest).1, pos < x ∧ x ≤ pos + (b :: rest).length := fun x hx => by
      have := ih k (pos + 1) x hx
      simp only [List.length_cons]
      omega
    cases k with
    | zero =>
      rw [chainWalk]
      split
      · simp
      · exact List.forall_mem_cons.2 ⟨hpos, htail _⟩
    | succ k =>
      rw [chainWalk]
      split
      · exact List.forall_mem_cons.2 ⟨hpos, htail _⟩
      · exact htail _

/-- `chain()` (R151). -/
theorem Cut.chain_ok {c c' : Cut} (h : c.chain = .ok c') : c.Along c' := by
  simp only [Cut.chain] at h
  split at h
  · cases h
    have hb : c.pos ≤ (chainWalk 0 c.pos c.rest).1.getLastD c.pos ∧
        (chainWalk 0 c.pos c.rest).1.getLastD c.pos ≤ c.pos + c.rest.length := by
      rw [List.getLastD_eq_getLast?]
      cases hl : (chainWalk 0 c.pos c.rest).1.getLast? with
      | none => simp
      | some x =>
        have := chainWalk_bounds 0 c.pos c.rest x (List.mem_of_getLast? hl)
        simp only [Option.getD_some]
        omega
    exact ⟨hb.1, by simp only; omega, rfl, _, rfl, rfl⟩
  · cases h

/-- A step of an `Except` computation that succeeds. -/
theorem bind_eq_ok {ε α β : Type} {x : Except ε α} {f : α → Except ε β} {b : β} (h : (x >>= f) = .ok b) :
    ∃ a, x = .ok a ∧ f a = .ok b := by
  cases x with
  | error e => cases h
  | ok a => exact ⟨a, rfl, h⟩

/-- An extension that is cut is what the cursor passed (R135 to R138). -/
theorem cutExt_ok {k : ExtKind} {o c : Cut} (h : cutExt k o = .ok c) : o.Along c := by
  cases k with
  | gce | app =>
    obtain ⟨⟨bs, c₁⟩, h₁, h⟩ := bind_eq_ok h
    cases h
    exact (Cut.take_ok h₁).1
  | pte =>
    obtain ⟨⟨hdr, c₁⟩, h₁, h⟩ := bind_eq_ok h
    obtain ⟨⟨len, c₂⟩, h₂, h⟩ := bind_eq_ok h
    obtain ⟨⟨body, c₃⟩, h₃, h⟩ := bind_eq_ok h
    exact (((Cut.take_ok h₁).1.trans (Cut.take_ok h₂).1).trans (Cut.take_ok h₃).1).trans (Cut.chain_ok h)
  | com =>
    obtain ⟨⟨hdr, c₁⟩, h₁, h⟩ := bind_eq_ok h
    exact (Cut.take_ok h₁).1.trans (Cut.chain_ok h)

/-- The parts of an image that is cut are together what the cursor passed (R139, R140). -/
theorem cutImg_ok {o : Cut} {r : ImgCut} (h : cutImg o = .ok r) : o.Along r.cur ∧ r.id ++ r.lct ++ r.idb = o.since r.cur := by
  obtain ⟨⟨id, c₁⟩, h₁, h⟩ := bind_eq_ok h
  obtain ⟨a₁, rfl⟩ := Cut.take_ok h₁
  split at h
  · cases h
  · obtain ⟨⟨lct, c₂⟩, h₂, h⟩ := bind_eq_ok h
    obtain ⟨⟨m, c₃⟩, h₃, h⟩ := bind_eq_ok h
    obtain ⟨c₄, h₄, h⟩ := bind_eq_ok h
    cases h
    have a₄ := (Cut.take_ok h₃).1.trans (Cut.chain_ok h₄)
    have h12 : o.Along c₂ ∧ o.since c₁ ++ lct = o.since c₂ := by
      split at h₂
      · obtain ⟨a₂, rfl⟩ := Cut.take_ok h₂
        exact ⟨a₁.trans a₂, Cut.since_append a₁ a₂⟩
      · cases h₂
        exact ⟨a₁, List.append_nil _⟩
    exact ⟨h12.1.trans a₄, by simp only [h12.2, Cut.since_append h12.1 a₄]⟩

/-! ### What a frame attempt can do -/

/-- The micro-steps at the cursor of a frame attempt are the cursor's moves and then one of four ends. -/
inductive AttemptDoes (w : ParseWork) (s : State) : List Micro → Prop where
  /-- the frame loop ends (R141) -/
  | loopEnds (c : Cut) : AttemptDoes w s (cursorMoves c ++ endOfFrames w s)
  /-- an extension joins the attempt (R134) -/
  | extJoins (k : ExtKind) (c : Cut) (h : (cutHere s).Along c) :
    AttemptDoes w s (cursorMoves c ++ [.work (.parse { w with exts := w.exts ++ [(k, (cutHere s).since c)] })])
  /-- an image makes the attempt a frame (R133) -/
  | frameJoins (r : ImgCut) (h : (cutHere s).Along r.cur) (hr : r.id ++ r.lct ++ r.idb = (cutHere s).since r.cur) :
    AttemptDoes w s (cursorMoves r.cur ++ [.work (.parse { w with
      frames := w.frames ++ [⟨w.exts, r.id, r.lct, r.idb⟩], start := r.cur.pos, exts := [] })])
  /-- no room for that frame (R145) -/
  | noRoom (c : Cut) : AttemptDoes w s (cursorMoves c ++ [.raise .capacity (Word.ofNat w.start)])

section
variable (w : ParseWork) (s : State)

theorem endOfFrames_does : AttemptDoes w s (endOfFrames w s) := .loopEnds ⟨0, [], []⟩

theorem noSeparatorMicros_does : AttemptDoes w s (noSeparatorMicros w s) := by
  unfold noSeparatorMicros
  split
  · exact endOfFrames_does w s
  · exact .loopEnds _

theorem extMicros_does (k : ExtKind) : AttemptDoes w s (extMicros k w s) := by
  unfold extMicros
  split
  · exact endOfFrames_does w s
  · split
    · exact .loopEnds _
    · exact .extJoins k _ (cutExt_ok ‹_›)

theorem imgMicros_does : AttemptDoes w s (imgMicros w s) := by
  unfold imgMicros
  split
  · exact .loopEnds _
  · obtain ⟨h, hr⟩ := cutImg_ok ‹_›
    split
    · exact .noRoom _
    · exact .frameJoins _ h hr

theorem blkMicros_does (i : Instr) : AttemptDoes w s (blkMicros i w s) := by
  unfold blkMicros
  split
  · exact extMicros_does w s .gce
  · exact extMicros_does w s .app
  · exact extMicros_does w s .pte
  · exact extMicros_does w s .com
  · exact imgMicros_does w s
  all_goals exact noSeparatorMicros_does w s

theorem attemptMicros_does : AttemptDoes w s (attemptMicros w s) := by
  unfold attemptMicros
  split
  · exact blkMicros_does w s _
  · exact endOfFrames_does w s
  · exact endOfFrames_does w s
  all_goals exact noSeparatorMicros_does w s

end

/-! ### Running them -/

/-- The cursor's moves leave `IPOS` where the cursor is. -/
theorem runMicros_cursorMoves (c : Cut) (rest : List Micro) {s : State} (hb : s.busy = true) :
    runMicros (cursorMoves c ++ rest) s =
      runMicros rest { s with ipos := (c.cuts.map Word.ofNat).getLastD s.ipos } := by
  unfold cursorMoves
  induction c.cuts generalizing s with
  | nil => rfl
  | cons p l ih =>
    rw [List.map_cons, List.cons_append, runMicros_ipos _ hb, List.map_cons, List.getLastD_cons]
    exact ih hb

/-- The bytes of a document's blocks are as many as its bytes (R130, R160). -/
theorem Doc.size_eq (d : Doc) : d.size = d.bytes.length := by
  have hf : (fun f : Frame => (f.exts.map (fun e => e.2.length)).sum + f.id.length + f.lct.length + f.idb.length) =
      fun f => f.bytes.length := by
    funext f
    simp [Frame.bytes, List.length_flatten, Function.comp_def, Nat.add_assoc]
  rw [Doc.size, hf]
  simp only [Doc.bytes, List.length_append, List.length_flatten, List.map_map, Function.comp_def]

/-- A document that does not fit the block store (R145). -/
theorem overStore_eq (caps : Caps) (d : Doc) :
    overStore caps d = !caps.bstore.all (fun c => decide (d.bytes.length ≤ c)) := by
  rw [overStore, Doc.size_eq]
  cases caps.bstore with
  | none => rfl
  | some c => simp only [Option.any_some, Option.all_some, ← Nat.not_le, decide_not]

/-- The end of the frame loop (R141, R142, R143, R145), wherever the attempt left the cursor. -/
theorem runMicros_endOfFrames (w : ParseWork) {s u : State} (hb : u.busy = true) (h : SameInputs s u) :
    runMicros (endOfFrames w s) u = framesEnd w u := by
  have hi : s.ibufAt w.start = u.ibufAt w.start := by simp [State.ibufAt, h.ibuf, h.era]
  unfold endOfFrames framesEnd
  rw [runMicros_ipos _ hb, hi, ← h.ilen, overStore_eq, ← h.caps]
  split
  · rw [runMicros_raise]; rfl
  · split
    · rw [runMicros_raise]; rfl
    · rename_i htr
      rw [runMicros_ipos _ (by exact hb), not_not.1 htr, ParseWork.toDoc]
      cases u.caps.bstore.all fun c => decide ((Doc.bytes ⟨w.header, w.lsd, w.gct, w.frames, [0x3B]⟩).length ≤ c)
      · exact runMicros_raise _ _ _ _
      · exact (runMicros_doc (s := { u with ipos := Word.ofNat (w.start + 1) }) _ hb _).trans (runMicros_finish _ _ _)

/-! ### The blocks cut so far spell the input up to the cursor -/

/-- The blocks of the document being cut are the input up to the start of the frame attempt, the extensions of the attempt the rest up to the
cursor. -/
structure ParseWork.Spells (w : ParseWork) (input : List Byte) (pos : Nat) : Prop where
  start_le : w.start ≤ pos
  pos_le : pos ≤ input.length
  before : w.header ++ w.lsd ++ w.gct ++ (w.frames.map Frame.bytes).flatten = input.take w.start
  attempt : (w.exts.map (fun e => e.2)).flatten = (input.drop w.start).take (pos - w.start)

/-- A running `SEQ.PARSE` of a host that waits has cut what it passed; once it has completed, the document spells the input. -/
structure ParseRuns (s : State) : Prop where
  waits : s.grant = none
  todo : s.todo = []
  running : s.busy = true → s.done = false ∧ s.fault = false ∧ ∃ w, s.work = .parse w ∧ w.Spells s.input s.ipos.toNat
  completed : s.done = true → s.busy = false ∧ s.fault = false ∧ ∃ d, s.doc = some d ∧ d.bytes = s.input

/-- A `SEQ.PARSE` that has faulted. -/
theorem ParseRuns.of_fault {s : State} (hg : s.grant = none) (ht : s.todo = []) (hb : s.busy = false) (hd : s.done = false) :
    ParseRuns s :=
  ⟨hg, ht, by simp [hb], by simp [hd]⟩

/-- The document that the end of the frame loop stores spells the input (R142, R143). -/
theorem framesEnd_parseRuns {w : ParseWork} {s : State} {pos : Nat} (hg : s.grant = none) (hd : s.done = false)
    (hf : s.fault = false) (hw : w.Spells s.input pos) : ParseRuns (framesEnd w s) := by
  unfold framesEnd
  split
  · exact .of_fault hg rfl rfl hd
  · rename_i hone
    split
    · exact .of_fault hg rfl rfl hd
    · rename_i htr
      split
      · refine ⟨hg, rfl, by simp [ended], fun _ => ⟨rfl, hf, _, rfl, ?_⟩⟩
        show _ = s.input
        have hlast : s.input.drop w.start = [0x3B] := by
          have hlt : w.start < s.ilen.toNat := by omega
          have hl := s.input_length
          rw [List.drop_eq_getElem_cons (by omega), List.drop_eq_nil_of_le (by omega)]
          have := State.input_getElem? hlt
          rw [List.getElem?_eq_getElem (by omega)] at this
          rw [Option.some.inj this, not_not.1 htr]
        rw [Doc.bytes, hw.before, ← hlast, List.take_append_drop]
      · exact .of_fault hg rfl rfl hd

/-- The cursor after a block that was cut, as `IPOS` holds it. -/
theorem Cut.Along.ipos {s : State} {c : Cut} (h : (cutHere s).Along c) (hpos : s.ipos.toNat ≤ s.input.length) :
    ((c.cuts.map Word.ofNat).getLastD s.ipos).toNat = c.pos ∧ s.ipos.toNat ≤ c.pos ∧ c.pos ≤ s.input.length := by
  obtain ⟨l, hl, hlast⟩ := h.cuts
  have hle : s.ipos.toNat ≤ c.pos := h.le
  have hin : c.pos - s.ipos.toNat ≤ (s.input.drop s.ipos.toNat).length := h.inside
  rw [List.length_drop] at hin
  have hlen := s.input_length
  have hlt := s.ilen.isLt
  have hw : (c.cuts.map Word.ofNat).getLastD s.ipos = Word.ofNat c.pos := by
    rw [hl, ← hlast, List.getLastD_eq_getLast?, List.getLastD_eq_getLast?, List.getLast?_map]
    show (Option.map _ l.getLast?).getD s.ipos = _
    cases l.getLast? <;> simp [cutHere, Word.ofNat]
  exact ⟨by rw [hw, Word.toNat_ofNat_of_lt (by omega)], hle, by omega⟩

/-- An extension that joins the attempt (R134). -/
theorem ParseWork.Spells.addExt {w : ParseWork} {s : State} (hw : w.Spells s.input s.ipos.toNat) (k : ExtKind) {c : Cut}
    (h : (cutHere s).Along c) :
    ParseWork.Spells { w with exts := w.exts ++ [(k, (cutHere s).since c)] } s.input c.pos := by
  obtain ⟨-, hle, hlen⟩ := h.ipos hw.pos_le
  have hstart := hw.start_le
  refine ⟨by show w.start ≤ _; omega, hlen, hw.before, ?_⟩
  simp only [List.map_append, List.flatten_append, hw.attempt, List.map_cons, List.map_nil, List.flatten_cons, List.flatten_nil,
    List.append_nil, Cut.since, cutHere]
  rw [show c.pos - w.start = (s.ipos.toNat - w.start) + (c.pos - s.ipos.toNat) by omega, List.take_add, List.drop_drop,
    show w.start + (s.ipos.toNat - w.start) = s.ipos.toNat by omega]

/-- An image that makes the attempt a frame (R133). -/
theorem ParseWork.Spells.addFrame {w : ParseWork} {s : State} (hw : w.Spells s.input s.ipos.toNat) {r : ImgCut}
    (h : (cutHere s).Along r.cur) (hr : r.id ++ r.lct ++ r.idb = (cutHere s).since r.cur) :
    ParseWork.Spells { w with frames := w.frames ++ [⟨w.exts, r.id, r.lct, r.idb⟩], start := r.cur.pos, exts := [] }
      s.input r.cur.pos := by
  have hext := (hw.addExt .gce h).attempt
  obtain ⟨-, hle, hlen⟩ := h.ipos hw.pos_le
  have hstart := hw.start_le
  have hframe : Frame.bytes ⟨w.exts, r.id, r.lct, r.idb⟩ = (s.input.drop w.start).take (r.cur.pos - w.start) := by
    rw [← hext, ← hr]
    simp [Frame.bytes]
  refine ⟨le_refl _, hlen, ?_, by simp⟩
  rw [List.map_append, List.flatten_append, ← List.append_assoc, hw.before, List.map_singleton, List.flatten_singleton, hframe,
    ← List.take_add, show w.start + (r.cur.pos - w.start) = r.cur.pos by omega]

/-- A step of a running `SEQ.PARSE`. -/
theorem coreTick_parseRuns {s : State} (hb : s.busy = true) (h : ParseRuns s) : ParseRuns (coreTick s) := by
  obtain ⟨hd, hf, w, hwork, hw⟩ := h.running hb
  have htick : coreTick s = runMicros (attemptMicros w s) s := by
    unfold coreTick issue
    rw [h.todo, hwork, h.waits]
  have hgoes (c : Cut) (hc : (cutHere s).Along c) (w' : ParseWork) (hw' : w'.Spells s.input c.pos) :
      ParseRuns (runMicros (cursorMoves c ++ [.work (.parse w')]) s) := by
    rw [runMicros_cursorMoves c _ hb, runMicros_work _ (by exact hb), runMicros_nil]
    refine ⟨h.waits, h.todo, fun _ => ⟨hd, hf, w', rfl, ?_⟩, fun hdone => absurd hdone (by simp [hd])⟩
    show w'.Spells s.input _
    rw [(hc.ipos hw.pos_le).1]
    exact hw'
  have hdoes := attemptMicros_does w s
  rw [htick]
  generalize attemptMicros w s = ms at hdoes
  rcases hdoes with ⟨c⟩ | ⟨k, c, hc⟩ | ⟨r, hr, hbytes⟩ | ⟨c⟩
  · rw [runMicros_cursorMoves c _ hb, runMicros_endOfFrames (s := s) w (by exact hb) (by constructor <;> rfl)]
    exact framesEnd_parseRuns h.waits hd hf hw
  · exact hgoes c hc _ (hw.addExt k hc)
  · exact hgoes r.cur hr _ (hw.addFrame hr hbytes)
  · rw [runMicros_cursorMoves c _ hb, runMicros_raise]
    exact .of_fault h.waits rfl rfl hd

/-- The blocks before the frames (R130, R131, R132). -/
def ParseWork.beforeFrames (input : List Byte) : ParseWork where
  header := input.take 6
  lsd := (input.drop 6).take 7
  gct := (input.drop 13).take (tableLen (rawAt input 10))
  frames := []
  start := 13 + tableLen (rawAt input 10)
  exts := []

theorem ParseWork.beforeFrames_spells {input : List Byte} (h : 13 + tableLen (rawAt input 10) ≤ input.length) :
    (ParseWork.beforeFrames input).Spells input (13 + tableLen (rawAt input 10)) := by
  refine ⟨le_rfl, h, ?_, by simp [ParseWork.beforeFrames]⟩
  simp only [ParseWork.beforeFrames, List.map_nil, List.flatten_nil, List.append_nil]
  rw [List.take_add (i := 13), List.take_add (i := 6) (j := 7)]

/-- The start of a `SEQ.PARSE` (R130, R131, R132). -/
theorem parsePrelude_parseRuns {s : State} (hb : s.busy = true) (hd : s.done = false) (hf : s.fault = false) (hg : s.grant = none)
    (ht : s.todo = []) : ParseRuns (runMicros (parsePrelude s) s) := by
  unfold parsePrelude
  rw [runMicros_dropDoc _ hb]
  split
  · exact .of_fault hg rfl rfl hd
  · split
    · exact .of_fault hg rfl rfl hd
    · rw [runMicros_ipos _ (by exact hb)]
      split
      · exact .of_fault hg rfl rfl hd
      · rw [runMicros_ipos _ (by exact hb)]
        split
        · exact .of_fault hg rfl rfl hd
        · rename_i hlen
          have hspells := ParseWork.beforeFrames_spells (Nat.not_lt.1 hlen)
          have hn : (Word.ofNat (13 + tableLen (rawAt s.input 10))).toNat = 13 + tableLen (rawAt s.input 10) := by
            have hl := s.input_length
            have hlt := s.ilen.isLt
            exact Word.toNat_ofNat_of_lt (by omega)
          rw [runMicros_ipos _ (by exact hb), runMicros_work _ (by exact hb), runMicros_nil]
          refine ⟨hg, ht, fun _ => ⟨hd, hf, ParseWork.beforeFrames s.input, rfl, ?_⟩, fun hdone => absurd hdone (by simp [hd])⟩
          show ParseWork.Spells _ s.input (Word.ofNat (13 + tableLen (rawAt s.input 10))).toNat
          rw [hn]
          exact hspells

/-- A `SEQ.PARSE` that completed leaves a document that spells the input, and the core ready for the next command (R143). -/
theorem seqParse_completed {s t : State} (hs : Starts s) (h : exec .seqParse s = .next t) (hdone : t.done = true) :
    Starts t ∧ t.caps = s.caps ∧ ∃ d, t.doc = some d ∧ d.bytes = s.input := by
  obtain rfl : command 0x10 parsePrelude s = t := Host.Outcome.next.inj h
  have hinputs := command_sameInputs 0x10 parsePrelude s
  have hruns : ParseRuns (command 0x10 parsePrelude s) := by
    rw [command_starts 0x10 parsePrelude hs]
    exact settle_keeps
      (parsePrelude_parseRuns (s := commandStart { s with cmd := 0x10 }) rfl rfl hs.fault hs.grant rfl)
      (fun _ hu hp => coreTick_parseRuns hu hp) _
  obtain ⟨htb, htf, d, hdoc, hbytes⟩ := hruns.completed hdone
  have hin : (command 0x10 parsePrelude s).input = s.input := hinputs.input
  exact ⟨⟨htb, htf, hruns.waits⟩, hinputs.caps, d, hdoc, hbytes.trans hin⟩

/-- `SEQ.SERIALIZE` of a document (R160, R163): its bytes, or as many as fit. -/
theorem seqSerialize_emits {s : State} {d : Doc} (hs : Starts s) (hd : s.doc = some d) :
    exec .seqSerialize s = .next (emitted 0x11 d.bytes s) := by
  have hm : serializeMicros (commandStart { s with cmd := 0x11 }) = .olen0 :: (outAll d.bytes ++ [.finish false]) := by
    simp [serializeMicros, hd]
  exact congrArg Host.Outcome.next (command_emits 0x11 d.bytes hs hm)

/-- Settles O18: what a completed parse cut spells its input, and the serializer outputs what a document spells. -/
theorem serializerInvertsParser : Obligations.SerializerInvertsParser := by
  intro s t hs hexec hdone hroom
  obtain ⟨ht, hcaps, d, hdoc, hbytes⟩ := seqParse_completed hs hexec hdone
  have hlen : d.bytes.length = s.ilen.toNat := by rw [hbytes, s.input_length]
  rw [seqSerialize_emits ht hdoc, emitted, if_pos (by rw [hlen, hcaps]; exact hroom), hlen, hbytes, Word.ofNat_toNat]

end Sys2Proof.Machine
end

section
/-!
SUPPORT. The bits of a code stream (spec/20_memory.md R63), and that `LZW.ENC` packs exactly the bits of its codes into sub-blocks
(spec/43_lzw_encoder.md R214, R221, R222).
-/

namespace Sys2Proof.Machine

/-! ### Bits, least significant first (R63) -/

/-- The low `n` bits of a number. -/
def lowBits (n v : Nat) : List Bool := (List.range n).map v.testBit

@[simp] theorem lowBits_zero (v : Nat) : lowBits 0 v = [] := rfl

@[simp] theorem lowBits_length (n v : Nat) : (lowBits n v).length = n := by simp [lowBits]

theorem lowBits_congr {n a b : Nat} (h : ∀ i, i < n → a.testBit i = b.testBit i) : lowBits n a = lowBits n b :=
  List.map_congr_left fun i hi => h i (List.mem_range.1 hi)

theorem lowBits_add (m n v : Nat) : lowBits (m + n) v = lowBits m v ++ lowBits n (v >>> m) := by
  simp [lowBits, List.range_add, Function.comp_def, Nat.testBit_shiftRight]

/-- A number put above `m` bits. -/
theorem lowBits_or_shiftLeft {m a : Nat} (n c : Nat) (ha : a < 2 ^ m) :
    lowBits (m + n) (a ||| c <<< m) = lowBits m a ++ lowBits n c := by
  rw [lowBits_add]
  congr 1
  · exact lowBits_congr fun i hi => by simp [Nat.testBit_shiftLeft, Nat.not_le.2 hi]
  · refine lowBits_congr fun i _ => ?_
    have hbit : a.testBit (m + i) = false :=
      Nat.testBit_lt_two_pow (lt_of_lt_of_le ha (Nat.pow_le_pow_right (by decide) (Nat.le_add_right m i)))
    simp [Nat.testBit_shiftRight, Nat.testBit_shiftLeft, hbit]

/-- Bits above a small number are zeros. -/
theorem lowBits_of_lt {m v : Nat} (k : Nat) (hv : v < 2 ^ m) : lowBits (m + k) v = lowBits m v ++ List.replicate k false := by
  rw [lowBits_add, Nat.shiftRight_eq_zero v m hv]
  congr 1
  refine List.eq_replicate_iff.2 ⟨by simp, fun b hb => ?_⟩
  obtain ⟨i, -, rfl⟩ := List.mem_map.1 hb
  exact Nat.zero_testBit i

/-- A number is its bits. -/
theorem lowBits_injective {n a b : Nat} (ha : a < 2 ^ n) (hb : b < 2 ^ n) (h : lowBits n a = lowBits n b) : a = b := by
  apply Nat.eq_of_testBit_eq
  intro i
  by_cases hi : i < n
  · have := congrArg (fun l : List Bool => l[i]?) h
    simpa [lowBits, hi] using this
  · have hp := Nat.pow_le_pow_right (n := 2) (by decide) (Nat.not_lt.1 hi)
    rw [Nat.testBit_lt_two_pow (lt_of_lt_of_le ha hp), Nat.testBit_lt_two_pow (lt_of_lt_of_le hb hp)]

@[simp] theorem codeBits_nil : codeBits [] = [] := rfl

@[simp] theorem codeBits_cons (c : Nat × Nat) (codes : List (Nat × Nat)) :
    codeBits (c :: codes) = lowBits c.2 c.1 ++ codeBits codes := rfl

theorem byteBits_eq (bytes : List Byte) : byteBits bytes = bytes.flatMap (fun b => lowBits 8 b.toNat) := rfl

@[simp] theorem byteBits_nil : byteBits [] = [] := rfl

@[simp] theorem byteBits_cons (b : Byte) (bytes : List Byte) : byteBits (b :: bytes) = lowBits 8 b.toNat ++ byteBits bytes := rfl

@[simp] theorem byteBits_append (as bs : List Byte) : byteBits (as ++ bs) = byteBits as ++ byteBits bs := by
  simp [byteBits_eq]

@[simp] theorem byteBits_length (bytes : List Byte) : (byteBits bytes).length = 8 * bytes.length := by
  induction bytes with
  | nil => rfl
  | cons b bytes ih => rw [byteBits_cons, List.length_append, ih, lowBits_length, List.length_cons]; omega

/-- An accumulator after `k` bits have left it (R214, R244). -/
theorem shiftRight_lt_two_pow {a n k : Nat} (ha : a < 2 ^ n) (hk : k ≤ n) : a >>> k < 2 ^ (n - k) := by
  rw [Nat.shiftRight_eq_div_pow, Nat.div_lt_iff_lt_mul (by positivity), ← pow_add, Nat.sub_add_cancel hk]
  exact ha

/-- An accumulator after `n` bits have joined it (R214, R244). -/
theorem or_shiftLeft_lt_two_pow {a m c n : Nat} (ha : a < 2 ^ m) (hc : c < 2 ^ n) : a ||| c <<< m < 2 ^ (m + n) := by
  refine Nat.or_lt_two_pow (lt_of_lt_of_le ha (Nat.pow_le_pow_right (by decide) (Nat.le_add_right _ _))) ?_
  rw [Nat.shiftLeft_eq, Nat.add_comm, pow_add]
  exact Nat.mul_lt_mul_of_pos_right hc (by positivity)

/-- The byte cut off an accumulator has its low bits. -/
theorem lowBits_ofNat_toNat (v : Nat) : lowBits 8 (BitVec.ofNat 8 v).toNat = lowBits 8 v :=
  lowBits_congr fun i hi => by
    rw [BitVec.toNat_ofNat, Nat.testBit_mod_two_pow]
    simp [hi]

/-! ### Sub-blocks -/

/-- Sub-blocks as they stand in `OBUF`, each behind its length (R109). -/
def subBlockBytes (blocks : List (List Byte)) : List Byte := (blocks.map (fun b => BitVec.ofNat 8 b.length :: b)).flatten

@[simp] theorem subBlockBytes_append (as bs : List (List Byte)) :
    subBlockBytes (as ++ bs) = subBlockBytes as ++ subBlockBytes bs := by simp [subBlockBytes]

theorem chainBytes_eq (blocks : List (List Byte)) : chainBytes blocks = subBlockBytes blocks ++ [0] := rfl

theorem chainBytes_append (as bs : List (List Byte)) : chainBytes (as ++ bs) = subBlockBytes as ++ chainBytes bs := by
  simp [chainBytes_eq]

/-! ### The bit packer -/

/-- The encoder has written the full sub-blocks `full` and holds the rest of the bits `bits` of its stream in the current sub-block and in
the accumulator. -/
structure EncWork.Holds (w : EncWork) (full : List (List Byte)) (bits : List Bool) : Prop where
  full_len : ∀ b ∈ full, b.length = 255
  sb_len : w.sb.length ≤ 254
  acc_lt : w.acc < 2 ^ w.nb
  bits : byteBits (full.flatten ++ w.sb) ++ lowBits w.nb w.acc = bits

/-- `put_byte(b)` (R221) adds the byte to the current sub-block and writes the sub-block when it is full. -/
theorem EncWork.putByte_framed (w : EncWork) (b : Byte) (h : w.sb.length ≤ 254) :
    ∃ (more : List (List Byte)) (sb : List Byte), w.putByte b = ({ w with sb := sb }, subBlockBytes more) ∧
      (∀ x ∈ more, x.length = 255) ∧ sb.length ≤ 254 ∧ more.flatten ++ sb = w.sb ++ [b] := by
  unfold EncWork.putByte
  split
  · rename_i hfull
    refine ⟨[w.sb ++ [b]], [], ?_, List.forall_mem_singleton.2 hfull, by simp, by simp⟩
    simp only [subBlockBytes, List.map_singleton, List.flatten_singleton, hfull]
    rfl
  · rename_i hfull
    refine ⟨[], w.sb ++ [b], rfl, by simp, ?_, by simp⟩
    simp only [List.length_append, List.length_singleton, Config.sbMax] at hfull ⊢
    omega

/-- From `w` the encoder goes on to `p`, adding the bits `new` to its stream. -/
def EncWork.Appends (w : EncWork) (p : EncWork × List Byte) (new : List Bool) : Prop :=
  ∀ full bits, w.Holds full bits → ∃ more, p.2 = subBlockBytes more ∧ p.1.Holds (full ++ more) (bits ++ new)

theorem EncWork.Appends.trans {w : EncWork} {p q : EncWork × List Byte} {new new' : List Bool} (h : w.Appends p new)
    (k : p.1.Appends q new') : w.Appends (q.1, p.2 ++ q.2) (new ++ new') := by
  intro full bits hw
  obtain ⟨more, hp, hp'⟩ := h full bits hw
  obtain ⟨more', hq, hq'⟩ := k _ _ hp'
  refine ⟨more ++ more', by rw [hp, hq, subBlockBytes_append], ?_⟩
  rw [← List.append_assoc, ← List.append_assoc]
  exact hq'

/-- Only the accumulator and the current sub-block hold bits. -/
theorem EncWork.Holds.congr {w v : EncWork} {full : List (List Byte)} {bits : List Bool} (h : w.Holds full bits)
    (hsb : v.sb = w.sb) (hacc : v.acc = w.acc) (hnb : v.nb = w.nb) : v.Holds full bits :=
  ⟨h.full_len, by rw [hsb]; exact h.sb_len, by rw [hacc, hnb]; exact h.acc_lt, by rw [hsb, hacc, hnb]; exact h.bits⟩

/-- What `put_byte` leaves as it is (R221). -/
theorem EncWork.putByte_frame (w : EncWork) (b : Byte) : ∃ sb, (w.putByte b).1 = { w with sb := sb } := by
  unfold EncWork.putByte
  split <;> exact ⟨_, rfl⟩

/-- What draining whole bytes of the accumulator leaves as it is (R214). -/
theorem EncWork.drain_frame (k : Nat) (w : EncWork) :
    ∃ acc sb, (EncWork.drain k w).1 = { w with acc := acc, nb := w.nb - 8 * k, sb := sb } := by
  induction k generalizing w with
  | zero => exact ⟨w.acc, w.sb, rfl⟩
  | succ k ih =>
    obtain ⟨sb, hsb⟩ := EncWork.putByte_frame { w with acc := w.acc >>> 8, nb := w.nb - 8 } (BitVec.ofNat 8 w.acc)
    obtain ⟨acc', sb', h⟩ := ih (EncWork.putByte { w with acc := w.acc >>> 8, nb := w.nb - 8 } (BitVec.ofNat 8 w.acc)).1
    refine ⟨acc', sb', ?_⟩
    rw [EncWork.drain, h, hsb]
    simp only [EncWork.mk.injEq, true_and, and_true]
    omega

/-- Draining adds no bits (R214). -/
theorem EncWork.drain_appends (k : Nat) (w : EncWork) (hk : 8 * k ≤ w.nb) : w.Appends (EncWork.drain k w) [] := by
  induction k generalizing w with
  | zero => exact fun full bits h => ⟨[], rfl, by simpa [EncWork.drain] using h⟩
  | succ k ih =>
    have hput : w.Appends (EncWork.putByte { w with acc := w.acc >>> 8, nb := w.nb - 8 } (BitVec.ofNat 8 w.acc)) [] := by
      intro full bits h
      obtain ⟨more, sb, hp, hmore, hsb, hflat⟩ := EncWork.putByte_framed { w with acc := w.acc >>> 8, nb := w.nb - 8 }
        (BitVec.ofNat 8 w.acc) h.sb_len
      rw [hp]
      refine ⟨more, rfl, List.forall_mem_append.2 ⟨h.full_len, hmore⟩, hsb, shiftRight_lt_two_pow h.acc_lt (by omega), ?_⟩
      show byteBits ((full ++ more).flatten ++ sb) ++ lowBits (w.nb - 8) (w.acc >>> 8) = bits ++ []
      rw [List.flatten_append, List.append_assoc, hflat, ← List.append_assoc, byteBits_append, List.append_assoc, byteBits_cons,
        lowBits_ofNat_toNat, byteBits_nil, List.append_nil, ← lowBits_add, show 8 + (w.nb - 8) = w.nb by omega, h.bits,
        List.append_nil]
    obtain ⟨sb, hsb⟩ := EncWork.putByte_frame { w with acc := w.acc >>> 8, nb := w.nb - 8 } (BitVec.ofNat 8 w.acc)
    exact hput.trans (ih _ (by rw [hsb]; show 8 * k ≤ w.nb - 8; omega))

/-- `emit_code(c)` (R214) adds the bits of the code at the current width. -/
theorem EncWork.emit_appends (w : EncWork) {c : Nat} (hc : c < 2 ^ w.width) : w.Appends (w.emit c) (lowBits w.width c) := by
  intro full bits h
  have hacc : EncWork.Holds { w with acc := w.acc ||| (c <<< w.nb), nb := w.nb + w.width } full (bits ++ lowBits w.width c) := by
    refine ⟨h.full_len, h.sb_len, or_shiftLeft_lt_two_pow h.acc_lt hc, ?_⟩
    show _ ++ lowBits (w.nb + w.width) (w.acc ||| c <<< w.nb) = _
    rw [lowBits_or_shiftLeft _ _ h.acc_lt, ← List.append_assoc, h.bits]
  obtain ⟨more, hp, hq⟩ := EncWork.drain_appends ((w.nb + w.width) / 8) _ (Nat.mul_div_le _ _) full _ hacc
  exact ⟨more, hp, by rwa [List.append_nil] at hq⟩

/-- What `emit_code` leaves as it is, and how many bits it leaves in the accumulator (R214). -/
theorem EncWork.emit_frame (w : EncWork) (c : Nat) :
    ∃ acc sb, (w.emit c).1 = { w with acc := acc, nb := (w.nb + w.width) % 8, sb := sb } := by
  obtain ⟨acc, sb, h⟩ := EncWork.drain_frame ((w.nb + w.width) / 8)
    { w with acc := w.acc ||| (c <<< w.nb), nb := w.nb + w.width }
  refine ⟨acc, sb, ?_⟩
  rw [EncWork.emit, h]
  simp only [EncWork.mk.injEq, true_and, and_true]
  omega

section
variable (w : EncWork) (c : Nat)

@[simp] theorem EncWork.emit_mcs : (w.emit c).1.mcs = w.mcs := by obtain ⟨_, _, h⟩ := w.emit_frame c; rw [h]
@[simp] theorem EncWork.emit_width : (w.emit c).1.width = w.width := by obtain ⟨_, _, h⟩ := w.emit_frame c; rw [h]
@[simp] theorem EncWork.emit_dict : (w.emit c).1.dict = w.dict := by obtain ⟨_, _, h⟩ := w.emit_frame c; rw [h]
@[simp] theorem EncWork.emit_pre : (w.emit c).1.pre = w.pre := by obtain ⟨_, _, h⟩ := w.emit_frame c; rw [h]
@[simp] theorem EncWork.emit_next : (w.emit c).1.next = w.next := by obtain ⟨_, _, h⟩ := w.emit_frame c; rw [h]
@[simp] theorem EncWork.emit_nb : (w.emit c).1.nb = (w.nb + w.width) % 8 := by obtain ⟨_, _, h⟩ := w.emit_frame c; rw [h]

end

/-- `blocks` are sub-blocks as the encoder cuts them: all but the last are full (R221, R222). -/
def GreedyBlocks (blocks : List (List Byte)) : Prop := SubBlocks blocks ∧ ∀ b ∈ blocks.dropLast, b.length = 255

theorem GreedyBlocks.prepend {full blocks : List (List Byte)} (hf : ∀ b ∈ full, b.length = 255) (h : GreedyBlocks blocks) :
    GreedyBlocks (full ++ blocks) := by
  refine ⟨List.forall_mem_append.2 ⟨fun b hb => by have := hf b hb; omega, h.1⟩, ?_⟩
  cases blocks with
  | nil => exact fun b hb => hf b (List.dropLast_subset _ (by simpa using hb))
  | cons b bs =>
    rw [List.dropLast_append_of_ne_nil (by simp)]
    exact List.forall_mem_append.2 ⟨hf, h.2⟩

/-- The bits left in the accumulator, padded to a byte (R222). -/
def EncWork.flush (w : EncWork) : EncWork × List Byte :=
  if 0 < w.nb then EncWork.putByte { w with acc := 0, nb := 0 } (BitVec.ofNat 8 w.acc) else (w, [])

/-- The sub-block that ends a chain: the bytes not written yet, if there are any (R222). -/
def lastBlock (sb : List Byte) : List (List Byte) := if sb = [] then [] else [sb]

theorem lastBlock_flatten (sb : List Byte) : (lastBlock sb).flatten = sb := by
  unfold lastBlock
  split <;> simp_all

theorem EncWork.finishFrame_eq (w : EncWork) : w.finishFrame.2 = w.flush.2 ++ chainBytes (lastBlock w.flush.1.sb) := by
  show w.flush.2 ++ (if 0 < w.flush.1.sb.length then BitVec.ofNat 8 w.flush.1.sb.length :: w.flush.1.sb else []) ++ [0] = _
  rw [List.append_assoc, chainBytes_eq, lastBlock]
  cases w.flush.1.sb with
  | nil => rfl
  | cons b sb => simp [subBlockBytes]

theorem EncWork.flush_pads {w : EncWork} {full : List (List Byte)} {bits : List Bool} (h : w.Holds full bits) (hnb : w.nb < 8) :
    ∃ more, w.flush.2 = subBlockBytes more ∧ (∀ b ∈ more, b.length = 255) ∧ w.flush.1.sb.length ≤ 254 ∧
      ∃ pad, pad < 8 ∧ byteBits ((full ++ more).flatten ++ w.flush.1.sb) = bits ++ List.replicate pad false := by
  unfold EncWork.flush
  split
  · obtain ⟨more, sb, hp, hmore, hsb, hflat⟩ := EncWork.putByte_framed { w with acc := 0, nb := 0 } (BitVec.ofNat 8 w.acc) h.sb_len
    rw [hp]
    refine ⟨more, rfl, hmore, hsb, 8 - w.nb, by omega, ?_⟩
    have hbyte : lowBits 8 w.acc = lowBits w.nb w.acc ++ List.replicate (8 - w.nb) false := by
      rw [← lowBits_of_lt _ h.acc_lt, show w.nb + (8 - w.nb) = 8 by omega]
    show byteBits ((full ++ more).flatten ++ sb) = _
    rw [List.flatten_append, List.append_assoc, hflat, ← List.append_assoc, byteBits_append, byteBits_cons, byteBits_nil,
      List.append_nil, lowBits_ofNat_toNat, hbyte, ← List.append_assoc, h.bits]
  · refine ⟨[], rfl, by simp, h.sb_len, 0, by omega, ?_⟩
    have hbits := h.bits
    rw [show w.nb = 0 by omega, lowBits_zero, List.append_nil] at hbits
    rw [List.append_nil, hbits, List.replicate_zero, List.append_nil]

/-- The sub-blocks an encoder still writes, behind the full ones it has written, end the chain and carry the given bits (R114, R222). -/
def FinishesWith (out : List Byte) (full : List (List Byte)) (bits : List Bool) : Prop :=
  ∃ more, out = chainBytes more ∧ GreedyBlocks (full ++ more) ∧
    ∃ pad, pad < 8 ∧ byteBits (full ++ more).flatten = bits ++ List.replicate pad false

/-- `finish_frame()` (R222): the bits left are padded with zeros to a byte, the last sub-block is written, and the chain ends. -/
theorem EncWork.finishFrame_finishes {w : EncWork} {full : List (List Byte)} {bits : List Bool} (h : w.Holds full bits)
    (hnb : w.nb < 8) : FinishesWith w.finishFrame.2 full bits := by
  obtain ⟨more, hout, hmore, hsb, pad, hpad, hbits⟩ := EncWork.flush_pads h hnb
  have hlast : GreedyBlocks (lastBlock w.flush.1.sb) := by
    unfold lastBlock
    split
    · exact ⟨by simp [SubBlocks], by simp⟩
    · have := List.length_pos_iff.2 ‹_›
      exact ⟨by simp only [SubBlocks, List.mem_singleton, forall_eq]; omega, by simp⟩
  refine ⟨more ++ lastBlock w.flush.1.sb, by rw [EncWork.finishFrame_eq, hout, chainBytes_append],
    GreedyBlocks.prepend h.full_len (GreedyBlocks.prepend hmore hlast), pad, hpad, ?_⟩
  rw [← hbits, ← List.append_assoc, List.flatten_append (L₂ := lastBlock _), lastBlock_flatten]

/-- What is added before the end. -/
theorem EncWork.Appends.finishes {w : EncWork} {p : EncWork × List Byte} {new rest : List Bool} {out : List Byte}
    {full : List (List Byte)} {bits : List Bool} (h : w.Appends p new) (hw : w.Holds full bits)
    (hrest : ∀ full', p.1.Holds full' (bits ++ new) → FinishesWith out full' (bits ++ new ++ rest)) :
    FinishesWith (p.2 ++ out) full (bits ++ (new ++ rest)) := by
  obtain ⟨more, hp, hq⟩ := h full bits hw
  obtain ⟨more', hout, hblocks, hbits⟩ := hrest _ hq
  refine ⟨more ++ more', by rw [hp, hout, chainBytes_append], ?_⟩
  rw [← List.append_assoc, ← List.append_assoc]
  exact ⟨hblocks, hbits⟩

/-! ### The encoder's steps and the codes it writes -/

theorem EncWork.grow_eq (w : EncWork) :
    w.grow = { w with width := if 2 ^ w.width < w.dict.length ∧ w.width < 12 then w.width + 1 else w.width } := by
  unfold EncWork.grow
  split <;> rfl

/-- The symbol step for a sequence that is in the dictionary (R215). -/
theorem EncWork.symbol_known {w : EncWork} {x : Symbol} (h : w.pre ++ [x] ∈ w.dict) :
    w.symbol x = ({ w with pre := w.pre ++ [x], next := w.next + 1 }, []) := if_pos h

/-- The state after a new sequence is inserted, before a full dictionary is emptied (R215, R216). -/
def EncWork.inserted (w : EncWork) (x : Symbol) : EncWork :=
  EncWork.grow { (w.emit (w.dict.idxOf w.pre)).1 with dict := w.dict ++ [w.pre ++ [x]], pre := [x], next := w.next + 1 }

section
variable (w : EncWork) (x : Symbol)

@[simp] theorem EncWork.inserted_mcs : (w.inserted x).mcs = w.mcs := by simp [EncWork.inserted, EncWork.grow_eq]
@[simp] theorem EncWork.inserted_dict : (w.inserted x).dict = w.dict ++ [w.pre ++ [x]] := by simp [EncWork.inserted, EncWork.grow_eq]
@[simp] theorem EncWork.inserted_pre : (w.inserted x).pre = [x] := by simp [EncWork.inserted, EncWork.grow_eq]
@[simp] theorem EncWork.inserted_next : (w.inserted x).next = w.next + 1 := by simp [EncWork.inserted, EncWork.grow_eq]
@[simp] theorem EncWork.inserted_width : (w.inserted x).width =
    if 2 ^ w.width < (w.dict ++ [w.pre ++ [x]]).length ∧ w.width < 12 then w.width + 1 else w.width := by
  simp [EncWork.inserted, EncWork.grow_eq]

theorem EncWork.inserted_holds {full : List (List Byte)} {bits : List Bool}
    (h : (w.emit (w.dict.idxOf w.pre)).1.Holds full bits) : (w.inserted x).Holds full bits := by
  rw [EncWork.inserted, EncWork.grow_eq]
  exact h.congr rfl rfl rfl

end

/-- The symbol step for a sequence that is not in the dictionary (R215, R216, R217). -/
theorem EncWork.symbol_new {w : EncWork} {x : Symbol} (h : w.pre ++ [x] ∉ w.dict) :
    w.symbol x = ((w.inserted x).resetIfFull.1, (w.emit (w.dict.idxOf w.pre)).2 ++ (w.inserted x).resetIfFull.2) := by
  rw [EncWork.symbol, if_neg h]
  simp only [EncWork.inserted, EncWork.emit_dict]

/-- A full dictionary is emptied, with a Clear code (R217). -/
theorem EncWork.resetIfFull_full {w : EncWork} (h : w.dict.length = 4096) :
    w.resetIfFull = ({ (w.emit (2 ^ w.mcs)).1 with dict := initDict w.mcs, width := w.mcs + 1 }, (w.emit (2 ^ w.mcs)).2) :=
  if_pos h

theorem EncWork.resetIfFull_room {w : EncWork} (h : w.dict.length ≠ 4096) : w.resetIfFull = (w, []) := if_neg h

/-- What the encoder has still to output (R223). -/
def encRun (w : EncWork) : List Symbol → List Byte
  | [] => w.close
  | x :: xs => (w.symbol x).2 ++ encRun (w.symbol x).1 xs

/-- The End-of-Information code and the end of the frame (R220, R222). -/
theorem EncWork.eoi_finishes {w : EncWork} {mcs : Nat} {full : List (List Byte)} {bits : List Bool} (h : w.Holds full bits)
    (hfit : eoiCode mcs < 2 ^ w.width) :
    FinishesWith ((w.emit (eoiCode mcs)).2 ++ (w.emit (eoiCode mcs)).1.finishFrame.2) full
      (bits ++ lowBits w.width (eoiCode mcs)) := by
  have := (w.emit_appends hfit).finishes (rest := []) h fun full' h' => by
    rw [List.append_nil]
    exact EncWork.finishFrame_finishes h' (by rw [EncWork.emit_nb]; omega)
  rwa [List.append_nil] at this

/-- The end of the stream (R218 to R220, R222). -/
theorem EncWork.close_finishes {w : EncWork} {full : List (List Byte)} {bits : List Bool} (h : w.Holds full bits)
    (hfit : ∀ c ∈ encCodes w.mcs [] w.dict w.width w.pre, c.1 < 2 ^ c.2) :
    FinishesWith w.close full (bits ++ codeBits (encCodes w.mcs [] w.dict w.width w.pre)) := by
  rw [EncWork.close, List.append_assoc, EncWork.lastCode]
  rw [encCodes] at hfit ⊢
  by_cases hpre : w.pre = []
  · simp only [if_pos hpre] at hfit ⊢
    rw [codeBits_cons, codeBits_nil, List.append_nil]
    exact EncWork.eoi_finishes h (hfit _ List.mem_cons_self)
  · simp only [if_neg hpre] at hfit ⊢
    rw [codeBits_cons]
    refine (w.emit_appends (hfit _ List.mem_cons_self)).finishes h fun full' h' => ?_
    have heoi := hfit _ (List.mem_cons_of_mem _ List.mem_cons_self)
    rw [codeBits_cons, codeBits_nil, List.append_nil]
    simp only [EncWork.emit_width, EncWork.emit_dict]
    split
    · rename_i hgrow
      rw [if_pos hgrow] at heoi
      exact EncWork.eoi_finishes (w := { (w.emit (w.dict.idxOf w.pre)).1 with width := w.width + 1, dict := w.dict })
        (h'.congr rfl rfl rfl) heoi
    · rename_i hgrow
      rw [if_neg hgrow] at heoi
      have := EncWork.eoi_finishes h' (mcs := w.mcs) (by rw [EncWork.emit_width]; exact heoi)
      rwa [EncWork.emit_width] at this

/-- The bytes the encoder has still to output carry the codes it has still to write (R223). -/
theorem encRun_finishes (xs : List Symbol) {w : EncWork} {full : List (List Byte)} {bits : List Bool} (h : w.Holds full bits)
    (hfit : ∀ c ∈ encCodes w.mcs xs w.dict w.width w.pre, c.1 < 2 ^ c.2) :
    FinishesWith (encRun w xs) full (bits ++ codeBits (encCodes w.mcs xs w.dict w.width w.pre)) := by
  induction xs generalizing w full bits with
  | nil => exact EncWork.close_finishes h hfit
  | cons x xs ih =>
    rw [encRun]
    rw [encCodes] at hfit ⊢
    by_cases hmem : w.pre ++ [x] ∈ w.dict
    · rw [if_pos hmem] at hfit ⊢
      rw [EncWork.symbol_known hmem]
      exact ih (w := { w with pre := w.pre ++ [x], next := w.next + 1 }) (h.congr rfl rfl rfl) hfit
    · rw [if_neg hmem] at hfit ⊢
      simp only at hfit ⊢
      obtain ⟨hcode, hfit⟩ := List.forall_mem_cons.1 hfit
      rw [EncWork.symbol_new hmem, List.append_assoc, codeBits_cons]
      refine (w.emit_appends hcode).finishes h fun full' h' => ?_
      have hins := w.inserted_holds x h'
      by_cases hfull : (w.dict ++ [w.pre ++ [x]]).length = 4096
      · rw [if_pos hfull] at hfit ⊢
        obtain ⟨hclear, hfit⟩ := List.forall_mem_cons.1 hfit
        rw [EncWork.resetIfFull_full (by rw [EncWork.inserted_dict]; exact hfull), codeBits_cons]
        have happ := (w.inserted x).emit_appends (c := 2 ^ w.mcs) (by rw [EncWork.inserted_width]; exact hclear)
        rw [EncWork.inserted_width] at happ
        simp only [EncWork.inserted_mcs]
        refine happ.finishes hins fun full'' h'' => ?_
        have := ih (w := { ((w.inserted x).emit (2 ^ w.mcs)).1 with dict := initDict w.mcs, width := w.mcs + 1 })
          (h''.congr rfl rfl rfl)
        simp only [EncWork.emit_mcs, EncWork.inserted_mcs, EncWork.emit_pre, EncWork.inserted_pre] at this ⊢
        exact this hfit
      · rw [if_neg hfull] at hfit ⊢
        rw [EncWork.resetIfFull_room (by rw [EncWork.inserted_dict]; exact hfull)]
        have := ih hins
        rw [EncWork.inserted_mcs, EncWork.inserted_dict, EncWork.inserted_width, EncWork.inserted_pre] at this
        exact this hfit

end Sys2Proof.Machine
end

section
/-!
SUPPORT. `LZW.ENC` as a command (spec/43_lzw_encoder.md R210 to R223, R227): its run outputs the bytes of the encoder and nothing else.
-/

namespace Sys2Proof.Machine

/-! ### A command that only outputs bytes, in several pieces -/

/-- `out(b)` with room (R13). -/
theorem runMicros_out {s : State} (b : Byte) (ms : List Micro) (hb : s.busy = true) (h : outFull s.caps.obuf s.olen = false) :
    runMicros (.out b :: ms) s =
      runMicros ms { s with obuf := Memory.write s.obuf s.olen.toNat b, olen := s.olen + 1 } := by
  have hout : (Micro.out b).apply s = { s with obuf := Memory.write s.obuf s.olen.toNat b, olen := s.olen + 1 } := by
    simp [Micro.apply, outByte, h]
  rw [runMicros_cons_busy _ (by rw [hout]; exact hb), hout]

/-- `out(b)` without room (R303). -/
theorem runMicros_out_full {s : State} (b : Byte) (ms : List Micro) (h : outFull s.caps.obuf s.olen = true) :
    runMicros (.out b :: ms) s = raiseFault .capacity s.olen s := by
  have hout : (Micro.out b).apply s = raiseFault .capacity s.olen s := by simp [Micro.apply, outByte, h]
  rw [runMicros_cons, hout, raiseFault_busy, if_neg (by decide)]

/-- Output and completion do not look at the working state (R42). -/
theorem runMicros_outAll_finish_work (bs : List Byte) (np : Bool) (w : Work) {s : State} (hb : s.busy = true) :
    runMicros (outAll bs ++ [.finish np]) { s with work := w } = runMicros (outAll bs ++ [.finish np]) s := by
  induction bs generalizing s with
  | nil => rfl
  | cons b bs ih =>
    rw [outAll, List.map_cons, List.cons_append]
    cases h : outFull s.caps.obuf s.olen with
    | true =>
      rw [runMicros_out_full b _ h, runMicros_out_full b _ (by exact h)]
      rfl
    | false =>
      rw [runMicros_out b _ hb h, runMicros_out b _ (by exact hb) (by exact h)]
      exact ih (s := { s with obuf := Memory.write s.obuf s.olen.toNat b, olen := s.olen + 1 }) hb

/-- A piece of output with a change of the working state, and a run that outputs the rest. -/
theorem settle_outAll_work {n : Nat} {ys zs : List Byte} {w : Work} {np : Bool} {s : State} (hb : s.busy = true)
    (hrest : ∀ r : State, r.busy = true → r.todo = s.todo → r.work = w → SameInputs s r →
      settle n r = runMicros (outAll zs ++ [.finish np]) r) :
    settle n (runMicros (outAll ys ++ [.work w]) s) = runMicros (outAll (ys ++ zs) ++ [.finish np]) s := by
  rw [outAll_append, List.append_assoc, runMicros_append _ _ _ hb, runMicros_append _ _ _ hb]
  have hin := runMicros_sameInputs (outAll ys) s
  rcases runMicros_todo (outAll ys) hb with ⟨hbusy, htodo⟩ | ⟨hbusy, -⟩
  · rw [if_pos hbusy, if_pos hbusy, runMicros_work _ hbusy, runMicros_nil,
      hrest { runMicros (outAll ys) s with work := w } hbusy htodo rfl
        (hin.trans (by constructor <;> rfl)),
      runMicros_outAll_finish_work _ _ _ hbusy]
  · rw [if_neg (by simp [hbusy]), if_neg (by simp [hbusy]), settle_ended hbusy]

/-! ### The run of the encoder -/

theorem EncWork.inserted_resetIfFull_next (w : EncWork) (x : Symbol) : (w.inserted x).resetIfFull.1.next = w.next + 1 := by
  unfold EncWork.resetIfFull
  split <;> simp

/-- Every symbol step goes on to the next symbol (R223). -/
theorem EncWork.symbol_next (w : EncWork) (x : Symbol) : (w.symbol x).1.next = w.next + 1 := by
  by_cases h : w.pre ++ [x] ∈ w.dict
  · rw [EncWork.symbol_known h]
  · rw [EncWork.symbol_new h]
    exact w.inserted_resetIfFull_next x

/-- The next step of a running `LZW.ENC` of a host that waits. -/
theorem coreTick_enc {s : State} {w : EncWork} (ht : s.todo = []) (hg : s.grant = none) (hw : s.work = .enc w) :
    coreTick s = runMicros (encMicros w s) s := by
  unfold coreTick issue
  rw [ht, hw, hg]

/-- A running `LZW.ENC` outputs what the encoder has still to output for the symbols still to come, and completes (R223, R224). -/
theorem settle_enc (xs : List Symbol) {n : Nat} {s : State} {w : EncWork} (hb : s.busy = true) (ht : s.todo = []) (hg : s.grant = none)
    (hw : s.work = .enc w) (hxs : s.symbols.drop w.next = xs) (hn : xs.length < n) :
    settle n s = runMicros (outAll (encRun w xs) ++ [.finish false]) s := by
  induction xs generalizing n s w with
  | nil =>
    have hend : ¬ w.next < s.silen.toNat := by
      rw [← s.symbols_length]
      exact Nat.not_lt.2 (List.drop_eq_nil_iff.1 hxs)
    obtain ⟨n, rfl⟩ := Nat.exists_eq_add_one.2 (Nat.zero_lt_of_lt hn)
    rw [settle, if_pos hb, coreTick_enc ht hg hw, encMicros, if_neg hend]
    exact settle_ended (runMicros_finish_last hb) _
  | cons x xs ih =>
    obtain ⟨n, rfl⟩ := Nat.exists_eq_add_one.2 (Nat.zero_lt_of_lt hn)
    have hlt : w.next < s.silen.toNat := by
      rw [← s.symbols_length]
      exact Nat.not_le.1 fun h => by simp [List.drop_eq_nil_of_le h] at hxs
    have hx : s.sinAt w.next = x := by
      have := List.head?_drop (l := s.symbols) (i := w.next)
      rw [State.symbols_getElem? hlt, hxs] at this
      exact (Option.some.inj this).symm
    have htail : s.symbols.drop (w.next + 1) = xs := by
      rw [← List.tail_drop, hxs, List.tail_cons]
    rw [settle, if_pos hb, coreTick_enc ht hg hw, encMicros, if_pos hlt, hx, encRun]
    refine settle_outAll_work hb fun r hrb hrt hrw hin => ih hrb (hrt.trans ht) (hin.grant.trans hg) hrw ?_ ?_
    · rw [hin.symbols, EncWork.symbol_next, htail]
    · simpa using hn

/-! ### The command -/

/-- The bytes of a whole `LZW.ENC` (R213, R223). -/
def encBytes (mcs : Nat) (xs : List Symbol) : List Byte := (encStart mcs).2 ++ encRun (encStart mcs).1 xs

/-- The minimum code size of the symbols a `LZW.ENC` reads (R211). -/
def State.encMcs (s : State) : Nat := Machine.encMcs s.ctcnt.toNat s.symbols

/-- Every check of `LZW.ENC` passes (R211, R227). -/
structure EncPasses (s : State) : Prop where
  operand : overCap s.caps.sin s.silen = false
  table : s.ctcnt.toNat ≤ 256
  size : encRawMcs s.ctcnt.toNat s.symbols ≤ 11
  symbols : ∀ x ∈ s.symbols, x.toNat < 2 ^ s.encMcs

theorem EncPasses.mcs_range {s : State} (h : EncPasses s) : 2 ≤ s.encMcs ∧ s.encMcs ≤ 11 :=
  ⟨le_max_left _ _, max_le (by decide) h.size⟩

/-- The checks of `LZW.ENC` pass, or it faults before any output (R211, R227). -/
theorem encPrelude_cases (s : State) :
    EncPasses s ∨ (∃ code info, encPrelude s = [.raise code info]) ∨ ∃ m code info, encPrelude s = [.mcs m, .raise code info] := by
  unfold encPrelude
  split
  · exact .inr (.inl ⟨_, _, rfl⟩)
  · rename_i hcap
    split
    · exact .inr (.inl ⟨_, _, rfl⟩)
    · rename_i hct
      split
      · exact .inr (.inl ⟨_, _, rfl⟩)
      · rename_i hraw
        split
        · exact .inr (.inr ⟨_, _, _, rfl⟩)
        · rename_i hgood
          refine .inl ⟨Bool.eq_false_iff.2 hcap, Nat.not_lt.1 hct, Nat.not_lt.1 hraw, fun x hx =>
            Nat.not_le.1 (of_decide_eq_false (List.findIdx?_eq_none_iff.1 hgood x hx))⟩

/-- The micro-steps of `LZW.ENC` before its symbol loop, when every check passes (R211, R213, R227). -/
theorem EncPasses.encPrelude {s : State} (h : EncPasses s) :
    encPrelude s = .mcs (BitVec.ofNat 4 s.encMcs) :: .olen0 ::
      (outAll (encStart s.encMcs).2 ++ [.work (.enc (encStart s.encMcs).1)]) := by
  have hgood : firstBadSymbol (Machine.encMcs s.ctcnt.toNat s.symbols) s.symbols = none :=
    List.findIdx?_eq_none_iff.2 fun x hx => decide_eq_false (Nat.not_le.2 (h.symbols x hx))
  rw [Machine.encPrelude, h.operand, if_neg (by decide), if_neg (Nat.not_lt.2 h.table), if_neg (Nat.not_lt.2 h.size), hgood]
  rfl

theorem encStart_next (mcs : Nat) : (encStart mcs).1.next = 0 := EncWork.emit_next _ _

/-- `LZW.ENC` of a sequence that passes the checks outputs the encoder's bytes, or as many as fit (R210, R223, R227). -/
theorem EncPasses.lzwEnc_emits {s : State} (h : EncPasses s) (hs : Starts s) :
    exec .lzwEnc s = .next (emitted 0x30 (encBytes s.encMcs s.symbols) { s with mcs := BitVec.ofNat 4 s.encMcs }) := by
  have hrun := runMicros_emitted 0x30 (encBytes s.encMcs s.symbols) (s := { s with mcs := BitVec.ofNat 4 s.encMcs }) hs
  have hpre : Machine.encPrelude (commandStart { s with cmd := 0x30 }) = .mcs (BitVec.ofNat 4 s.encMcs) :: .olen0 ::
      (outAll (encStart s.encMcs).2 ++ [.work (.enc (encStart s.encMcs).1)]) :=
    EncPasses.encPrelude (s := commandStart { s with cmd := 0x30 }) ⟨h.operand, h.table, h.size, h.symbols⟩
  show Host.Outcome.next (command 0x30 Machine.encPrelude s) = _
  rw [← hrun, command_starts 0x30 _ hs, hpre, runMicros_mcs _ (by rfl), runMicros_olen0 _ (by rfl), runMicros_olen0 _ (by rfl), encBytes]
  refine congrArg Host.Outcome.next (settle_outAll_work (by rfl) fun r hrb hrt hrw hin => ?_)
  refine settle_enc s.symbols hrb hrt (hin.grant.trans hs.grant) hrw ?_ ?_
  · rw [encStart_next, List.drop_zero]
    exact hin.symbols
  · rw [s.symbols_length, stepBound]
    omega

end Sys2Proof.Machine
end

section
/-!
SUPPORT. The code stream itself (spec/43_lzw_encoder.md R212 to R220, spec/44_lzw_decoder.md R246 to R253): a decoder that is given the encoder's codes
gives the symbols back.  The encoder's dictionary is one entry ahead of the decoder's.
-/

namespace Sys2Proof.Machine

/-! ### Decoding a list of codes -/

/-- The width after the dictionary has reached `size` entries (R251). -/
def grownWidth (size width : Nat) : Nat := if size = 2 ^ width ∧ width < 12 then width + 1 else width

/-- What a data code stands for, given the last sequence, and what it inserts: a sequence of the dictionary, or the one about to be created
(R248, R249). -/
def CodeMeans (dict : List (List Symbol)) (prev : List Symbol) (c : Nat) (cur entry : List Symbol) : Prop :=
  (dict[c]? = some cur ∧ entry = prev ++ cur.take 1) ∨ (c = dict.length ∧ cur = prev ++ prev.take 1 ∧ entry = cur)

/-- `Decodes mcs dict width prev codes xs`: a decoder with this dictionary, width and last sequence reads exactly these codes and gives the
symbols `xs` (R242, R246 to R253). -/
inductive Decodes (mcs : Nat) : List (List Symbol) → Nat → Option (List Symbol) → List (Nat × Nat) → List Symbol → Prop where
  /-- End-of-Information (R253) -/
  | eoi {dict width prev} (hc : eoiCode mcs < 2 ^ width) : Decodes mcs dict width prev [(eoiCode mcs, width)] []
  /-- Clear (R247) -/
  | clear {dict width prev codes xs} (hc : clearCode mcs < 2 ^ width) (h : Decodes mcs (initDict mcs) (mcs + 1) none codes xs) :
    Decodes mcs dict width prev ((clearCode mcs, width) :: codes) xs
  /-- the first data code of a segment, a literal (R246) -/
  | literal {dict width c codes xs} (hc : c < 2 ^ width) (hlit : c < clearCode mcs)
    (h : Decodes mcs dict width (some [BitVec.ofNat 16 c]) codes xs) :
    Decodes mcs dict width none ((c, width) :: codes) (BitVec.ofNat 16 c :: xs)
  /-- a later data code (R248, R249, R251) -/
  | later {dict width prev c cur entry codes xs} (hc : c < 2 ^ width) (hroom : dict.length < 4096) (hclear : c ≠ clearCode mcs)
    (heoi : c ≠ eoiCode mcs) (hmeans : CodeMeans dict prev c cur entry)
    (h : Decodes mcs (dict ++ [entry]) (grownWidth (dict.length + 1) width) (some cur) codes xs) :
    Decodes mcs dict width (some prev) ((c, width) :: codes) (cur ++ xs)

/-- Every code fits its width. -/
theorem Decodes.fits {mcs width : Nat} {dict : List (List Symbol)} {prev : Option (List Symbol)} {codes : List (Nat × Nat)}
    {xs : List Symbol} (h : Decodes mcs dict width prev codes xs) : ∀ c ∈ codes, c.1 < 2 ^ c.2 := by
  induction h with
  | eoi hc => simpa using hc
  | clear hc _ ih | literal hc _ _ ih | later hc _ _ _ _ _ ih => exact List.forall_mem_cons.2 ⟨hc, ih⟩

theorem le_grownWidth (size width : Nat) : width ≤ grownWidth size width := by
  unfold grownWidth
  split <;> omega

/-- Every code is at least as wide as the first (R38, R251). -/
theorem Decodes.widths {mcs width : Nat} {dict : List (List Symbol)} {prev : Option (List Symbol)} {codes : List (Nat × Nat)}
    {xs : List Symbol} (h : Decodes mcs dict width prev codes xs) (hw : mcs + 1 ≤ width) : ∀ c ∈ codes, mcs + 1 ≤ c.2 := by
  induction h with
  | eoi hc => simpa using hw
  | clear hc _ ih => exact List.forall_mem_cons.2 ⟨hw, ih le_rfl⟩
  | literal hc _ _ ih => exact List.forall_mem_cons.2 ⟨hw, ih hw⟩
  | later hc _ _ _ _ _ ih => exact List.forall_mem_cons.2 ⟨hw, ih (hw.trans (le_grownWidth _ _))⟩

/-- A code that fits a width fits the width after a growth (R216, R219). -/
theorem lt_two_pow_grown {c width : Nat} (p : Prop) [Decidable p] (h : c < 2 ^ width) :
    c < 2 ^ (if p then width + 1 else width) := by
  split
  · rw [pow_succ]
    omega
  · exact h

/-! ### The encoder's dictionary -/

@[simp] theorem initDict_length (mcs : Nat) : (initDict mcs).length = 2 ^ mcs + 2 := by simp [initDict, eoiCode]

theorem initDict_getElem? {mcs i : Nat} (h : i < 2 ^ mcs + 2) : (initDict mcs)[i]? = some [BitVec.ofNat 16 i] := by
  simp [initDict, eoiCode, h]

/-- A literal is in the initial dictionary (R212). -/
theorem literal_mem_initDict {mcs : Nat} {x : Symbol} (h : x.toNat < 2 ^ mcs) : [x] ∈ initDict mcs := by
  have := initDict_getElem? (mcs := mcs) (i := x.toNat) (by omega)
  rw [BitVec.ofNat_toNat, BitVec.setWidth_eq] at this
  exact List.mem_of_getElem? this

/-- The encoder's dictionary, width and candidate sequence, between two symbols of a sequence in range (R37, R212, R215, R216, R217). -/
structure EncDict (mcs : Nat) (dict : List (List Symbol)) (width : Nat) (pre : List Symbol) : Prop where
  mcs_ge : 2 ≤ mcs
  init : initDict mcs <+: dict
  size_lt : dict.length < 4096
  width_ge : mcs + 1 ≤ width
  size_le : dict.length ≤ 2 ^ width
  pre_mem : pre ≠ [] → pre ∈ dict
  pre_lt : ∀ y ∈ pre, y.toNat < 2 ^ mcs

section
variable {mcs width : Nat} {dict : List (List Symbol)} {pre : List Symbol}

theorem initDict_size {mcs : Nat} (h : 2 ≤ mcs) (h' : mcs ≤ 11) : (initDict mcs).length < 4096 ∧ 2 ^ mcs + 4 ≤ 2 ^ (mcs + 1) := by
  have h4 : 2 ^ 2 ≤ 2 ^ mcs := Nat.pow_le_pow_right (by decide) h
  have h11 : 2 ^ mcs ≤ 2 ^ 11 := Nat.pow_le_pow_right (by decide) h'
  rw [initDict_length, pow_succ]
  omega

/-- The start of a segment (R212, R217). -/
theorem EncDict.start (h : 2 ≤ mcs) (h' : mcs ≤ 11) (hpre : pre ≠ [] → pre ∈ initDict mcs) (hlt : ∀ y ∈ pre, y.toNat < 2 ^ mcs) :
    EncDict mcs (initDict mcs) (mcs + 1) pre := by
  obtain ⟨hsize, hpow⟩ := initDict_size h h'
  exact ⟨h, List.prefix_refl _, hsize, le_rfl, by rw [initDict_length]; omega, hpre, hlt⟩

theorem EncDict.mcs_le (h : EncDict mcs dict width pre) : mcs ≤ 11 := by
  by_contra hgt
  have h12 : 2 ^ 12 ≤ 2 ^ mcs := Nat.pow_le_pow_right (by decide) (by omega)
  have := h.init.length_le
  have := h.size_lt
  rw [initDict_length] at *
  omega

/-- The entries of the initial dictionary stay in their places. -/
theorem EncDict.getElem?_of_lt (h : EncDict mcs dict width pre) {i : Nat} (hi : i < 2 ^ mcs + 2) :
    dict[i]? = some [BitVec.ofNat 16 i] := by
  obtain ⟨rest, hdict⟩ := h.init
  rw [← hdict, List.getElem?_append_left (by simpa using hi), initDict_getElem? hi]

theorem EncDict.reserved_lt (h : EncDict mcs dict width pre) : eoiCode mcs < 2 ^ width ∧ clearCode mcs < 2 ^ width := by
  have h1 : 2 ^ mcs + 4 ≤ 2 ^ (mcs + 1) := (initDict_size h.mcs_ge h.mcs_le).2
  have h2 : 2 ^ (mcs + 1) ≤ 2 ^ width := Nat.pow_le_pow_right (by decide) h.width_ge
  unfold eoiCode clearCode
  omega

/-- The code of the candidate sequence: it is in the dictionary and is none of the two reserved ones (R215). -/
theorem EncDict.code (h : EncDict mcs dict width pre) (hpre : pre ≠ []) :
    dict[dict.idxOf pre]? = some pre ∧ dict.idxOf pre < dict.length ∧ dict.idxOf pre ≠ clearCode mcs ∧
      dict.idxOf pre ≠ eoiCode mcs := by
  have hlt := List.idxOf_lt_length_iff.2 (h.pre_mem hpre)
  have hget : dict[dict.idxOf pre]? = some pre := by simp [hlt]
  have hsym (i : Nat) (hi : i < 2 ^ mcs + 2) (hge : 2 ^ mcs ≤ i) : dict.idxOf pre ≠ i := by
    intro hidx
    rw [hidx, h.getElem?_of_lt hi] at hget
    have hy := h.pre_lt (BitVec.ofNat 16 i) (by rw [← Option.some.inj hget]; exact List.mem_singleton_self _)
    have h11 : 2 ^ mcs ≤ 2 ^ 11 := Nat.pow_le_pow_right (by decide) h.mcs_le
    rw [BitVec.toNat_ofNat, Nat.mod_eq_of_lt (by omega)] at hy
    omega
  exact ⟨hget, hlt, hsym _ (by unfold clearCode; omega) (by unfold clearCode; omega),
    hsym _ (by unfold eoiCode; omega) (by unfold eoiCode; omega)⟩

/-- A known sequence becomes the candidate sequence (R215). -/
theorem EncDict.extend (h : EncDict mcs dict width pre) {x : Symbol} (hx : x.toNat < 2 ^ mcs) (hmem : pre ++ [x] ∈ dict) :
    EncDict mcs dict width (pre ++ [x]) :=
  { h with
    pre_mem := fun _ => hmem
    pre_lt := List.forall_mem_append.2 ⟨h.pre_lt, by simpa using hx⟩ }

/-- A new sequence is inserted, the dictionary not being full after it (R215, R216). -/
theorem EncDict.insert (h : EncDict mcs dict width pre) {x : Symbol} (hx : x.toNat < 2 ^ mcs) (entry : List Symbol)
    (hroom : dict.length + 1 ≠ 4096) :
    EncDict mcs (dict ++ [entry]) (if 2 ^ width < (dict ++ [entry]).length ∧ width < 12 then width + 1 else width) [x] := by
  have hlt := h.size_lt
  have hle := h.size_le
  have hwidth := h.width_ge
  refine ⟨h.mcs_ge, h.init.trans (List.prefix_append _ _), ?_, ?_, ?_, ?_, by simpa using hx⟩
  · rw [List.length_append, List.length_singleton]
    omega
  · split <;> omega
  · rw [List.length_append, List.length_singleton]
    split
    · have := Nat.two_pow_pos width
      rw [pow_succ]
      omega
    · rename_i hgrow
      by_cases h12 : width < 12
      · omega
      · have : 2 ^ 12 ≤ 2 ^ width := Nat.pow_le_pow_right (by decide) (by omega)
        omega
  · exact fun _ => List.mem_append_left _ (h.init.subset (literal_mem_initDict hx))

/-! ### Encoder and decoder in step -/

/-- The decoder's dictionary and last sequence against the encoder's dictionary and candidate sequence: equal at the start of a segment; later the
encoder is ahead by one entry, the last sequence followed by the first symbol of the candidate sequence (R215, R246). -/
def InStep (mcs : Nat) (edict : List (List Symbol)) (pre : List Symbol) (ddict : List (List Symbol)) : Option (List Symbol) → Prop
  | none => edict = initDict mcs ∧ ddict = initDict mcs
  | some prev => prev ≠ [] ∧ pre ≠ [] ∧ edict = ddict ++ [prev ++ pre.take 1]

variable {ddict : List (List Symbol)} {prev : Option (List Symbol)}

/-- Extending a candidate sequence keeps the two in step. -/
theorem InStep.extend (h : InStep mcs dict pre ddict prev) (x : Symbol) : InStep mcs dict (pre ++ [x]) ddict prev := by
  cases prev with
  | none => exact h
  | some prev =>
    obtain ⟨hprev, hpre, hdict⟩ := h
    exact ⟨hprev, by simp, by rw [hdict, List.take_append_of_le_length (List.length_pos_iff.2 hpre)]⟩

/-- The code of the candidate sequence brings the decoder level with the encoder (R246, R248, R249, R251). -/
theorem Decodes.candidateCode (he : EncDict mcs dict width pre) (hs : InStep mcs dict pre ddict prev) (hpre : pre ≠ [])
    {codes : List (Nat × Nat)} {xs : List Symbol}
    (h : Decodes mcs dict (if 2 ^ width < dict.length + 1 ∧ width < 12 then width + 1 else width) (some pre) codes xs) :
    Decodes mcs ddict width prev ((dict.idxOf pre, width) :: codes) (pre ++ xs) := by
  obtain ⟨hget, hlt, hclear, heoi⟩ := he.code hpre
  have hc := lt_of_lt_of_le hlt he.size_le
  generalize dict.idxOf pre = c at *
  cases prev with
  | none =>
    obtain ⟨hdict, rfl⟩ := hs
    have hlen : dict.length = 2 ^ mcs + 2 := by rw [hdict, initDict_length]
    have hpow := (initDict_size he.mcs_ge he.mcs_le).2
    have hle : 2 ^ (mcs + 1) ≤ 2 ^ width := Nat.pow_le_pow_right (by decide) he.width_ge
    rw [if_neg (by omega), hdict] at h
    obtain rfl : [BitVec.ofNat 16 c] = pre := by
      rw [he.getElem?_of_lt (by omega)] at hget
      exact Option.some.inj hget
    refine .literal hc ?_ h
    unfold clearCode eoiCode at *
    omega
  | some prev =>
    obtain ⟨hprev, -, hdict⟩ := hs
    have hlen : dict.length = ddict.length + 1 := by simp [hdict]
    have hlt4096 := he.size_lt
    have hwidth : (if 2 ^ width < dict.length + 1 ∧ width < 12 then width + 1 else width) = grownWidth (ddict.length + 1) width := by
      have := he.size_le
      unfold grownWidth
      congr 1
      rw [eq_iff_iff]
      omega
    have hmeans : CodeMeans ddict prev c pre (prev ++ pre.take 1) := by
      by_cases hold : c < ddict.length
      · left
        rw [hdict, List.getElem?_append_left hold] at hget
        exact ⟨hget, rfl⟩
      · have hlast : c = ddict.length := by omega
        right
        rw [hlast, hdict] at hget
        have hcur : prev ++ pre.take 1 = pre := by simpa using hget
        have hfirst : pre.take 1 = prev.take 1 := by
          rw [← hcur, List.take_append_of_le_length (List.length_pos_iff.2 hprev)]
        exact ⟨hlast, by rw [← hfirst, hcur], hcur⟩
    rw [hwidth, hdict] at h
    exact .later hc (by omega) hclear heoi hmeans h

/-- The decoder gives back the candidate sequence and the symbols still to come (R258). -/
theorem encCodes_decodes (xs : List Symbol) (he : EncDict mcs dict width pre) (hs : InStep mcs dict pre ddict prev)
    (hxs : ∀ x ∈ xs, x.toNat < 2 ^ mcs) : Decodes mcs ddict width prev (encCodes mcs xs dict width pre) (pre ++ xs) := by
  induction xs generalizing dict width pre ddict prev with
  | nil =>
    rw [encCodes]
    split
    · rename_i hpre
      rw [hpre]
      exact .eoi he.reserved_lt.1
    · exact Decodes.candidateCode he hs ‹_› (.eoi (lt_two_pow_grown _ he.reserved_lt.1))
  | cons x xs ih =>
    obtain ⟨hx, hxs⟩ := List.forall_mem_cons.1 hxs
    rw [encCodes]
    split
    · rename_i hmem
      have := ih (he.extend hx hmem) (hs.extend x) hxs
      rwa [List.append_assoc] at this
    · rename_i hnew
      have hpre : pre ≠ [] := by
        rintro rfl
        exact hnew (he.init.subset (literal_mem_initDict hx))
      have hlevel : InStep mcs (dict ++ [pre ++ [x]]) [x] dict (some pre) := ⟨hpre, by simp, rfl⟩
      refine Decodes.candidateCode he hs hpre ?_
      rw [List.length_append, List.length_singleton]
      by_cases hfull : dict.length + 1 = 4096
      · rw [if_pos hfull]
        have hstart : EncDict mcs (initDict mcs) (mcs + 1) [x] :=
          EncDict.start he.mcs_ge he.mcs_le (fun _ => literal_mem_initDict hx) (by simpa using hx)
        exact .clear (lt_two_pow_grown _ he.reserved_lt.2) (ih hstart (prev := none) ⟨rfl, rfl⟩ hxs)
      · rw [if_neg hfull]
        have hins := he.insert hx (pre ++ [x]) hfull
        rw [List.length_append, List.length_singleton] at hins
        exact ih hins hlevel hxs

end

/-- The code stream of a sequence decodes to that sequence (R258). -/
theorem codeStream_decodes {mcs : Nat} {xs : List Symbol} (h : 2 ≤ mcs) (h' : mcs ≤ 11) (hxs : ∀ x ∈ xs, x.toNat < 2 ^ mcs) :
    Decodes mcs (initDict mcs) (mcs + 1) none (codeStream mcs xs) xs := by
  have he : EncDict mcs (initDict mcs) (mcs + 1) [] := EncDict.start h h' (by simp) (by simp)
  exact .clear he.reserved_lt.2 (encCodes_decodes xs he ⟨rfl, rfl⟩ hxs)

end Sys2Proof.Machine
end

section
/-!
SUPPORT. `LZW.DEC` as a command (spec/44_lzw_decoder.md R241 to R256): its run over an ImageDataBlock that carries a code stream.
-/

namespace Sys2Proof.Machine

/-! ### The decoder's place in the stream -/

/-- A running `LZW.DEC` with working state `w` has `cur` of the current sub-block and the sub-blocks `blocks` still to read, and these with the
bits in its accumulator are the bits of `codes` and fewer than 8 zeros (R40, R243, R244). -/
structure DecReads (s : State) (w : DecWork) (cur : List Byte) (blocks : List (List Byte)) (codes : List (Nat × Nat)) : Prop where
  busy : s.busy = true
  todo : s.todo = []
  waits : s.grant = none
  work : s.work = .dec w
  ended : w.ended = false
  rem : w.rem = cur.length
  input : s.input.drop s.ipos.toNat = cur ++ chainBytes blocks
  subBlocks : SubBlocks blocks
  acc_lt : w.acc < 2 ^ w.nb
  bits : ∃ pad, pad < 8 ∧ lowBits w.nb w.acc ++ byteBits (cur ++ blocks.flatten) = codeBits codes ++ List.replicate pad false

variable {s : State} {w : DecWork} {cur : List Byte} {blocks : List (List Byte)} {codes : List (Nat × Nat)}

/-- The next step of a running `LZW.DEC`. -/
theorem DecReads.coreTick (h : DecReads s w cur blocks codes) : coreTick s = runMicros (decMicros w s) s := by
  unfold Machine.coreTick issue
  rw [h.todo, h.work, h.waits]

/-- A length byte, when the current sub-block is used up (R243). -/
theorem DecReads.lengthByte {b : List Byte} (h : DecReads s w [] (b :: blocks) codes) (hnb : w.nb < w.width) :
    Machine.coreTick s = { s with ipos := s.ipos + 1, work := .dec { w with rem := b.length } } ∧
      DecReads (Machine.coreTick s) { w with rem := b.length } b blocks codes := by
  obtain ⟨hlen, hblocks⟩ := List.forall_mem_cons.1 h.subBlocks
  have hbyte : (BitVec.ofNat 8 b.length).toNat = b.length := Nat.mod_eq_of_lt (by omega)
  have hne : BitVec.ofNat 8 b.length ≠ 0 := fun h0 => by
    have hzero : b.length = 0 := hbyte.symm.trans (congrArg BitVec.toNat h0)
    omega
  have hin : s.input.drop s.ipos.toNat = BitVec.ofNat 8 b.length :: (b ++ chainBytes blocks) := by
    rw [h.input]
    simp [chainBytes]
  obtain ⟨hcell, hlt, htail⟩ := input_at_cursor hin
  have htick : Machine.coreTick s = { s with ipos := s.ipos + 1, work := .dec { w with rem := b.length } } := by
    rw [h.coreTick, decMicros, if_pos hnb, pullMicros, if_neg (by simp [h.ended]), if_neg (BitVec.not_le.2 hlt),
      if_pos (by rw [h.rem]; rfl), hcell, if_neg hne, hbyte, runMicros_ipos _ h.busy, runMicros_work _ (by exact h.busy),
      runMicros_nil]
  refine ⟨htick, ?_⟩
  rw [htick]
  exact ⟨h.busy, h.todo, h.waits, rfl, h.ended, rfl, htail, hblocks, h.acc_lt, h.bits⟩

/-- A payload byte (R243, R244). -/
theorem DecReads.payloadByte {b : Byte} (h : DecReads s w (b :: cur) blocks codes) (hnb : w.nb < w.width) :
    Machine.coreTick s = { s with
        ipos := s.ipos + 1
        work := .dec { w with acc := w.acc ||| (b.toNat <<< w.nb), nb := w.nb + 8, rem := w.rem - 1 } } ∧
      DecReads (Machine.coreTick s) { w with acc := w.acc ||| (b.toNat <<< w.nb), nb := w.nb + 8, rem := w.rem - 1 } cur blocks
        codes := by
  obtain ⟨hcell, hlt, htail⟩ := input_at_cursor h.input
  have htick : Machine.coreTick s = { s with
      ipos := s.ipos + 1
      work := .dec { w with acc := w.acc ||| (b.toNat <<< w.nb), nb := w.nb + 8, rem := w.rem - 1 } } := by
    rw [h.coreTick, decMicros, if_pos hnb, pullMicros, if_neg (by simp [h.ended]), if_neg (BitVec.not_le.2 hlt),
      if_neg (by rw [h.rem]; simp), hcell, runMicros_ipos _ h.busy, runMicros_work _ (by exact h.busy), runMicros_nil]
  refine ⟨htick, ?_⟩
  rw [htick]
  obtain ⟨pad, hpad, hbits⟩ := h.bits
  refine ⟨h.busy, h.todo, h.waits, rfl, h.ended, by simp [h.rem], htail, h.subBlocks,
    or_shiftLeft_lt_two_pow h.acc_lt b.isLt, pad, hpad, ?_⟩
  show lowBits (w.nb + 8) (w.acc ||| b.toNat <<< w.nb) ++ _ = _
  rw [lowBits_or_shiftLeft _ _ h.acc_lt, ← hbits, List.append_assoc]
  rfl

/-- While a code is not buffered there is a byte to read. -/
theorem DecReads.byteLeft {c : Nat} (h : DecReads s w cur blocks ((c, w.width) :: codes)) (hnb : w.nb < w.width) :
    cur ≠ [] ∨ blocks ≠ [] := by
  by_contra hnone
  obtain ⟨rfl, rfl⟩ : cur = [] ∧ blocks = [] := by simpa using hnone
  obtain ⟨pad, -, hbits⟩ := h.bits
  have hlen := congrArg List.length hbits
  simp only [List.flatten_nil, byteBits_nil, List.append_nil, lowBits_length, codeBits_cons, List.append_assoc,
    List.length_append] at hlen
  omega

theorem chainBytes_length (blocks : List (List Byte)) : (chainBytes blocks).length = blocks.flatten.length + blocks.length + 1 := by
  induction blocks with
  | nil => rfl
  | cons b bs ih =>
    rw [show chainBytes (b :: bs) = (BitVec.ofNat 8 b.length :: b) ++ chainBytes bs from List.append_assoc _ _ _, List.length_append, ih,
      List.flatten_cons, List.length_append, List.length_cons, List.length_cons]
    omega

/-- While a code is not buffered, a step reads a byte (R243, R244). -/
theorem DecReads.byte {c : Nat} (h : DecReads s w cur blocks ((c, w.width) :: codes)) (hnb : w.nb < w.width) :
    ∃ acc nb rem cur' blocks',
      Machine.coreTick s = { s with ipos := s.ipos + 1, work := .dec { w with acc := acc, nb := nb, rem := rem } } ∧
      DecReads (Machine.coreTick s) { w with acc := acc, nb := nb, rem := rem } cur' blocks' ((c, w.width) :: codes) ∧
      cur'.length + (chainBytes blocks').length + 1 = cur.length + (chainBytes blocks).length := by
  cases cur with
  | nil =>
    cases blocks with
    | nil => simpa using h.byteLeft hnb
    | cons b blocks =>
      obtain ⟨htick, hreads⟩ := h.lengthByte hnb
      refine ⟨_, _, _, b, blocks, htick, hreads, ?_⟩
      rw [chainBytes_length, chainBytes_length, List.flatten_cons, List.length_append, List.length_cons, List.length_nil]
      omega
  | cons b cur =>
    obtain ⟨htick, hreads⟩ := h.payloadByte hnb
    refine ⟨_, _, _, cur, blocks, htick, hreads, ?_⟩
    rw [List.length_cons]
    omega

/-- A code that is buffered is the next code of the stream, and the rest of the accumulator goes with the rest of the stream (R244). -/
theorem DecReads.nextCode {c : Nat} (h : DecReads s w cur blocks ((c, w.width) :: codes)) (hc : c < 2 ^ w.width)
    (hnb : w.width ≤ w.nb) :
    w.acc % 2 ^ w.width = c ∧ ∃ pad, pad < 8 ∧
      lowBits w.shift.nb w.shift.acc ++ byteBits (cur ++ blocks.flatten) = codeBits codes ++ List.replicate pad false := by
  obtain ⟨pad, hpad, hbits⟩ := h.bits
  rw [show w.nb = w.width + (w.nb - w.width) by omega, lowBits_add, codeBits_cons, List.append_assoc, List.append_assoc] at hbits
  obtain ⟨hcode, hrest⟩ := List.append_inj hbits (by simp)
  refine ⟨lowBits_injective (Nat.mod_lt _ (by positivity)) hc (Eq.trans ?_ hcode), pad, hpad, hrest⟩
  exact lowBits_congr fun i hi => by simp [Nat.testBit_mod_two_pow, hi]

/-- The step of a code that outputs `ys` and leaves the working state `w'` (R254). -/
theorem DecReads.code {c : Nat} {ys out : List Symbol} {w' : DecWork} (h : DecReads s w cur blocks ((c, w.width) :: codes))
    (hc : c < 2 ^ w.width) (hnb : w.width ≤ w.nb) (hdo : codeMicros w.shift c = outsAll ys ++ [.work (.dec w')])
    (hw' : ∃ dict width prev, w' = { w.shift with dict := dict, width := width, prev := prev })
    (hsout : s.sout = cells out) (hsolen : s.solen = Word.ofNat out.length)
    (hroom : out.length + ys.length ≤ outLimit s.caps.sout) :
    Machine.coreTick s =
        { s with sout := cells (out ++ ys), solen := Word.ofNat (out ++ ys).length, work := .dec w' } ∧
      DecReads (Machine.coreTick s) w' cur blocks codes := by
  obtain ⟨hcode, hbits⟩ := h.nextCode hc hnb
  have hlim := outLimit_lt s.caps.sout
  have hn : s.solen.toNat = out.length := by rw [hsolen, Word.toNat_ofNat_of_lt (by omega)]
  have htick : Machine.coreTick s =
      { s with sout := cells (out ++ ys), solen := Word.ofNat (out ++ ys).length, work := .dec w' } := by
    rw [h.coreTick, decMicros, if_neg (Nat.not_lt.2 hnb), hcode, hdo, runMicros_outsAll _ h.busy (by rw [hn]; exact hroom),
      runMicros_work _ (by exact h.busy), runMicros_nil, hn, hsout, Memory.fill_cells, hsolen, List.length_append]
    simp [Word.ofNat, BitVec.ofNat_add]
  refine ⟨htick, ?_⟩
  rw [htick]
  obtain ⟨dict, width, prev, rfl⟩ := hw'
  exact ⟨h.busy, h.todo, h.waits, rfl, h.ended, h.rem, h.input, h.subBlocks, shiftRight_lt_two_pow h.acc_lt hnb, hbits⟩

/-- Fewer than 8 bits left are no byte: at the End-of-Information code the cursor is at the terminator (R253, R256). -/
theorem DecReads.atTerminator {c : Nat} (h : DecReads s w cur blocks [(c, w.width)]) (hc : c < 2 ^ w.width) (hnb : w.width ≤ w.nb) :
    s.ipos = s.ilen - 1 := by
  obtain ⟨-, pad, hpad, hbits⟩ := h.nextCode hc hnb
  have hlen := congrArg List.length hbits
  simp only [List.length_append, byteBits_length, codeBits_nil, List.length_nil, List.length_replicate, lowBits_length] at hlen
  have hcur : cur = [] := List.length_eq_zero_iff.1 (by omega)
  have hblocks : blocks = [] := by
    cases blocks with
    | nil => rfl
    | cons b bs =>
      have := (h.subBlocks b List.mem_cons_self).1
      simp only [List.flatten_cons, List.length_append] at hlen
      omega
  have hin := h.input
  rw [hcur, hblocks] at hin
  exact ipos_of_last hin

/-! ### What each class of code does -/

theorem codeMicros_eoi (w : DecWork) : codeMicros w (eoiCode w.mcs) = [.finish false] := if_pos rfl

theorem codeMicros_clear (w : DecWork) : codeMicros w (clearCode w.mcs) = [.work (.dec w.cleared)] := by
  rw [codeMicros, if_neg (by simp [clearCode, eoiCode]), if_pos rfl]

theorem codeMicros_literal {w : DecWork} {c : Nat} (hprev : w.prev = none) (hc : c < clearCode w.mcs) :
    codeMicros w c = [.outs (BitVec.ofNat 16 c), .work (.dec { w with prev := some [BitVec.ofNat 16 c] })] := by
  rw [codeMicros, if_neg (by unfold clearCode eoiCode at *; omega), if_neg (by omega), hprev]
  exact if_neg (by unfold clearCode eoiCode at *; omega)

theorem DecWork.grow_eq (w : DecWork) : w.grow = { w with width := grownWidth w.dict.length w.width } := by
  unfold DecWork.grow grownWidth
  split <;> rfl

theorem codeMicros_later {w : DecWork} {c : Nat} {prev cur entry : List Symbol} (hprev : w.prev = some prev)
    (hroom : w.dict.length < 4096) (hclear : c ≠ clearCode w.mcs) (heoi : c ≠ eoiCode w.mcs)
    (hmeans : CodeMeans w.dict prev c cur entry) :
    codeMicros w c = outsAll cur ++ [.work (.dec { w with
      dict := w.dict ++ [entry], width := grownWidth (w.dict.length + 1) w.width, prev := some cur })] := by
  rw [codeMicros, if_neg heoi, if_neg hclear, hprev]
  simp only
  rw [if_neg (Nat.ne_of_lt hroom)]
  rcases hmeans with ⟨hget, rfl⟩ | ⟨rfl, rfl, rfl⟩
  · obtain ⟨hlt, -⟩ := List.getElem?_eq_some_iff.1 hget
    have hcur : w.dict.getD c [] = cur := by rw [List.getD_eq_getElem?_getD, hget, Option.getD_some]
    rw [if_neg (by omega), if_pos hlt, if_pos hlt, hcur, DecWork.grow_eq, List.length_append, List.length_singleton]
  · rw [if_neg (by omega), if_neg (by omega), if_neg (by omega), DecWork.grow_eq, List.length_append, List.length_singleton]

/-- The first code has the decoder's width. -/
theorem Decodes.head {mcs width : Nat} {dict : List (List Symbol)} {prev : Option (List Symbol)} {codes : List (Nat × Nat)}
    {xs : List Symbol} (h : Decodes mcs dict width prev codes xs) : ∃ c rest, codes = (c, width) :: rest := by
  cases h <;> exact ⟨_, _, rfl⟩

/-- What a decoder does with the first code of a list it decodes: it ends; or it outputs the first symbols and goes on with the rest
(R246 to R253). -/
theorem Decodes.codeMicros {w : DecWork} {codes : List (Nat × Nat)} {xs : List Symbol}
    (h : Decodes w.mcs w.dict w.width w.prev codes xs) :
    (codes = [(eoiCode w.mcs, w.width)] ∧ xs = [] ∧ eoiCode w.mcs < 2 ^ w.width) ∨
    ∃ c rest ys zs dict width prev, codes = (c, w.width) :: rest ∧ xs = ys ++ zs ∧ c < 2 ^ w.width ∧
      Machine.codeMicros w.shift c = outsAll ys ++ [.work (.dec { w.shift with dict := dict, width := width, prev := prev })] ∧
      Decodes w.mcs dict width prev rest zs := by
  generalize hdict : w.dict = dict at h
  generalize hwidth : w.width = width at h
  generalize hprev : w.prev = prev at h
  cases h with
  | eoi hc => exact .inl ⟨rfl, rfl, hc⟩
  | clear hc h => exact .inr ⟨_, _, [], _, _, _, _, rfl, rfl, hc, codeMicros_clear w.shift, h⟩
  | literal hc hlit h =>
    exact .inr ⟨_, _, [_], _, _, _, _, rfl, rfl, hc, codeMicros_literal (w := w.shift) hprev hlit, hdict ▸ hwidth ▸ h⟩
  | later hc hroom hclear heoi hmeans h =>
    subst hdict hwidth
    exact .inr ⟨_, _, _, _, _, _, _, rfl, rfl, hc, codeMicros_later (w := w.shift) hprev hroom hclear heoi hmeans, h⟩

/-! ### The run of the decoder -/

/-- `s` after `LZW.DEC` completed with the symbols `xs` (R254, R256). -/
def decoded (xs : List Symbol) (s : State) : State :=
  complete false { s with ipos := s.ilen - 1, sout := cells xs, solen := Word.ofNat xs.length }

/-- A running `LZW.DEC` that gives the symbols `total`, part of them output already, with `k` bytes and codes at most to come. -/
inductive DecRuns (total : List Symbol) (k : Nat) (s : State) : Prop where
  | intro {w : DecWork} {cur : List Byte} {blocks : List (List Byte)} {codes : List (Nat × Nat)} {out xs : List Symbol}
    (reads : DecReads s w cur blocks codes) (decodes : Decodes w.mcs w.dict w.width w.prev codes xs)
    (sout : s.sout = cells out) (solen : s.solen = Word.ofNat out.length) (htotal : out ++ xs = total)
    (room : total.length ≤ outLimit s.caps.sout) (count : cur.length + (chainBytes blocks).length + codes.length ≤ k)

theorem DecRuns.busy {total : List Symbol} {k : Nat} (h : DecRuns total k s) : s.busy = true := by
  obtain ⟨hreads, -, -, -, -, -, -⟩ := h
  exact hreads.busy

theorem DecRuns.count_pos {total : List Symbol} {k : Nat} (h : DecRuns total k s) : 0 < k := by
  obtain ⟨-, -, -, -, -, -, hcount⟩ := h
  rw [chainBytes_length] at hcount
  omega

/-- A step of a running `LZW.DEC` ends it, or it runs on to the same end (R254). -/
theorem DecRuns.tick {total : List Symbol} {k : Nat} (h : DecRuns total (k + 1) s) :
    Machine.coreTick s = decoded total s ∨ (DecRuns total k (Machine.coreTick s) ∧ decoded total (Machine.coreTick s) = decoded total s) := by
  obtain ⟨hreads, hd, hsout, hsolen, rfl, hroom, hcount⟩ := h
  rename_i w cur blocks codes out xs
  by_cases hnb : w.nb < w.width
  · obtain ⟨c, rest, rfl⟩ := hd.head
    obtain ⟨acc, nb, rem, cur', blocks', htick, hreads', hless⟩ := hreads.byte hnb
    refine .inr ⟨.intro hreads' hd ?_ ?_ rfl ?_ (by omega), by rw [htick]; rfl⟩ <;> rw [htick] <;> assumption
  · have hnb := Nat.not_lt.1 hnb
    rcases hd.codeMicros with ⟨rfl, rfl, hc⟩ | ⟨c, rest, ys, zs, dict, width, prev, rfl, rfl, hc, hdo, hd'⟩
    · left
      rw [hreads.coreTick, decMicros, if_neg (Nat.not_lt.2 hnb), (hreads.nextCode hc hnb).1,
        show eoiCode w.mcs = eoiCode w.shift.mcs from rfl, codeMicros_eoi, runMicros_finish, decoded, ← hreads.atTerminator hc hnb,
        List.append_nil, ← hsout, ← hsolen]
    · right
      rw [List.length_cons] at hcount
      simp only [List.length_append] at hroom
      obtain ⟨htick, hreads'⟩ := hreads.code hc hnb hdo ⟨_, _, _, rfl⟩ hsout hsolen (by omega)
      refine ⟨.intro (out := out ++ ys) hreads' hd' (by rw [htick]) (by rw [htick]) (List.append_assoc _ _ _) ?_ (by omega),
        by rw [htick]; rfl⟩
      rw [htick]
      simp only [List.length_append]
      omega

/-- A running `LZW.DEC` comes to its end (R254, R256). -/
theorem DecRuns.settle {total : List Symbol} {k : Nat} (h : DecRuns total k s) : Machine.settle k s = decoded total s := by
  induction k generalizing s with
  | zero => exact absurd h.count_pos (Nat.lt_irrefl 0)
  | succ k ih =>
    rw [Machine.settle, if_pos h.busy]
    rcases h.tick with hend | ⟨hruns, hsame⟩
    · rw [hend]
      exact settle_ended (complete_busy _ _) k
    · rw [ih hruns, hsame]

/-! ### The command -/

theorem le_codeBits_length {codes : List (Nat × Nat)} {n : Nat} (hw : ∀ c ∈ codes, n ≤ c.2) :
    n * codes.length ≤ (codeBits codes).length := by
  induction codes with
  | nil => simp
  | cons c codes ih =>
    obtain ⟨hc, hw⟩ := List.forall_mem_cons.1 hw
    have := ih hw
    rw [codeBits_cons, List.length_append, lowBits_length, List.length_cons, Nat.mul_add_one]
    omega

/-- Codes of at least three bits: how many a payload can carry (R38). -/
theorem CarriesCodes.length_le {codes : List (Nat × Nat)} {payload : List Byte} (h : CarriesCodes codes payload)
    (hw : ∀ c ∈ codes, 3 ≤ c.2) : 3 * codes.length ≤ 8 * payload.length := by
  obtain ⟨pad, -, hbits⟩ := h
  have hlen := congrArg List.length hbits
  have hcodes := le_codeBits_length hw
  rw [byteBits_length, List.length_append] at hlen
  omega

/-- The part of `LZW.DEC` before its code loop, when every check passes (R241, R242). -/
theorem decPrelude_passes {s : State} {mcs : Nat} (hfits : inputFits s) (hlen : s.ilen ≠ 0) (hmcs : s.ibufAt 0 = BitVec.ofNat 8 mcs)
    (hmin : 2 ≤ mcs) (hmax : mcs ≤ 11) :
    decPrelude s = [.ipos 0, .solen0, .ipos 1, .mcs (BitVec.ofNat 4 mcs), .work (.dec (DecWork.init mcs))] := by
  have hbyte : (s.ibufAt 0).toNat = mcs := by
    rw [hmcs]
    exact Nat.mod_eq_of_lt (by omega)
  have hreg : (s.ibufAt 0).setWidth 4 = BitVec.ofNat 4 mcs := by
    apply BitVec.eq_of_toNat_eq
    rw [BitVec.toNat_setWidth, hbyte, BitVec.toNat_ofNat]
  have hcap : overCap s.caps.ibuf s.ilen = false := by
    rw [overCap, Option.any_eq_false]
    exact fun c hc => by simpa using hfits c hc
  have hrange : ¬ (mcs < Config.mcsMin ∨ Config.mcsMax < mcs) := by
    show ¬ (mcs < 2 ∨ 11 < mcs)
    omega
  rw [decPrelude, hcap, if_neg (by decide), if_neg hlen, hbyte, if_neg hrange, hreg]

/-- `LZW.DEC` of a block that carries the code stream of a sequence gives the sequence, the cursor before the terminator (R256, R258). -/
theorem lzwDec_encodedBlock {s : State} {mcs : Nat} {xs : List Symbol} (hs : Starts s) (hfits : inputFits s) (hmin : 2 ≤ mcs)
    (hmax : mcs ≤ 11) (hxs : ∀ x ∈ xs, x.toNat < 2 ^ mcs) (hin : EncodedBlock mcs xs s.input)
    (hroom : xs.length ≤ outLimit s.caps.sout) :
    exec .lzwDec s = .next (finished 0x31 false { s with
      sout := cells xs, solen := Word.ofNat xs.length, mcs := BitVec.ofNat 4 mcs, ipos := s.ilen - 1 }) := by
  obtain ⟨blocks, hblocks, hcodes, hin⟩ := hin
  have hd := codeStream_decodes hmin hmax hxs
  obtain ⟨hcell, hlt, htail⟩ := input_at_cursor (s := { s with ipos := 0 }) (b := BitVec.ofNat 8 mcs) (rest := chainBytes blocks) hin
  have hpos : (0 : Word) < s.ilen := hlt
  have hne : s.ilen ≠ 0 := fun h0 => by
    rw [h0] at hpos
    exact absurd hpos (by decide)
  have hreads : DecReads
      { commandStart { s with cmd := 0x31 } with
        ipos := 1, solen := 0, sout := [], mcs := BitVec.ofNat 4 mcs, work := .dec (DecWork.init mcs) }
      (DecWork.init mcs) [] blocks (codeStream mcs xs) :=
    ⟨rfl, rfl, hs.grant, rfl, rfl, rfl, htail, hblocks, Nat.one_pos, hcodes⟩
  have hsteps : ([] : List Byte).length + (chainBytes blocks).length + (codeStream mcs xs).length ≤ stepBound s := by
    have hlen := congrArg List.length hin
    have hcount := hcodes.length_le fun c hc => le_trans (by omega) (hd.widths le_rfl c hc)
    have hchain := chainBytes_length blocks
    rw [s.input_length, List.length_cons] at hlen
    rw [List.length_nil, stepBound]
    omega
  show Host.Outcome.next (command 0x31 decPrelude s) = _
  rw [command_starts 0x31 _ hs, decPrelude_passes (by exact hfits) (by exact hne) (by exact hcell) hmin hmax, runMicros_ipos _ (by rfl),
    runMicros_solen0 _ (by rfl), runMicros_ipos _ (by rfl), runMicros_mcs _ (by rfl), runMicros_work _ (by rfl), runMicros_nil]
  exact congrArg Host.Outcome.next
    (DecRuns.intro (out := []) hreads hd rfl rfl rfl hroom hsteps).settle

end Sys2Proof.Machine
end

section
/-!
The round trip of the LZW codec (spec/00_scope.md R14.3, spec/44_lzw_decoder.md R258).
-/

namespace Sys2Proof.Machine

/-! ### The encoder's block -/

/-- The bytes of `LZW.ENC` are the minimum code size and a chain of greedy sub-blocks that carries the code stream (R213, R221, R222, R223). -/
theorem encBytes_block {mcs : Nat} {xs : List Symbol} (hmin : 2 ≤ mcs) (hmax : mcs ≤ 11) (hxs : ∀ x ∈ xs, x.toNat < 2 ^ mcs) :
    ∃ blocks, GreedyBlocks blocks ∧ CarriesCodes (codeStream mcs xs) blocks.flatten ∧
      encBytes mcs xs = BitVec.ofNat 8 mcs :: chainBytes blocks := by
  have hfit := (codeStream_decodes hmin hmax hxs).fits
  obtain ⟨hclear, hfit⟩ := List.forall_mem_cons.1 hfit
  have hinit : (EncWork.init mcs).Holds [] [] := ⟨by simp, by simp [EncWork.init], Nat.one_pos, rfl⟩
  have hrun : FinishesWith (((EncWork.init mcs).emit (clearCode mcs)).2 ++ encRun ((EncWork.init mcs).emit (clearCode mcs)).1 xs) []
      ([] ++ codeBits (codeStream mcs xs)) := by
    refine ((EncWork.init mcs).emit_appends hclear).finishes hinit fun full h => ?_
    have := encRun_finishes xs h
    rw [EncWork.emit_mcs, EncWork.emit_dict, EncWork.emit_width, EncWork.emit_pre] at this
    exact this hfit
  obtain ⟨blocks, hout, hgreedy, hbits⟩ := hrun
  exact ⟨blocks, hgreedy, hbits, congrArg (BitVec.ofNat 8 mcs :: ·) hout⟩

/-- `LZW.ENC` completes only if every check passes. -/
theorem lzwEnc_completed_passes {s t : State} (hs : Starts s) (h : exec .lzwEnc s = .next t) (hdone : t.done = true) : EncPasses s := by
  obtain rfl : command 0x30 encPrelude s = t := Host.Outcome.next.inj h
  rw [command_starts 0x30 _ hs] at hdone
  rcases encPrelude_cases (commandStart { s with cmd := 0x30 }) with hpass | ⟨code, info, hfault⟩ | ⟨m, code, info, hfault⟩
  · exact ⟨hpass.operand, hpass.table, hpass.size, hpass.symbols⟩
  · rw [hfault, runMicros_raise, settle_ended (raiseFault_busy _ _ _)] at hdone
    cases hdone
  · rw [hfault, runMicros_mcs _ (by rfl), runMicros_raise, settle_ended (raiseFault_busy _ _ _)] at hdone
    cases hdone

/-- A completed `LZW.ENC` has written its block (R223, R224). -/
theorem lzwEnc_completed {s t : State} (hs : Starts s) (h : exec .lzwEnc s = .next t) (hdone : t.done = true) :
    ∃ (mcs : Nat) (bytes : List Byte), 2 ≤ mcs ∧ mcs ≤ 11 ∧ (∀ x ∈ s.symbols, x.toNat < 2 ^ mcs) ∧ EncodedBlock mcs s.symbols bytes ∧
      bytes.length ≤ outLimit s.caps.obuf ∧
      t = finished 0x30 false { s with mcs := BitVec.ofNat 4 mcs, obuf := cells bytes, olen := Word.ofNat bytes.length } := by
  have hpass := lzwEnc_completed_passes hs h hdone
  obtain ⟨hmin, hmax⟩ := hpass.mcs_range
  obtain ⟨blocks, hgreedy, hcodes, hbytes⟩ := encBytes_block hmin hmax hpass.symbols
  rw [hpass.lzwEnc_emits hs] at h
  obtain rfl := Host.Outcome.next.inj h
  refine ⟨s.encMcs, encBytes s.encMcs s.symbols, hmin, hmax, hpass.symbols, ⟨blocks, hgreedy.1, hcodes, hbytes⟩, ?_⟩
  rw [emitted] at hdone ⊢
  split at hdone
  · exact ⟨‹_›, if_pos ‹_›⟩
  · cases hdone

/-- Settles O40: what a completed `LZW.ENC` wrote is a block that carries the code stream of the symbols, and `LZW.DEC` of such a block gives
them back. -/
theorem lzwRoundTrip : Obligations.LzwRoundTrip := by
  intro s t u hs henc hdone hmv hroom
  obtain ⟨mcs, bytes, hmin, hmax, hsym, hblock, hfit, rfl⟩ := lzwEnc_completed hs henc hdone
  have hlen : bytes.length < 2 ^ 32 := lt_of_le_of_lt hfit (outLimit_lt _)
  obtain ⟨rfl, hfits⟩ := hostAct_mv rfl rfl hlen hmv
  have hsilen : Word.ofNat s.symbols.length = s.silen := by rw [s.symbols_length, Word.ofNat_toNat]
  rw [← hsilen]
  exact lzwDec_encodedBlock ⟨rfl, hs.fault, hs.grant⟩ hfits hmin hmax hsym (by rw [input_of_fill hlen]; exact hblock)
    (by rw [s.symbols_length]; exact hroom)

end Sys2Proof.Machine
end

section
/-!
SUPPORT. What an instruction can do and what a step can do, one constructor a case (spec/10_state.md R23, spec/45_system_commands.md R270 to R274,
spec/70_reset_and_hazards.md R333, R341).
-/

namespace Sys2Proof.Machine

/-! ### An instruction -/

/-- The first micro-steps of each command (R274); `SYS.RESET`, the block items and the codes have none of their own. -/
def commandMicros : Instr → State → List Micro
  | .sysNop | .sysAbort => fun _ => [.finish false]
  | .sysClrfault => fun _ => clearFaultMicros ++ [.finish false]
  | .seqParse => parsePrelude
  | .seqSerialize => serializeMicros
  | .seqGetblk => getblkMicros
  | .seqSetblk => setblkMicros
  | .fldUnpackLsd => unpackFixed Config.lsdLen lsdWrites
  | .fldUnpackGce => unpackFixed Config.gceLen gceWrites
  | .fldUnpackId => unpackFixed Config.idLen idWrites
  | .fldUnpackApp => unpackFixed Config.appLen appWrites
  | .fldUnpackCom => unpackMicros comLengthOk comWrites
  | .fldUnpackCt => unpackMicros ctLengthOk ctWrites
  | .fldUnpackU16 => unpackFixed 2 u16Writes
  | .fldPackLsd => fun s => packMicros (lsdBytes s.fld)
  | .fldPackGce => fun s => packMicros (gceBytes s.fld)
  | .fldPackId => fun s => packMicros (idBytes s.fld)
  | .fldPackApp => fun s => packMicros (appBytes s.fld)
  | .fldPackCom => fun s => packMicros (comBytes s)
  | .fldPackCt => packCtMicros
  | .fldPackU16 => fun s => packMicros (u16Bytes s.fld)
  | .lzwEnc => encPrelude
  | .lzwDec => decPrelude
  | .sysReset | .extGce | .extApp | .extPte | .extCom | .img | .trailer | .lzwCode _ _ => fun _ => []

/-- What an instruction that has a next state does. -/
inductive ExecDoes (i : Instr) (s : State) : State → Prop where
  /-- a command is turned away (R306, R341) -/
  | turnedAway {op : Byte} (he : encode i = .cmd op) (h : s.busy = true ∨ s.fault = true) : ExecDoes i s { s with cmd := op }
  /-- a command starts (R274); under `FAULT` only `SYS.CLRFAULT` does (R271) -/
  | starts {op : Byte} (he : encode i = .cmd op) (hb : s.busy = false) (hf : s.fault = false ∨ i = .sysClrfault) :
    ExecDoes i s (startCommand (commandMicros i) { s with cmd := op })
  /-- `SYS.ABORT` of a running command (R272) -/
  | aborts (hi : i = .sysAbort) (hb : s.busy = true) : ExecDoes i s (abortRunning { s with cmd := 0x02 })
  /-- `SYS.RESET` (R273) -/
  | resets (hi : i = .sysReset) : ExecDoes i s (resetCore s)
  /-- a block item in a frame attempt (R134) -/
  | item {w : ParseWork} (hi : i ∈ [Instr.extGce, .extApp, .extPte, .extCom, .img, .trailer]) (hw : s.attempt = some w) :
    ExecDoes i s (issue (blkMicros i w s) s)
  /-- a code of the LZW stream (R254) -/
  | code {width : Nat} {code : BitVec 12} {w : DecWork} (hi : i = .lzwCode width code) (hw : s.codeReady width = some w) :
    ExecDoes i s (issue (codeMicros w.shift code.toNat) s)

section
variable {i : Instr} {s t : State}

theorem command_does {op : Byte} (he : encode i = .cmd op) : ExecDoes i s (command op (commandMicros i) s) := by
  rcases command_cases op (commandMicros i) s with ⟨h, e⟩ | ⟨hb, hf, e⟩ <;> rw [e]
  · exact .turnedAway he h
  · exact .starts he hb (.inl hf)

theorem inAttempt_does (hi : i ∈ [Instr.extGce, .extApp, .extPte, .extCom, .img, .trailer])
    (h : inAttempt (blkMicros i) s = .next t) : ExecDoes i s t := by
  unfold inAttempt at h
  split at h
  · obtain rfl := Host.Outcome.next.inj h
    exact .item hi ‹_›
  · cases h

theorem exec_does (h : exec i s = .next t) : ExecDoes i s t := by
  cases i with
  | sysClrfault =>
    obtain rfl := Host.Outcome.next.inj h
    split
    · exact .turnedAway rfl (.inl ‹_›)
    · exact .starts rfl (Bool.eq_false_iff.2 ‹_›) (.inr rfl)
  | sysAbort =>
    obtain rfl := Host.Outcome.next.inj h
    split
    · exact .aborts rfl ‹_›
    · exact command_does rfl
  | sysReset =>
    obtain rfl := Host.Outcome.next.inj h
    exact .resets rfl
  | extGce | extApp | extPte | extCom | img | trailer => exact inAttempt_does (by simp) h
  | lzwCode width code =>
    change execLzwCode width code s = _ at h
    unfold execLzwCode at h
    split at h
    · obtain rfl := Host.Outcome.next.inj h
      exact .code rfl ‹_›
    · cases h
  | sysNop | seqParse | seqSerialize | seqGetblk | seqSetblk | fldUnpackLsd | fldPackLsd | fldUnpackGce | fldPackGce | fldUnpackId
  | fldPackId | fldUnpackApp | fldPackApp | fldUnpackCom | fldPackCom | fldUnpackCt | fldPackCt | fldUnpackU16 | fldPackU16 | lzwEnc
  | lzwDec =>
    obtain rfl := Host.Outcome.next.inj h
    exact command_does rfl

/-- Where a block item runs, `SEQ.PARSE` waits for one (R134). -/
theorem attempt_eq_some {w : ParseWork} (h : s.attempt = some w) : s.busy = true ∧ s.todo = [] ∧ s.work = .parse w := by
  unfold State.attempt at h
  split at h
  · rename_i hb
    rw [Bool.and_eq_true, List.isEmpty_iff] at hb
    cases hw : s.work <;> simp_all
  · cases h

/-- A block item is no command (R101). -/
theorem item_not_command (hi : i ∈ [Instr.extGce, .extApp, .extPte, .extCom, .img, .trailer]) {op : Byte} :
    encode i ≠ .cmd op := by
  simp only [List.mem_cons, List.not_mem_nil, or_false] at hi
  rcases hi with rfl | rfl | rfl | rfl | rfl | rfl <;> exact nofun

/-- A reserved opcode is turned away, or starts and raises `BAD_COMMAND` (R95, R300). -/
theorem reservedCommand_cases (op : Byte) (s : State) :
    ((s.busy = true ∨ s.fault = true) ∧ reservedCommand op s = { s with cmd := op }) ∨
    (s.busy = false ∧ s.fault = false ∧
      reservedCommand op s = startCommand (fun _ => [.raise .badCommand (op.setWidth 32)]) { s with cmd := op }) :=
  command_cases op _ s

/-- An opcode decodes to the command it encodes (R91). -/
theorem encode_of_decodeCmd {op : Byte} (h : decodeCmd op = .ok i) : encode i = .cmd op := by
  have hop {k : Nat} (hk : op.toNat = k) : BitVec.ofNat 8 k = op := by rw [← hk, BitVec.ofNat_toNat, BitVec.setWidth_eq]
  unfold decodeCmd at h
  split at h <;> cases h
  all_goals exact congrArg Encoded.cmd (hop ‹_›)

end

/-! ### The host's accesses -/

/-- What no access of the host writes: the flags and the fault record, the core's outputs, the document, the running command. -/
structure SameCore (s t : State) : Prop where
  busy : t.busy = s.busy
  done : t.done = s.done
  fault : t.fault = s.fault
  np : t.np = s.np
  fcause : t.fcause = s.fcause
  finfo : t.finfo = s.finfo
  ipos : t.ipos = s.ipos
  olen : t.olen = s.olen
  solen : t.solen = s.solen
  mcs : t.mcs = s.mcs
  obuf : t.obuf = s.obuf
  sout : t.sout = s.sout
  doc : t.doc = s.doc
  work : t.work = s.work
  todo : t.todo = s.todo

section
variable {s t : State}

theorem SameCore.rfl : SameCore s s := by constructor <;> exact Eq.refl _

theorem SameCore.trans {u : State} (h : SameCore s t) (k : SameCore t u) : SameCore s u where
  busy := k.busy.trans h.busy
  done := k.done.trans h.done
  fault := k.fault.trans h.fault
  np := k.np.trans h.np
  fcause := k.fcause.trans h.fcause
  finfo := k.finfo.trans h.finfo
  ipos := k.ipos.trans h.ipos
  olen := k.olen.trans h.olen
  solen := k.solen.trans h.solen
  mcs := k.mcs.trans h.mcs
  obuf := k.obuf.trans h.obuf
  sout := k.sout.trans h.sout
  doc := k.doc.trans h.doc
  work := k.work.trans h.work
  todo := k.todo.trans h.todo

theorem SameCore.setCmd (s : State) (op : Byte) : SameCore s { s with cmd := op } := by constructor <;> exact Eq.refl _

/-- An action is taken off the host program, and its pace noted (R334). -/
theorem SameCore.handOver (s : State) (rest : List HostAction) (pace : Option Nat) :
    SameCore s { s with host := rest, grant := pace } := by constructor <;> exact Eq.refl _

theorem spendGrant_sameCore (s : State) : SameCore s (spendGrant s) := by
  unfold spendGrant
  split <;> constructor <;> exact Eq.refl _

theorem writeReg_sameCore {n : Nat} {v : Word} (h : writeReg n v s = .next t) : SameCore s t := by
  unfold writeReg at h
  repeat' split at h
  all_goals cases h
  all_goals constructor <;> rfl

theorem hostRead_sameCore {n : Nat} (h : hostRead n s = .next t) : SameCore s t := by
  unfold hostRead at h
  repeat' split at h
  all_goals cases h
  exact .rfl

theorem hostPeek_sameCore {m : Space} {i : Nat} (h : hostPeek m i s = .next t) : SameCore s t := by
  unfold hostPeek at h
  repeat' split at h
  all_goals cases h
  exact .rfl

theorem hostPut_sameCore {m : Space} {i : Nat} {v : Word} (h : hostPut m i v s = .next t) : SameCore s t := by
  unfold hostPut at h
  repeat' split at h
  all_goals cases h
  all_goals constructor <;> rfl

theorem hostIbuf_sameCore {bs : List Byte} (h : hostIbuf bs s = .next t) : SameCore s t := by
  unfold hostIbuf at h
  split at h <;> cases h
  constructor <;> rfl

theorem hostSin_sameCore {xs : List Symbol} (h : hostSin xs s = .next t) : SameCore s t := by
  unfold hostSin at h
  split at h <;> cases h
  constructor <;> rfl

theorem hostCtm_sameCore {cs : List Color} (h : hostCtm cs s = .next t) : SameCore s t := by
  unfold hostCtm at h
  split at h <;> cases h
  constructor <;> rfl

theorem hostComb_sameCore {bs : List Byte} (h : hostComb bs s = .next t) : SameCore s t := by
  unfold hostComb at h
  split at h <;> cases h
  constructor <;> rfl

theorem hostMv_sameCore (h : hostMv s = .next t) : SameCore s t := by
  unfold hostMv at h
  split at h
  · exact hostIbuf_sameCore h
  · cases h

theorem hostMvs_sameCore (h : hostMvs s = .next t) : SameCore s t := by
  unfold hostMvs at h
  split at h
  · exact hostSin_sameCore h
  · cases h

/-- A host move that writes is one of a core that is idle (R341). -/
theorem whenIdle_next {act : State → Host.Outcome State Fault Refusal} (h : whenIdle act s = .next t) :
    s.busy = false ∧ act s = .next t := by
  unfold whenIdle at h
  split at h
  · cases h
  · exact ⟨Bool.eq_false_iff.2 ‹_›, h⟩

end

/-- The action writes `v` to `CMD`, and leaves the core `pace` steps (R23, R93). -/
inductive WritesCmd : HostAction → Word → Option Nat → Prop where
  | cmd (v : Word) (pace : Option Nat) : WritesCmd (.cmd v pace) v pace
  | wr (v : Word) : WritesCmd (.wr 0 v) v none

/-- What a host action that has a next state is: a write to `CMD`, the reset line, or an access that leaves the core as it is. -/
theorem hostAct_cases {a : HostAction} {s t : State} (h : hostAct a s = .next t) :
    (∃ v pace, WritesCmd a v pace ∧ hostCmd v pace s = .next t) ∨ (a = .resetLine ∧ t = resetCore s) ∨ SameCore s t := by
  cases a with
  | cmd v pace => exact .inl ⟨v, pace, .cmd v pace, h⟩
  | resetLine => exact .inr (.inl ⟨rfl, (Host.Outcome.next.inj h).symm⟩)
  | poll n =>
    obtain rfl := Host.Outcome.next.inj h
    exact .inr (.inr (by constructor <;> rfl))
  | wr r v =>
    change (if r = 0 then hostCmd v none s else whenIdle (writeReg r v) s) = _ at h
    split at h
    · subst r
      exact .inl ⟨v, none, .wr v, h⟩
    · exact .inr (.inr (writeReg_sameCore (whenIdle_next h).2))
  | rd r => exact .inr (.inr (hostRead_sameCore h))
  | peek m i => exact .inr (.inr (hostPeek_sameCore h))
  | put m i v => exact .inr (.inr (hostPut_sameCore (whenIdle_next h).2))
  | ibuf bs => exact .inr (.inr (hostIbuf_sameCore (whenIdle_next h).2))
  | sin xs => exact .inr (.inr (hostSin_sameCore (whenIdle_next h).2))
  | ctm cs => exact .inr (.inr (hostCtm_sameCore (whenIdle_next h).2))
  | comb bs => exact .inr (.inr (hostComb_sameCore (whenIdle_next h).2))
  | mv => exact .inr (.inr (hostMv_sameCore (whenIdle_next h).2))
  | mvs => exact .inr (.inr (hostMvs_sameCore (whenIdle_next h).2))

/-! ### A step -/

/-- What a step does. -/
inductive StepDoes (s : State) : State → Prop where
  /-- the core goes on with the running command -/
  | core (hb : s.busy = true) (hh : hostMoves s = false) : StepDoes s (endIfDone (coreTick (spendGrant s)))
  /-- the host writes a command's opcode to `CMD` (R23) -/
  | command {a : HostAction} {rest : List HostAction} {v : Word} {pace : Option Nat} {i : Instr} {t : State}
    (hh : s.host = a :: rest) (ha : WritesCmd a v pace) (hi : encode i = .cmd (v.setWidth 8))
    (ht : ExecDoes i { s with host := rest, grant := pace } t) : StepDoes s t
  /-- the host writes a reserved opcode to `CMD` (R95) -/
  | reserved {a : HostAction} {rest : List HostAction} {v : Word} {pace : Option Nat} (hh : s.host = a :: rest)
    (ha : WritesCmd a v pace) : StepDoes s (reservedCommand (v.setWidth 8) { s with host := rest, grant := pace })
  /-- the reset line (R330) -/
  | resetLine {rest : List HostAction} (hh : s.host = .resetLine :: rest) : StepDoes s (resetCore { s with host := rest })
  /-- the host reads, loads or writes operands, or nothing happens -/
  | access {t : State} (h : SameCore s t) : StepDoes s t

theorem step_does {s t : State} (h : step s = .next t) : StepDoes s t := by
  rcases step_cases s with ⟨hb, hh, e⟩ | ⟨-, -, e⟩ | ⟨a, rest, -, hh, e⟩ <;> rw [e] at h
  · obtain rfl := Host.Outcome.next.inj h
    exact .core hb hh
  · obtain rfl := Host.Outcome.next.inj h
    exact .access .rfl
  · rcases hostAct_cases h with ⟨v, pace, ha, h⟩ | ⟨rfl, rfl⟩ | h
    · unfold hostCmd at h
      split at h
      · exact .command hh ha (encode_of_decodeCmd ‹_›) (exec_does h)
      · obtain rfl := Host.Outcome.next.inj h
        exact .reserved hh ha
    · exact .resetLine hh
    · exact .access (SameCore.trans (t := { s with host := rest }) (by constructor <;> rfl) h)

end Sys2Proof.Machine
end

section
/-!
SUPPORT. What a run keeps (spec/45_system_commands.md R274): a property that a kind of micro-step keeps holds of a command from its start to its
end, if the command and its loop are made of micro-steps of that kind.
-/

namespace Sys2Proof.Machine

/-- The next piece of the running command's loop (R133, R223, R254); a command without one completes. -/
def loopMicros (s : State) : List Micro :=
  match s.work with
  | .idle => [.finish false]
  | .parse w => attemptMicros w s
  | .enc w => encMicros w s
  | .dec w => decMicros w s

/-- A step of a running command is a pending micro-step, or the next piece of its loop, done at once or put off. -/
theorem coreTick_does (s : State) :
    (∃ m ms, s.todo = m :: ms ∧ coreTick s = m.apply { s with todo := ms }) ∨
    (s.todo = [] ∧ coreTick s = runMicros (loopMicros s) s) ∨
    (∃ n, s.todo = [] ∧ s.grant = some n ∧ coreTick s = { s with todo := loopMicros s }) := by
  rcases coreTick_cases s with h | ⟨ht, hw, e⟩ | ⟨w, ht, hw, e⟩ | ⟨w, ht, hw, e⟩ | ⟨w, ht, hw, e⟩
  · exact .inl h
  · exact .inr (.inl ⟨ht, by rw [e, loopMicros, hw, runMicros_finish]⟩)
  all_goals
    have hloop : coreTick s = issue (loopMicros s) s := by rw [e, loopMicros, hw]
    rw [hloop]
    rcases issue_cases (loopMicros s) s with ⟨-, e⟩ | ⟨n, hg, e⟩
    · exact .inr (.inl ⟨ht, e⟩)
    · exact .inr (.inr ⟨n, ht, hg, e⟩)

/-- Micro-steps of kind `A` keep `R`, and a running command of which `R` holds goes on with micro-steps of kind `A`. -/
structure Keeps (R : State → Prop) (A : Micro → Prop) : Prop where
  todo {s : State} (ms : List Micro) : R s → R { s with todo := ms }
  apply {m : Micro} {s : State} : s.busy = true → A m → R s → R (m.apply s)
  loop {s : State} : s.busy = true → R s → ∀ m ∈ loopMicros s, A m

/-- `R` holds, and every pending micro-step is of kind `A`. -/
def Pending (R : State → Prop) (A : Micro → Prop) (s : State) : Prop := R s ∧ ∀ m ∈ s.todo, A m

namespace Keeps
variable {R : State → Prop} {A : Micro → Prop} (h : Keeps R A)
include h

theorem runMicros {ms : List Micro} {s : State} (hb : s.busy = true) (hs : R s) (hms : ∀ m ∈ ms, A m) :
    R (Machine.runMicros ms s) := by
  induction ms generalizing s with
  | nil => exact hs
  | cons m ms ih =>
    obtain ⟨hm, hms⟩ := List.forall_mem_cons.1 hms
    have happly := h.apply hb hm hs
    rw [runMicros_cons]
    split
    · exact ih ‹_› happly hms
    · exact happly

theorem runMicros_pending {ms : List Micro} {s : State} (hb : s.busy = true) (hs : Pending R A s) (hms : ∀ m ∈ ms, A m) :
    Pending R A (Machine.runMicros ms s) := by
  refine ⟨h.runMicros hb hs.1 hms, ?_⟩
  rcases runMicros_todo ms hb with ⟨-, ht⟩ | ⟨-, ht, -⟩ <;> rw [ht]
  · exact hs.2
  · simp

theorem coreTick {s : State} (hb : s.busy = true) (hs : Pending R A s) : Pending R A (Machine.coreTick s) := by
  rcases coreTick_does s with ⟨m, ms, ht, e⟩ | ⟨ht, e⟩ | ⟨n, ht, -, e⟩ <;> rw [e]
  · obtain ⟨hr, htodo⟩ := hs
    rw [ht] at htodo
    obtain ⟨hm, hms⟩ := List.forall_mem_cons.1 htodo
    refine ⟨h.apply (s := { s with todo := ms }) hb hm (h.todo ms hr), ?_⟩
    rcases m.apply_todo (s := { s with todo := ms }) hb with ⟨-, e⟩ | ⟨-, e, -⟩ <;> rw [e]
    · exact hms
    · simp
  · exact h.runMicros_pending hb hs (h.loop hb hs.1)
  · exact ⟨h.todo _ hs.1, h.loop hb hs.1⟩

theorem settle (n : Nat) {s : State} (hs : Pending R A s) : Pending R A (Machine.settle n s) :=
  settle_keeps hs (fun _ hb hu => h.coreTick hb hu) n

theorem endIfDone {s : State} (hs : Pending R A s) : Pending R A (Machine.endIfDone s) :=
  endIfDone_keeps hs (fun _ hb hu => h.coreTick hb hu)

/-- A command from its start to its end, or to where it waits for the host's next steps. -/
theorem startCommand {micros : State → List Micro} {s : State} (hs : R (commandStart s))
    (hms : ∀ m ∈ micros (commandStart s), A m) : Pending R A (Machine.startCommand micros s) := by
  have hb : (commandStart s).busy = true := rfl
  have hp : Pending R A (commandStart s) := ⟨hs, by simp⟩
  unfold Machine.startCommand launch
  split
  · exact h.settle _ (h.runMicros_pending hb hp hms)
  · refine h.endIfDone ?_
    rcases beginPaced_cases (micros (commandStart s)) (commandStart s) with e | ⟨rest, hdrop, e⟩ <;> rw [e]
    · exact ⟨h.todo _ hs, hms⟩
    · rw [hdrop] at hms
      obtain ⟨hm, hrest⟩ := List.forall_mem_cons.1 hms
      exact ⟨h.apply (s := { commandStart s with todo := rest }) hb hm (h.todo _ hs), hrest⟩

end Keeps

end Sys2Proof.Machine
end

section
/-!
SUPPORT. The flags and the fault record of every step (spec/10_state.md R24, R25, spec/45_system_commands.md R271, spec/60_exceptions.md R305).
-/

namespace Sys2Proof.Machine

/-! ### The flags while a command runs -/

/-- The flags and the fault record agree, and no command runs under `FAULT`: what every micro-step keeps. -/
structure Calm (s : State) : Prop where
  done : s.done = true → s.fault = false ∧ s.busy = false
  np : s.np = true → s.done = true
  cause : s.fault = true → s.fcause ≠ 0
  running : s.busy = true → s.fault = false

theorem Calm.statusConsistent {s : State} (h : Calm s) : StatusConsistent s :=
  ⟨h.done, h.np, h.cause, fun hb hf => absurd hf (by simp [h.running hb])⟩

theorem StatusConsistent.calm {s : State} (h : StatusConsistent s) (hf : s.busy = true → s.fault = false) : Calm s :=
  ⟨h.1, h.2.1, h.2.2.1, hf⟩

theorem FaultCode.byte_ne_zero (code : FaultCode) : code.byte ≠ 0 := by cases code <;> decide

/-- A fault of a running command (R305). -/
theorem raiseFault_calm {s : State} (hb : s.busy = true) (h : Calm s) (code : FaultCode) (info : Word) :
    Calm (raiseFault code info s) := by
  have hd : s.done = false := Bool.eq_false_iff.2 fun hd => absurd (h.done hd).2 (by simp [hb])
  exact ⟨fun hdone => absurd hdone (by simp [hd]), h.np, fun _ => code.byte_ne_zero, by simp⟩

/-- Every micro-step of a running command keeps the flags and the fault record in agreement. -/
theorem calm_keeps : Keeps Calm (fun _ => True) where
  todo _ h := ⟨h.done, h.np, h.cause, h.running⟩
  loop _ _ _ _ := trivial
  apply {m s} hb _ h := by
    have hf := h.running hb
    cases m with
    | out b =>
      rcases outByte_cases b s with ⟨-, e⟩ | ⟨-, e⟩ <;> simp only [Micro.apply, e]
      · exact raiseFault_calm hb h _ _
      · exact ⟨h.done, h.np, h.cause, h.running⟩
    | outs x =>
      rcases outSymbol_cases x s with ⟨-, e⟩ | ⟨-, e⟩ <;> simp only [Micro.apply, e]
      · exact raiseFault_calm hb h _ _
      · exact ⟨h.done, h.np, h.cause, h.running⟩
    | raise code info => exact raiseFault_calm hb h code info
    | finish np => exact ⟨fun _ => ⟨hf, rfl⟩, fun _ => rfl, h.cause, by simp [Micro.apply]⟩
    | clearFault => exact ⟨fun hd => ⟨rfl, (h.done hd).2⟩, h.np, nofun, fun _ => rfl⟩
    | clearCause => exact ⟨h.done, h.np, fun hfault => absurd hfault (by simp [Micro.apply, hf]), h.running⟩
    | olen0 | solen0 | ipos | mcs | clearInfo | dropDoc | doc | field | ctm | comb | work => exact ⟨h.done, h.np, h.cause, h.running⟩

theorem pending_of_calm {s : State} (h : Calm s) : Pending Calm (fun _ => True) s := ⟨h, fun _ _ => trivial⟩

/-- A step of a running command; under `FAULT` that is the first micro-step of `SYS.CLRFAULT` (R271). -/
theorem coreTick_calm {s : State} (hb : s.busy = true) (h : StatusConsistent s) : Calm (coreTick s) := by
  cases hf : s.fault with
  | false => exact (calm_keeps.coreTick hb (pending_of_calm (h.calm fun _ => hf))).1
  | true =>
    obtain ⟨hdone, hnp, -, hclr⟩ := h
    obtain ⟨-, ht⟩ := hclr hb hf
    have e : coreTick s = { s with fault := false, todo := [.clearCause, .clearInfo, .finish false] } := by
      rw [coreTick, ht]
      rfl
    rw [e]
    exact ⟨fun hd => ⟨rfl, (hdone hd).2⟩, hnp, nofun, fun _ => rfl⟩

/-! ### SYS.CLRFAULT -/

/-- `SYS.CLRFAULT` (R271): at once for a host that waits; else its three micro-steps are still to come. -/
theorem startCommand_clrfault (s : State) :
    startCommand (commandMicros .sysClrfault) s =
      match s.grant with
      | none => complete false { commandStart s with fault := false, fcause := 0, finfo := 0 }
      | some _ => { commandStart s with todo := clearFaultMicros ++ [.finish false] } := by
  cases hg : s.grant with
  | none =>
    rw [startCommand_waits _ hg]
    change settle _ (runMicros (clearFaultMicros ++ [.finish false]) (commandStart s)) = _
    rw [runMicros_clearFault _ rfl, runMicros_finish, settle_ended (complete_busy _ _)]
  | some n =>
    unfold startCommand launch
    rw [show (commandStart s).grant = some n from hg]
    change endIfDone { commandStart s with todo := clearFaultMicros ++ [.finish false] } = _
    rw [endIfDone]
    have hstay : catchUp 32 { commandStart s with todo := clearFaultMicros ++ [.finish false] } =
        { commandStart s with todo := clearFaultMicros ++ [.finish false] } := rfl
    rw [hstay, show (commandStart s).grant = some n from hg]
    rfl

/-! ### Every step -/

/-- The start of a command (R274). -/
theorem commandStart_calm {s : State} (hf : s.fault = false) : Calm (commandStart s) :=
  ⟨nofun, nofun, fun h => absurd h (by simp [hf]), fun _ => hf⟩

theorem startCommand_calm (micros : State → List Micro) {s : State} (hf : s.fault = false) : Calm (startCommand micros s) :=
  (calm_keeps.startCommand (commandStart_calm hf) fun _ _ => trivial).1

theorem StatusConsistent.congr {s t : State} (hs : StatusConsistent s) (h : SameCore s t) : StatusConsistent t := by
  rwa [StatusConsistent, h.done, h.busy, h.fault, h.np, h.fcause, h.work, h.todo]

theorem startCommand_clrfault_consistent {s : State} (h : StatusConsistent s) :
    StatusConsistent (startCommand (commandMicros .sysClrfault) s) := by
  obtain ⟨-, -, hcause, -⟩ := h
  rw [startCommand_clrfault]
  cases s.grant with
  | none => exact ⟨fun _ => ⟨rfl, rfl⟩, nofun, nofun, nofun⟩
  | some n => exact ⟨nofun, nofun, hcause, fun _ _ => ⟨rfl, rfl⟩⟩

theorem resetCore_consistent (s : State) : StatusConsistent (resetCore s) := ⟨nofun, nofun, nofun, nofun⟩

/-- A command written by the host. -/
theorem ExecDoes.statusConsistent {i : Instr} {op : Byte} {s t : State} (hi : encode i = .cmd op) (hs : StatusConsistent s)
    (h : ExecDoes i s t) : StatusConsistent t := by
  cases h with
  | @turnedAway op => exact hs.congr (.setCmd s op)
  | @starts op _ hb hf =>
    rcases hf with hf | rfl
    · exact (startCommand_calm _ (by exact hf)).statusConsistent
    · exact startCommand_clrfault_consistent (hs.congr (.setCmd s op))
  | aborts =>
    obtain ⟨hdone, hnp, hcause, -⟩ := hs
    exact ⟨fun hd => ⟨(hdone hd).1, rfl⟩, hnp, hcause, nofun⟩
  | resets => exact resetCore_consistent s
  | item hmem => exact absurd hi (item_not_command hmem)
  | code hcode => rw [hcode] at hi; cases hi

/-- Settles O58: the flags and the fault record agree after every micro-step, and every other transition sets them together. -/
theorem stepKeepsStatusConsistent : Obligations.StepKeepsStatusConsistent := by
  intro s t hs h
  cases step_does h with
  | core hb hh =>
    have hsame := spendGrant_sameCore s
    have htick := coreTick_calm (hsame.busy.trans hb) (hs.congr hsame)
    exact (calm_keeps.endIfDone (pending_of_calm htick)).1.statusConsistent
  | command hh ha hi ht => exact ht.statusConsistent hi (hs.congr (.handOver s _ _))
  | @reserved a rest v pace hh ha =>
    have hs' := hs.congr (.handOver s rest pace)
    rcases reservedCommand_cases (v.setWidth 8) { s with host := rest, grant := pace } with ⟨-, e⟩ | ⟨-, hf, e⟩ <;> rw [e]
    · exact hs'.congr (.setCmd _ _)
    · exact (startCommand_calm _ (by exact hf)).statusConsistent
  | resetLine => exact resetCore_consistent _
  | access hsame => exact hs.congr hsame

end Sys2Proof.Machine
end

section
/-!
SUPPORT. What a document keeps (spec/10_state.md R36.1, R36.2, R36.3): the extension lists, `SEQ.SETBLK`, and the micro-steps of a frame attempt
of `SEQ.PARSE` (spec/40_block_parser.md R134 to R153) with what each stores and how far it moves the cursor.
-/

namespace Sys2Proof.Machine

/-! ### Extension lists -/

/-- An extension of kind `k` may have these bytes (R36.2, R150). -/
def ExtFits (k : ExtKind) (bs : List Byte) : Prop := (k = .gce → bs.length = 8) ∧ (k = .app → bs.length = 19)

/-- The extensions of a frame: distinct kinds, of the right lengths. -/
def ExtsKept (exts : List (ExtKind × List Byte)) : Prop := (exts.map (fun e => e.1)).Nodup ∧ ∀ e ∈ exts, ExtFits e.1 e.2

theorem ExtsKept.nil : ExtsKept [] := ⟨List.nodup_nil, by simp⟩

section
variable {exts : List (ExtKind × List Byte)} {k : ExtKind} {bs : List Byte}

theorem not_any_kind (h : exts.any (fun e => e.1 == k) = false) : k ∉ exts.map (fun e => e.1) := by
  intro hk
  obtain ⟨e, he, rfl⟩ := List.mem_map.1 hk
  exact List.any_eq_false.1 h e he (beq_self_eq_true _)

/-- An extension of a new kind at the end (R134, R149). -/
theorem ExtsKept.append (h : ExtsKept exts) (hk : exts.any (fun e => e.1 == k) = false) (hbs : ExtFits k bs) :
    ExtsKept (exts ++ [(k, bs)]) := by
  obtain ⟨hnodup, hfits⟩ := h
  refine ⟨?_, List.forall_mem_append.2 ⟨hfits, List.forall_mem_singleton.2 hbs⟩⟩
  rw [List.map_append, List.map_singleton, ← List.concat_eq_append, List.nodup_concat]
  exact ⟨not_any_kind hk, hnodup⟩

theorem ExtsKept.filter (h : ExtsKept exts) (p : ExtKind × List Byte → Bool) : ExtsKept (exts.filter p) :=
  ⟨h.1.sublist (List.filter_sublist.map _), fun e he => h.2 e (List.mem_of_mem_filter he)⟩

/-- An extension replaced in its place (R149). -/
theorem ExtsKept.replace (h : ExtsKept exts) (hbs : ExtFits k bs) :
    ExtsKept (exts.map (fun e => if e.1 = k then (k, bs) else e)) := by
  have hkinds : (exts.map (fun e => if e.1 = k then (k, bs) else e)).map (fun e => e.1) = exts.map (fun e => e.1) := by
    rw [List.map_map]
    refine List.map_congr_left fun e _ => ?_
    by_cases he : e.1 = k <;> simp [he]
  refine ⟨by rw [hkinds]; exact h.1, List.forall_mem_map.2 fun e he => ?_⟩
  split
  · exact hbs
  · exact h.2 e he

/-- Setting an extension (R149, R150). -/
theorem ExtsKept.setExt (h : ExtsKept exts) (hbs : bs ≠ [] → ExtFits k bs) : ExtsKept (setExt exts k bs) := by
  unfold Machine.setExt
  split
  · exact h.filter _
  · split
    · exact h.replace (hbs ‹_›)
    · exact h.append (Bool.eq_false_iff.2 ‹_›) (hbs ‹_›)

end

/-! ### Documents -/

/-- A frame of a document that keeps R36.2 and R36.3. -/
def FrameKept (f : Frame) : Prop := f.id.length = 10 ∧ ExtsKept f.exts

theorem docKept_iff {d : Doc} :
    DocKept d ↔ d.header.length = 6 ∧ d.lsd.length = 7 ∧ d.trailer = [0x3B] ∧ ∀ f ∈ d.frames, FrameKept f := Iff.rfl

theorem parseKept_iff {w : ParseWork} :
    ParseKept w ↔ w.header.length = 6 ∧ w.lsd.length = 7 ∧ (∀ f ∈ w.frames, FrameKept f) ∧ ExtsKept w.exts := by
  rw [ParseKept, docKept_iff, List.forall_mem_append, List.forall_mem_singleton, FrameKept]
  simp

/-- The document of a parse that ends with the trailer (R143). -/
theorem ParseKept.toDoc {w : ParseWork} (h : ParseKept w) : DocKept (w.toDoc [Config.trailerByte]) := by
  obtain ⟨hheader, hlsd, hframes, -⟩ := parseKept_iff.1 h
  exact ⟨hheader, hlsd, rfl, hframes⟩

/-- An extension joins the attempt (R134). -/
theorem ParseKept.addExt {w : ParseWork} (h : ParseKept w) {k : ExtKind} {bs : List Byte}
    (hk : w.exts.any (fun e => e.1 == k) = false) (hbs : ExtFits k bs) : ParseKept { w with exts := w.exts ++ [(k, bs)] } := by
  obtain ⟨hheader, hlsd, hframes, hexts⟩ := parseKept_iff.1 h
  exact parseKept_iff.2 ⟨hheader, hlsd, hframes, hexts.append hk hbs⟩

/-- The attempt's frame joins the document (R133). -/
theorem ParseKept.addFrame {w : ParseWork} (h : ParseKept w) {id lct idb : List Byte} (hid : id.length = 10) (start : Nat) :
    ParseKept { w with frames := w.frames ++ [⟨w.exts, id, lct, idb⟩], start := start, exts := [] } := by
  obtain ⟨hheader, hlsd, hframes, hexts⟩ := parseKept_iff.1 h
  exact parseKept_iff.2 ⟨hheader, hlsd,
    List.forall_mem_append.2 ⟨hframes, List.forall_mem_singleton.2 ⟨hid, hexts⟩⟩, ExtsKept.nil⟩

/-- A frame changed in its place. -/
theorem DocKept.setFrame {d : Doc} (h : DocKept d) (i : Nat) {upd : Frame → Frame} (hupd : ∀ f, FrameKept f → FrameKept (upd f)) :
    DocKept (d.setFrame i upd) := by
  obtain ⟨hheader, hlsd, htrailer, hframes⟩ := docKept_iff.1 h
  refine ⟨hheader, hlsd, htrailer, fun f hf => ?_⟩
  obtain ⟨j, hj⟩ := List.mem_iff_getElem?.1 hf
  change (d.frames.modify i upd)[j]? = some f at hj
  rw [List.getElem?_modify] at hj
  obtain ⟨g, hg, rfl⟩ := Option.map_eq_some_iff.1 hj
  have hgk := hframes g (List.mem_of_getElem? hg)
  change FrameKept (if i = j then upd g else g)
  split
  · exact hupd g hgk
  · exact hgk

/-- A block its kind takes, set in a document (R149, R150). -/
theorem DocKept.setBlock {d : Doc} (h : DocKept d) {sel : BlockSel} {new : List Byte} (hok : lengthOk sel new = true) (fidx : Word) :
    DocKept (d.setBlock sel fidx new) := by
  obtain ⟨hheader, hlsd, htrailer, hframes⟩ := id h
  have hfits (k : ExtKind) (hok : lengthOk (.ext k) new = true) (hne : new ≠ []) : ExtFits k new := by
    cases k <;> simp_all [lengthOk, ExtFits, Config.gceLen, Config.appLen]
  cases sel with
  | header => exact ⟨beq_iff_eq.1 hok, hlsd, htrailer, hframes⟩
  | lsd => exact ⟨hheader, beq_iff_eq.1 hok, htrailer, hframes⟩
  | gct => exact h
  | trailer => exact ⟨hheader, hlsd, beq_iff_eq.1 hok, hframes⟩
  | ext k => exact h.setFrame _ fun f hf => ⟨hf.1, hf.2.setExt (hfits k hok)⟩
  | id => exact h.setFrame _ fun f hf => ⟨beq_iff_eq.1 hok, hf.2⟩
  | lct | idb => exact h.setFrame _ fun f hf => hf

/-! ### How far the cursor goes -/

/-- A cursor that has not passed position `lim`. -/
structure Cut.Within (lim : Nat) (c : Cut) : Prop where
  rest : c.pos + c.rest.length ≤ lim
  cuts : ∀ p ∈ c.cuts, p ≤ lim

/-- Cutting ends with the cursor within `lim`, whether or not the bytes are there. -/
def Cut.EndsWithin {α : Type} (lim : Nat) (cur : α → Cut) : Except Cut α → Prop
  | .error c => c.Within lim
  | .ok a => (cur a).Within lim

theorem Cut.EndsWithin.bind {α β : Type} {lim : Nat} {cur : α → Cut} {cur' : β → Cut} {x : Except Cut α} {f : α → Except Cut β}
    (h : Cut.EndsWithin lim cur x) (k : ∀ a, x = .ok a → (cur a).Within lim → Cut.EndsWithin lim cur' (f a)) :
    Cut.EndsWithin lim cur' (x >>= f) := by
  cases x with
  | error c => exact h
  | ok a => exact k a rfl h

section
variable {lim : Nat} {c : Cut} (h : c.Within lim)
include h

theorem Cut.Within.take (n : Nat) : Cut.EndsWithin lim Prod.snd (c.take n) := by
  unfold Cut.take
  have hrest := h.rest
  split
  · refine ⟨by simp only [List.length_drop]; omega, List.forall_mem_append.2 ⟨h.cuts, List.forall_mem_singleton.2 (by omega)⟩⟩
  · exact h

theorem Cut.Within.chain : Cut.EndsWithin lim id c.chain := by
  have hrest := h.rest
  have hwalk := chainWalk_bounds 0 c.pos c.rest
  have hlast : (chainWalk 0 c.pos c.rest).1.getLastD c.pos ≤ c.pos + c.rest.length := by
    rw [List.getLastD_eq_getLast?]
    cases hl : (chainWalk 0 c.pos c.rest).1.getLast? with
    | none => simp
    | some x => exact (hwalk x (List.mem_of_getLast? hl)).2
  have hend : Cut.Within lim ⟨(chainWalk 0 c.pos c.rest).1.getLastD c.pos,
      c.rest.drop ((chainWalk 0 c.pos c.rest).1.getLastD c.pos - c.pos), c.cuts ++ (chainWalk 0 c.pos c.rest).1⟩ :=
    ⟨by simp only [List.length_drop]; omega,
      List.forall_mem_append.2 ⟨h.cuts, fun p hp => by have := (hwalk p hp).2; omega⟩⟩
  unfold Cut.chain
  simp only
  split <;> exact hend

theorem Cut.Within.cutExt (k : ExtKind) : Cut.EndsWithin lim id (cutExt k c) := by
  cases k with
  | gce | app => exact (h.take _).bind fun _ _ h => h
  | pte => exact (h.take _).bind fun _ _ h => (h.take _).bind fun _ _ h => (h.take _).bind fun _ _ h => h.chain
  | com => exact (h.take _).bind fun _ _ h => h.chain

theorem Cut.Within.cutImg : Cut.EndsWithin lim ImgCut.cur (cutImg c) := by
  refine (h.take _).bind fun id _ h => ?_
  split
  · exact h
  · refine Cut.EndsWithin.bind (cur := Prod.snd) ?_ fun lct _ h => (h.take _).bind fun m _ h => h.chain.bind fun c' _ h => h
    split
    · exact h.take _
    · exact h

end

theorem cutHere_within (s : State) : (cutHere s).Within (max s.ipos.toNat s.ilen.toNat) := by
  refine ⟨?_, by simp [cutHere]⟩
  simp only [cutHere, List.length_drop, s.input_length]
  omega

/-! ### How much is cut -/

theorem Cut.take_length {n : Nat} {c c' : Cut} {bs : List Byte} (h : c.take n = .ok (bs, c')) : bs.length = n := by
  unfold Cut.take at h
  split at h
  · cases h
    simpa using ‹_›
  · cases h

/-- An extension that is cut has the length of its kind (R135, R136). -/
theorem cutExt_fits {k : ExtKind} {o c : Cut} (h : cutExt k o = .ok c) : ExtFits k (o.since c) := by
  have hfixed (n : Nat) (h : (o.take n >>= fun r => pure r.2) = .ok c) : (o.since c).length = n := by
    obtain ⟨⟨bs, c₁⟩, h₁, h⟩ := bind_eq_ok h
    cases h
    rw [← (Cut.take_ok h₁).2, Cut.take_length h₁]
  refine ⟨?_, ?_⟩ <;> rintro rfl
  · exact hfixed 8 h
  · exact hfixed 19 h

/-- An image that is cut has a descriptor of 10 bytes (R139). -/
theorem cutImg_id_length {o : Cut} {r : ImgCut} (h : cutImg o = .ok r) : r.id.length = 10 := by
  obtain ⟨⟨id, c₁⟩, h₁, h⟩ := bind_eq_ok h
  split at h
  · cases h
  · obtain ⟨lct, -, h⟩ := bind_eq_ok h
    obtain ⟨m, -, h⟩ := bind_eq_ok h
    obtain ⟨c', -, h⟩ := bind_eq_ok h
    cases h
    exact Cut.take_length h₁

/-! ### The micro-steps of a frame attempt -/

/-- The furthest position a frame attempt of `w` can set `IPOS` to: the end of the input, if nothing was there already. -/
def attemptLimit (w : ParseWork) (s : State) : Nat := max (max s.ipos.toNat s.ilen.toNat) w.start

/-- The micro-steps of a frame attempt (R134, R141 to R145), how far they move the cursor, and that what they store is well-formed. -/
inductive AttemptMicro (w : ParseWork) (s : State) : Micro → Prop where
  | ipos {p : Word} (h : p.toNat ≤ attemptLimit w s) : AttemptMicro w s (.ipos p)
  | raise (code : FaultCode) (info : Word) : AttemptMicro w s (.raise code info)
  | doc {d : Doc} (h : ParseKept w → DocKept d) : AttemptMicro w s (.doc d)
  | finish : AttemptMicro w s (.finish false)
  | work {v : ParseWork} (hstart : v.start ≤ attemptLimit w s) (h : ParseKept w → ParseKept v) : AttemptMicro w s (.work (.parse v))

theorem Word.toNat_ofNat_le (n : Nat) : (Word.ofNat n).toNat ≤ n := by
  rw [BitVec.toNat_ofNat]
  exact Nat.mod_le _ _

section
variable (w : ParseWork) (s : State)

theorem AttemptMicro.ipos_ofNat {p : Nat} (h : p ≤ attemptLimit w s) : AttemptMicro w s (.ipos (Word.ofNat p)) :=
  .ipos ((Word.toNat_ofNat_le p).trans h)

theorem cursorMoves_micro {c : Cut} (h : c.Within (max s.ipos.toNat s.ilen.toNat)) : ∀ m ∈ cursorMoves c, AttemptMicro w s m :=
  List.forall_mem_map.2 fun p hp => .ipos_ofNat w s (by have := h.cuts p hp; unfold attemptLimit; omega)

theorem endOfFrames_micro : ∀ m ∈ endOfFrames w s, AttemptMicro w s m := by
  refine List.forall_mem_cons.2 ⟨.ipos_ofNat w s (by unfold attemptLimit; omega), ?_⟩
  split
  · exact List.forall_mem_singleton.2 (.raise _ _)
  · split
    · exact List.forall_mem_singleton.2 (.raise _ _)
    · rename_i htrailer
      refine List.forall_mem_cons.2 ⟨.ipos_ofNat w s (by unfold attemptLimit; omega), ?_⟩
      split
      · exact List.forall_mem_singleton.2 (.raise _ _)
      · rw [not_not.1 htrailer]
        exact List.forall_mem_cons.2 ⟨.doc ParseKept.toDoc, List.forall_mem_singleton.2 .finish⟩

theorem extMicros_micro (k : ExtKind) : ∀ m ∈ extMicros k w s, AttemptMicro w s m := by
  have hend := (cutHere_within s).cutExt k
  unfold extMicros
  split
  · exact endOfFrames_micro w s
  · rename_i hk
    split
    · rename_i c hc
      rw [hc] at hend
      exact List.forall_mem_append.2 ⟨cursorMoves_micro w s hend, endOfFrames_micro w s⟩
    · rename_i c hc
      rw [hc] at hend
      refine List.forall_mem_append.2 ⟨cursorMoves_micro w s hend, List.forall_mem_singleton.2 (.work ?_ fun h => ?_)⟩
      · exact le_max_right _ _
      · exact h.addExt (Bool.eq_false_iff.2 hk) (cutExt_fits hc)

theorem imgMicros_micro : ∀ m ∈ imgMicros w s, AttemptMicro w s m := by
  have hend := (cutHere_within s).cutImg
  unfold imgMicros
  split
  · rename_i c hc
    rw [hc] at hend
    exact List.forall_mem_append.2 ⟨cursorMoves_micro w s hend, endOfFrames_micro w s⟩
  · rename_i r hr
    rw [hr] at hend
    refine List.forall_mem_append.2 ⟨cursorMoves_micro w s hend, ?_⟩
    split
    · exact List.forall_mem_singleton.2 (.raise _ _)
    · refine List.forall_mem_singleton.2 (.work ?_ fun h => h.addFrame (cutImg_id_length hr) _)
      have := hend.rest
      simp only [attemptLimit]
      omega

theorem noSeparatorMicros_micro : ∀ m ∈ noSeparatorMicros w s, AttemptMicro w s m := by
  have hend := (cutHere_within s).take Config.idLen
  unfold noSeparatorMicros
  split
  · exact endOfFrames_micro w s
  · rename_i r hr
    rw [hr] at hend
    exact List.forall_mem_append.2 ⟨cursorMoves_micro w s hend, endOfFrames_micro w s⟩

theorem blkMicros_micro (i : Instr) : ∀ m ∈ blkMicros i w s, AttemptMicro w s m := by
  unfold blkMicros
  split
  · exact extMicros_micro w s .gce
  · exact extMicros_micro w s .app
  · exact extMicros_micro w s .pte
  · exact extMicros_micro w s .com
  · exact imgMicros_micro w s
  all_goals exact noSeparatorMicros_micro w s

theorem attemptMicros_micro : ∀ m ∈ attemptMicros w s, AttemptMicro w s m := by
  unfold attemptMicros
  split
  · exact blkMicros_micro w s _
  · exact endOfFrames_micro w s
  · exact endOfFrames_micro w s
  all_goals exact noSeparatorMicros_micro w s

end

end Sys2Proof.Machine
end

section
/-!
SUPPORT. The ranges of the LZW working state (spec/10_state.md R37, R38, R40, R41): every step of the encoder and of the decoder keeps them.
-/

namespace Sys2Proof.Machine

/-! ### The encoder -/

theorem EncWork.putByte_sb_le {w : EncWork} (b : Byte) (h : w.sb.length ≤ 254) : (w.putByte b).1.sb.length ≤ 254 := by
  obtain ⟨more, sb, e, -, hsb, -⟩ := w.putByte_framed b h
  rw [e]
  exact hsb

theorem EncWork.drain_sb_le (k : Nat) {w : EncWork} (h : w.sb.length ≤ 254) : (EncWork.drain k w).1.sb.length ≤ 254 := by
  induction k generalizing w with
  | zero => exact h
  | succ k ih => exact ih (EncWork.putByte_sb_le (w := { w with acc := w.acc >>> 8, nb := w.nb - 8 }) _ h)

theorem EncWork.emit_sb_le {w : EncWork} (c : Nat) (h : w.sb.length ≤ 254) : (w.emit c).1.sb.length ≤ 254 :=
  EncWork.drain_sb_le _ h

/-- The start of a segment: an empty dictionary, whatever bits and bytes are held (R212, R217). -/
theorem encInRange_restart {w : EncWork} (hmin : 2 ≤ w.mcs) (hmax : w.mcs ≤ 11) (hnb : w.nb ≤ 7) (hsb : w.sb.length ≤ 254) :
    EncInRange { w with dict := initDict w.mcs, width := w.mcs + 1 } := by
  obtain ⟨hsize, hpow⟩ := initDict_size hmin hmax
  have hlen := initDict_length w.mcs
  exact ⟨hmin, hmax, le_rfl, Nat.succ_le_succ hmax, hlen.ge, hsize, by simp only [hlen]; omega, hnb, hsb⟩

/-- The encoder after `emit_code(c)` (R214). -/
theorem EncInRange.emit {w : EncWork} (h : EncInRange w) (c : Nat) : EncInRange (w.emit c).1 := by
  obtain ⟨hmin, hmax, hwmin, hwmax, hdmin, hdmax, hd, -, hsb⟩ := h
  simp only [EncInRange, EncWork.emit_mcs, EncWork.emit_width, EncWork.emit_dict, EncWork.emit_nb]
  exact ⟨hmin, hmax, hwmin, hwmax, hdmin, hdmax, hd, by omega, EncWork.emit_sb_le c hsb⟩

/-- The encoder after the Clear code that starts the stream (R213). -/
theorem encStart_inRange {mcs : Nat} (hmin : 2 ≤ mcs) (hmax : mcs ≤ 11) : EncInRange (encStart mcs).1 :=
  EncInRange.emit (encInRange_restart (w := EncWork.init mcs) hmin hmax (Nat.zero_le _) (Nat.zero_le _)) _

section
variable (w : EncWork) (x : Symbol)

@[simp] theorem EncWork.inserted_sb : (w.inserted x).sb = (w.emit (w.dict.idxOf w.pre)).1.sb := by
  simp [EncWork.inserted, EncWork.grow_eq]

@[simp] theorem EncWork.inserted_nb : (w.inserted x).nb = (w.nb + w.width) % 8 := by
  simp [EncWork.inserted, EncWork.grow_eq]

end

/-- A new entry that does not fill the dictionary (R215, R216). -/
theorem EncInRange.inserted {w : EncWork} (h : EncInRange w) (x : Symbol) (hroom : (w.inserted x).dict.length ≠ 4096) :
    EncInRange (w.inserted x) := by
  obtain ⟨hmin, hmax, hwmin, hwmax, hdmin, hdmax, hd, -, hsb⟩ := h
  simp only [EncInRange, EncWork.inserted_mcs, EncWork.inserted_width, EncWork.inserted_dict, EncWork.inserted_nb,
    EncWork.inserted_sb, List.length_append, List.length_singleton] at hroom ⊢
  refine ⟨hmin, hmax, ?_, ?_, by omega, by omega, ?_, by omega, EncWork.emit_sb_le _ hsb⟩
  · split <;> omega
  · split <;> omega
  · split
    · have := Nat.two_pow_pos w.width
      rw [pow_succ]
      omega
    · rename_i hgrow
      by_cases h12 : w.width < 12
      · omega
      · have : 2 ^ 12 ≤ 2 ^ w.width := Nat.pow_le_pow_right (by decide) (Nat.not_lt.1 h12)
        omega

/-- The symbol step (R215, R216, R217). -/
theorem EncInRange.symbol {w : EncWork} (h : EncInRange w) (x : Symbol) : EncInRange (w.symbol x).1 := by
  by_cases hmem : w.pre ++ [x] ∈ w.dict
  · rw [EncWork.symbol_known hmem]
    exact h
  · rw [EncWork.symbol_new hmem]
    by_cases hfull : (w.inserted x).dict.length = 4096
    · obtain ⟨hmin, hmax, -, -, -, -, -, -, hsb⟩ := h
      have hstart := encInRange_restart (w := ((w.inserted x).emit (2 ^ w.mcs)).1) (by simpa using hmin) (by simpa using hmax)
        (by rw [EncWork.emit_nb]; omega) (EncWork.emit_sb_le _ (by rw [EncWork.inserted_sb]; exact EncWork.emit_sb_le _ hsb))
      simpa [EncWork.resetIfFull_full hfull] using hstart
    · rw [EncWork.resetIfFull_room hfull]
      exact h.inserted x hfull

/-! ### The decoder -/

/-- The state a Clear code leaves (R242, R247), whatever bits and bytes are still to come. -/
theorem DecInRange.cleared {w : DecWork} (h : DecInRange w) : DecInRange w.cleared := by
  obtain ⟨hmin, hmax, -, -, -, -, -, hnb, hacc, hrem, -⟩ := h
  obtain ⟨hsize, hpow⟩ := initDict_size hmin hmax
  have hlen := initDict_length w.mcs
  exact ⟨hmin, hmax, le_rfl, Nat.succ_le_succ hmax, hlen.ge, hsize.le, fun _ => by simp only [DecWork.cleared, hlen]; omega, hnb, hacc,
    hrem, fun _ => rfl⟩

theorem decInit_inRange {mcs : Nat} (hmin : 2 ≤ mcs) (hmax : mcs ≤ 11) : DecInRange (DecWork.init mcs) := by
  obtain ⟨hsize, hpow⟩ := initDict_size hmin hmax
  have hlen := initDict_length mcs
  exact ⟨hmin, hmax, le_rfl, Nat.succ_le_succ hmax, hlen.ge, hsize.le, fun _ => by simp only [DecWork.init, hlen]; omega,
    Nat.zero_le _, Nat.one_pos, Nat.zero_le _, fun _ => rfl⟩

/-- A code leaves the accumulator (R244). -/
theorem DecInRange.shift {w : DecWork} (h : DecInRange w) (hnb : w.width ≤ w.nb) : DecInRange w.shift := by
  obtain ⟨hmin, hmax, hwmin, hwmax, hdmin, hdmax, hd, hnbmax, hacc, hrem, hprev⟩ := h
  exact ⟨hmin, hmax, hwmin, hwmax, hdmin, hdmax, hd, (Nat.sub_le _ _).trans hnbmax, shiftRight_lt_two_pow hacc hnb, hrem, hprev⟩

/-- The literal that starts a segment (R246). -/
theorem DecInRange.literal {w : DecWork} (h : DecInRange w) (cur : List Symbol) : DecInRange { w with prev := some cur } := by
  obtain ⟨hmin, hmax, hwmin, hwmax, hdmin, hdmax, hd, hnb, hacc, hrem, -⟩ := h
  exact ⟨hmin, hmax, hwmin, hwmax, hdmin, hdmax, hd, hnb, hacc, hrem, nofun⟩

/-- A new entry, and the growth of the width (R248, R249, R251). -/
theorem DecInRange.insert {w : DecWork} (h : DecInRange w) (hroom : w.dict.length ≠ 4096) (entry cur : List Symbol) :
    DecInRange (DecWork.grow { w with dict := w.dict ++ [entry], prev := some cur }) := by
  obtain ⟨hmin, hmax, hwmin, hwmax, hdmin, hdmax, hd, hnb, hacc, hrem, -⟩ := h
  simp only [DecWork.grow_eq, DecInRange, grownWidth, List.length_append, List.length_singleton]
  refine ⟨hmin, hmax, ?_, ?_, by omega, by omega, ?_, hnb, hacc, hrem, nofun⟩
  · split <;> omega
  · split <;> omega
  · split
    · intro _
      rw [pow_succ]
      omega
    · omega

/-- A length byte (R243). -/
theorem DecInRange.lengthByte {w : DecWork} (h : DecInRange w) (b : Byte) : DecInRange { w with rem := b.toNat } := by
  obtain ⟨hmin, hmax, hwmin, hwmax, hdmin, hdmax, hd, hnb, hacc, -, hprev⟩ := h
  exact ⟨hmin, hmax, hwmin, hwmax, hdmin, hdmax, hd, hnb, hacc, Nat.le_of_lt_succ b.isLt, hprev⟩

/-- A payload byte, taken while a code is not buffered (R244). -/
theorem DecInRange.payloadByte {w : DecWork} (h : DecInRange w) (hshort : w.nb < w.width) (b : Byte) :
    DecInRange { w with acc := w.acc ||| (b.toNat <<< w.nb), nb := w.nb + 8, rem := w.rem - 1 } := by
  obtain ⟨hmin, hmax, hwmin, hwmax, hdmin, hdmax, hd, -, hacc, hrem, hprev⟩ := h
  exact ⟨hmin, hmax, hwmin, hwmax, hdmin, hdmax, hd, by simp only; omega, or_shiftLeft_lt_two_pow hacc b.isLt,
    (Nat.sub_le _ _).trans hrem, hprev⟩

/-! ### The micro-steps of the two loops -/

/-- The micro-steps of a step of the encoder's loop (R223). -/
inductive EncMicro (w : EncWork) : Micro → Prop where
  | out (b : Byte) : EncMicro w (.out b)
  | finish : EncMicro w (.finish false)
  | work {v : EncWork} (h : EncInRange w → EncInRange v) : EncMicro w (.work (.enc v))

theorem encMicros_micro (w : EncWork) (s : State) : ∀ m ∈ encMicros w s, EncMicro w m := by
  have hout (bs : List Byte) : ∀ m ∈ outAll bs, EncMicro w m := List.forall_mem_map.2 fun b _ => .out b
  unfold encMicros
  split
  · exact List.forall_mem_append.2 ⟨hout _, List.forall_mem_singleton.2 (.work fun h => h.symbol _)⟩
  · exact List.forall_mem_append.2 ⟨hout _, List.forall_mem_singleton.2 .finish⟩

/-- The micro-steps of a code of the decoder's loop (R254). -/
inductive CodeMicro (w : DecWork) : Micro → Prop where
  | outs (x : Symbol) : CodeMicro w (.outs x)
  | finish : CodeMicro w (.finish false)
  | raise (code : FaultCode) (info : Word) : CodeMicro w (.raise code info)
  | work {v : DecWork} (h : DecInRange w → DecInRange v) : CodeMicro w (.work (.dec v))

theorem codeMicros_micro (w : DecWork) (c : Nat) : ∀ m ∈ codeMicros w c, CodeMicro w m := by
  unfold codeMicros
  split
  · exact List.forall_mem_singleton.2 .finish
  · split
    · exact List.forall_mem_singleton.2 (.work fun h => h.cleared)
    · split
      · split
        · exact List.forall_mem_singleton.2 (.raise _ _)
        · exact List.forall_mem_cons.2 ⟨.outs _, List.forall_mem_singleton.2 (.work fun h => h.literal _)⟩
      · split
        · exact List.forall_mem_singleton.2 (.raise _ _)
        · rename_i hroom
          split
          · exact List.forall_mem_singleton.2 (.raise _ _)
          · exact List.forall_mem_append.2 ⟨List.forall_mem_map.2 fun x _ => .outs x,
              List.forall_mem_singleton.2 (.work fun h => h.insert hroom _ _)⟩

/-- The micro-steps of a step of the decoder's loop: the cursor moves within the input, or those of a code (R243, R244, R254). -/
inductive DecMicro (w : DecWork) (s : State) : Micro → Prop where
  | ipos {p : Word} (h : p.toNat ≤ s.ilen.toNat) : DecMicro w s (.ipos p)
  | code {m : Micro} (h : CodeMicro w m) : DecMicro w s m

theorem pullMicros_micro {w : DecWork} (hshort : w.nb < w.width) (s : State) : ∀ m ∈ pullMicros w s, DecMicro w s m := by
  unfold pullMicros
  split
  · exact List.forall_mem_singleton.2 (.code (.raise _ _))
  · split
    · exact List.forall_mem_singleton.2 (.code (.raise _ _))
    · rename_i hleft
      have hnext : (s.ipos + 1).toNat ≤ s.ilen.toNat := by
        have := BitVec.lt_def.1 (BitVec.not_le.1 hleft)
        rw [BitVec.toNat_add]
        exact (Nat.mod_le _ _).trans this
      split
      · split
        · exact List.forall_mem_cons.2 ⟨.ipos hnext, List.forall_mem_cons.2 ⟨.code (.work fun h => h),
            List.forall_mem_singleton.2 (.code (.raise _ _))⟩⟩
        · exact List.forall_mem_cons.2 ⟨.ipos hnext, List.forall_mem_singleton.2 (.code (.work fun h => h.lengthByte _))⟩
      · exact List.forall_mem_cons.2 ⟨.ipos hnext, List.forall_mem_singleton.2 (.code (.work fun h => h.payloadByte hshort _))⟩

theorem CodeMicro.of_shift {w : DecWork} (hnb : w.width ≤ w.nb) {m : Micro} (h : CodeMicro w.shift m) : CodeMicro w m := by
  cases h with
  | outs x => exact .outs x
  | finish => exact .finish
  | raise code info => exact .raise code info
  | work h => exact .work fun hw => h (hw.shift hnb)

theorem decMicros_micro (w : DecWork) (s : State) : ∀ m ∈ decMicros w s, DecMicro w s m := by
  unfold decMicros
  split
  · exact pullMicros_micro ‹_› s
  · exact fun m hm => .code ((codeMicros_micro _ _ m hm).of_shift (Nat.not_lt.1 ‹_›))

end Sys2Proof.Machine
end

section
/-!
SUPPORT. What each command writes (spec/30_encoding.md R92): the parts of the state its micro-steps name, and that what they store is in range.
-/

namespace Sys2Proof.Machine

/-! ### The parts of the state -/

/-- The parts of the state that commands write by name (R92): the outputs with their lengths, the cursor, `MCS`, the document, a group of field
registers, the field memories. -/
inductive Part where
  | obuf | sout | cursor | mcs | doc | field (g : Group) | ctm | comb
deriving DecidableEq

/-- The parts a micro-step writes; the flags, the fault record and the working state are none. -/
def Micro.parts : Micro → List Part
  | .out _ | .olen0 => [.obuf]
  | .outs _ | .solen0 => [.sout]
  | .ipos _ => [.cursor]
  | .mcs _ => [.mcs]
  | .dropDoc => [.cursor, .doc]
  | .doc _ => [.doc]
  | .field r _ => [.field r.group]
  | .ctm _ _ => [.ctm]
  | .comb _ _ => [.comb]
  | .clearFault | .clearCause | .clearInfo | .work _ | .raise _ _ | .finish _ => []

/-- The parts the loop of a running command writes (R133, R223, R254). -/
def Work.parts : Work → List Part
  | .idle => []
  | .parse _ => [.cursor, .doc]
  | .enc _ => [.obuf]
  | .dec _ => [.cursor, .sout]

/-- The parts an instruction writes (R92); `SYS.RESET` writes all of the state and is left out here. -/
def instrParts : Instr → List Part
  | .sysNop | .sysClrfault | .sysAbort | .sysReset => []
  | .seqParse | .seqSetblk | .extGce | .extApp | .extPte | .extCom | .img | .trailer => [.cursor, .doc]
  | .seqSerialize | .seqGetblk | .fldPackLsd | .fldPackGce | .fldPackId | .fldPackApp | .fldPackCom | .fldPackCt | .fldPackU16 => [.obuf]
  | .fldUnpackLsd => [.cursor, .field .lsd]
  | .fldUnpackGce => [.cursor, .field .gce]
  | .fldUnpackId => [.cursor, .field .id]
  | .fldUnpackApp => [.cursor, .field .app]
  | .fldUnpackCom => [.cursor, .field .com, .comb]
  | .fldUnpackCt => [.cursor, .field .ct, .ctm]
  | .fldUnpackU16 => [.cursor, .field .u16]
  | .lzwEnc => [.obuf, .mcs]
  | .lzwDec => [.cursor, .sout, .mcs]
  | .lzwCode _ _ => [.sout]

/-! ### The micro-steps of a command -/

/-- Where the current frame attempt of a working state began, 0 outside `SEQ.PARSE` (R134). -/
def Work.start : Work → Nat
  | .parse w => w.start
  | .idle | .enc _ | .dec _ => 0

/-- A working state that a command may start its loop with: its parts are among the command's, and it is in range. -/
structure StartsLoop (i : Instr) (s : State) (w : Work) : Prop where
  parts : ∀ p ∈ w.parts, p ∈ instrParts i
  kept : WorkKept w
  inRange : LzwWorkInRange w
  start : w.start ≤ s.ilen.toNat

/-- A micro-step that command `i` may have before its loop: it writes parts of the command's, `IPOS` stays in the input, a document stored is
as well-formed as the old one, and the loop starts well. -/
structure CommandMicro (i : Instr) (s : State) (m : Micro) : Prop where
  parts : ∀ p ∈ m.parts, p ∈ instrParts i
  ipos {p : Word} : m = .ipos p → p.toNat ≤ s.ilen.toNat
  doc {d : Doc} : m = .doc d → (∀ old, s.doc = some old → DocKept old) → DocKept d
  work {w : Work} : m = .work w → StartsLoop i s w

section
variable {i : Instr} {s : State}

/-- Micro-steps that move no cursor, store no document and start no loop. -/
theorem CommandMicro.plain {m : Micro} (h : ∀ p ∈ m.parts, p ∈ instrParts i) (hipos : ∀ p, m ≠ .ipos p) (hdoc : ∀ d, m ≠ .doc d)
    (hwork : ∀ w, m ≠ .work w) : CommandMicro i s m :=
  ⟨h, fun e => absurd e (hipos _), fun e => absurd e (hdoc _), fun e => absurd e (hwork _)⟩

/-- Such a micro-step that writes one part. -/
theorem CommandMicro.single {m : Micro} {p : Part} (hm : m.parts = [p]) (hp : p ∈ instrParts i) (hipos : ∀ p, m ≠ .ipos p)
    (hdoc : ∀ d, m ≠ .doc d) (hwork : ∀ w, m ≠ .work w) : CommandMicro i s m :=
  .plain (by rw [hm]; exact List.forall_mem_singleton.2 hp) hipos hdoc hwork

theorem CommandMicro.raise (code : FaultCode) (info : Word) : CommandMicro i s (.raise code info) :=
  .plain (List.forall_mem_nil _) nofun nofun nofun

theorem CommandMicro.finish (np : Bool) : CommandMicro i s (.finish np) := .plain (List.forall_mem_nil _) nofun nofun nofun

theorem CommandMicro.cursor {p : Word} (hi : Part.cursor ∈ instrParts i) (hp : p.toNat ≤ s.ilen.toNat) : CommandMicro i s (.ipos p) :=
  ⟨List.forall_mem_singleton.2 hi, fun e => by cases e; exact hp, nofun, nofun⟩

theorem CommandMicro.loop {w : Work} (h : StartsLoop i s w) : CommandMicro i s (.work w) :=
  ⟨List.forall_mem_nil _, nofun, nofun, fun e => by cases e; exact h⟩

theorem CommandMicro.only_raise (code : FaultCode) (info : Word) : ∀ m ∈ [Micro.raise code info], CommandMicro i s m :=
  List.forall_mem_singleton.2 (.raise _ _)

/-! ### Commands that output bytes -/

theorem outAll_micro (hi : Part.obuf ∈ instrParts i) (bs : List Byte) : ∀ m ∈ outAll bs, CommandMicro i s m :=
  List.forall_mem_map.2 fun _ _ => .single rfl hi nofun nofun nofun

theorem olen0_micro (hi : Part.obuf ∈ instrParts i) : CommandMicro i s .olen0 := .single rfl hi nofun nofun nofun

theorem packMicros_micro (hi : Part.obuf ∈ instrParts i) (bs : List Byte) : ∀ m ∈ packMicros bs, CommandMicro i s m :=
  List.forall_mem_cons.2 ⟨olen0_micro hi, List.forall_mem_append.2 ⟨outAll_micro hi bs, List.forall_mem_singleton.2 (.finish _)⟩⟩

theorem packCtMicros_micro : ∀ m ∈ packCtMicros s, CommandMicro .fldPackCt s m := by
  unfold packCtMicros
  split
  · exact CommandMicro.only_raise _ _
  · exact packMicros_micro (by decide) _

theorem serializeMicros_micro : ∀ m ∈ serializeMicros s, CommandMicro .seqSerialize s m := by
  unfold serializeMicros
  split
  · exact CommandMicro.only_raise _ _
  · exact packMicros_micro (by decide) _

theorem getblkMicros_micro : ∀ m ∈ getblkMicros s, CommandMicro .seqGetblk s m := by
  unfold getblkMicros
  split
  · exact CommandMicro.only_raise _ _
  · split
    · exact CommandMicro.only_raise _ _
    · refine List.forall_mem_cons.2 ⟨olen0_micro (by decide), ?_⟩
      split
      · exact CommandMicro.only_raise _ _
      · exact List.forall_mem_singleton.2 (.finish _)
      · exact List.forall_mem_append.2 ⟨outAll_micro (by decide) _, List.forall_mem_singleton.2 (.finish _)⟩

/-! ### Commands that unpack a record -/

theorem unpackMicros_micro (hi : Part.cursor ∈ instrParts i) {lengthOk : List Byte → Bool} {writes : List Byte → List Micro}
    (hw : ∀ m ∈ writes s.input, CommandMicro i s m) : ∀ m ∈ unpackMicros lengthOk writes s, CommandMicro i s m := by
  unfold unpackMicros
  split
  · exact CommandMicro.only_raise _ _
  · refine List.forall_mem_cons.2 ⟨.cursor hi (Nat.zero_le _), ?_⟩
    split
    · exact List.forall_mem_append.2 ⟨hw, List.forall_mem_cons.2 ⟨.cursor hi le_rfl, List.forall_mem_singleton.2 (.finish _)⟩⟩
    · exact CommandMicro.only_raise _ _

/-- A write of a register of a group. -/
theorem CommandMicro.field {g : Group} {m : Micro} (hi : Part.field g ∈ instrParts i) (hm : m.parts = [.field g]) :
    CommandMicro i s m := by
  refine .single hm hi ?_ ?_ ?_ <;> rintro _ rfl <;> simp [Micro.parts] at hm

/-- An unpack of a record of fixed length writes registers of the record's group (R170). -/
theorem unpackFixed_micro {g : Group} (hi : Part.cursor ∈ instrParts i) (hg : Part.field g ∈ instrParts i) {len : Nat}
    {writes : List Byte → List Micro} (hw : ∀ raw, (writes raw).all (fun m => m.parts == [.field g]) = true) :
    ∀ m ∈ unpackFixed len writes s, CommandMicro i s m :=
  unpackMicros_micro hi fun m hm => .field hg (beq_iff_eq.1 (List.all_eq_true.1 (hw s.input) m hm))

theorem comWrites_micro (raw : List Byte) : ∀ m ∈ comWrites raw, CommandMicro .fldUnpackCom s m := by
  have hfield (r : FieldReg) (b : Byte) (hr : r.group = .com) : CommandMicro .fldUnpackCom s (setByte r b) :=
    .field (g := .com) (by decide) (by rw [← hr]; rfl)
  refine List.forall_mem_append.2 ⟨List.forall_mem_append.2 ⟨?_, ?_⟩, List.forall_mem_singleton.2 (hfield _ _ rfl)⟩
  · exact List.forall_mem_cons.2 ⟨hfield _ _ rfl,
      List.forall_mem_cons.2 ⟨hfield _ _ rfl, List.forall_mem_singleton.2 (hfield _ _ rfl)⟩⟩
  · exact List.forall_mem_map.2 fun _ _ => .single rfl (by decide) nofun nofun nofun

theorem ctWrites_micro (raw : List Byte) : ∀ m ∈ ctWrites raw, CommandMicro .fldUnpackCt s m := by
  refine List.forall_mem_cons.2 ⟨.field (g := .ct) (by decide) rfl, ?_⟩
  exact List.forall_mem_map.2 fun _ _ => .single rfl (by decide) nofun nofun nofun

/-! ### The other SEQ commands -/

theorem setblkMicros_micro : ∀ m ∈ setblkMicros s, CommandMicro .seqSetblk s m := by
  unfold setblkMicros
  split
  · exact CommandMicro.only_raise _ _
  · rename_i d hd
    split
    · exact CommandMicro.only_raise _ _
    · split
      · exact CommandMicro.only_raise _ _
      · split
        · exact CommandMicro.only_raise _ _
        · split
          · exact CommandMicro.only_raise _ _
          · rename_i hok
            split
            · exact CommandMicro.only_raise _ _
            · refine List.forall_mem_cons.2 ⟨⟨List.forall_mem_singleton.2 (by decide), nofun, fun e hold => ?_, nofun⟩,
                List.forall_mem_cons.2 ⟨.cursor (by decide) le_rfl, List.forall_mem_singleton.2 (.finish _)⟩⟩
              cases e
              exact (hold d hd).setBlock (Bool.eq_true_of_not_eq_false hok) _

/-- The blocks before the frames, when they are all there (R130, R131, R132). -/
theorem ParseWork.beforeFrames_starts (h : 13 + tableLen (rawAt s.input 10) ≤ s.input.length) :
    StartsLoop .seqParse s (.parse (ParseWork.beforeFrames s.input)) := by
  refine ⟨by simp [Work.parts, instrParts], ?_, ⟨nofun, nofun⟩, ?_⟩
  · rintro p ⟨⟩
    refine parseKept_iff.2 ⟨?_, ?_, by simp [ParseWork.beforeFrames], ExtsKept.nil⟩ <;>
      simp only [ParseWork.beforeFrames, List.length_take, List.length_drop] <;> omega
  · rw [← s.input_length]
    exact h

theorem parsePrelude_micro : ∀ m ∈ parsePrelude s, CommandMicro .seqParse s m := by
  have hlen := s.input_length
  refine List.forall_mem_cons.2 ⟨.plain (by decide) nofun nofun nofun, ?_⟩
  split
  · exact CommandMicro.only_raise _ _
  · split
    · exact CommandMicro.only_raise _ _
    · refine List.forall_mem_cons.2 ⟨.cursor (by decide) (by show 6 ≤ _; omega), ?_⟩
      split
      · exact CommandMicro.only_raise _ _
      · refine List.forall_mem_cons.2 ⟨.cursor (by decide) (by show 13 ≤ _; omega), ?_⟩
        split
        · exact CommandMicro.only_raise _ _
        · rename_i hfits
          exact List.forall_mem_cons.2 ⟨.cursor (by decide) ((Word.toNat_ofNat_le _).trans (by omega)),
            List.forall_mem_singleton.2 (.loop (ParseWork.beforeFrames_starts (Nat.not_lt.1 hfits)))⟩

/-! ### The LZW commands -/

theorem encPrelude_micro : ∀ m ∈ encPrelude s, CommandMicro .lzwEnc s m := by
  have hmcs (m : BitVec 4) : CommandMicro .lzwEnc s (.mcs m) := .single rfl (by decide) nofun nofun nofun
  rcases encPrelude_cases s with hpass | ⟨code, info, e⟩ | ⟨m, code, info, e⟩
  · obtain ⟨hmin, hmax⟩ := hpass.mcs_range
    rw [hpass.encPrelude]
    refine List.forall_mem_cons.2 ⟨hmcs _, List.forall_mem_cons.2 ⟨olen0_micro (by decide),
      List.forall_mem_append.2 ⟨outAll_micro (by decide) _,
        List.forall_mem_singleton.2 (.loop ⟨by simp [Work.parts, instrParts], nofun, ⟨?_, nofun⟩, Nat.zero_le _⟩)⟩⟩⟩
    rintro w ⟨⟩
    exact encStart_inRange hmin hmax
  · rw [e]
    exact CommandMicro.only_raise _ _
  · rw [e]
    exact List.forall_mem_cons.2 ⟨hmcs _, CommandMicro.only_raise _ _⟩

theorem decPrelude_micro : ∀ m ∈ decPrelude s, CommandMicro .lzwDec s m := by
  unfold decPrelude
  split
  · exact CommandMicro.only_raise _ _
  · refine List.forall_mem_cons.2 ⟨.cursor (by decide) (Nat.zero_le _),
      List.forall_mem_cons.2 ⟨.single rfl (by decide) nofun nofun nofun, ?_⟩⟩
    split
    · exact CommandMicro.only_raise _ _
    · rename_i hlen
      have hpos : 0 < s.ilen.toNat := Nat.pos_of_ne_zero fun h => hlen (BitVec.eq_of_toNat_eq h)
      refine List.forall_mem_cons.2 ⟨.cursor (by decide) hpos, ?_⟩
      split
      · exact CommandMicro.only_raise _ _
      · rename_i hmcs
        obtain ⟨hmin, hmax⟩ := not_or.1 hmcs
        refine List.forall_mem_cons.2 ⟨.single rfl (by decide) nofun nofun nofun,
          List.forall_mem_singleton.2 (.loop ⟨by simp [Work.parts, instrParts], nofun, ⟨nofun, ?_⟩, Nat.zero_le _⟩)⟩
        rintro w ⟨⟩
        exact decInit_inRange (Nat.not_lt.1 hmin) (Nat.not_lt.1 hmax)

end

/-- The micro-steps of every command. -/
theorem commandMicros_micro (i : Instr) (s : State) : ∀ m ∈ commandMicros i s, CommandMicro i s m := by
  have hplain (m : Micro) (hm : m = .clearFault ∨ m = .clearCause ∨ m = .clearInfo) : CommandMicro .sysClrfault s m := by
    rcases hm with rfl | rfl | rfl <;> exact .plain (List.forall_mem_nil _) nofun nofun nofun
  cases i with
  | sysNop | sysAbort => exact List.forall_mem_singleton.2 (.finish _)
  | sysClrfault =>
    exact List.forall_mem_cons.2 ⟨hplain _ (by simp), List.forall_mem_cons.2 ⟨hplain _ (by simp),
      List.forall_mem_cons.2 ⟨hplain _ (by simp), List.forall_mem_singleton.2 (.finish _)⟩⟩⟩
  | seqParse => exact parsePrelude_micro
  | seqSerialize => exact serializeMicros_micro
  | seqGetblk => exact getblkMicros_micro
  | seqSetblk => exact setblkMicros_micro
  | fldUnpackLsd => exact unpackFixed_micro (g := .lsd) (by decide) (by decide) fun _ => rfl
  | fldUnpackGce => exact unpackFixed_micro (g := .gce) (by decide) (by decide) fun _ => rfl
  | fldUnpackId => exact unpackFixed_micro (g := .id) (by decide) (by decide) fun _ => rfl
  | fldUnpackApp => exact unpackFixed_micro (g := .app) (by decide) (by decide) fun _ => rfl
  | fldUnpackU16 => exact unpackFixed_micro (g := .u16) (by decide) (by decide) fun _ => rfl
  | fldUnpackCom => exact unpackMicros_micro (by decide) (comWrites_micro _)
  | fldUnpackCt => exact unpackMicros_micro (by decide) (ctWrites_micro _)
  | fldPackLsd | fldPackGce | fldPackId | fldPackApp | fldPackCom | fldPackU16 => exact packMicros_micro (by decide) _
  | fldPackCt => exact packCtMicros_micro
  | lzwEnc => exact encPrelude_micro
  | lzwDec => exact decPrelude_micro
  | sysReset | extGce | extApp | extPte | extCom | img | trailer | lzwCode => exact List.forall_mem_nil _

end Sys2Proof.Machine
end

section
/-!
SUPPORT. The document and the LZW working state of every step (spec/10_state.md R36.1 to R36.3, R37, R38, R40, R41): what the loop of a running
command stores, and an induction over steps for what commands and loops store.
-/

namespace Sys2Proof.Machine

/-! ### The micro-steps of a running command's loop -/

/-- The furthest position the loop of a running command can set `IPOS` to: the end of the input, if nothing was there already. -/
def loopLimit (s : State) : Nat := max (max s.ipos.toNat s.ilen.toNat) s.work.start

/-- A micro-step of the loop of a running command: it writes parts of the loop's, the loop stays what it is, and what is stored is as
well-formed and in range as the working state. -/
structure LoopMicro (s : State) (m : Micro) : Prop where
  parts : ∀ p ∈ m.parts, p ∈ s.work.parts
  ipos {p : Word} : m = .ipos p → p.toNat ≤ loopLimit s
  doc {d : Doc} : m = .doc d → WorkKept s.work → DocKept d
  loop {w : Work} : m = .work w → w.parts = s.work.parts
  start {w : Work} : m = .work w → w.start ≤ loopLimit s
  kept {w : Work} : m = .work w → WorkKept s.work → WorkKept w
  inRange {w : Work} : m = .work w → LzwWorkInRange s.work → LzwWorkInRange w

section
variable {s : State}

/-- Micro-steps that move no cursor, store no document and change no working state. -/
theorem LoopMicro.plain {m : Micro} (h : ∀ p ∈ m.parts, p ∈ s.work.parts) (hipos : ∀ p, m ≠ .ipos p) (hdoc : ∀ d, m ≠ .doc d)
    (hwork : ∀ w, m ≠ .work w) : LoopMicro s m :=
  ⟨h, fun e => absurd e (hipos _), fun e => absurd e (hdoc _), fun e => absurd e (hwork _), fun e => absurd e (hwork _),
    fun e => absurd e (hwork _), fun e => absurd e (hwork _)⟩

theorem LoopMicro.cursor {p : Word} (hw : Part.cursor ∈ s.work.parts) (hp : p.toNat ≤ loopLimit s) : LoopMicro s (.ipos p) :=
  ⟨List.forall_mem_singleton.2 hw, fun e => by cases e; exact hp, nofun, nofun, nofun, nofun, nofun⟩

theorem AttemptMicro.loopMicro {w : ParseWork} (hw : s.work = .parse w) {m : Micro} (h : AttemptMicro w s m) : LoopMicro s m := by
  have hlimit : loopLimit s = attemptLimit w s := by rw [loopLimit, hw]; rfl
  have hkept (h : WorkKept s.work) : ParseKept w := h w hw
  have hparts : s.work.parts = [.cursor, .doc] := by rw [hw]; rfl
  cases h with
  | ipos h => exact .cursor (by rw [hparts]; decide) (hlimit ▸ h)
  | raise | finish => exact .plain (List.forall_mem_nil _) nofun nofun nofun
  | doc h =>
    exact ⟨List.forall_mem_singleton.2 (by rw [hparts]; decide), nofun, fun e hs => by cases e; exact h (hkept hs), nofun, nofun,
      nofun, nofun⟩
  | work hstart h =>
    refine ⟨List.forall_mem_nil _, nofun, nofun, fun e => ?_, fun e => ?_, fun e hs => ?_, fun e _ => ?_⟩ <;> cases e
    · exact hparts.symm
    · exact hlimit ▸ hstart
    · rintro p ⟨⟩
      exact h (hkept hs)
    · exact ⟨nofun, nofun⟩

theorem EncMicro.loopMicro {w : EncWork} (hw : s.work = .enc w) {m : Micro} (h : EncMicro w m) : LoopMicro s m := by
  have hparts : s.work.parts = [.obuf] := by rw [hw]; rfl
  cases h with
  | out => exact .plain (List.forall_mem_singleton.2 (by rw [hparts]; decide)) nofun nofun nofun
  | finish => exact .plain (List.forall_mem_nil _) nofun nofun nofun
  | work h =>
    refine ⟨List.forall_mem_nil _, nofun, nofun, fun e => ?_, fun e => ?_, fun e _ => ?_, fun e hs => ?_⟩ <;> cases e
    · exact hparts.symm
    · exact Nat.zero_le _
    · exact nofun
    · refine ⟨?_, nofun⟩
      rintro v ⟨⟩
      exact h (hs.1 w hw)

theorem CodeMicro.loopMicro {w : DecWork} (hw : s.work = .dec w) {m : Micro} (h : CodeMicro w m) : LoopMicro s m := by
  have hparts : s.work.parts = [.cursor, .sout] := by rw [hw]; rfl
  cases h with
  | outs => exact .plain (List.forall_mem_singleton.2 (by rw [hparts]; decide)) nofun nofun nofun
  | raise | finish => exact .plain (List.forall_mem_nil _) nofun nofun nofun
  | work h =>
    refine ⟨List.forall_mem_nil _, nofun, nofun, fun e => ?_, fun e => ?_, fun e _ => ?_, fun e hs => ?_⟩ <;> cases e
    · exact hparts.symm
    · exact Nat.zero_le _
    · exact nofun
    · refine ⟨nofun, ?_⟩
      rintro v ⟨⟩
      exact h (hs.2 w hw)

theorem DecMicro.loopMicro {w : DecWork} (hw : s.work = .dec w) {m : Micro} (h : DecMicro w s m) : LoopMicro s m := by
  cases h with
  | ipos h =>
    exact .cursor (by rw [hw]; exact List.mem_cons_self) (h.trans ((le_max_right _ _).trans (le_max_left _ _)))
  | code h => exact h.loopMicro hw

theorem loopMicros_micro (s : State) : ∀ m ∈ loopMicros s, LoopMicro s m := by
  unfold loopMicros
  split
  · exact List.forall_mem_singleton.2 (.plain (List.forall_mem_nil _) nofun nofun nofun)
  · exact fun m hm => (attemptMicros_micro _ s m hm).loopMicro ‹_›
  · exact fun m hm => (encMicros_micro _ s m hm).loopMicro ‹_›
  · exact fun m hm => (decMicros_micro _ s m hm).loopMicro ‹_›

end

/-! ### An induction over steps -/

/-- A property of states and a kind of micro-step that every step of the machine keeps: the running command does, and so do the start, the abort
and the reset of a command and the accesses of the host. -/
structure StepInvariant (R : State → Prop) (A : Micro → Prop) : Prop extends Keeps R A where
  sameCore {s t : State} : SameCore s t → R s → R t
  start {s : State} : R s → R (commandStart s)
  abort {s : State} : R s → R (abortRunning s)
  reset (s : State) : R (resetCore s)
  raise (code : FaultCode) (info : Word) : A (.raise code info)
  command (i : Instr) {s : State} : R s → ∀ m ∈ commandMicros i s, A m

namespace StepInvariant
variable {R : State → Prop} {A : Micro → Prop} (h : StepInvariant R A)
include h

theorem pending_sameCore {s t : State} (hst : SameCore s t) (hs : Pending R A s) : Pending R A t :=
  ⟨h.sameCore hst hs.1, by rw [hst.todo]; exact hs.2⟩

theorem exec {i : Instr} {op : Byte} {s t : State} (hi : encode i = .cmd op) (hs : Pending R A s) (ht : ExecDoes i s t) :
    Pending R A t := by
  cases ht with
  | turnedAway => exact h.pending_sameCore (.setCmd s _) hs
  | @starts op =>
    have hr := h.start (h.sameCore (.setCmd s op) hs.1)
    exact h.startCommand hr (h.command i hr)
  | aborts => exact ⟨h.abort (h.sameCore (.setCmd s _) hs.1), by simp⟩
  | resets => exact ⟨h.reset s, by simp [State.reset]⟩
  | item hmem => exact absurd hi (item_not_command hmem)
  | code hcode => rw [hcode] at hi; cases hi

/-- Every step keeps the property. -/
theorem step {s t : State} (hs : Pending R A s) (ht : step s = .next t) : Pending R A t := by
  cases step_does ht with
  | core hb hh =>
    have hsame := spendGrant_sameCore s
    exact h.endIfDone (h.coreTick (hsame.busy.trans hb) (h.pending_sameCore hsame hs))
  | command hh ha hi ht => exact h.exec hi (h.pending_sameCore (.handOver s _ _) hs) ht
  | @reserved a rest v pace hh ha =>
    have hs' := h.pending_sameCore (.handOver s rest pace) hs
    rcases reservedCommand_cases (v.setWidth 8) { s with host := rest, grant := pace } with ⟨-, e⟩ | ⟨-, -, e⟩ <;> rw [e]
    · exact h.pending_sameCore (.setCmd _ _) hs'
    · exact h.startCommand (h.start (h.sameCore (.setCmd _ _) hs'.1)) (List.forall_mem_singleton.2 (h.raise _ _))
  | resetLine => exact ⟨h.reset _, by simp [State.reset]⟩
  | access hsame => exact h.pending_sameCore hsame hs

end StepInvariant

/-! ### What a micro-step stores -/

/-- The document after a micro-step. -/
theorem Micro.apply_doc (m : Micro) (s : State) :
    (m.apply s).doc = s.doc ∨ (m.apply s).doc = none ∨ ∃ d, m = .doc d ∧ (m.apply s).doc = some d := by
  cases m with
  | out b => rcases outByte_cases b s with ⟨-, e⟩ | ⟨-, e⟩ <;> simp [Micro.apply, e]
  | outs x => rcases outSymbol_cases x s with ⟨-, e⟩ | ⟨-, e⟩ <;> simp [Micro.apply, e]
  | dropDoc => exact .inr (.inl rfl)
  | doc d => exact .inr (.inr ⟨d, rfl, rfl⟩)
  | olen0 | solen0 | ipos | mcs | clearFault | clearCause | clearInfo | field | ctm | comb | work | raise | finish => exact .inl rfl

/-- The working state after a micro-step. -/
theorem Micro.apply_work (m : Micro) (s : State) :
    (m.apply s).work = s.work ∨ (m.apply s).work = .idle ∨ ∃ w, m = .work w ∧ (m.apply s).work = w := by
  cases m with
  | out b => rcases outByte_cases b s with ⟨-, e⟩ | ⟨-, e⟩ <;> simp [Micro.apply, e]
  | outs x => rcases outSymbol_cases x s with ⟨-, e⟩ | ⟨-, e⟩ <;> simp [Micro.apply, e]
  | work w => exact .inr (.inr ⟨w, rfl, rfl⟩)
  | raise | finish => exact .inr (.inl rfl)
  | olen0 | solen0 | ipos | mcs | clearFault | clearCause | clearInfo | dropDoc | doc | field | ctm | comb => exact .inl rfl

/-! ### The document -/

/-- The document and the parts of one being cut keep R36.1, R36.2, R36.3. -/
def DocAndWorkKept (s : State) : Prop := (∀ d, s.doc = some d → DocKept d) ∧ WorkKept s.work

/-- A micro-step stores no other documents and parts. -/
def StoresKept (m : Micro) : Prop := (∀ d, m = .doc d → DocKept d) ∧ ∀ w, m = .work w → WorkKept w

theorem documentKept_iff {s : State} : DocumentKept s ↔ Pending DocAndWorkKept StoresKept s := and_assoc.symm

theorem documentKept_invariant : StepInvariant DocAndWorkKept StoresKept where
  todo _ h := h
  apply {m s} _ hm h := by
    refine ⟨fun d hd => ?_, ?_⟩
    · rcases m.apply_doc s with e | e | ⟨d', rfl, e⟩ <;> rw [e] at hd
      · exact h.1 d hd
      · cases hd
      · cases hd
        exact hm.1 _ rfl
    · rcases m.apply_work s with e | e | ⟨w, rfl, e⟩ <;> rw [e]
      · exact h.2
      · exact nofun
      · exact hm.2 _ rfl
  loop {s} _ h m hm :=
    have hmicro := loopMicros_micro s m hm
    ⟨fun _ e => hmicro.doc e h.2, fun _ e => hmicro.kept e h.2⟩
  sameCore hst h := ⟨by rw [hst.doc]; exact h.1, by rw [hst.work]; exact h.2⟩
  start h := ⟨h.1, nofun⟩
  abort h := ⟨h.1, nofun⟩
  reset _ := ⟨nofun, nofun⟩
  raise _ _ := ⟨nofun, nofun⟩
  command i s h m hm :=
    have hmicro := commandMicros_micro i s m hm
    ⟨fun _ e => hmicro.doc e h.1, fun _ e => (hmicro.work e).kept⟩

/-- Settles O59: what every command and every loop stores keeps R36.1, R36.2 and R36.3, if the old document and the working state do. -/
theorem stepKeepsTheDocument : Obligations.StepKeepsTheDocument :=
  fun _ _ hs h => documentKept_iff.2 (documentKept_invariant.step (documentKept_iff.1 hs) h)

/-! ### The LZW working state -/

theorem lzwInRange_invariant :
    StepInvariant (fun s => LzwWorkInRange s.work) (fun m => ∀ w, m = .work w → LzwWorkInRange w) where
  todo _ h := h
  apply {m s} _ hm h := by
    rcases m.apply_work s with e | e | ⟨w, rfl, e⟩ <;> rw [e]
    · exact h
    · exact ⟨nofun, nofun⟩
    · exact hm _ rfl
  loop {s} _ h m hm _ e := (loopMicros_micro s m hm).inRange e h
  sameCore hst h := by rw [hst.work]; exact h
  start _ := ⟨nofun, nofun⟩
  abort _ := ⟨nofun, nofun⟩
  reset _ := ⟨nofun, nofun⟩
  raise _ _ := nofun
  command i s _ m hm _ e := ((commandMicros_micro i s m hm).work e).inRange

/-- Settles O60: the encoder's and the decoder's steps keep their ranges, and the two commands start in them. -/
theorem stepKeepsLzwInRange : Obligations.StepKeepsLzwInRange :=
  fun _ _ hs h => lzwInRange_invariant.step hs h

end Sys2Proof.Machine
end

section
/-!
SUPPORT. The host's registers, loads, cell writes and reads (spec/10_state.md R21, R22, R32 to R34, R45, spec/30_encoding.md R93,
spec/70_reset_and_hazards.md R333).
-/

namespace Sys2Proof.Machine

/-! ### Field registers -/

/-- A write of a field register keeps the value's low bits (R22). -/
theorem Fields.get_set_same (f : Fields) (v : Word) (r : FieldReg) :
    (f.set v r).get r = v % BitVec.ofNat 32 (2 ^ r.width) := by
  have hlow {n : Nat} (hn : n < 32) : (v.setWidth n).setWidth 32 = v % BitVec.ofNat 32 (2 ^ n) := by
    apply BitVec.eq_of_toNat_eq
    have hpow : 2 ^ n < 2 ^ 32 := Nat.pow_lt_pow_right (by decide) hn
    have hle : v.toNat % 2 ^ n < 2 ^ 32 := (Nat.mod_le _ _).trans_lt v.isLt
    simp only [BitVec.toNat_setWidth, BitVec.toNat_umod, BitVec.toNat_ofNat, Nat.mod_eq_of_lt hpow, Nat.mod_eq_of_lt hle]
  cases r <;> exact hlow (by decide)

/-- No field register aliases another (R22). -/
theorem Fields.get_set (f : Fields) (v : Word) (r r' : FieldReg) :
    (f.set v r).get r' = if r' = r then (f.set v r).get r else f.get r' := by
  cases r <;> cases r' <;> rfl

theorem Fields.get_set_other (f : Fields) (v : Word) {r r' : FieldReg} (h : r' ≠ r) : (f.set v r).get r' = f.get r' := by
  rw [Fields.get_set, if_neg h]

/-! ### Registers by number -/

theorem FieldReg.num_range (r : FieldReg) : 0x0E ≤ r.num ∧ r.num < 0x80 := by cases r <;> decide

@[simp] theorem FieldReg.ofNum_num (r : FieldReg) : FieldReg.ofNum r.num = some r := by cases r <;> rfl

theorem FieldReg.num_of_ofNum {n : Nat} {r : FieldReg} (h : FieldReg.ofNum n = some r) : r.num = n :=
  beq_iff_eq.1 (List.find?_some (p := fun r : FieldReg => r.num == n) h)

theorem FieldReg.ofNum_reserved {n : Nat} (h : ∀ r : FieldReg, r.num ≠ n) : FieldReg.ofNum n = none :=
  List.find?_eq_none.2 fun r _ hr => h r (beq_iff_eq.1 hr)

/-- A read of a field register or a reserved number (R22). -/
theorem readReg_field (s : State) {n : Nat} (h : 0x0E ≤ n) (h' : n < 0x80) :
    readReg s n = some ((FieldReg.ofNum n).elim 0 s.fld.get) := by
  unfold readReg
  split
  case h_15 =>
    rw [if_neg (Nat.not_le.2 h')]
    cases FieldReg.ofNum n <;> rfl
  all_goals omega

/-- The control registers are none of the field registers. -/
theorem readReg_setFld (s : State) (f : Fields) {n : Nat} (h : n < 0x0E) : readReg { s with fld := f } n = readReg s n := by
  interval_cases n <;> rfl

theorem readReg_isSome (s : State) {n : Nat} (h : n < 0x80) : ∃ v, readReg s n = some v := by
  by_cases hn : n < 0x0E
  · interval_cases n <;> exact ⟨_, rfl⟩
  · exact ⟨_, readReg_field s (Nat.not_lt.1 hn) h⟩

/-- A write of a field register or a reserved number (R22). -/
theorem writeReg_field (s : State) (v : Word) {n : Nat} (h : 0x0E ≤ n) (h' : n < 0x80) :
    writeReg n v s = .next ((FieldReg.ofNum n).elim s fun r => { s with fld := s.fld.set v r }) := by
  unfold writeReg
  split
  case h_14 =>
    rw [if_neg (Nat.not_le.2 h')]
    cases FieldReg.ofNum n <;> rfl
  all_goals omega

/-- A host's write of a register other than `CMD`, on a core that is idle. -/
theorem hostAct_wr {s : State} (hb : s.busy = false) {n : Nat} (hn : n ≠ 0) (v : Word) : hostAct (.wr n v) s = writeReg n v s := by
  show (if n = 0 then hostCmd v none s else whenIdle (writeReg n v) s) = _
  rw [if_neg hn, whenIdle, hb, if_neg (by decide)]

/-- A host's write of a field register reads back its low bits and changes no other register (R22). -/
theorem hostAct_wr_field {s : State} (hb : s.busy = false) (v : Word) (r : FieldReg) :
    ∃ t, hostAct (.wr r.num v) s = .next t ∧ readReg t r.num = some (v % BitVec.ofNat 32 (2 ^ r.width)) ∧
      (∀ n, n < 0x80 → n ≠ r.num → readReg t n = readReg s n) ∧ t = { s with fld := t.fld } := by
  obtain ⟨hge, hlt⟩ := r.num_range
  refine ⟨{ s with fld := s.fld.set v r }, ?_, ?_, fun n hn hne => ?_, rfl⟩
  · rw [hostAct_wr hb (by omega), writeReg_field s v hge hlt, FieldReg.ofNum_num]
    rfl
  · rw [readReg_field _ hge hlt, FieldReg.ofNum_num]
    exact congrArg some (s.fld.get_set_same v r)
  · by_cases hn' : n < 0x0E
    · exact readReg_setFld s _ hn'
    · rw [readReg_field _ (Nat.not_lt.1 hn') hn, readReg_field _ (Nat.not_lt.1 hn') hn]
      cases hr : FieldReg.ofNum n with
      | none => rfl
      | some r' =>
        have hne' : r' ≠ r := fun e => hne (by rw [← e, FieldReg.num_of_ofNum hr])
        exact congrArg some (s.fld.get_set_other v hne')

/-- Settles O45: each register by its number; the field registers share one argument. -/
theorem hostWritesRegisters : Obligations.HostWritesRegisters := by
  intro s v hb
  refine ⟨hostAct_wr_field hb v, fun n hge hlt hnone => ?_, hostAct_wr hb (by decide) v, hostAct_wr hb (by decide) v,
    hostAct_wr hb (by decide) v, hostAct_wr hb (by decide) v, hostAct_wr hb (by decide) v⟩
  have hres := FieldReg.ofNum_reserved hnone
  rw [hostAct_wr hb (by omega), writeReg_field s v hge hlt, readReg_field s hge hlt, hres]
  exact ⟨rfl, rfl⟩

theorem Fields.zero_get (r : FieldReg) : Fields.zero.get r = 0 := by cases r <;> rfl

/-- Settles O9: the control registers one by one, the field registers by their reset value, and no cell in any memory. -/
theorem resetValues : Obligations.ResetValues := by
  have hcell (m : Space) (i : Nat) : readCell State.reset m i = none := by
    cases m with
    | ibuf | sin => rfl
    | obuf | sout | ctm | comb => simp [readCell, State.reset, Fields.zero]
  refine ⟨fun n hn => ?_, rfl, rfl, rfl, hcell, fun _ => rfl, fun _ => rfl, fun _ => rfl, fun _ => rfl, fun _ => rfl, fun _ => rfl⟩
  by_cases hn' : n < 0x0E
  · interval_cases n <;> rfl
  · rw [readReg_field _ (Nat.not_lt.1 hn') hn]
    cases FieldReg.ofNum n with
    | none => rfl
    | some r => exact congrArg some (Fields.zero_get r)

/-! ### Loads and cell writes -/

section
variable {s : State}

theorem whenIdle_idle (hb : s.busy = false) (act : State → Host.Outcome State Fault Refusal) : whenIdle act s = act s := by
  rw [whenIdle, hb, if_neg (by decide)]

/-- The memory after a load: the cells loaded, and the old ones above them (R93). -/
theorem Memory.read_load {α : Type} (m : Memory α) (xs : List α) :
    (∀ k, k < xs.length → Memory.read (Memory.fill m 0 xs) k = xs[k]?) ∧
    ∀ k, xs.length ≤ k → Memory.read (Memory.fill m 0 xs) k = Memory.read m k := by
  refine ⟨fun k hk => ?_, fun k hk => ?_⟩ <;> rw [Memory.read_fill]
  · rw [if_pos (by omega), Nat.sub_zero]
  · rw [if_neg (by omega)]

/-- The memory after one cell is written (R32, R33, R34). -/
theorem Memory.read_put {α : Type} (m : Memory α) (i : Nat) (v : α) :
    Memory.read (Memory.write m i v) i = some v ∧ ∀ a, a ≠ i → Memory.read (Memory.write m i v) a = Memory.read m a :=
  ⟨Memory.read_write_same m i v, fun _ h => Memory.read_write_other m v h⟩

/-- The symbols after a load (R93). -/
theorem symbols_of_fill {xs : List Symbol} (hlen : xs.length < 2 ^ 32) :
    State.symbols { s with sin := Memory.fill s.sin 0 xs, silen := Word.ofNat xs.length } = xs := by
  have hn : (Word.ofNat xs.length).toNat = xs.length := Word.toNat_ofNat_of_lt hlen
  apply List.ext_getElem?
  intro a
  by_cases ha : a < xs.length
  · rw [State.symbols_getElem? (by rw [hn]; exact ha)]
    simp [State.sinAt, Memory.read_fill, ha]
  · rw [List.getElem?_eq_none (by rw [State.symbols_length, hn]; omega), List.getElem?_eq_none (by omega)]

/-- As many cells exist as the space's size, if it has one, allows (R9, R60). -/
theorem cellsExist_of_le {m : Space} {n : Nat} (h : ∀ c, spaceSize s m = some c → n ≤ c) : cellsExist s m n = true := by
  unfold cellsExist
  split
  · exact decide_eq_true (h _ ‹_›)
  · rfl

theorem hostIbuf_fits {bs : List Byte} (h : ∀ c, s.caps.ibuf = some c → bs.length ≤ c) :
    hostIbuf bs s = .next { s with ibuf := Memory.fill s.ibuf 0 bs, ilen := Word.ofNat bs.length } :=
  if_pos (cellsExist_of_le (m := .ibuf) h)

theorem hostSin_fits {xs : List Symbol} (h : ∀ c, s.caps.sin = some c → xs.length ≤ c) :
    hostSin xs s = .next { s with sin := Memory.fill s.sin 0 xs, silen := Word.ofNat xs.length } :=
  if_pos (cellsExist_of_le (m := .sin) h)

theorem hostCtm_fits {cs : List Color} (h : cs.length ≤ 256) :
    hostCtm cs s = .next { s with ctm := Memory.fill s.ctm 0 cs, fld := s.fld.set (Word.ofNat cs.length) .ctN } :=
  if_pos (cellsExist_of_le (m := .ctm) fun c hc => by cases hc; exact h)

theorem hostComb_fits {bs : List Byte} (h : bs.length ≤ 255) :
    hostComb bs s = .next { s with comb := Memory.fill s.comb 0 bs } :=
  if_pos (cellsExist_of_le (m := .comb) fun c hc => by cases hc; exact h)

/-- `mv` is a load of the output (R93). -/
theorem hostMv_cells {bs : List Byte} (hobuf : s.obuf = cells bs) (hlen : s.olen.toNat = bs.length) : hostMv s = hostIbuf bs s := by
  rw [hostMv, hobuf, hlen, Memory.upTo_cells]

/-- `mvs` is a load of the symbols put out (R93). -/
theorem hostMvs_cells {xs : List Symbol} (hsout : s.sout = cells xs) (hlen : s.solen.toNat = xs.length) : hostMvs s = hostSin xs s := by
  rw [hostMvs, hsout, hlen, Memory.upTo_cells]

/-- `CT_N` after a load of `CTM` (R93). -/
theorem Fields.set_ctN (f : Fields) (n : Nat) : f.set (Word.ofNat n) .ctN = { f with ctN := BitVec.ofNat 9 n } := by
  have hlow : (Word.ofNat n).setWidth 9 = BitVec.ofNat 9 n := by
    apply BitVec.eq_of_toNat_eq
    simp [Word.ofNat]
  rw [Fields.set, hlow]

section
variable {i : Nat} (v : Word)

theorem hostPut_ibuf (h : cellExists s .ibuf i = true) :
    hostPut .ibuf i v s = .next { s with ibuf := Memory.write s.ibuf i (v.setWidth 8) } := by simp [hostPut, h]

theorem hostPut_sin (h : cellExists s .sin i = true) :
    hostPut .sin i v s = .next { s with sin := Memory.write s.sin i (v.setWidth 16) } := by simp [hostPut, h]

theorem hostPut_ctm (h : cellExists s .ctm i = true) :
    hostPut .ctm i v s = .next { s with ctm := Memory.write s.ctm i (v.setWidth 24) } := by simp [hostPut, h]

theorem hostPut_comb (h : cellExists s .comb i = true) :
    hostPut .comb i v s = .next { s with comb := Memory.write s.comb i (v.setWidth 8) } := by simp [hostPut, h]

end

end

/-! ### Reads -/

section
variable {s : State}

theorem busyReadable_iff (n : Nat) : busyReadable n = true ↔ n ∈ [0x01, 0x05, 0x06, 0x08] := by
  simp [busyReadable, or_assoc]

theorem hostRead_allowed {n : Nat} (hn : n < 0x80) (h : s.busy = false ∨ n ∈ [0x01, 0x05, 0x06, 0x08]) : hostRead n s = .next s := by
  obtain ⟨v, hv⟩ := readReg_isSome s hn
  have hgo : (s.busy && !busyReadable n) = false := by
    rcases h with h | h
    · simp [h]
    · simp [(busyReadable_iff n).2 h]
  rw [hostRead, hgo, if_neg (by decide), hv]

theorem hostRead_refused {n : Nat} (hb : s.busy = true) (h : n ∉ [0x01, 0x05, 0x06, 0x08]) :
    hostRead n s = .refused .hostReadWhileBusy := by
  rw [hostRead, hb, Bool.eq_false_iff.2 fun hn => h ((busyReadable_iff n).1 hn)]
  rfl

/-- A read of a cell below the length of its space, of a space the host reads (R32, R44, R71). -/
theorem hostAct_peek {m : Space} {i len width : Nat} {cells : Memory (BitVec width)} (hm : ¬ (m = .ibuf ∨ m = .sin))
    (hread : readCell s m i = if i < len then (Memory.read cells i).map (fun c => c.setWidth 32) else none)
    (hex : cellExists s m i = true) (hi : i < len) (hv : (Memory.read cells i).isSome = true) :
    readCell s m i = (Memory.read cells i).map (fun c => c.setWidth 32) ∧
      hostAct (.peek m i) s = if s.busy && (m == .ctm || m == .comb) then .refused .hostReadWhileBusy else .next s := by
  obtain ⟨c, hc⟩ := Option.isSome_iff_exists.1 hv
  rw [if_pos hi] at hread
  refine ⟨hread, ?_⟩
  show hostPeek m i s = _
  rw [hostPeek, if_neg hm, hex, hread, hc]
  rfl

end

/-- Settles O47: a load fills its memory from cell 0, `mv` and `mvs` are loads of the outputs, a cell write is a write of its memory, and a read
gives the state back. -/
theorem hostLoadsBuffers : Obligations.HostLoadsBuffers := by
  refine ⟨fun s hb => ⟨?_, ?_, ?_, ?_, ?_, ?_, ?_⟩, fun s n hn => ⟨hostRead_allowed hn, hostRead_refused⟩, ?_⟩
  · intro bs hlen hfits
    exact ⟨_, (whenIdle_idle hb _).trans (hostIbuf_fits hfits), input_of_fill hlen, (Memory.read_load _ _).2, rfl⟩
  · intro xs hlen hfits
    exact ⟨_, (whenIdle_idle hb _).trans (hostSin_fits hfits), symbols_of_fill hlen, (Memory.read_load _ _).2, rfl⟩
  · intro bs hobuf hlen
    show whenIdle hostMv s = whenIdle (hostIbuf bs) s
    rw [whenIdle_idle hb, whenIdle_idle hb, hostMv_cells hobuf hlen]
  · intro xs hsout hlen
    show whenIdle hostMvs s = whenIdle (hostSin xs) s
    rw [whenIdle_idle hb, whenIdle_idle hb, hostMvs_cells hsout hlen]
  · intro cs hlen
    refine ⟨_, (whenIdle_idle hb _).trans (hostCtm_fits hlen), (Memory.read_load _ _).1, (Memory.read_load _ _).2, ?_⟩
    rw [Fields.set_ctN]
  · intro bs hlen
    exact ⟨_, (whenIdle_idle hb _).trans (hostComb_fits hlen), (Memory.read_load _ _).1, (Memory.read_load _ _).2, rfl⟩
  · intro i v
    refine ⟨fun hex => ?_, fun hex => ?_, fun hi => ?_, fun hi => ?_⟩
    · exact ⟨_, (whenIdle_idle hb _).trans (hostPut_ibuf v hex), rfl, Memory.read_put _ _ _⟩
    · exact ⟨_, (whenIdle_idle hb _).trans (hostPut_sin v hex), rfl, Memory.read_put _ _ _⟩
    · exact ⟨_, (whenIdle_idle hb _).trans (hostPut_ctm v (decide_eq_true hi)), rfl, Memory.read_put _ _ _⟩
    · exact ⟨_, (whenIdle_idle hb _).trans (hostPut_comb v (decide_eq_true hi)), rfl, Memory.read_put _ _ _⟩
  · intro s i
    refine ⟨fun hex hi hv => ?_, fun hex hi hv => ?_, fun hex hi hv => ?_, fun hex hi hv => ?_⟩
    · obtain ⟨hcell, hpeek⟩ := hostAct_peek (by decide) rfl hex hi hv
      exact ⟨hpeek.trans (if_neg (by simp)), hcell⟩
    · obtain ⟨hcell, hpeek⟩ := hostAct_peek (by decide) rfl hex hi hv
      exact ⟨hpeek.trans (if_neg (by simp)), hcell⟩
    · obtain ⟨hcell, hpeek⟩ := hostAct_peek (s := s) (m := .ctm) (by decide) rfl (decide_eq_true hex) hi hv
      exact ⟨hcell, by rw [hpeek, beq_self_eq_true, Bool.true_or, Bool.and_true]⟩
    · obtain ⟨hcell, hpeek⟩ := hostAct_peek (s := s) (m := .comb) (by decide) rfl (decide_eq_true hex) hi hv
      exact ⟨hcell, by rw [hpeek, beq_self_eq_true, Bool.or_true, Bool.and_true]⟩

end Sys2Proof.Machine
end

section
/-!
SUPPORT. Frames: what an instruction leaves unchanged (spec/30_encoding.md R92, spec/70_reset_and_hazards.md R333).
-/

namespace Sys2Proof.Machine

/-! ### The host's inputs -/

theorem SameInputs.self_cmd {s t : State} {op : Byte} (h : SameInputs { s with cmd := op } t) : SameInputs { s with cmd := t.cmd } t := by
  rw [h.cmd]
  exact h

/-- What an instruction leaves of the inputs (R21, R32), `SYS.RESET` apart: all but `CMD`. -/
theorem ExecDoes.sameInputs {i : Instr} {s t : State} (h : ExecDoes i s t) (hi : i ≠ .sysReset) :
    SameInputs { s with cmd := t.cmd } t := by
  cases h with
  | turnedAway => exact .rfl
  | @starts op =>
    exact SameInputs.self_cmd (startCommand_sameInputs (commandMicros i) { s with cmd := op })
  | aborts => constructor <;> rfl
  | resets hreset => exact absurd hreset hi
  | @item w => exact SameInputs.self_cmd (issue_sameInputs (blkMicros i w s) s)
  | @code _ code w => exact SameInputs.self_cmd (issue_sameInputs (codeMicros w.shift code.toNat) s)

/-- Settles O49: every micro-step leaves the inputs, and so do an abort and a command that is turned away. -/
theorem inputsAreNeverWritten : Obligations.InputsAreNeverWritten := by
  intro i s t h
  by_cases hi : i = .sysReset
  · subst hi
    obtain rfl := Host.Outcome.next.inj h
    exact ⟨rfl, rfl, rfl, fun hne => absurd rfl hne⟩
  · have hsame := (exec_does h).sameInputs hi
    exact ⟨hsame.caps, hsame.host, hsame.grant, fun _ => ⟨hsame.ibuf, hsame.sin, hsame.ilen, hsame.silen, hsame.ctcnt, hsame.fidx,
      hsame.bkind, hsame.era⟩⟩

/-! ### The parts of the state -/

/-- A part of the state is the same in both states. -/
def SamePart (p : Part) (s t : State) : Prop :=
  match p with
  | .obuf => t.obuf = s.obuf ∧ t.olen = s.olen
  | .sout => t.sout = s.sout ∧ t.solen = s.solen
  | .cursor => t.ipos = s.ipos
  | .mcs => t.mcs = s.mcs
  | .doc => t.doc = s.doc
  | .field g => ∀ r : FieldReg, r.group = g → t.fld.get r = s.fld.get r
  | .ctm => t.ctm = s.ctm
  | .comb => t.comb = s.comb

theorem SamePart.trans {p : Part} {s t u : State} (h : SamePart p s t) (k : SamePart p t u) : SamePart p s u := by
  cases p with
  | obuf | sout => exact ⟨k.1.trans h.1, k.2.trans h.2⟩
  | field g => exact fun r hr => (k r hr).trans (h r hr)
  | cursor | mcs | doc | ctm | comb => exact Eq.trans k h

/-- States that agree in all parts. -/
theorem samePart_of_eq {p : Part} {s t : State} (h : ({ s with
      cmd := t.cmd, busy := t.busy, done := t.done, fault := t.fault, np := t.np, fcause := t.fcause, finfo := t.finfo,
      work := t.work, todo := t.todo } : State) = t) : SamePart p s t := by
  rw [← h]
  cases p with
  | obuf | sout => exact ⟨rfl, rfl⟩
  | field g => exact fun _ _ => rfl
  | cursor | mcs | doc | ctm | comb => rfl

/-- A micro-step leaves the parts it does not name (R92). -/
theorem Micro.apply_samePart {m : Micro} {p : Part} (h : p ∉ m.parts) (s : State) : SamePart p s (m.apply s) := by
  cases m with
  | out b =>
    rcases outByte_cases b s with ⟨-, e⟩ | ⟨-, e⟩ <;> simp only [Micro.apply, e]
    · exact samePart_of_eq rfl
    · cases p <;> simp_all [SamePart, Micro.parts]
  | outs x =>
    rcases outSymbol_cases x s with ⟨-, e⟩ | ⟨-, e⟩ <;> simp only [Micro.apply, e]
    · exact samePart_of_eq rfl
    · cases p <;> simp_all [SamePart, Micro.parts]
  | field r v =>
    cases p with
    | field g =>
      intro r' hr'
      exact s.fld.get_set_other v fun e => h (by rw [← hr', e]; exact List.mem_singleton_self _)
    | obuf | sout => exact ⟨rfl, rfl⟩
    | cursor | mcs | doc | ctm | comb => rfl
  | olen0 | solen0 | ipos | mcs | dropDoc | doc | ctm | comb => cases p <;> simp_all [SamePart, Micro.parts, Micro.apply]
  | clearFault | clearCause | clearInfo | work | raise | finish => exact samePart_of_eq rfl

/-- A run of micro-steps and loops that do not name a part leaves it. -/
theorem samePart_keeps (p : Part) (s₀ : State) :
    Keeps (fun s => SamePart p s₀ s ∧ p ∉ s.work.parts) (fun m => p ∉ m.parts ∧ ∀ w, m = .work w → p ∉ w.parts) where
  todo _ h := ⟨h.1.trans (samePart_of_eq rfl), h.2⟩
  apply {m s} _ hm h := by
    refine ⟨h.1.trans (m.apply_samePart hm.1 s), ?_⟩
    rcases m.apply_work s with e | e | ⟨w, rfl, e⟩ <;> rw [e]
    · exact h.2
    · exact List.not_mem_nil
    · exact hm.2 _ rfl
  loop {s} _ h m hm :=
    have hmicro := loopMicros_micro s m hm
    ⟨fun hp => h.2 (hmicro.parts p hp), fun w e => by rw [hmicro.loop e]; exact h.2⟩

/-- A piece of a loop done at once, or put off. -/
theorem issue_samePart {p : Part} {ms : List Micro} (h : ∀ m ∈ ms, p ∉ m.parts) (s : State) : SamePart p s (issue ms s) := by
  rcases issue_cases ms s with ⟨-, e⟩ | ⟨_, -, e⟩ <;> rw [e]
  · exact runMicros_keeps (P := SamePart p s) (samePart_of_eq rfl) fun m hm u hu => hu.trans (m.apply_samePart (h m hm) u)
  · exact samePart_of_eq rfl

/-- The parts of an item of the container stream (R134). -/
theorem item_parts {i : Instr} (hi : i ∈ [Instr.extGce, .extApp, .extPte, .extCom, .img, .trailer]) :
    instrParts i = [.cursor, .doc] := by
  simp only [List.mem_cons, List.not_mem_nil, or_false] at hi
  rcases hi with rfl | rfl | rfl | rfl | rfl | rfl <;> rfl

theorem CodeMicro.parts {w : DecWork} {m : Micro} (h : CodeMicro w m) : ∀ p ∈ m.parts, p = .sout := by
  cases h with
  | outs => exact List.forall_mem_singleton.2 rfl
  | finish | raise | work => exact List.forall_mem_nil _

/-- An instruction leaves the parts that are not its own (R92), `SYS.RESET` apart. -/
theorem ExecDoes.samePart {i : Instr} {s t : State} (h : ExecDoes i s t) (hi : i ≠ .sysReset) {p : Part} (hp : p ∉ instrParts i) :
    SamePart p s t := by
  cases h with
  | turnedAway => exact samePart_of_eq rfl
  | @starts op =>
    refine ((samePart_keeps p s).startCommand (s := { s with cmd := op }) ⟨samePart_of_eq rfl, List.not_mem_nil⟩ fun m hm => ?_).1.1
    have hmicro := commandMicros_micro i _ m hm
    exact ⟨fun hpm => hp (hmicro.parts p hpm), fun w e hpw => hp ((hmicro.work e).parts p hpw)⟩
  | aborts => exact samePart_of_eq rfl
  | resets hreset => exact absurd hreset hi
  | @item w hmem hw =>
    obtain ⟨-, -, hwork⟩ := attempt_eq_some hw
    rw [item_parts hmem] at hp
    refine issue_samePart (fun m hm hpm => hp ?_) s
    have := ((blkMicros_micro w s i m hm).loopMicro hwork).parts p hpm
    rwa [hwork] at this
  | code hcode =>
    subst hcode
    exact issue_samePart (fun m hm hpm => hp ((codeMicros_micro _ _ m hm).parts p hpm ▸ List.mem_singleton_self _)) s

/-! ### The instructions that write each part -/

section
variable {i : Instr}

theorem field_mem_instrParts {g : Group} :
    Part.field g ∈ instrParts i ↔ (g, i) ∈ [(Group.lsd, Instr.fldUnpackLsd), (.gce, .fldUnpackGce), (.id, .fldUnpackId),
      (.app, .fldUnpackApp), (.com, .fldUnpackCom), (.ct, .fldUnpackCt), (.u16, .fldUnpackU16)] := by
  cases i <;> simp [instrParts]

theorem ctm_mem_instrParts : Part.ctm ∈ instrParts i ↔ i = .fldUnpackCt := by cases i <;> simp [instrParts]

theorem comb_mem_instrParts : Part.comb ∈ instrParts i ↔ i = .fldUnpackCom := by cases i <;> simp [instrParts]

theorem obuf_mem_instrParts :
    Part.obuf ∈ instrParts i ↔ i ∈ [Instr.seqSerialize, .seqGetblk, .fldPackLsd, .fldPackGce, .fldPackId, .fldPackApp, .fldPackCom,
      .fldPackCt, .fldPackU16, .lzwEnc] := by
  cases i <;> simp [instrParts]

theorem sout_mem_instrParts : Part.sout ∈ instrParts i ↔ i = .lzwDec ∨ ∃ n c, i = .lzwCode n c := by cases i <;> simp [instrParts]

theorem mcs_mem_instrParts : Part.mcs ∈ instrParts i ↔ i ∈ [Instr.lzwEnc, .lzwDec] := by cases i <;> simp [instrParts]

theorem cursor_mem_instrParts :
    Part.cursor ∈ instrParts i ↔ i ∈ [Instr.seqParse, .seqSetblk, .fldUnpackLsd, .fldUnpackGce, .fldUnpackId, .fldUnpackApp,
      .fldUnpackCom, .fldUnpackCt, .fldUnpackU16, .lzwDec, .extGce, .extApp, .extPte, .extCom, .img, .trailer] := by
  cases i <;> simp [instrParts]

theorem doc_mem_instrParts :
    Part.doc ∈ instrParts i ↔ i ∈ [Instr.seqParse, .seqSetblk, .extGce, .extApp, .extPte, .extCom, .img, .trailer] := by
  cases i <;> simp [instrParts]

end

/-- Settles O50: the frame of an instruction, for the field registers and their memories. -/
theorem fieldsChangeOnlyByTheirUnpack : Obligations.FieldsChangeOnlyByTheirUnpack := by
  intro i s t h hi
  have hframe {p : Part} (hp : p ∉ instrParts i) : SamePart p s t := (exec_does h).samePart hi hp
  refine ⟨fun r hr => ?_, fun hne => ?_, fun hne => ?_⟩
  · exact hframe (p := .field r.group) (mt field_mem_instrParts.1 hr) r rfl
  · exact hframe (p := .ctm) (mt ctm_mem_instrParts.1 hne)
  · exact hframe (p := .comb) (mt comb_mem_instrParts.1 hne)

/-- Settles O51: the frame of an instruction, for the outputs, `MCS`, the cursor and the document. -/
theorem outputsChangeOnlyByTheirCommands : Obligations.OutputsChangeOnlyByTheirCommands := by
  intro i s t h hi
  have hframe {p : Part} (hp : p ∉ instrParts i) : SamePart p s t := (exec_does h).samePart hi hp
  refine ⟨fun hne => ?_, fun hne hcode => ?_, fun hne => ?_, fun hne => ?_, fun hne => ?_⟩
  · exact hframe (p := .obuf) (mt obuf_mem_instrParts.1 hne)
  · exact hframe (p := .sout) (mt sout_mem_instrParts.1 (not_or.2 ⟨hne, fun ⟨n, c, e⟩ => hcode n c e⟩))
  · exact hframe (p := .mcs) (mt mcs_mem_instrParts.1 hne)
  · exact hframe (p := .cursor) (mt cursor_mem_instrParts.1 hne)
  · exact hframe (p := .doc) (mt doc_mem_instrParts.1 hne)

end Sys2Proof.Machine
end

section
/-!
SUPPORT. The outputs and the cursor while commands run (spec/10_state.md R27, R28, R30, R71).
-/

namespace Sys2Proof.Machine

/-! ### Output prefixes -/

/-- The first memory's cells below its length are cells of the second below its length. -/
def PrefixKept {α : Type} (m : Memory α) (len : Word) (m' : Memory α) (len' : Word) : Prop :=
  len.toNat ≤ len'.toNat ∧ ∀ a, a < len.toNat → Memory.read m' a = Memory.read m a

section
variable {α : Type} {m m' m'' : Memory α} {len len' len'' : Word}

theorem PrefixKept.refl : PrefixKept m len m len := ⟨le_rfl, fun _ _ => rfl⟩

theorem PrefixKept.trans (h : PrefixKept m len m' len') (k : PrefixKept m' len' m'' len'') : PrefixKept m len m'' len'' :=
  ⟨h.1.trans k.1, fun a ha => (k.2 a (ha.trans_le h.1)).trans (h.2 a ha)⟩

/-- A cell appended to an output with room (R13, R303). -/
theorem prefixKept_append {cap : Option Nat} (hroom : outFull cap len = false) (v : α) :
    PrefixKept m len (Memory.write m len.toNat v) (len + 1) := by
  have hlt : len.toNat < outLimit cap := Nat.not_le.1 fun h => by simp [(outFull_iff cap len).2 h] at hroom
  have hlim := outLimit_lt cap
  have hnext : (len + 1).toNat = len.toNat + 1 := by
    rw [BitVec.toNat_add]
    exact Nat.mod_eq_of_lt (by rw [show (1 : Word).toNat = 1 from rfl]; omega)
  exact ⟨by omega, fun a ha => Memory.read_write_other m v (Nat.ne_of_lt ha)⟩

end

/-- A relation that every micro-step keeps but the one that starts a new output, with which no step of a loop begins. -/
structure GrowsUnless (start : Micro) (P : State → State → Prop) : Prop where
  refl (s : State) : P s s
  trans {s t u : State} : P s t → P t u → P s u
  todo (s : State) (ms : List Micro) : P s { s with todo := ms }
  apply {m : Micro} (s : State) : m ≠ start → P s (m.apply s)
  alone : start.joins = false
  loop (s : State) : start ∉ loopMicros s

namespace GrowsUnless
variable {start : Micro} {P : State → State → Prop} (h : GrowsUnless start P)
include h

theorem coreTick {s : State} (hs : s.todo.head? ≠ some start) : P s (Machine.coreTick s) := by
  rcases coreTick_does s with ⟨m, ms, ht, e⟩ | ⟨ht, e⟩ | ⟨n, ht, -, e⟩ <;> rw [e]
  · have hm : m ≠ start := fun hm => hs (by rw [ht, hm]; rfl)
    exact h.trans (h.todo s ms) (h.apply _ hm)
  · exact runMicros_keeps (P := P s) (h.refl s) fun m hm u hu =>
      h.trans hu (h.apply u fun e => h.loop s (e ▸ hm))
  · exact h.todo s _

/-- Nothing that joins the step before it starts a new output. -/
theorem head_of_quiet {s : State} (hq : s.quiet = true) : s.todo.head? ≠ some start := by
  have hjoins := h.alone
  simp only [State.quiet, Bool.and_eq_true] at hq
  cases ht : s.todo with
  | nil => exact nofun
  | cons m ms =>
    rw [ht] at hq
    rintro ⟨⟩
    simp [hjoins] at hq

theorem catchUp (n : Nat) (s : State) : P s (Machine.catchUp n s) := by
  induction n generalizing s with
  | zero => exact h.refl s
  | succ n ih =>
    unfold Machine.catchUp
    split
    · exact h.trans (h.coreTick (h.head_of_quiet ‹_›)) (ih _)
    · exact h.refl s

theorem endIfDone (s : State) : P s (Machine.endIfDone s) := by
  rcases endIfDone_cases s with e | ⟨e, -⟩ <;> rw [e]
  · exact h.refl s
  · exact h.catchUp 32 s

end GrowsUnless

/-- No step of a loop starts a new output (R133, R223, R254). -/
theorem loopMicros_start_no_output (s : State) : ∀ m ∈ loopMicros s, m ≠ .olen0 ∧ m ≠ .solen0 := by
  unfold loopMicros
  split <;> intro m hm
  · rw [List.mem_singleton.1 hm]
    exact ⟨nofun, nofun⟩
  · cases attemptMicros_micro _ s m hm <;> exact ⟨nofun, nofun⟩
  · cases encMicros_micro _ s m hm <;> exact ⟨nofun, nofun⟩
  · cases decMicros_micro _ s m hm with
    | ipos => exact ⟨nofun, nofun⟩
    | code h => cases h <;> exact ⟨nofun, nofun⟩

theorem prefixKept_of_same {α : Type} {m m' : Memory α} {len len' : Word} (h : m' = m ∧ len' = len) : PrefixKept m len m' len' := by
  rw [h.1, h.2]
  exact .refl

/-- `OBUF` grows, unless a micro-step starts a new output (R27). -/
theorem obuf_grows : GrowsUnless .olen0 (fun s t => PrefixKept s.obuf s.olen t.obuf t.olen) where
  refl _ := .refl
  trans := .trans
  todo _ _ := .refl
  alone := rfl
  loop s hm := (loopMicros_start_no_output s _ hm).1 rfl
  apply {m} s hm := by
    by_cases hpart : Part.obuf ∈ m.parts
    · cases m with
      | out b =>
        rcases outByte_cases b s with ⟨-, e⟩ | ⟨hroom, e⟩ <;> simp only [Micro.apply, e]
        · exact .refl
        · exact prefixKept_append hroom b
      | olen0 => exact absurd rfl hm
      | outs | solen0 | ipos | mcs | clearFault | clearCause | clearInfo | dropDoc | doc | field | ctm | comb | work | raise | finish =>
        simp [Micro.parts] at hpart
    · exact prefixKept_of_same (m.apply_samePart hpart s)

/-- `SOUT` grows, unless a micro-step starts a new output (R28). -/
theorem sout_grows : GrowsUnless .solen0 (fun s t => PrefixKept s.sout s.solen t.sout t.solen) where
  refl _ := .refl
  trans := .trans
  todo _ _ := .refl
  alone := rfl
  loop s hm := (loopMicros_start_no_output s _ hm).2 rfl
  apply {m} s hm := by
    by_cases hpart : Part.sout ∈ m.parts
    · cases m with
      | outs x =>
        rcases outSymbol_cases x s with ⟨-, e⟩ | ⟨hroom, e⟩ <;> simp only [Micro.apply, e]
        · exact .refl
        · exact prefixKept_append hroom x
      | solen0 => exact absurd rfl hm
      | out | olen0 | ipos | mcs | clearFault | clearCause | clearInfo | dropDoc | doc | field | ctm | comb | work | raise | finish =>
        simp [Micro.parts] at hpart
    · exact prefixKept_of_same (m.apply_samePart hpart s)

/-- The core's move (R274). -/
theorem step_core {s : State} (hb : s.busy = true) (hh : hostMoves s = false) :
    step s = .next (endIfDone (coreTick (spendGrant s))) := by
  rcases step_cases s with ⟨-, -, e⟩ | ⟨hno, -⟩ | ⟨_, _, hno, -⟩
  · exact e
  all_goals simp [hb, hh] at hno

/-- One of the core's steps, with what comes with it. -/
theorem GrowsUnless.step {start : Micro} {P : State → State → Prop} (h : GrowsUnless start P) {s t : State} (hb : s.busy = true)
    (hh : hostMoves s = false) (ht : step s = .next t) (hs : s.todo.head? ≠ some start) : P (spendGrant s) t := by
  rw [step_core hb hh] at ht
  obtain rfl := Host.Outcome.next.inj ht
  exact h.trans (h.coreTick (by rw [(spendGrant_sameCore s).todo]; exact hs)) (h.endIfDone _)

/-- Settles O52: one argument for both outputs. -/
theorem outputPrefixIsStable : Obligations.OutputPrefixIsStable := by
  intro s t hb hh ht
  have hsame := spendGrant_sameCore s
  refine ⟨fun hs => ?_, fun hs => ?_⟩
  · have hgrows := obuf_grows.step hb hh ht hs
    rw [hsame.obuf, hsame.olen] at hgrows
    exact hgrows
  · have hgrows := sout_grows.step hb hh ht hs
    rw [hsame.sout, hsame.solen] at hgrows
    exact hgrows

/-! ### The cursor -/

/-- The cursor and the frame attempt are within the first `lim` bytes of an input of that length (R30). -/
structure CursorWithin (lim : Nat) (s : State) : Prop where
  ilen : s.ilen.toNat = lim
  ipos : s.ipos.toNat ≤ lim
  start : s.work.start ≤ lim

/-- The cursor after a micro-step. -/
theorem Micro.apply_ipos (m : Micro) (s : State) :
    (m.apply s).ipos = s.ipos ∨ (m.apply s).ipos = 0 ∨ ∃ p, m = .ipos p ∧ (m.apply s).ipos = p := by
  by_cases hpart : Part.cursor ∈ m.parts
  · cases m with
    | ipos p => exact .inr (.inr ⟨p, rfl, rfl⟩)
    | dropDoc => exact .inr (.inl rfl)
    | out | olen0 | outs | solen0 | mcs | clearFault | clearCause | clearInfo | doc | field | ctm | comb | work | raise | finish =>
      simp [Micro.parts] at hpart
  · exact .inl (m.apply_samePart hpart s)

/-- A command that has set the cursor within the input keeps it there (R30, R68). -/
theorem cursorWithin_keeps (lim : Nat) :
    Keeps (CursorWithin lim) (fun m => (∀ p, m = .ipos p → p.toNat ≤ lim) ∧ ∀ w, m = .work w → w.start ≤ lim) where
  todo _ h := ⟨h.ilen, h.ipos, h.start⟩
  apply {m s} _ hm h := by
    refine ⟨by rw [(m.apply_sameInputs s).ilen]; exact h.ilen, ?_, ?_⟩
    · rcases m.apply_ipos s with e | e | ⟨p, rfl, e⟩ <;> rw [e]
      · exact h.ipos
      · exact Nat.zero_le _
      · exact hm.1 _ rfl
    · rcases m.apply_work s with e | e | ⟨w, rfl, e⟩ <;> rw [e]
      · exact h.start
      · exact Nat.zero_le _
      · exact hm.2 _ rfl
  loop {s} _ h m hm := by
    have hmicro := loopMicros_micro s m hm
    have hlimit : loopLimit s ≤ lim := max_le (max_le h.ipos h.ilen.le) h.start
    exact ⟨fun p e => (hmicro.ipos e).trans hlimit, fun w e => (hmicro.start e).trans hlimit⟩

/-- How a command that may move the cursor begins: it faults, or sets the cursor first, or (`SEQ.SETBLK`) sets it to the end at its end. -/
inductive PlacesCursor (s : State) : List Micro → Prop where
  | faults (code : FaultCode) (info : Word) : PlacesCursor s [.raise code info]
  | first {m : Micro} (ms : List Micro) (h : m = .dropDoc ∨ m = .ipos 0) : PlacesCursor s (m :: ms)
  | last (d : Doc) : PlacesCursor s [.doc d, .ipos s.ilen, .finish false]

section
variable {s : State}

theorem unpackMicros_placesCursor (lengthOk : List Byte → Bool) (writes : List Byte → List Micro) :
    PlacesCursor s (unpackMicros lengthOk writes s) := by
  unfold unpackMicros
  split
  · exact .faults _ _
  · exact .first _ (.inr rfl)

theorem unpackFixed_placesCursor (len : Nat) (writes : List Byte → List Micro) : PlacesCursor s (unpackFixed len writes s) :=
  unpackMicros_placesCursor _ _

theorem setblkMicros_placesCursor : PlacesCursor s (setblkMicros s) := by
  unfold setblkMicros
  repeat' split
  case isFalse.isFalse.isFalse.isFalse => exact .last _
  all_goals exact .faults _ _

theorem decPrelude_placesCursor : PlacesCursor s (decPrelude s) := by
  unfold decPrelude
  split
  · exact .faults _ _
  · exact .first _ (.inr rfl)

theorem commandMicros_placesCursor {i : Instr} {op : Byte} (he : encode i = .cmd op) (hi : Part.cursor ∈ instrParts i) :
    PlacesCursor s (commandMicros i s) := by
  cases i with
  | seqParse => exact .first _ (.inl rfl)
  | seqSetblk => exact setblkMicros_placesCursor
  | fldUnpackLsd | fldUnpackGce | fldUnpackId | fldUnpackApp | fldUnpackU16 => exact unpackFixed_placesCursor _ _
  | fldUnpackCom | fldUnpackCt => exact unpackMicros_placesCursor _ _
  | lzwDec => exact decPrelude_placesCursor
  | extGce | extApp | extPte | extCom | img | trailer => cases he
  | sysNop | sysClrfault | sysAbort | sysReset | seqSerialize | seqGetblk | fldPackLsd | fldPackGce | fldPackId | fldPackApp | fldPackCom
  | fldPackCt | fldPackU16 | lzwEnc | lzwCode => simp [instrParts] at hi

/-- A command of a host that waits and that may move the cursor. -/
theorem startCommand_cursor {i : Instr} {op : Byte} (he : encode i = .cmd op) (hi : Part.cursor ∈ instrParts i) (hg : s.grant = none) :
    (startCommand (commandMicros i) s).ipos = s.ipos ∨ (startCommand (commandMicros i) s).ipos.toNat ≤ s.ilen.toNat := by
  have hplaces := commandMicros_placesCursor (s := commandStart s) he hi
  have hmicros := commandMicros_micro i (commandStart s)
  rw [startCommand_waits _ hg]
  generalize commandMicros i (commandStart s) = ms at hplaces hmicros
  cases hplaces with
  | faults =>
    rw [runMicros_raise, settle_ended (raiseFault_busy _ _ _)]
    exact .inl rfl
  | @first m ms hm =>
    obtain ⟨-, hms⟩ := List.forall_mem_cons.1 hmicros
    obtain ⟨hb, hplaced⟩ : (m.apply (commandStart s)).busy = true ∧ CursorWithin s.ilen.toNat (m.apply (commandStart s)) := by
      rcases hm with rfl | rfl <;> exact ⟨rfl, rfl, Nat.zero_le _, Nat.zero_le _⟩
    have htodo : (m.apply (commandStart s)).todo = [] := by rcases hm with rfl | rfl <;> rfl
    have hkeeps := cursorWithin_keeps s.ilen.toNat
    rw [runMicros_cons_busy _ hb]
    refine .inr (hkeeps.settle _ (hkeeps.runMicros_pending hb ⟨hplaced, by simp [htodo]⟩ fun n hn => ?_)).1.ipos
    exact ⟨fun p e => (hms n hn).ipos e, fun w e => ((hms n hn).work e).start⟩
  | last d =>
    rw [runMicros_doc _ rfl, runMicros_ipos _ rfl, runMicros_finish, settle_ended (complete_busy _ _)]
    exact .inr le_rfl

end

/-- Settles O53: a command that does not write the cursor leaves it; one that does keeps it in the input once it has set it. -/
theorem cursorStaysInInput : Obligations.CursorStaysInInput := by
  intro i op s t he hs h
  have hdoes := exec_does h
  by_cases hr : i = .sysReset
  · subst hr
    obtain rfl := Host.Outcome.next.inj h
    exact .inr le_rfl
  · by_cases hi : Part.cursor ∈ instrParts i
    · cases hdoes with
      | turnedAway => exact .inl rfl
      | @starts op' =>
        have hrun := startCommand_cursor (s := { s with cmd := op' }) he hi hs.grant
        rw [(startCommand_sameInputs (commandMicros i) { s with cmd := op' }).ilen]
        exact hrun
      | aborts _ hb => exact absurd hb (by simp [hs.busy])
      | resets hreset => exact absurd hreset hr
      | item hmem => exact absurd he (item_not_command hmem)
      | code hcode => rw [hcode] at he; cases he
    · exact .inl (hdoes.samePart hr (p := .cursor) hi)

end Sys2Proof.Machine
end

section
/-!
SUPPORT. Single steps (spec/10_state.md R23, R45, spec/45_system_commands.md R274, spec/60_exceptions.md R306, R307).
-/

namespace Sys2Proof.Machine

/-! ### The faulted state -/

/-- A command on a core that is idle under `FAULT`: the fault record stays with `FAULT`, which only `SYS.CLRFAULT` and `SYS.RESET` clear
(R271, R306, R307). -/
theorem ExecDoes.keepsFault {i : Instr} {op : Byte} {s t : State} (h : ExecDoes i s t) (hi : encode i = .cmd op) (hb : s.busy = false)
    (hf : s.fault = true) :
    (t.fault = true → t.fcause = s.fcause ∧ t.finfo = s.finfo) ∧ (t.fault = false → op = 0x01 ∨ op = 0x03) := by
  cases h with
  | turnedAway => exact ⟨fun _ => ⟨rfl, rfl⟩, fun h => absurd h (by simp [hf])⟩
  | @starts op' _ _ hstart =>
    obtain rfl : i = .sysClrfault := hstart.resolve_left (by simp [hf])
    cases hi
    refine ⟨fun hfault => ?_, fun _ => .inl rfl⟩
    rw [startCommand_clrfault] at hfault ⊢
    cases hg : s.grant with
    | none => simp [hg] at hfault
    | some n => exact ⟨rfl, rfl⟩
  | aborts _ hbusy => exact absurd hbusy (by simp [hb])
  | resets hreset =>
    subst hreset
    cases hi
    exact ⟨nofun, fun _ => .inr rfl⟩
  | item hmem => exact absurd hi (item_not_command hmem)
  | code hcode => rw [hcode] at hi; cases hi

/-- Settles O54: of the host's moves on an idle core only the two commands and the reset line touch `FAULT`. -/
theorem faultIsSticky : Obligations.FaultIsSticky := by
  intro s t hb hf h
  have hsticky {u : State} (hfault : u.fault = s.fault) (hcause : u.fcause = s.fcause) (hinfo : u.finfo = s.finfo) {p : Prop} :
      (u.fault = true → u.fcause = s.fcause ∧ u.finfo = s.finfo) ∧ (u.fault = false → p) :=
    ⟨fun _ => ⟨hcause, hinfo⟩, fun h => absurd h (by simp [hfault, hf])⟩
  cases step_does h with
  | core hbusy => exact absurd hbusy (by simp [hb])
  | @command a rest v pace i _ hh ha hi ht =>
    obtain ⟨hrecord, hcleared⟩ := ht.keepsFault hi hb hf
    refine ⟨hrecord, fun hfault => ⟨a, rest, hh, .inr ⟨v, pace, ?_, hcleared hfault⟩⟩⟩
    cases ha with
    | cmd => exact .inl rfl
    | wr => exact .inr rfl
  | @reserved a rest v pace hh ha =>
    rcases reservedCommand_cases (v.setWidth 8) { s with host := rest, grant := pace } with ⟨-, e⟩ | ⟨-, hno, -⟩
    · rw [e]
      exact hsticky rfl rfl rfl
    · exact absurd hf (by simp [show s.fault = false from hno])
  | @resetLine rest hh => exact ⟨nofun, fun _ => ⟨_, rest, hh, .inl rfl⟩⟩
  | access hsame => exact hsticky hsame.fault hsame.fcause hsame.finfo

/-! ### The instruction a step runs -/

/-- The host's move (R333). -/
theorem step_host {s : State} {a : HostAction} {rest : List HostAction} (hm : s.busy = false ∨ hostMoves s = true)
    (hh : s.host = a :: rest) : step s = hostAct a { s with host := rest } := by
  rcases step_cases s with ⟨hb, hno, -⟩ | ⟨-, hnil, -⟩ | ⟨a', rest', -, hh', e⟩
  · simp [hb, hno] at hm
  · simp [hh] at hnil
  · obtain ⟨rfl, rfl⟩ := List.cons.inj (hh.symm.trans hh')
    exact e

theorem hostCmd_decoded {v : Word} {i : Instr} (h : decodeCmd (v.setWidth 8) = .ok i) (pace : Option Nat) (s : State) :
    hostCmd v pace s = exec i { s with grant := pace } := by
  rw [hostCmd, h]

/-- What the running command reads at its cursor, `SEQ.PARSE` in `IBUF` and `LZW.DEC` in its accumulator (R30, R244). -/
theorem fetched_of_decoded {s : State} {i : Instr} (ht : s.todo = [])
    (h : (∃ w, s.work = .parse w ∧ decode (.blk (s.input.drop s.ipos.toNat)) = .ok i) ∨
      ∃ w, s.work = .dec w ∧ decode (.code w.width w.nb w.acc) = .ok i) : fetched s = some i := by
  rw [fetched, ht, List.isEmpty_nil, if_pos rfl]
  rcases h with ⟨w, hw, hd⟩ | ⟨w, hw, hd⟩ <;> rw [hw] <;> exact congrArg Except.toOption hd

theorem fetched_spendGrant (s : State) : fetched (spendGrant s) = fetched s := by
  unfold spendGrant
  split <;> rfl

/-- Where the running command reads an instruction, the core's move is its `exec`. -/
theorem exec_fetched {s : State} {i : Instr} (hb : s.busy = true) (hf : fetched s = some i) : exec i s = .next (coreTick s) := by
  rw [← coreStep_eq hb, coreStep, hf]

/-- Settles O4: for the host's move by the decoder of commands, for the core's by what the running command fetches. -/
theorem stepRunsDecodedInstruction : Obligations.StepRunsDecodedInstruction := by
  refine ⟨fun s v pace rest i hm hd => ⟨fun hh => ?_, fun hh => ?_⟩, fun s i hb hno ht hcursor => ⟨fun hg => ?_, ?_⟩⟩
  · exact (step_host hm hh).trans (hostCmd_decoded hd pace _)
  · exact (step_host hm hh).trans (hostCmd_decoded hd none _)
  · have hstay : (coreTick s).grant = none := (coreTick_sameInputs s).grant.trans hg
    have hspend : spendGrant s = s := by rw [spendGrant, hg]
    rw [step_core hb hno, hspend, endIfDone_waits hstay, exec_fetched hb (fetched_of_decoded ht hcursor)]
  · refine ⟨_, exec_fetched ((spendGrant_sameCore s).busy.trans hb) ?_, step_core hb hno⟩
    rw [fetched_spendGrant, fetched_of_decoded ht hcursor]

/-! ### Reset -/

/-- Settles O55: no cell, no document, no working state and no flag. -/
theorem resetMeetsTheInvariants : Obligations.ResetMeetsTheInvariants := by
  have hcells : CellsExist State.reset := by simp [CellsExist, State.reset]
  exact ⟨⟨.nil, .nil, .nil, .nil, .nil, .nil⟩, hcells, ⟨nofun, nofun, nofun, nofun⟩, ⟨nofun, nofun, List.forall_mem_nil _⟩,
    ⟨nofun, nofun⟩, List.forall_mem_nil _⟩

end Sys2Proof.Machine
end

section
/-!
SUPPORT. The memories of every step (spec/20_memory.md R60, R67, R68): a property of the indices of the listed cells that an empty memory has and
writes keep is kept by every micro-step, by every command and by every access of the host.
-/

namespace Sys2Proof.Machine

/-! ### Indices -/

/-- The indices of the cells that have a value. -/
def Memory.indices {α : Type} (m : Memory α) : List Nat := m.map Prod.fst

/-- Index `a` is one of a space of that size, or of one without bound (R9, R60). -/
def Inside (size : Option Nat) (a : Nat) : Prop :=
  match size with
  | some n => a < n
  | none => True

theorem cellExists_iff {s : State} {sp : Space} {i : Nat} : cellExists s sp i = true ↔ Inside (spaceSize s sp) i := by
  unfold cellExists Inside
  cases spaceSize s sp <;> simp

/-- As many cells of a space from index 0 on as exist are inside it. -/
theorem inside_of_cellsExist {s : State} {sp : Space} {n i : Nat} (h : cellsExist s sp n = true) (hi : i < n) :
    Inside (spaceSize s sp) i := by
  unfold cellsExist at h
  unfold Inside
  cases hsize : spaceSize s sp with
  | none => trivial
  | some c =>
    rw [hsize] at h
    exact hi.trans_le (of_decide_eq_true h)

/-- The cell at the length of an output that is not full (R303). -/
theorem inside_of_not_full {size : Option Nat} {len : Word} (h : outFull size len = false) : Inside size len.toNat := by
  cases size with
  | none => trivial
  | some n =>
    rw [outFull, Bool.or_eq_false_iff] at h
    exact Nat.not_le.1 (of_decide_eq_false h.1)

/-! ### What writes keep -/

/-- A property `P` of the indices of a memory of some size that an empty memory has and that a write keeps at every index `A` allows, among
them all that the space has. -/
structure IndexRule (P : Option Nat → List Nat → Prop) (A : Option Nat → Nat → Prop) : Prop where
  empty (size : Option Nat) : P size []
  write {α : Type} {size : Option Nat} {m : Memory α} {a : Nat} (v : α) :
    A size a → P size m.indices → P size (Memory.write m a v).indices
  inside {size : Option Nat} {a : Nat} : Inside size a → A size a

/-- The property holds of all memories, at the sizes of their spaces (R9, R33, R34). -/
structure MemoriesHave (P : Option Nat → List Nat → Prop) (s : State) : Prop where
  ibuf : P s.caps.ibuf (Memory.indices s.ibuf)
  obuf : P s.caps.obuf (Memory.indices s.obuf)
  sin : P s.caps.sin (Memory.indices s.sin)
  sout : P s.caps.sout (Memory.indices s.sout)
  ctm : P (some Config.ctMax) (Memory.indices s.ctm)
  comb : P (some Config.combSize) (Memory.indices s.comb)

section
variable {P : Option Nat → List Nat → Prop} {s t : State}

theorem MemoriesHave.spendGrant (hs : MemoriesHave P s) : MemoriesHave P (spendGrant s) := by
  unfold Machine.spendGrant
  split
  · exact { hs with }
  · exact hs
  · exact hs

/-- A register write writes no cell (R21, R22). -/
theorem MemoriesHave.writeReg {n : Nat} {v : Word} (hs : MemoriesHave P s) (ht : writeReg n v s = .next t) : MemoriesHave P t := by
  unfold Machine.writeReg at ht
  repeat' split at ht
  all_goals cases ht
  all_goals exact { hs with }

/-- A read changes nothing (R67). -/
theorem hostRead_next {n : Nat} (ht : hostRead n s = .next t) : s = t := by
  unfold hostRead at ht
  repeat' split at ht
  all_goals cases ht
  rfl

theorem hostPeek_next {sp : Space} {i : Nat} (ht : hostPeek sp i s = .next t) : s = t := by
  unfold hostPeek at ht
  repeat' split at ht
  all_goals cases ht
  rfl

end

/-- A micro-step writes the field memories only at indices that `A` allows. -/
def WritesAllowed (A : Option Nat → Nat → Prop) (m : Micro) : Prop :=
  (∀ k c, m = .ctm k c → A (some Config.ctMax) k) ∧ ∀ k b, m = .comb k b → A (some Config.combSize) k

/-- The loop of a running command writes no field memory (R133, R223, R254). -/
theorem loopMicros_writesAllowed (A : Option Nat → Nat → Prop) (s : State) : ∀ m ∈ loopMicros s, WritesAllowed A m := by
  have hloop : Part.ctm ∉ s.work.parts ∧ Part.comb ∉ s.work.parts := by cases s.work <;> simp [Work.parts]
  intro m hm
  have hparts := (loopMicros_micro s m hm).parts
  constructor <;> rintro k v rfl
  · exact absurd (hparts .ctm List.mem_cons_self) hloop.1
  · exact absurd (hparts .comb List.mem_cons_self) hloop.2

section
variable {s : State}

/-- A micro-step of an unpack is one of its writes, of a record that has a length it takes, or writes no part but the cursor (R170, R172). -/
theorem mem_unpackMicros {lengthOk : List Byte → Bool} {writes : List Byte → List Micro} {m : Micro}
    (hm : m ∈ unpackMicros lengthOk writes s) :
    (lengthOk s.input = true ∧ m ∈ writes s.input) ∨ ∀ p ∈ m.parts, p = .cursor := by
  unfold unpackMicros at hm
  split at hm
  · rw [List.mem_singleton.1 hm]
    exact .inr (List.forall_mem_nil _)
  · rcases List.mem_cons.1 hm with rfl | hm
    · exact .inr (List.forall_mem_singleton.2 rfl)
    · split at hm
      · rcases List.mem_append.1 hm with hm | hm
        · exact .inl ⟨‹_›, hm⟩
        · simp only [List.mem_cons, List.not_mem_nil, or_false] at hm
          rcases hm with rfl | rfl
          · exact .inr (List.forall_mem_singleton.2 rfl)
          · exact .inr (List.forall_mem_nil _)
      · rw [List.mem_singleton.1 hm]
        exact .inr (List.forall_mem_nil _)

/-- `FLD.UNPACK_CT` writes cells of `CTM` (R33, R194). -/
theorem unpackCt_inside {k : Nat} {c : Color} (hm : Micro.ctm k c ∈ unpackMicros ctLengthOk ctWrites s) :
    Inside (some Config.ctMax) k := by
  rcases mem_unpackMicros hm with ⟨hlen, hm⟩ | hcursor
  · have hle : s.input.length ≤ 768 := of_decide_eq_true (Bool.and_eq_true_iff.1 hlen).2
    obtain ⟨hk, -⟩ : k < s.input.length / 3 ∧ _ = c := by simpa [ctWrites] using hm
    show k < 256
    omega
  · cases hcursor .ctm List.mem_cons_self

/-- `FLD.UNPACK_COM` writes cells of `COMB` (R34, R190). -/
theorem unpackCom_inside {k : Nat} {b : Byte} (hm : Micro.comb k b ∈ unpackMicros comLengthOk comWrites s) :
    Inside (some Config.combSize) k := by
  rcases mem_unpackMicros hm with ⟨-, hm⟩ | hcursor
  · obtain ⟨hk, -⟩ : k < (rawAt s.input 2).toNat ∧ _ = b := by simpa [comWrites, setByte] using hm
    have hbyte := (rawAt s.input 2).isLt
    show k < 255
    omega
  · cases hcursor .comb List.mem_cons_self

end

namespace IndexRule
variable {P : Option Nat → List Nat → Prop} {A : Option Nat → Nat → Prop} (h : IndexRule P A) {s t : State}
include h

/-- A load of cells that are all in the space. -/
theorem fill {α : Type} {size : Option Nat} {m : Memory α} (xs : List α) {a : Nat} (hins : ∀ k, k < a + xs.length → Inside size k)
    (hm : P size m.indices) : P size (Memory.fill m a xs).indices := by
  induction xs generalizing m a with
  | nil => exact hm
  | cons x xs ih =>
    have hlen : a + (x :: xs).length = a + 1 + xs.length := by simp only [List.length_cons]; omega
    rw [hlen] at hins
    exact ih hins (h.write x (h.inside (hins a (by omega))) hm)

/-! ### The core -/

/-- Every micro-step keeps the property, and no loop writes a field memory. -/
theorem keeps : Keeps (MemoriesHave P) (WritesAllowed A) where
  todo _ hs := { hs with }
  loop _ _ := loopMicros_writesAllowed A _
  apply {m s} _ hm hs := by
    cases m with
    | out b =>
      rcases outByte_cases b s with ⟨-, e⟩ | ⟨hroom, e⟩ <;> simp only [Micro.apply, e]
      · exact { hs with }
      · exact { hs with obuf := h.write b (h.inside (inside_of_not_full hroom)) hs.obuf }
    | outs x =>
      rcases outSymbol_cases x s with ⟨-, e⟩ | ⟨hroom, e⟩ <;> simp only [Micro.apply, e]
      · exact { hs with }
      · exact { hs with sout := h.write x (h.inside (inside_of_not_full hroom)) hs.sout }
    | olen0 => exact { hs with obuf := h.empty _ }
    | solen0 => exact { hs with sout := h.empty _ }
    | ctm k c => exact { hs with ctm := h.write c (hm.1 k c rfl) hs.ctm }
    | comb k b => exact { hs with comb := h.write b (hm.2 k b rfl) hs.comb }
    | ipos | mcs | clearFault | clearCause | clearInfo | dropDoc | doc | field | work | raise | finish => exact { hs with }

/-- The two commands that write a field memory stay inside it; no other has such a micro-step (R92). -/
theorem commandMicros_writesAllowed (i : Instr) (s : State) : ∀ m ∈ commandMicros i s, WritesAllowed A m := by
  intro m hm
  have hparts := (commandMicros_micro i s m hm).parts
  constructor <;> rintro k v rfl
  · obtain rfl := ctm_mem_instrParts.1 (hparts .ctm List.mem_cons_self)
    exact h.inside (unpackCt_inside hm)
  · obtain rfl := comb_mem_instrParts.1 (hparts .comb List.mem_cons_self)
    exact h.inside (unpackCom_inside hm)

theorem startCommand {micros : State → List Micro} (hs : MemoriesHave P s)
    (hms : ∀ m ∈ micros (commandStart s), WritesAllowed A m) :
    Pending (MemoriesHave P) (WritesAllowed A) (Machine.startCommand micros s) :=
  h.keeps.startCommand { hs with } hms

/-- A reset leaves no cell (R45). -/
theorem reset (s : State) : Pending (MemoriesHave P) (WritesAllowed A) (resetCore s) :=
  ⟨⟨h.empty _, h.empty _, h.empty _, h.empty _, h.empty _, h.empty _⟩, List.forall_mem_nil _⟩

/-! ### The host -/

/-- A command written by the host. -/
theorem exec {i : Instr} {op : Byte} (hi : encode i = .cmd op) (hs : Pending (MemoriesHave P) (WritesAllowed A) s)
    (ht : ExecDoes i s t) : Pending (MemoriesHave P) (WritesAllowed A) t := by
  obtain ⟨hmem, htodo⟩ := hs
  cases ht with
  | turnedAway => exact ⟨{ hmem with }, htodo⟩
  | starts => exact h.startCommand { hmem with } (h.commandMicros_writesAllowed i _)
  | aborts => exact ⟨{ hmem with }, List.forall_mem_nil _⟩
  | resets => exact h.reset s
  | item hitem => exact absurd hi (item_not_command hitem)
  | code hcode => rw [hcode] at hi; cases hi

/-- A write to `CMD` (R23, R95). -/
theorem hostCmd {v : Word} {pace : Option Nat} (hs : Pending (MemoriesHave P) (WritesAllowed A) s)
    (ht : Machine.hostCmd v pace s = .next t) : Pending (MemoriesHave P) (WritesAllowed A) t := by
  obtain ⟨hmem, htodo⟩ := hs
  have hpaced : Pending (MemoriesHave P) (WritesAllowed A) { s with grant := pace } := ⟨{ hmem with }, htodo⟩
  unfold Machine.hostCmd at ht
  split at ht
  · exact h.exec (encode_of_decodeCmd ‹_›) hpaced (exec_does ht)
  · obtain rfl := Host.Outcome.next.inj ht
    rcases reservedCommand_cases (v.setWidth 8) { s with grant := pace } with ⟨-, e⟩ | ⟨-, -, e⟩ <;> rw [e]
    · exact ⟨{ hmem with }, htodo⟩
    · exact h.startCommand { hmem with } (List.forall_mem_singleton.2 ⟨nofun, nofun⟩)

theorem hostPut {sp : Space} {i : Nat} {v : Word} (hs : MemoriesHave P s) (ht : Machine.hostPut sp i v s = .next t) :
    MemoriesHave P t := by
  unfold Machine.hostPut at ht
  split at ht
  · cases ht
  · split at ht
    · cases ht
    · rename_i hex
      have hi : A (spaceSize s sp) i := h.inside (cellExists_iff.1 (Bool.eq_true_of_not_eq_false hex))
      cases sp with
      | ibuf => cases ht; exact { hs with ibuf := h.write _ hi hs.ibuf }
      | sin => cases ht; exact { hs with sin := h.write _ hi hs.sin }
      | ctm => cases ht; exact { hs with ctm := h.write _ hi hs.ctm }
      | comb => cases ht; exact { hs with comb := h.write _ hi hs.comb }
      | obuf | sout => cases ht

/-- A load of a whole memory that fits its space (R93). -/
theorem load {α : Type} {sp : Space} {xs : List α} {m : Memory α} (hfit : cellsExist s sp xs.length = true)
    (hm : P (spaceSize s sp) m.indices) : P (spaceSize s sp) (Memory.fill m 0 xs).indices :=
  h.fill xs (fun _ hk => inside_of_cellsExist hfit (by omega)) hm

theorem hostIbuf {bs : List Byte} (hs : MemoriesHave P s) (ht : Machine.hostIbuf bs s = .next t) : MemoriesHave P t := by
  unfold Machine.hostIbuf at ht
  split at ht <;> cases ht
  exact { hs with ibuf := h.load (sp := .ibuf) ‹_› hs.ibuf }

theorem hostSin {xs : List Symbol} (hs : MemoriesHave P s) (ht : Machine.hostSin xs s = .next t) : MemoriesHave P t := by
  unfold Machine.hostSin at ht
  split at ht <;> cases ht
  exact { hs with sin := h.load (sp := .sin) ‹_› hs.sin }

theorem hostCtm {cs : List Color} (hs : MemoriesHave P s) (ht : Machine.hostCtm cs s = .next t) : MemoriesHave P t := by
  unfold Machine.hostCtm at ht
  split at ht <;> cases ht
  exact { hs with ctm := h.load (sp := .ctm) ‹_› hs.ctm }

theorem hostComb {bs : List Byte} (hs : MemoriesHave P s) (ht : Machine.hostComb bs s = .next t) : MemoriesHave P t := by
  unfold Machine.hostComb at ht
  split at ht <;> cases ht
  exact { hs with comb := h.load (sp := .comb) ‹_› hs.comb }

theorem hostMv (hs : MemoriesHave P s) (ht : Machine.hostMv s = .next t) : MemoriesHave P t := by
  unfold Machine.hostMv at ht
  split at ht
  · exact h.hostIbuf hs ht
  · cases ht

theorem hostMvs (hs : MemoriesHave P s) (ht : Machine.hostMvs s = .next t) : MemoriesHave P t := by
  unfold Machine.hostMvs at ht
  split at ht
  · exact h.hostSin hs ht
  · cases ht

/-- Every action of the host keeps the property: a write to `CMD`, the reset line, or an access that leaves the pending micro-steps. -/
theorem hostAct {a : HostAction} (hs : Pending (MemoriesHave P) (WritesAllowed A) s) (ht : Machine.hostAct a s = .next t) :
    Pending (MemoriesHave P) (WritesAllowed A) t := by
  have access {act : State → Host.Outcome State Fault Refusal} (hsame : act s = .next t → SameCore s t)
      (hmem : act s = .next t → MemoriesHave P t) (hidle : whenIdle act s = .next t) :
      Pending (MemoriesHave P) (WritesAllowed A) t := by
    obtain ⟨-, hact⟩ := whenIdle_next hidle
    exact ⟨hmem hact, by rw [(hsame hact).todo]; exact hs.2⟩
  cases a with
  | cmd v pace => exact h.hostCmd hs ht
  | resetLine =>
    obtain rfl := Host.Outcome.next.inj ht
    exact h.reset s
  | poll n =>
    obtain rfl := Host.Outcome.next.inj ht
    exact ⟨{ hs.1 with }, hs.2⟩
  | wr r v =>
    change (if r = 0 then Machine.hostCmd v none s else whenIdle (writeReg r v) s) = _ at ht
    split at ht
    · exact h.hostCmd hs ht
    · exact access writeReg_sameCore hs.1.writeReg ht
  | rd r => exact hostRead_next ht ▸ hs
  | peek sp i => exact hostPeek_next ht ▸ hs
  | put sp i v => exact access hostPut_sameCore (h.hostPut hs.1) ht
  | ibuf bs => exact access hostIbuf_sameCore (h.hostIbuf hs.1) ht
  | sin xs => exact access hostSin_sameCore (h.hostSin hs.1) ht
  | ctm cs => exact access hostCtm_sameCore (h.hostCtm hs.1) ht
  | comb bs => exact access hostComb_sameCore (h.hostComb hs.1) ht
  | mv => exact access hostMv_sameCore (h.hostMv hs.1) ht
  | mvs => exact access hostMvs_sameCore (h.hostMvs hs.1) ht

/-- Every step keeps the property. -/
theorem step (hs : Pending (MemoriesHave P) (WritesAllowed A) s) (ht : Machine.step s = .next t) :
    Pending (MemoriesHave P) (WritesAllowed A) t := by
  obtain ⟨hmem, htodo⟩ := hs
  rcases step_cases s with ⟨hb, -, e⟩ | ⟨-, -, e⟩ | ⟨a, rest, -, -, e⟩ <;> rw [e] at ht
  · obtain rfl := Host.Outcome.next.inj ht
    have hsame := spendGrant_sameCore s
    have hspend : Pending (MemoriesHave P) (WritesAllowed A) (spendGrant s) :=
      ⟨hmem.spendGrant, by rw [hsame.todo]; exact htodo⟩
    exact h.keeps.endIfDone (h.keeps.coreTick (hsame.busy.trans hb) hspend)
  · obtain rfl := Host.Outcome.next.inj ht
    exact ⟨hmem, htodo⟩
  · have hrest : Pending (MemoriesHave P) (WritesAllowed A) { s with host := rest } := ⟨{ hmem with }, htodo⟩
    exact h.hostAct hrest ht

end IndexRule

/-! ### The canonical form -/

/-- The indices of a memory rise strictly. -/
def Rising (_ : Option Nat) (is : List Nat) : Prop := is.Pairwise (· < ·)

theorem rising_iff {α : Type} {size : Option Nat} {m : Memory α} : Rising size m.indices ↔ Memory.wf m := List.pairwise_map

/-- A write at any index keeps the canonical form. -/
theorem rising_rule : IndexRule Rising (fun _ _ => True) where
  empty _ := .nil
  write v _ hm := rising_iff.2 (Memory.write_wf (rising_iff.1 hm) _ v)
  inside _ := trivial

theorem memoriesCanonical_iff {s : State} :
    MemoriesCanonical s ↔ Pending (MemoriesHave Rising) (WritesAllowed fun _ _ => True) s := by
  constructor
  · rintro ⟨hibuf, hobuf, hsin, hsout, hctm, hcomb⟩
    exact ⟨⟨rising_iff.2 hibuf, rising_iff.2 hobuf, rising_iff.2 hsin, rising_iff.2 hsout, rising_iff.2 hctm, rising_iff.2 hcomb⟩,
      fun _ _ => ⟨fun _ _ _ => trivial, fun _ _ _ => trivial⟩⟩
  · rintro ⟨h, -⟩
    exact ⟨rising_iff.1 h.ibuf, rising_iff.1 h.obuf, rising_iff.1 h.sin, rising_iff.1 h.sout, rising_iff.1 h.ctm, rising_iff.1 h.comb⟩

/-- Settles O56: every memory starts anew empty or is written, and a write keeps the indices rising. -/
theorem stepKeepsMemoriesCanonical : Obligations.StepKeepsMemoriesCanonical :=
  fun _ _ hs h => memoriesCanonical_iff.2 (rising_rule.step (memoriesCanonical_iff.1 hs) h)

/-! ### The spaces -/

/-- The indices of a memory are those of a space of that size. -/
def AllInside (size : Option Nat) (is : List Nat) : Prop := ∀ i ∈ is, Inside size i

/-- A write inside the space keeps the cells inside it. -/
theorem allInside_rule : IndexRule AllInside Inside where
  empty _ := List.forall_mem_nil _
  write v ha hm := List.forall_mem_map.2 fun _ hx => by
    rcases Memory.mem_write hx with rfl | hx
    · exact ha
    · exact List.forall_mem_map.1 hm _ hx
  inside := id

theorem allInside_iff {α : Type} {s : State} {m : Memory α} (sp : Space) :
    AllInside (spaceSize s sp) m.indices ↔ ∀ x ∈ m, cellExists s sp x.1 = true := by
  simp only [cellExists_iff]
  exact List.forall_mem_map

theorem cellsExist_iff {s : State} : CellsExist s ↔ Pending (MemoriesHave AllInside) (WritesAllowed Inside) s := by
  constructor
  · rintro ⟨hibuf, hobuf, hsin, hsout, hctm, hcomb, htodo⟩
    exact ⟨⟨(allInside_iff .ibuf).2 hibuf, (allInside_iff .obuf).2 hobuf, (allInside_iff .sin).2 hsin, (allInside_iff .sout).2 hsout,
      (allInside_iff .ctm).2 hctm, (allInside_iff .comb).2 hcomb⟩, htodo⟩
  · rintro ⟨h, htodo⟩
    exact ⟨(allInside_iff .ibuf).1 h.ibuf, (allInside_iff .obuf).1 h.obuf, (allInside_iff .sin).1 h.sin, (allInside_iff .sout).1 h.sout,
      (allInside_iff .ctm).1 h.ctm, (allInside_iff .comb).1 h.comb, htodo⟩

/-- Settles O57: an output that is not full has a cell at its length, the two commands that write a field memory write cells it has, and a host
access of a cell a space does not have is a fault. -/
theorem stepKeepsCellsInTheirSpaces : Obligations.StepKeepsCellsInTheirSpaces :=
  fun _ _ hs h => cellsExist_iff.2 (allInside_rule.step (cellsExist_iff.1 hs) h)

end Sys2Proof.Machine
end

section
/-!
SUPPORT. The blocks of the container stream, read forwards (spec/30_encoding.md R97 to R110, spec/40_block_parser.md R133 to R141): whatever has the
shape of a block is cut as that block and joins the frame attempt.
-/

namespace Sys2Proof.Machine

/-! ### The cursor over bytes that are there -/

/-- The cursor went from `o` to `c` over exactly the bytes `bs`, and `rest` is still to come. -/
structure Cut.Passes (o : Cut) (bs rest : List Byte) (c : Cut) : Prop where
  along : o.Along c
  before : o.rest = bs ++ rest
  pos : c.pos = o.pos + bs.length

namespace Cut.Passes
variable {o c c' : Cut} {bs bs' more : List Byte}

theorem rest (h : o.Passes bs more c) : c.rest = more := by
  rw [h.along.rest, h.pos, h.before, Nat.add_sub_cancel_left, List.drop_left]

theorem since (h : o.Passes bs more c) : o.since c = bs := by
  rw [Cut.since, h.pos, h.before, Nat.add_sub_cancel_left, List.take_left]

theorem trans (h : o.Passes bs (bs' ++ more) c) (k : c.Passes bs' more c') : o.Passes (bs ++ bs') more c' :=
  ⟨h.along.trans k.along, by rw [h.before, List.append_assoc], by rw [k.pos, h.pos, List.length_append, Nat.add_assoc]⟩

end Cut.Passes

/-- `take(n)` where `n` bytes are left (R13). -/
theorem Cut.take_passes {o : Cut} {bs rest : List Byte} (h : o.rest = bs ++ rest) {n : Nat} (hn : bs.length = n) :
    ∃ c, o.take n = .ok (bs, c) ∧ o.Passes bs rest c := by
  subst hn
  have htake : o.take bs.length = .ok (bs, ⟨o.pos + bs.length, rest, o.cuts ++ [o.pos + bs.length]⟩) := by
    rw [Cut.take, h, if_pos (by simp), List.take_left, List.drop_left]
  exact ⟨_, htake, (Cut.take_ok htake).1, h, rfl⟩

/-- The payload of a sub-block is passed to its last byte (R109). -/
theorem chainWalk_payload (b : Byte) (bs rest : List Byte) (pos : Nat) :
    chainWalk (b :: bs).length pos ((b :: bs) ++ rest) =
      let r := chainWalk 0 (pos + (b :: bs).length) rest
      ((pos + (b :: bs).length) :: r.1, r.2) := by
  induction bs generalizing b pos with
  | nil => rfl
  | cons b' bs ih =>
    have hpos : pos + 1 + (b' :: bs).length = pos + (b :: b' :: bs).length := by
      simp only [List.length_cons]
      omega
    rw [← hpos, ← ih b' (pos + 1), List.length_cons (a := b), List.cons_append, chainWalk]
    exact if_neg (Nat.succ_ne_zero _)

/-- A chain is walked to the position behind its terminator (R109, R151). -/
theorem chainWalk_chainBytes {blocks : List (List Byte)} (hblocks : SubBlocks blocks) (rest : List Byte) (pos : Nat) :
    ∃ l, chainWalk 0 pos (chainBytes blocks ++ rest) = (l ++ [pos + (chainBytes blocks).length], true) := by
  induction blocks generalizing pos with
  | nil => exact ⟨[], rfl⟩
  | cons block blocks ih =>
    obtain ⟨hblock, htail⟩ := List.forall_mem_cons.1 hblocks
    obtain ⟨b, bs, rfl⟩ := List.exists_cons_of_length_pos hblock.1
    have hlen : (BitVec.ofNat 8 (b :: bs).length).toNat = (b :: bs).length := Nat.mod_eq_of_lt (by omega)
    have hne : BitVec.ofNat 8 (b :: bs).length ≠ 0 := fun h0 => by
      rw [h0] at hlen
      cases hlen
    obtain ⟨l, hl⟩ := ih htail (pos + 1 + (b :: bs).length)
    have hbytes : chainBytes ((b :: bs) :: blocks) ++ rest =
        BitVec.ofNat 8 (b :: bs).length :: ((b :: bs) ++ (chainBytes blocks ++ rest)) := by
      simp [chainBytes]
    have hend : pos + 1 + (b :: bs).length + (chainBytes blocks).length = pos + (chainBytes ((b :: bs) :: blocks)).length := by
      simp only [chainBytes_length, List.flatten_cons, List.length_append, List.length_cons]
      omega
    refine ⟨(pos + 1) :: (pos + 1 + (b :: bs).length) :: l, ?_⟩
    rw [hbytes, chainWalk, if_neg hne, hlen, chainWalk_payload, hl, hend]
    rfl

/-- `chain()` where a chain is left (R151). -/
theorem Cut.chain_passes {o : Cut} {bs rest : List Byte} (hbs : IsChain bs) (h : o.rest = bs ++ rest) :
    ∃ c, o.chain = .ok c ∧ o.Passes bs rest c := by
  obtain ⟨blocks, hblocks, rfl⟩ := hbs
  obtain ⟨l, hl⟩ := chainWalk_chainBytes hblocks rest o.pos
  have hchain : o.chain = .ok ⟨o.pos + (chainBytes blocks).length, o.rest.drop (chainBytes blocks).length,
      o.cuts ++ (l ++ [o.pos + (chainBytes blocks).length])⟩ := by
    simp [Cut.chain, h, hl]
  exact ⟨_, hchain, Cut.chain_ok hchain, h, rfl⟩

/-! ### Whole blocks are cut -/

/-- A step of an `Except` computation that is known. -/
theorem bind_of_ok {ε α β : Type} {x : Except ε α} {a : α} (h : x = .ok a) (f : α → Except ε β) : (x >>= f) = f a := by rw [h]; rfl

/-- An extension of each kind is cut whole (R135 to R138). -/
theorem cutExt_passes {k : ExtKind} {o : Cut} {bs rest : List Byte} (hbs : ExtShape k bs) (h : o.rest = bs ++ rest) :
    ∃ c, cutExt k o = .ok c ∧ o.Passes bs rest c := by
  cases k with
  | gce | app =>
    obtain ⟨x, hx, rfl⟩ := hbs
    obtain ⟨c, hc, hpass⟩ := Cut.take_passes h (by rw [List.length_cons, List.length_cons, hx])
    exact ⟨c, bind_of_ok hc _, hpass⟩
  | pte =>
    obtain ⟨x, ch, hx, hch, rfl⟩ := hbs
    obtain ⟨c₁, h₁, p₁⟩ := Cut.take_passes (bs := [0x21, 0x01]) (rest := BitVec.ofNat 8 x.length :: (x ++ ch) ++ rest) h rfl
    obtain ⟨c₂, h₂, p₂⟩ := Cut.take_passes (bs := [BitVec.ofNat 8 x.length]) (rest := x ++ (ch ++ rest))
      (p₁.rest.trans (by simp)) rfl
    have hn : x.length = (rawAt [BitVec.ofNat 8 x.length] 0).toNat := (Nat.mod_eq_of_lt (by omega)).symm
    obtain ⟨c₃, h₃, p₃⟩ := Cut.take_passes (o := c₂) p₂.rest hn
    obtain ⟨c₄, h₄, p₄⟩ := Cut.chain_passes hch p₃.rest
    refine ⟨c₄, ?_, ?_⟩
    · exact (bind_of_ok h₁ _).trans ((bind_of_ok h₂ _).trans ((bind_of_ok h₃ _).trans h₄))
    · have p₂₄ : c₁.Passes (BitVec.ofNat 8 x.length :: (x ++ ch)) rest c₄ := Cut.Passes.trans (by simpa using p₂) (p₃.trans p₄)
      exact Cut.Passes.trans (bs := [0x21, 0x01]) p₁ p₂₄
  | com =>
    obtain ⟨ch, hch, rfl⟩ := hbs
    obtain ⟨c₁, h₁, p₁⟩ := Cut.take_passes (bs := [0x21, 0xFE]) (rest := ch ++ rest) h rfl
    obtain ⟨c₂, h₂, p₂⟩ := Cut.chain_passes hch p₁.rest
    exact ⟨c₂, (bind_of_ok h₁ _).trans h₂, p₁.trans p₂⟩

/-- A colour table's length from the size field of the byte that owns it (R100, R107). -/
theorem tableLen_eq (b : Byte) : tableLen b = 3 * 2 ^ (b.toNat % 8 + 1) := by
  rw [tableLen, BitVec.toNat_and, show (7 : Byte).toNat = 2 ^ 3 - 1 from rfl, Nat.and_two_pow_sub_one_eq_mod]

/-- The flag in the top bit of a packed byte (R106). -/
theorem getLsbD_seven (b : Byte) : b.getLsbD 7 = decide (128 ≤ b.toNat) := BitVec.msb_eq_decide b

/-- An image is cut whole, and into its three blocks (R139, R140). -/
theorem cutImg_passes {o : Cut} {id lct idb rest : List Byte} (hi : ImageShape id lct idb) (h : o.rest = id ++ lct ++ idb ++ rest) :
    ∃ c, cutImg o = .ok ⟨id, lct, idb, c⟩ ∧ o.Passes (id ++ lct ++ idb) rest c := by
  obtain ⟨hid, hsep, hlct, m, ch, hch, rfl⟩ := hi
  obtain ⟨c₁, h₁, p₁⟩ := Cut.take_passes (rest := lct ++ (m :: ch ++ rest)) (h.trans (by simp)) hid
  have hsep' : rawAt id 0 = Config.imgSep := by
    rw [rawAt, List.getD_eq_getElem?_getD, ← List.head?_eq_getElem?, hsep]
    rfl
  have hlct' : ∃ c₂, (if (rawAt id 9).getLsbD 7 then c₁.take (tableLen (rawAt id 9)) else .ok ([], c₁)) = .ok (lct, c₂) ∧
      o.Passes (id ++ lct) (m :: ch ++ rest) c₂ := by
    rw [getLsbD_seven, tableLen_eq]
    split at hlct
    · obtain ⟨c₂, h₂, p₂⟩ := Cut.take_passes p₁.rest hlct
      exact ⟨c₂, by rw [if_pos (decide_eq_true ‹_›)]; exact h₂, p₁.trans p₂⟩
    · subst hlct
      exact ⟨c₁, if_neg (mt of_decide_eq_true ‹_›), by simpa using p₁⟩
  obtain ⟨c₂, h₂, p₂⟩ := hlct'
  obtain ⟨c₃, h₃, p₃⟩ := Cut.take_passes (bs := [m]) (n := 1) p₂.rest rfl
  obtain ⟨c₄, h₄, p₄⟩ := Cut.chain_passes hch p₃.rest
  have p₃₄ : c₂.Passes (m :: ch) rest c₄ := p₃.trans p₄
  refine ⟨c₄, ?_, p₂.trans p₃₄⟩
  rw [cutImg, bind_of_ok h₁]
  show (if rawAt id 0 ≠ Config.imgSep then _ else _) = _
  rw [if_neg (not_not.2 hsep'), bind_of_ok h₂, bind_of_ok h₃, bind_of_ok h₄]
  simp only [p₃₄.since]
  rfl

/-! ### The cursor register -/

/-- Moving the cursor over a block that was cut (R30). -/
theorem Cut.Passes.ipos {s : State} {bs rest : List Byte} {c : Cut} (h : (cutHere s).Passes bs rest c)
    (hpos : s.ipos.toNat ≤ s.input.length) : (c.cuts.map Word.ofNat).getLastD s.ipos = s.ipos + Word.ofNat bs.length := by
  obtain ⟨hcur, -, hle⟩ := h.along.ipos hpos
  have hend : c.pos = s.ipos.toNat + bs.length := h.pos
  have hlt := s.ilen.isLt
  rw [s.input_length] at hle
  apply BitVec.eq_of_toNat_eq
  rw [hcur, hend, BitVec.toNat_add, BitVec.toNat_ofNat, Nat.add_mod_mod, Nat.mod_eq_of_lt (by omega)]

/-- Bytes left at the cursor are bytes of the input. -/
theorem CursorAt.split {bs : List Byte} {s : State} (h : CursorAt bs s) (hne : bs ≠ []) :
    (∃ rest, (cutHere s).rest = bs ++ rest) ∧ s.ipos.toNat ≤ s.input.length := by
  obtain ⟨rest, hrest⟩ := h
  refine ⟨⟨rest, hrest.symm⟩, Nat.le_of_not_lt fun hlt => hne ?_⟩
  rw [List.drop_eq_nil_of_le (le_of_lt hlt)] at hrest
  exact (List.append_eq_nil_iff.1 hrest).1

theorem ExtShape.ne_nil {k : ExtKind} {bs : List Byte} (h : ExtShape k bs) : bs ≠ [] := by
  cases k with
  | gce | app => obtain ⟨x, -, rfl⟩ := h; exact List.cons_ne_nil _ _
  | pte => obtain ⟨x, c, -, -, rfl⟩ := h; exact List.cons_ne_nil _ _
  | com => obtain ⟨c, -, rfl⟩ := h; exact List.cons_ne_nil _ _

theorem ImageShape.ne_nil {id lct idb : List Byte} (h : ImageShape id lct idb) : id ++ lct ++ idb ≠ [] := by
  obtain ⟨-, hsep, -, -⟩ := h
  obtain ⟨id, rfl⟩ := List.head?_eq_some_iff.1 hsep
  exact List.cons_ne_nil _ _

/-! ### The items of a frame attempt -/

/-- An extension list has an extension of a kind (R152). -/
theorem any_kind_iff {exts : List (ExtKind × List Byte)} {k : ExtKind} :
    exts.any (fun e => e.1 == k) = true ↔ k ∈ exts.map (fun e => e.1) := by
  rw [List.any_eq_true, List.mem_map]
  simp only [beq_iff_eq]

section
variable {s : State} {w : ParseWork}

/-- An extension of a kind the attempt does not have yet joins it (R134 to R138). -/
theorem runMicros_extMicros {k : ExtKind} {bs : List Byte} (hb : s.busy = true) (hk : k ∉ w.exts.map (fun e => e.1))
    (hbs : ExtShape k bs) (hc : CursorAt bs s) :
    runMicros (extMicros k w s) s = { s with
      ipos := s.ipos + Word.ofNat bs.length
      work := .parse { w with exts := w.exts ++ [(k, bs)] } } := by
  obtain ⟨⟨rest, hrest⟩, hpos⟩ := hc.split hbs.ne_nil
  obtain ⟨c, hcut, hpass⟩ := cutExt_passes hbs hrest
  rw [extMicros, if_neg (mt any_kind_iff.1 hk), hcut]
  simp only
  rw [runMicros_cursorMoves c _ hb, runMicros_work _ (by exact hb), runMicros_nil, hpass.since, hpass.ipos hpos]

/-- `FRAMES_MAX` leaves room for a frame (R9, R145). -/
theorem framesFull_eq_false (h : ∀ c, s.caps.frames = some c → w.frames.length < c) : framesFull s.caps w = false := by
  rw [framesFull, Option.any_eq_false]
  exact fun c hc => by simpa using h c hc

/-- An image makes the attempt a frame (R133, R134, R139, R140). -/
theorem runMicros_imgMicros {id lct idb : List Byte} (hb : s.busy = true) (hi : ImageShape id lct idb)
    (hc : CursorAt (id ++ lct ++ idb) s) (hroom : ∀ c, s.caps.frames = some c → w.frames.length < c) :
    runMicros (imgMicros w s) s = { s with
      ipos := s.ipos + Word.ofNat (id ++ lct ++ idb).length
      work := .parse { w with
        frames := w.frames ++ [⟨w.exts, id, lct, idb⟩]
        start := s.ipos.toNat + (id ++ lct ++ idb).length
        exts := [] } } := by
  obtain ⟨⟨rest, hrest⟩, hpos⟩ := hc.split hi.ne_nil
  obtain ⟨c, hcut, hpass⟩ := cutImg_passes hi hrest
  rw [imgMicros, hcut]
  simp only
  rw [framesFull_eq_false hroom, if_neg (by decide), runMicros_cursorMoves c _ hb, runMicros_work _ (by exact hb), runMicros_nil,
    hpass.ipos hpos, hpass.pos]
  rfl

/-- A byte that begins no block ends the frame loop (R139, R141), whether or not ten bytes are left. -/
theorem runMicros_noSeparatorMicros (hb : s.busy = true) : runMicros (noSeparatorMicros w s) s = framesEnd w s := by
  unfold noSeparatorMicros
  split
  · exact runMicros_endOfFrames w hb .rfl
  · rw [runMicros_cursorMoves _ _ hb, runMicros_endOfFrames w (s := s) (by exact hb) (by constructor <;> rfl)]
    rfl

/-! ### What the decoder reads at the cursor -/

theorem attemptMicros_ext {k : ExtKind} {bs : List Byte} (hbs : ExtShape k bs) (hc : CursorAt bs s) :
    attemptMicros w s = extMicros k w s := by
  obtain ⟨rest, hrest⟩ := hc
  rw [attemptMicros, show (cutHere s).rest = bs ++ rest from hrest.symm]
  cases k with
  | gce | app => obtain ⟨x, -, rfl⟩ := hbs; rfl
  | pte => obtain ⟨x, c, -, -, rfl⟩ := hbs; rfl
  | com => obtain ⟨c, -, rfl⟩ := hbs; rfl

theorem attemptMicros_img {id lct idb : List Byte} (hi : ImageShape id lct idb) (hc : CursorAt (id ++ lct ++ idb) s) :
    attemptMicros w s = imgMicros w s := by
  obtain ⟨rest, hrest⟩ := hc
  obtain ⟨-, hsep, -, -⟩ := hi
  obtain ⟨id, rfl⟩ := List.head?_eq_some_iff.1 hsep
  rw [attemptMicros, show (cutHere s).rest = _ from hrest.symm]
  rfl

theorem attemptMicros_trailer {rest : List Byte} (h : s.input.drop s.ipos.toNat = 0x3B :: rest) :
    attemptMicros w s = noSeparatorMicros w s := by
  rw [attemptMicros, show (cutHere s).rest = 0x3B :: rest from h]
  rfl

/-- The next step of a running `SEQ.PARSE` of a host that waits. -/
theorem AttemptWaits.coreTick (h : AttemptWaits w s) : coreTick s = runMicros (attemptMicros w s) s := by
  obtain ⟨-, ht, hw, hg⟩ := h
  unfold Machine.coreTick issue
  rw [ht, hw, hg]

end

end Sys2Proof.Machine
end

section
/-!
SUPPORT. The run of `SEQ.PARSE` on a stream of the grammar (spec/30_encoding.md R97, spec/40_block_parser.md R130 to R143).
-/

namespace Sys2Proof.Machine

/-! ### Runs -/

/-- A running command in state `s` comes to state `t` in at most `k` steps. -/
def RunsTo (k : Nat) (s t : State) : Prop := ∃ j, j ≤ k ∧ ∀ n, settle (n + j) s = settle n t

namespace RunsTo
variable {j k n : Nat} {s t u : State}

theorem refl (k : Nat) (s : State) : RunsTo k s s := ⟨0, Nat.zero_le k, fun _ => rfl⟩

theorem step (hb : s.busy = true) (hk : 0 < k) : RunsTo k s (coreTick s) := ⟨1, hk, fun n => by rw [settle, if_pos hb]⟩

theorem trans (h : RunsTo j s t) (h' : RunsTo k t u) : RunsTo (j + k) s u := by
  obtain ⟨a, ha, hst⟩ := h
  obtain ⟨b, hb, htu⟩ := h'
  exact ⟨b + a, by omega, fun n => by rw [← Nat.add_assoc, hst, htu]⟩

theorem settle (h : RunsTo k s t) (hend : t.busy = false) (hn : k ≤ n) : settle n s = t := by
  obtain ⟨a, ha, hst⟩ := h
  rw [show n = n - a + a by omega, hst, settle_ended hend]

end RunsTo

/-! ### The frame loop -/

/-- `s` with the frame loop of `SEQ.PARSE` at position `p` and in working state `w`. -/
def State.parsing (s : State) (p : Nat) (w : ParseWork) : State := { s with ipos := Word.ofNat p, work := .parse w }

/-- What is left of a list behind a part of it. -/
theorem drop_add_length {α : Type} {l bs rest : List α} {p : Nat} (h : l.drop p = bs ++ rest) : l.drop (p + bs.length) = rest := by
  rw [← List.drop_drop, h, List.drop_left]

/-- The input from position `p` on is what the cursor reads there. -/
theorem parsing_cursor {s : State} {p : Nat} (w : ParseWork) {bs rest : List Byte} (h : s.input.drop p = bs ++ rest) (hne : bs ≠ []) :
    (s.parsing p w).ipos.toNat = p ∧ CursorAt bs (s.parsing p w) := by
  have hlt : p < s.ilen.toNat := by
    rw [← s.input_length]
    exact Nat.not_le.1 fun hle => hne (List.append_eq_nil_iff.1 (h ▸ List.drop_eq_nil_of_le hle)).1
  have hp : (s.parsing p w).ipos.toNat = p := Word.toNat_ofNat_of_lt (hlt.trans s.ilen.isLt)
  exact ⟨hp, rest, by rw [hp]; exact h.symm⟩

section
variable {s : State} (hb : s.busy = true) (ht : s.todo = []) (hg : s.grant = none)
include hb ht hg

theorem parsing_waits (p : Nat) (w : ParseWork) : AttemptWaits w (s.parsing p w) := ⟨hb, ht, rfl, hg⟩

/-- An item that has a byte or more takes one step. -/
theorem runsTo_item {p n : Nat} {w w' : ParseWork} (hn : 0 < n)
    (h : runMicros (attemptMicros w (s.parsing p w)) (s.parsing p w) = { s.parsing p w with
      ipos := (s.parsing p w).ipos + Word.ofNat n, work := .parse w' }) :
    RunsTo n (s.parsing p w) (s.parsing (p + n) w') := by
  have htick : coreTick (s.parsing p w) = s.parsing (p + n) w' := by
    rw [(parsing_waits hb ht hg p w).coreTick, h]
    simp [State.parsing, Word.ofNat, BitVec.ofNat_add]
  exact htick ▸ RunsTo.step hb hn

/-- The extensions of a frame join the attempt (R134, R152). -/
theorem runsTo_exts (exts : List (ExtKind × List Byte)) {p : Nat} {w : ParseWork} {rest : List Byte}
    (hkinds : ((w.exts ++ exts).map (fun e => e.1)).Nodup) (hshape : ∀ e ∈ exts, ExtShape e.1 e.2)
    (hin : s.input.drop p = (exts.map (fun e => e.2)).flatten ++ rest) :
    RunsTo (exts.map (fun e => e.2)).flatten.length (s.parsing p w)
      (s.parsing (p + (exts.map (fun e => e.2)).flatten.length) { w with exts := w.exts ++ exts }) := by
  induction exts generalizing p w with
  | nil => simpa using RunsTo.refl 0 _
  | cons e exts ih =>
    obtain ⟨hbs, hshape⟩ := List.forall_mem_cons.1 hshape
    rw [List.map_cons, List.flatten_cons] at hin ⊢
    have hnew : e.1 ∉ w.exts.map (fun e => e.1) := fun hmem =>
      (List.nodup_append.1 (List.map_append ▸ hkinds)).2.2 _ hmem _ List.mem_cons_self rfl
    obtain ⟨-, hc⟩ := parsing_cursor w (hin.trans (List.append_assoc _ _ _)) hbs.ne_nil
    have hstep := runsTo_item hb ht hg (List.length_pos_iff.2 hbs.ne_nil)
      (by rw [attemptMicros_ext hbs hc, runMicros_extMicros (by exact hb) hnew hbs hc])
    have hrest := ih (p := p + e.2.length) (w := { w with exts := w.exts ++ [e] }) (by simpa using hkinds) hshape
      (drop_add_length (hin.trans (List.append_assoc _ _ _)))
    rw [List.length_append, ← Nat.add_assoc]
    simpa using hstep.trans hrest

/-- The blocks of a frame make a frame (R133, R134). -/
theorem runsTo_frame {f : Frame} (hf : FrameShape f) {p : Nat} {w : ParseWork} {rest : List Byte} (hexts : w.exts = [])
    (hroom : ∀ c, s.caps.frames = some c → w.frames.length < c) (hin : s.input.drop p = f.bytes ++ rest) :
    RunsTo f.bytes.length (s.parsing p w)
      (s.parsing (p + f.bytes.length) { w with frames := w.frames ++ [f], start := p + f.bytes.length }) := by
  obtain ⟨hkinds, hshape, hi⟩ := hf
  have hbytes : f.bytes = (f.exts.map (fun e => e.2)).flatten ++ (f.id ++ f.lct ++ f.idb) := by simp [Frame.bytes]
  rw [hbytes] at hin ⊢
  have hfirst := runsTo_exts hb ht hg f.exts (w := w) (by simpa [hexts] using hkinds) hshape (hin.trans (List.append_assoc _ _ _))
  obtain ⟨hp, hc⟩ := parsing_cursor (p := p + (f.exts.map (fun e => e.2)).flatten.length) { w with exts := w.exts ++ f.exts }
    (drop_add_length (hin.trans (List.append_assoc _ _ _))) hi.ne_nil
  have hlast := runsTo_item hb ht hg (List.length_pos_iff.2 hi.ne_nil)
    (by rw [attemptMicros_img hi hc, runMicros_imgMicros (by exact hb) hi hc (by exact hroom)])
  rw [hp] at hlast
  rw [List.length_append, ← Nat.add_assoc]
  simpa [hexts] using hfirst.trans hlast

/-- The frames of a document join it (R133). -/
theorem runsTo_frames (fs : List Frame) {p : Nat} {w : ParseWork} {rest : List Byte} (hfs : ∀ f ∈ fs, FrameShape f)
    (hexts : w.exts = []) (hstart : w.start = p) (hroom : ∀ c, s.caps.frames = some c → w.frames.length + fs.length ≤ c)
    (hin : s.input.drop p = (fs.map Frame.bytes).flatten ++ rest) :
    RunsTo (fs.map Frame.bytes).flatten.length (s.parsing p w)
      (s.parsing (p + (fs.map Frame.bytes).flatten.length)
        { w with frames := w.frames ++ fs, start := p + (fs.map Frame.bytes).flatten.length }) := by
  induction fs generalizing p w with
  | nil => simpa [← hstart] using RunsTo.refl 0 _
  | cons f fs ih =>
    obtain ⟨hf, hfs⟩ := List.forall_mem_cons.1 hfs
    rw [List.map_cons, List.flatten_cons] at hin ⊢
    have hfirst := runsTo_frame hb ht hg hf hexts
      (fun c hc => by have := hroom c hc; rw [List.length_cons] at this; omega) (hin.trans (List.append_assoc _ _ _))
    have hrest := ih (p := p + f.bytes.length) (w := { w with frames := w.frames ++ [f], start := p + f.bytes.length }) hfs hexts rfl
      (fun c hc => by have := hroom c hc; simp only [List.length_append, List.length_cons, List.length_nil] at this ⊢; omega)
      (drop_add_length (hin.trans (List.append_assoc _ _ _)))
    rw [List.length_append, ← Nat.add_assoc]
    simpa using hfirst.trans hrest

/-- The trailer as the last byte completes the parse (R141, R142, R143). -/
theorem runsTo_trailer {p : Nat} {w : ParseWork} (hstart : w.start = p) (hin : s.input.drop p = [0x3B])
    (hfits : ∀ c, s.caps.bstore = some c → (w.toDoc [0x3B]).bytes.length ≤ c) :
    RunsTo 1 (s.parsing p w) (ended { s with ipos := Word.ofNat (p + 1), doc := some (w.toDoc [0x3B]) }) := by
  obtain ⟨hp, rest, hrest⟩ := parsing_cursor (bs := [0x3B]) (rest := []) w hin (List.cons_ne_nil _ _)
  have hlen := congrArg List.length hin
  rw [List.length_drop, s.input_length, List.length_singleton] at hlen
  have hbyte : s.ibufAt p = 0x3B := by
    have := State.input_getElem? (s := s) (a := p) (by omega)
    rw [← List.head?_drop, hin] at this
    exact (Option.some.inj this).symm
  have hstore : s.caps.bstore.all (fun c => decide ((w.toDoc [0x3B]).bytes.length ≤ c)) = true := by
    rw [Option.all_eq_true]
    exact fun c hc => decide_eq_true (hfits c hc)
  have htick : coreTick (s.parsing p w) = ended { s with ipos := Word.ofNat (p + 1), doc := some (w.toDoc [0x3B]) } := by
    rw [(parsing_waits hb ht hg p w).coreTick, attemptMicros_trailer hrest.symm, runMicros_noSeparatorMicros (by exact hb), framesEnd, hstart,
      if_neg (not_not.2 (by exact hlen)), if_neg (not_not.2 (by exact hbyte)), if_pos (by exact hstore)]
    rfl
  exact htick ▸ RunsTo.step hb Nat.one_pos

end

/-! ### SEQ.PARSE -/

/-- The `BAD_OPERAND` test on the byte source (R26). -/
theorem overCap_eq_false_iff {s : State} : overCap s.caps.ibuf s.ilen = false ↔ inputFits s := by
  rw [overCap, Option.any_eq_false]
  exact forall₂_congr fun c _ => by simp

/-- The blocks before the frames of a stream of the grammar (R97, R130). -/
theorem beforeFrames_bytes {d : Doc} (h : DocShape d) :
    ParseWork.beforeFrames d.bytes = ⟨d.header, d.lsd, d.gct, [], 13 + d.gct.length, []⟩ := by
  obtain ⟨hheader, hlsd, hgct, -, -⟩ := h
  have hsplit : d.bytes = d.header ++ (d.lsd ++ (d.gct ++ ((d.frames.map Frame.bytes).flatten ++ d.trailer))) := by simp [Doc.bytes]
  have hdrop6 : d.bytes.drop 6 = d.lsd ++ (d.gct ++ ((d.frames.map Frame.bytes).flatten ++ d.trailer)) := by
    rw [hsplit, List.drop_left' hheader]
  have hdrop13 : d.bytes.drop 13 = d.gct ++ ((d.frames.map Frame.bytes).flatten ++ d.trailer) := by
    rw [show 13 = 6 + 7 from rfl, ← List.drop_drop, hdrop6, List.drop_left' hlsd]
  have hpacked : rawAt d.bytes 10 = d.lsd.getD 4 0 := by
    have hget := List.getElem?_drop (xs := d.bytes) (i := 6) (j := 4)
    rw [hdrop6, List.getElem?_append_left (by omega)] at hget
    rw [rawAt, List.getD_eq_getElem?_getD, ← hget, List.getD_eq_getElem?_getD]
  have hlen : tableLen (rawAt d.bytes 10) = d.gct.length := by rw [hpacked, tableLen_eq, hgct]
  rw [ParseWork.beforeFrames, hlen, hdrop6, hdrop13, hsplit, List.take_left' hheader, List.take_left' hlsd, List.take_left' rfl]

/-- The micro-steps of `SEQ.PARSE` before its frame loop, when every check passes (R130, R131, R132). -/
theorem parsePrelude_passes {s : State} (hfits : inputFits s) (hlen : 13 + tableLen (rawAt s.input 10) ≤ s.input.length) :
    parsePrelude s = [.dropDoc, .ipos 6, .ipos 13, .ipos (Word.ofNat (13 + tableLen (rawAt s.input 10))),
      .work (.parse (ParseWork.beforeFrames s.input))] := by
  rw [parsePrelude, overCap_eq_false_iff.2 hfits, if_neg (by decide), if_neg (by omega), if_neg (by omega), if_neg (by omega)]
  rfl

/-- The part of `SEQ.PARSE` before its frame loop, on a stream of the grammar. -/
theorem runMicros_parsePrelude {s : State} {d : Doc} (hb : s.busy = true) (hfits : inputFits s) (hd : DocShape d)
    (hin : s.input = d.bytes) :
    runMicros (parsePrelude s) s =
      State.parsing { s with doc := none } (13 + d.gct.length) ⟨d.header, d.lsd, d.gct, [], 13 + d.gct.length, []⟩ := by
  have hbefore := beforeFrames_bytes hd
  have hstart : 13 + tableLen (rawAt d.bytes 10) = 13 + d.gct.length := congrArg ParseWork.start hbefore
  have hlen : 13 + d.gct.length ≤ d.bytes.length := by
    obtain ⟨hheader, hlsd, -, -, -⟩ := hd
    simp only [Doc.bytes, List.length_append, hheader, hlsd]
    omega
  rw [parsePrelude_passes hfits (by rw [hin, hstart]; exact hlen), hin, hstart, hbefore, runMicros_dropDoc _ hb,
    runMicros_ipos _ (by exact hb), runMicros_ipos _ (by exact hb), runMicros_ipos _ (by exact hb), runMicros_work _ (by exact hb),
    runMicros_nil]
  rfl

/-- A running `SEQ.PARSE` of a stream of the grammar: the blocks before the frames, then each frame block by block, then the trailer, at most
a step for each byte (R130, R133, R143). -/
theorem settle_parse {s : State} {d : Doc} {n : Nat} (hb : s.busy = true) (ht : s.todo = []) (hg : s.grant = none)
    (hfits : inputFits s) (hd : DocShape d) (hstore : docFits s.caps d) (hin : s.input = d.bytes) (hn : s.ilen.toNat ≤ n) :
    settle n (runMicros (parsePrelude s) s) = ended { s with ipos := s.ilen, doc := some d } := by
  rw [runMicros_parsePrelude hb hfits hd hin]
  obtain ⟨hheader, hlsd, -, hframes, htrailer⟩ := hd
  obtain ⟨hbytes, hcount⟩ := hstore
  generalize hp : 13 + d.gct.length = p
  generalize hq : p + (d.frames.map Frame.bytes).flatten.length = q
  have hbefore : (d.header ++ d.lsd ++ d.gct).length = p := by
    simp only [List.length_append, hheader, hlsd]
    exact hp
  have hdrop : s.input.drop p = (d.frames.map Frame.bytes).flatten ++ [0x3B] := by
    rw [hin, Doc.bytes, htrailer, List.append_assoc _ _ [0x3B], List.drop_left' hbefore]
  have hend : s.ilen.toNat = q + 1 := by
    rw [← s.input_length, hin, Doc.bytes, htrailer, List.length_append, List.length_append, hbefore, hq, List.length_singleton]
  have hloop := runsTo_frames (s := { s with doc := none }) hb ht hg d.frames (w := ⟨d.header, d.lsd, d.gct, [], p, []⟩) hframes rfl rfl
    (fun c hc => by simpa using hcount c hc) hdrop
  have hlast := runsTo_trailer (s := { s with doc := none }) hb ht hg (p := q) (w := ⟨d.header, d.lsd, d.gct, d.frames, q, []⟩) rfl
    (hq ▸ drop_add_length hdrop)
    (fun c hc => by rw [ParseWork.toDoc, ← htrailer]; exact hbytes c hc)
  rw [hq] at hloop
  rw [(hloop.trans hlast).settle rfl (by omega), ← hend, Word.ofNat_toNat, ParseWork.toDoc, ← htrailer]

/-- Settles O14: whatever has the shape of a block is cut as that block, and the run takes at most a step for each byte. -/
theorem parseAcceptsTheGrammar : Obligations.ParseAcceptsTheGrammar := by
  intro s d hs hfits hd hstore hin
  have hn : s.ilen.toNat ≤ stepBound s := by
    rw [stepBound]
    omega
  show Host.Outcome.next (command 0x10 parsePrelude s) = _
  rw [command_starts 0x10 parsePrelude hs,
    settle_parse (s := commandStart { s with cmd := 0x10 }) rfl rfl hs.grant hfits hd hstore hin hn]
  rfl

end Sys2Proof.Machine
end

section
/-!
SUPPORT. The three encodings (spec/30_encoding.md R91, R101, R115): decoding undoes encoding, and what decodes is no reserved encoding (R95).
-/

namespace Sys2Proof

/-! ### Codes (R115) -/

theorem codeWidthOk_iff {width : Nat} : codeWidthOk width = true ↔ 3 ≤ width ∧ width ≤ 12 := by
  rw [codeWidthOk, Bool.and_eq_true, decide_eq_true_iff, decide_eq_true_iff]

/-- What a code of the stream is: the low bits of the accumulator, if that many are buffered (R244). -/
theorem decodeCode_eq_ok_iff {width nb acc : Nat} {i : Instr} :
    decodeCode width nb acc = .ok i ↔
      (3 ≤ width ∧ width ≤ 12) ∧ width ≤ nb ∧ i = .lzwCode width (BitVec.ofNat 12 (acc % 2 ^ width)) := by
  rw [← codeWidthOk_iff, decodeCode]
  cases codeWidthOk width with
  | false => simp
  | true =>
    by_cases hnb : nb < width
    · simp [hnb]
    · simp [hnb, Nat.not_lt.1 hnb, eq_comm]

/-- A code fits the register that holds it (R38). -/
theorem mod_two_pow_lt {width : Nat} (h : width ≤ 12) (acc : Nat) : acc % 2 ^ width < 2 ^ 12 :=
  (Nat.mod_lt _ (by positivity)).trans_le (Nat.pow_le_pow_right (by decide) h)

theorem code_toNat {width : Nat} (h : width ≤ 12) (acc : Nat) :
    (BitVec.ofNat 12 (acc % 2 ^ width)).toNat = acc % 2 ^ width := Nat.mod_eq_of_lt (mod_two_pow_lt h acc)

theorem wf_lzwCode_iff {width : Nat} {code : BitVec 12} :
    (Instr.lzwCode width code).wf = true ↔ (3 ≤ width ∧ width ≤ 12) ∧ code.toNat < 2 ^ width := by
  rw [Instr.wf, Bool.and_eq_true, codeWidthOk_iff, decide_eq_true_iff]

/-- A well-formed code is read back from an accumulator that begins with its bits (R63, R115). -/
theorem decodeCode_of_bits {width nb acc : Nat} {code : BitVec 12} (h : (Instr.lzwCode width code).wf = true) (hnb : width ≤ nb)
    (hacc : acc % 2 ^ width = code.toNat) : decodeCode width nb acc = .ok (.lzwCode width code) := by
  obtain ⟨hwidth, -⟩ := wf_lzwCode_iff.1 h
  exact decodeCode_eq_ok_iff.2 ⟨hwidth, hnb, by rw [hacc, BitVec.ofNat_toNat, BitVec.setWidth_eq]⟩

/-- What is read from the accumulator is a well-formed code with the bits it takes (R244). -/
theorem decodeCode_ok {width nb acc : Nat} {i : Instr} (h : decodeCode width nb acc = .ok i) :
    i.wf = true ∧ encode i = .code width width (acc % 2 ^ width) ∧ width ≤ nb := by
  obtain ⟨hwidth, hnb, rfl⟩ := decodeCode_eq_ok_iff.1 h
  have hcode := code_toNat hwidth.2 acc
  refine ⟨wf_lzwCode_iff.2 ⟨hwidth, ?_⟩, ?_, hnb⟩
  · rw [hcode]
    exact Nat.mod_lt _ (by positivity)
  · rw [encode, hcode]

/-- Only codes are encoded as codes. -/
theorem eq_lzwCode_of_encode {i : Instr} {width n acc : Nat} (h : encode i = .code width n acc) :
    ∃ code, i = .lzwCode width code ∧ acc = code.toNat := by
  cases i with
  | lzwCode w code => cases h; exact ⟨code, rfl, rfl⟩
  | _ => cases h

/-! ### Block items (R101) -/

/-- A block item is read from its selecting bytes, whatever follows them. -/
theorem decodeBlk_of_encode {i : Instr} {bs : List Byte} (h : encode i = .blk bs) (rest : List Byte) :
    decodeBlk (bs ++ rest) = .ok i := by
  cases i with
  | extGce | extApp | extPte | extCom | img | trailer => cases h; rfl
  | _ => cases h

/-- The labels of R101. -/
theorem decodeLabel_ok {label : Byte} {i : Instr} (h : decodeLabel label = .ok i) :
    i.wf = true ∧ encode i = .blk [Config.extIntro, label] := by
  unfold decodeLabel at h
  repeat' split at h
  all_goals cases h
  all_goals exact ⟨rfl, by rw [‹label = _›]; rfl⟩

/-- A byte that is no introducer is a block by itself, or none (R101, R139). -/
theorem decodeBlk_of_ne_intro {b : Byte} (h : b ≠ Config.extIntro) (rest : List Byte) :
    decodeBlk (b :: rest) =
      if b = Config.imgSep then .ok .img else if b = Config.trailerByte then .ok .trailer else .error (.absentSeparator b) :=
  if_neg h

theorem decodeBlk_eq_ok_of_ne_intro {b : Byte} (h : b ≠ Config.extIntro) {rest : List Byte} {i : Instr} :
    decodeBlk (b :: rest) = .ok i ↔ (b = Config.imgSep ∧ i = .img) ∨ (b = Config.trailerByte ∧ i = .trailer) := by
  constructor
  · intro hi
    rw [decodeBlk_of_ne_intro h] at hi
    split at hi
    · cases hi
      exact .inl ⟨‹_›, rfl⟩
    · split at hi
      · cases hi
        exact .inr ⟨‹_›, rfl⟩
      · cases hi
  · rintro (⟨rfl, rfl⟩ | ⟨rfl, rfl⟩) <;> rfl

/-- What is read from the container stream begins with its selecting bytes. -/
theorem decodeBlk_ok {bytes : List Byte} {i : Instr} (h : decodeBlk bytes = .ok i) :
    i.wf = true ∧ ∃ bs rest, encode i = .blk bs ∧ bytes = bs ++ rest := by
  cases bytes with
  | nil => cases h
  | cons b rest =>
    by_cases hb : b = Config.extIntro
    · subst hb
      cases rest with
      | nil => cases h
      | cons label rest =>
        obtain ⟨hwf, hi⟩ := decodeLabel_ok h
        exact ⟨hwf, _, rest, hi, rfl⟩
    · rcases (decodeBlk_eq_ok_of_ne_intro hb).1 h with ⟨rfl, rfl⟩ | ⟨rfl, rfl⟩ <;> exact ⟨rfl, _, rest, rfl, rfl⟩

/-! ### Commands (R91) -/

/-- An opcode is read back. -/
theorem decodeCmd_of_encode {i : Instr} {op : Byte} (h : encode i = .cmd op) : decodeCmd op = .ok i := by
  cases i <;> cases h <;> rfl

theorem wf_of_encode_cmd {i : Instr} {op : Byte} (h : encode i = .cmd op) : i.wf = true := by
  cases i with
  | lzwCode => cases h
  | _ => rfl

theorem decodeCmd_eq_ok_iff {op : Byte} {i : Instr} : decodeCmd op = .ok i ↔ encode i = .cmd op :=
  ⟨Machine.encode_of_decodeCmd, decodeCmd_of_encode⟩

/-! ### The statements -/

/-- Settles O2: each format decodes what it encodes and encodes what it decodes. -/
theorem decodeEncodeAgree : Obligations.DecodeEncodeAgree := by
  refine ⟨fun i hwf => ?_, fun i bs rest h => decodeBlk_of_encode h rest, fun i width n acc nb acc' hwf h hnb hacc => ?_,
    fun e i h => ?_⟩
  · cases he : encode i with
    | cmd op => exact decodeCmd_of_encode he
    | blk bs => exact List.append_nil bs ▸ decodeBlk_of_encode he []
    | code width n acc =>
      obtain ⟨code, rfl, rfl⟩ := eq_lzwCode_of_encode he
      cases he
      exact decodeCode_of_bits hwf le_rfl (Nat.mod_eq_of_lt (wf_lzwCode_iff.1 hwf).2)
  · obtain ⟨code, rfl, rfl⟩ := eq_lzwCode_of_encode h
    exact decodeCode_of_bits hwf hnb hacc
  · cases e with
    | cmd op =>
      have hi := decodeCmd_eq_ok_iff.1 h
      exact ⟨wf_of_encode_cmd hi, hi⟩
    | blk bytes => exact decodeBlk_ok h
    | code width nb acc => exact decodeCode_ok h

/-- Settles O1: the tables' words, one by one. -/
theorem sampleWordsDecode : Obligations.SampleWordsDecode := by
  refine ⟨rfl, rfl, rfl, rfl, rfl, rfl, rfl, rfl, rfl, rfl, rfl, rfl, ?_, ?_⟩
  · exact decodeCode_of_bits (code := 4) (by decide) (by decide) (by decide)
  · exact decodeCode_of_bits (code := 2048) (by decide) (by decide) (by decide)

/-- Settles O3: what decodes has an encoding, so the encodings of the instructions are all there is. -/
theorem reservedEncodingsRefused : Obligations.ReservedEncodingsRefused := by
  refine ⟨fun op => ⟨?_, fun h => ?_⟩, fun label rest => ⟨?_, fun h => ?_⟩, fun b rest hb => ?_, fun width nb acc => ?_⟩
  · rintro ⟨i, h⟩
    have hi := decodeCmd_eq_ok_iff.1 h
    cases i <;> cases hi <;> decide
  · simp only [List.mem_cons, List.not_mem_nil, or_false] at h
    rcases h with rfl | rfl | rfl | rfl | rfl | rfl | rfl | rfl | rfl | rfl | rfl | rfl | rfl | rfl | rfl | rfl | rfl | rfl | rfl | rfl |
      rfl | rfl | rfl | rfl <;> exact ⟨_, rfl⟩
  · rintro ⟨i, h⟩
    obtain ⟨-, hi⟩ := decodeLabel_ok (label := label) h
    cases i <;> cases hi <;> decide
  · simp only [List.mem_cons, List.not_mem_nil, or_false] at h
    rcases h with rfl | rfl | rfl | rfl <;> exact ⟨_, rfl⟩
  · show (∃ i, decodeBlk (b :: rest) = .ok i) ↔ _
    simp only [decodeBlk_eq_ok_of_ne_intro hb, exists_or, exists_and_left, exists_eq, and_true]
  · show (∃ i, decodeCode width nb acc = .ok i) ↔ _
    simp only [decodeCode_eq_ok_iff, exists_and_left, exists_eq, and_true, and_assoc]

end Sys2Proof
end

section
/-!
SUPPORT. Commands that are turned away (spec/45_system_commands.md R274, spec/60_exceptions.md R306, spec/70_reset_and_hazards.md R341).
-/

namespace Sys2Proof.Machine

/-- A command written while another runs or under `FAULT` (R306, R341). -/
theorem command_turnedAway {s : State} (h : s.busy = true ∨ s.fault = true) (op : Byte) (micros : State → List Micro) :
    command op micros s = { s with cmd := op } := by
  rcases command_cases op micros s with ⟨-, e⟩ | ⟨hb, hf, -⟩
  · exact e
  · simp [hb, hf] at h

/-- Every command but the three with an exception starts in one way (R274). -/
theorem exec_command {i : Instr} {op : Byte} (hi : encode i = .cmd op) (hclr : op ≠ 0x01) (habort : op ≠ 0x02) (hreset : op ≠ 0x03)
    (s : State) : exec i s = .next (command op (commandMicros i) s) := by
  cases i with
  | sysClrfault => cases hi; exact absurd rfl hclr
  | sysAbort => cases hi; exact absurd rfl habort
  | sysReset => cases hi; exact absurd rfl hreset
  | extGce | extApp | extPte | extCom | img | trailer | lzwCode => cases hi
  | sysNop | seqParse | seqSerialize | seqGetblk | seqSetblk | fldUnpackLsd | fldPackLsd | fldUnpackGce | fldPackGce | fldUnpackId
  | fldPackId | fldUnpackApp | fldPackApp | fldUnpackCom | fldPackCom | fldUnpackCt | fldPackCt | fldUnpackU16 | fldPackU16 | lzwEnc
  | lzwDec => cases hi; rfl

/-- An opcode is that of one command (R91). -/
theorem eq_of_encode_cmd {i j : Instr} {op : Byte} (hi : encode i = .cmd op) (hj : encode j = .cmd op) : i = j :=
  Except.ok.inj ((decodeCmd_of_encode hi).symm.trans (decodeCmd_of_encode hj))

/-- A command that is turned away changes what `CMD` reads (R306, R341). -/
theorem exec_turnedAway {i : Instr} {op : Byte} {s : State} (hi : encode i = .cmd op) (h : TurnedAway op s) :
    exec i s = .next { s with cmd := op } := by
  have hbf : s.busy = true ∨ s.fault = true := h.imp And.left fun h => h.2.1
  have hreset : op ≠ 0x03 := h.elim (fun h => h.2.2) fun h => h.2.2.2
  by_cases hclr : op = 0x01
  · subst hclr
    obtain rfl := eq_of_encode_cmd hi (j := .sysClrfault) rfl
    have hb : s.busy = true := h.elim And.left fun h => absurd rfl h.2.2.1
    exact congrArg Host.Outcome.next (if_pos hb)
  · by_cases habort : op = 0x02
    · subst habort
      obtain rfl := eq_of_encode_cmd hi (j := .sysAbort) rfl
      have hb : s.busy = false := h.elim (fun h => absurd rfl h.2.1) And.left
      exact congrArg Host.Outcome.next ((if_neg (by simp [hb])).trans (command_turnedAway hbf _ _))
    · rw [exec_command hi hclr habort hreset, command_turnedAway hbf]

/-- A reserved opcode written while a command runs or under `FAULT` (R95). -/
theorem hostCmd_reserved {s : State} {v : Word} {e : DecodeError} (hd : decodeCmd (v.setWidth 8) = .error e)
    (h : s.busy = true ∨ s.fault = true) (pace : Option Nat) :
    hostCmd v pace s = .next { s with cmd := v.setWidth 8, grant := pace } := by
  rw [hostCmd, hd]
  exact congrArg Host.Outcome.next (command_turnedAway (s := { s with grant := pace }) h _ _)

/-- Settles O10: the start of a command looks at `BUSY` and `FAULT` before anything else. -/
theorem turnedAwayChangesOnlyCmd : Obligations.TurnedAwayChangesOnlyCmd := by
  refine ⟨fun i op s => exec_turnedAway, fun s v rest e hd hm h => ⟨fun pace hh => ?_, fun hh => ?_⟩⟩
  · exact (step_host hm hh).trans (hostCmd_reserved (s := { s with host := rest }) hd h pace)
  · exact (step_host hm hh).trans (hostCmd_reserved (s := { s with host := rest }) hd h none)

end Sys2Proof.Machine
end

section
/-!
SUPPORT. `SEQ.GETBLK` and `SEQ.SETBLK` (spec/30_encoding.md R96, spec/40_block_parser.md R147 to R150, spec/60_exceptions.md R297, R303, R308): the
block they select, the document with it replaced, and their tests in order.
-/

namespace Sys2Proof.Machine

/-! ### A command that faults at once -/

section
variable (op : Byte) (code : FaultCode) (info : Word) {micros : State → List Micro} {s : State} (h : Starts s)
include h

/-- A command whose first micro-step is a fault changes nothing else (R305). -/
theorem command_raises (hm : micros (commandStart { s with cmd := op }) = [.raise code info]) :
    command op micros s = faulted op code.byte info s := by
  rw [command_starts op micros h, hm, runMicros_raise, settle_ended (raiseFault_busy _ _ _)]
  rfl

/-- A command that has cleared its output and then faults (R147, R305). -/
theorem command_olen0_raises (hm : micros (commandStart { s with cmd := op }) = [.olen0, .raise code info]) :
    command op micros s = faulted op code.byte info { s with obuf := [], olen := 0 } := by
  rw [command_starts op micros h, hm, runMicros_olen0 _ (by rfl), runMicros_raise, settle_ended (raiseFault_busy _ _ _)]
  rfl

end

section
variable {code : FaultCode} {info : Word} {s : State} (h : Starts s)
include h

theorem seqGetblk_raises (hm : getblkMicros s = [.raise code info]) : exec .seqGetblk s = .next (faulted 0x12 code.byte info s) :=
  congrArg Host.Outcome.next (command_raises 0x12 code info h hm)

theorem seqGetblk_olen0_raises (hm : getblkMicros s = [.olen0, .raise code info]) :
    exec .seqGetblk s = .next (faulted 0x12 code.byte info { s with obuf := [], olen := 0 }) :=
  congrArg Host.Outcome.next (command_olen0_raises 0x12 code info h hm)

theorem seqSetblk_raises (hm : setblkMicros s = [.raise code info]) : exec .seqSetblk s = .next (faulted 0x13 code.byte info s) :=
  congrArg Host.Outcome.next (command_raises 0x13 code info h hm)

end

/-! ### The selected block (R96) -/

theorem blockSel_reserved {k : BitVec 4} (h : 10 < k.toNat) : blockSel k = none := by
  unfold blockSel
  split
  case h_12 => rfl
  all_goals omega

/-- A kind that is not reserved selects a block; from 4 on it is a block of a frame. -/
theorem blockSel_of_le {k : BitVec 4} (h : k.toNat ≤ 10) : ∃ sel, blockSel k = some sel ∧ (sel.scoped = true ↔ 4 ≤ k.toNat) := by
  unfold blockSel
  generalize k.toNat = n at h
  interval_cases n <;> exact ⟨_, rfl, by decide⟩

/-- A frame's block in a document that has no such frame (R297). -/
theorem findBlock_noFrame {d : Doc} {sel : BlockSel} {fidx : Word} (hsel : sel.scoped = true) (h : d.frames.length ≤ fidx.toNat) :
    findBlock d sel fidx = .noFrame := by
  have hnone : d.frames[fidx.toNat]? = none := List.getElem?_eq_none h
  cases sel with
  | header | lsd | gct | trailer => cases hsel
  | ext | id | lct | idb => simp only [findBlock, frameBlock, hnone]

/-- The four kinds of extension (R96). -/
theorem blockSel_ext {b : BitVec 4} {k : ExtKind} (h : (b.toNat, k) ∈ [(4, ExtKind.gce), (5, .app), (6, .pte), (7, .com)]) :
    blockSel b = some (.ext k) := by
  simp only [List.mem_cons, Prod.mk.injEq, List.not_mem_nil, or_false] at h
  rcases h with ⟨hb, rfl⟩ | ⟨hb, rfl⟩ | ⟨hb, rfl⟩ | ⟨hb, rfl⟩ <;> rw [blockSel, hb] <;> rfl

/-- An extension block that its kind takes, or an empty one (R150). -/
theorem lengthOk_ext {k : ExtKind} {new : List Byte} (hgce : k = .gce → new.length = 8 ∨ new = [])
    (happ : k = .app → new.length = 19 ∨ new = []) : lengthOk (.ext k) new = true := by
  cases k with
  | gce => simpa [lengthOk, Config.gceLen] using hgce rfl
  | app => simpa [lengthOk, Config.appLen] using happ rfl
  | pte | com => rfl

/-! ### The tests of SEQ.SETBLK (R149) -/

section
variable {s : State} {d : Doc} (hd : s.doc = some d)
include hd

theorem setblkMicros_reserved (h : blockSel s.bkind = none) : setblkMicros s = [.raise .badOperand (s.bkind.setWidth 32)] := by
  rw [setblkMicros, hd, h]

theorem getblkMicros_reserved (h : blockSel s.bkind = none) : getblkMicros s = [.raise .badOperand (s.bkind.setWidth 32)] := by
  rw [getblkMicros, hd, h]

variable {sel : BlockSel} (hsel : blockSel s.bkind = some sel)
include hsel

theorem getblkMicros_noFrame (hscoped : sel.scoped = true) (h : d.frames.length ≤ s.fidx.toNat) :
    getblkMicros s = [.olen0, .raise .idxFrame s.fidx] := by
  rw [getblkMicros, hd, hsel]
  simp only [findBlock_noFrame hscoped h]

theorem setblkMicros_overCap (h : ¬ inputFits s) : setblkMicros s = [.raise .badOperand s.ilen] := by
  have hcap : overCap s.caps.ibuf s.ilen = true := Bool.eq_true_of_not_eq_false (mt overCap_eq_false_iff.1 h)
  rw [setblkMicros, hd, hsel]
  exact if_pos hcap

variable (hfits : inputFits s)
include hfits

/-- The tests that are left when the input fits. -/
theorem setblkMicros_fits : setblkMicros s =
    if sel.scoped = true ∧ d.frames.length ≤ s.fidx.toNat then [.raise .idxFrame s.fidx]
    else if lengthOk sel s.input = false then [.raise .setInvalid (s.bkind.setWidth 32)]
    else if overStore s.caps (d.setBlock sel s.fidx s.input) = true then [.raise .capacity s.ilen]
    else [.doc (d.setBlock sel s.fidx s.input), .ipos s.ilen, .finish false] := by
  rw [setblkMicros, hd, hsel]
  simp only [overCap_eq_false_iff.2 hfits, Bool.and_eq_true, decide_eq_true_iff, Bool.false_eq_true, if_false]

theorem setblkMicros_noFrame (hscoped : sel.scoped = true) (h : d.frames.length ≤ s.fidx.toNat) :
    setblkMicros s = [.raise .idxFrame s.fidx] := by
  rw [setblkMicros_fits hd hsel hfits, if_pos ⟨hscoped, h⟩]

variable (hframe : sel.scoped = true → s.fidx.toNat < d.frames.length)
include hframe

theorem setblkMicros_invalid (h : lengthOk sel s.input = false) : setblkMicros s = [.raise .setInvalid (s.bkind.setWidth 32)] := by
  rw [setblkMicros_fits hd hsel hfits, if_neg (fun hno => Nat.not_le.2 (hframe hno.1) hno.2), if_pos h]

theorem setblkMicros_capacity (hok : lengthOk sel s.input = true) (h : overStore s.caps (d.setBlock sel s.fidx s.input) = true) :
    setblkMicros s = [.raise .capacity s.ilen] := by
  rw [setblkMicros_fits hd hsel hfits, if_neg (fun hno => Nat.not_le.2 (hframe hno.1) hno.2), if_neg (by simp [hok]), if_pos h]

end

/-! ### The document with one block replaced (R149) -/

/-- Updating the frame behind `pre`. -/
theorem Doc.setFrame_append (d : Doc) {pre post : List Frame} {f : Frame} {i : Nat} (hframes : d.frames = pre ++ f :: post)
    (hi : pre.length = i) (upd : Frame → Frame) : d.setFrame i upd = { d with frames := pre ++ upd f :: post } := by
  subst hi
  rw [Doc.setFrame, hframes, List.modify_eq_take_cons_drop (by simp)]
  simp

/-- Distinct kinds: replacing the extensions of a kind replaces the one there is. -/
theorem map_replace_of_nodup {a b : List (ExtKind × List Byte)} {k : ExtKind} {old new : List Byte}
    (h : ((a ++ (k, old) :: b).map (fun e => e.1)).Nodup) :
    (a ++ (k, old) :: b).map (fun e => if e.1 = k then (k, new) else e) = a ++ (k, new) :: b := by
  have hother (l : List (ExtKind × List Byte)) (hl : k ∉ l.map (fun e => e.1)) :
      l.map (fun e => if e.1 = k then (k, new) else e) = l :=
    (List.map_congr_left fun e he => if_neg fun hk => hl (List.mem_map.2 ⟨e, he, hk⟩)).trans (List.map_id l)
  rw [List.map_append, List.map_cons] at h
  obtain ⟨-, htail, hdisj⟩ := List.nodup_append.1 h
  have ha : k ∉ a.map (fun e => e.1) := fun hmem => hdisj k hmem k List.mem_cons_self rfl
  rw [List.map_append, List.map_cons, if_pos rfl, hother a ha, hother b (List.nodup_cons.1 htail).1]

/-- The extensions that `SEQ.SETBLK` of an extension leaves (R149). -/
theorem ExtReplaced.setExt_eq {exts exts' : List (ExtKind × List Byte)} {k : ExtKind} {new : List Byte}
    (h : ExtReplaced exts k new exts') (hkinds : (exts.map (fun e => e.1)).Nodup) : setExt exts k new = exts' := by
  rcases h with ⟨rfl, rfl⟩ | ⟨hne, hk, rfl⟩ | ⟨hne, a, old, b, rfl, rfl⟩
  · rw [setExt, if_pos rfl]
    exact List.filter_congr fun e _ => (decide_not).symm
  · rw [setExt, if_neg hne, if_neg (mt any_kind_iff.1 hk)]
  · rw [setExt, if_neg hne, if_pos (any_kind_iff.2 (by simp)), map_replace_of_nodup hkinds]

/-- The new block is one its kind takes, and `SEQ.SETBLK` finds a place for it (R96, R149, R150). -/
theorem BlockReplaced.setBlock {s : State} {d d' : Doc} (h : BlockReplaced s d d') :
    ∃ sel, blockSel s.bkind = some sel ∧ (sel.scoped = true → s.fidx.toNat < d.frames.length) ∧ lengthOk sel s.input = true ∧
      d.setBlock sel s.fidx s.input = d' := by
  rcases h with ⟨hk, hlen, rfl⟩ | ⟨hk, hlen, rfl⟩ | ⟨hk, rfl⟩ | ⟨hk, hin, rfl⟩ | ⟨pre, f, post, f', hframes, hi, rfl, hblock⟩
  · exact ⟨.header, by rw [hk]; rfl, nofun, beq_iff_eq.2 hlen, rfl⟩
  · exact ⟨.lsd, by rw [hk]; rfl, nofun, beq_iff_eq.2 hlen, rfl⟩
  · exact ⟨.gct, by rw [hk]; rfl, nofun, rfl, rfl⟩
  · exact ⟨.trailer, by rw [hk]; rfl, nofun, beq_iff_eq.2 hin, rfl⟩
  · have hlt : s.fidx.toNat < d.frames.length := by
      rw [hframes, ← hi]
      simp
    have hset := d.setFrame_append hframes hi
    rcases hblock with ⟨hk, hlen, rfl⟩ | ⟨hk, rfl⟩ | ⟨hk, rfl⟩ | ⟨k, exts', hk, hkinds, hgce, happ, hexts, rfl⟩
    · exact ⟨.id, by rw [hk]; rfl, fun _ => hlt, beq_iff_eq.2 hlen, hset _⟩
    · exact ⟨.lct, by rw [hk]; rfl, fun _ => hlt, rfl, hset _⟩
    · exact ⟨.idb, by rw [hk]; rfl, fun _ => hlt, rfl, hset _⟩
    · refine ⟨.ext k, blockSel_ext hk, fun _ => hlt, lengthOk_ext hgce happ, (hset _).trans ?_⟩
      rw [hexts.setExt_eq hkinds]

/-! ### The statement -/

/-- The input is no block of the kind that `BKIND` selects (R150), and the document has the frame of a frame's block. -/
def BlockRefused (s : State) (d : Doc) : Prop :=
  (s.bkind = 0 ∧ s.input.length ≠ 6) ∨ (s.bkind = 1 ∧ s.input.length ≠ 7) ∨ (s.bkind = 3 ∧ s.input ≠ [0x3B]) ∨
  (s.fidx.toNat < d.frames.length ∧
    ((s.bkind = 4 ∧ s.input.length ≠ 8 ∧ s.input ≠ []) ∨ (s.bkind = 5 ∧ s.input.length ≠ 19 ∧ s.input ≠ []) ∨
      (s.bkind = 8 ∧ s.input.length ≠ 10)))

theorem BlockRefused.lengthOk {s : State} {d : Doc} (h : BlockRefused s d) :
    ∃ sel, blockSel s.bkind = some sel ∧ (sel.scoped = true → s.fidx.toNat < d.frames.length) ∧
      Machine.lengthOk sel s.input = false := by
  rcases h with ⟨hk, h⟩ | ⟨hk, h⟩ | ⟨hk, h⟩ | ⟨hlt, ⟨hk, h, hne⟩ | ⟨hk, h, hne⟩ | ⟨hk, h⟩⟩
  · exact ⟨.header, by rw [hk]; rfl, nofun, beq_eq_false_iff_ne.2 h⟩
  · exact ⟨.lsd, by rw [hk]; rfl, nofun, beq_eq_false_iff_ne.2 h⟩
  · exact ⟨.trailer, by rw [hk]; rfl, nofun, beq_eq_false_iff_ne.2 h⟩
  · exact ⟨.ext .gce, by rw [hk]; rfl, fun _ => hlt, by simp [Machine.lengthOk, h, hne, Config.gceLen]⟩
  · exact ⟨.ext .app, by rw [hk]; rfl, fun _ => hlt, by simp [Machine.lengthOk, h, hne, Config.appLen]⟩
  · exact ⟨.id, by rw [hk]; rfl, fun _ => hlt, beq_eq_false_iff_ne.2 h⟩

/-! ### The statement -/

/-- Settles O25: the tests of the two commands, one after the other. -/
theorem blockCommandFaults : Obligations.BlockCommandFaults := by
  refine ⟨fun s d hs hd => ⟨fun hk => ?_, fun hge hle hframe => ?_, fun hle hfits => ?_⟩, fun s d hs hfits hd hbad => ?_,
    fun s d d' c hs hfits hd hnew hc hover => ?_⟩
  · have hsel := blockSel_reserved hk
    exact ⟨seqGetblk_raises hs (getblkMicros_reserved hd hsel), seqSetblk_raises hs (setblkMicros_reserved hd hsel)⟩
  · obtain ⟨sel, hsel, hscoped⟩ := blockSel_of_le hle
    have hscoped := hscoped.2 hge
    exact ⟨seqGetblk_olen0_raises hs (getblkMicros_noFrame hd hsel hscoped hframe),
      fun hfits => seqSetblk_raises hs (setblkMicros_noFrame hd hsel hfits hscoped hframe)⟩
  · obtain ⟨sel, hsel, -⟩ := blockSel_of_le hle
    exact seqSetblk_raises hs (setblkMicros_overCap hd hsel hfits)
  · obtain ⟨sel, hsel, hframe, hlen⟩ := BlockRefused.lengthOk hbad
    exact seqSetblk_raises hs (setblkMicros_invalid hd hsel hfits hframe hlen)
  · obtain ⟨sel, hsel, hframe, hlen, rfl⟩ := hnew.setBlock
    have hstore : overStore s.caps (d.setBlock sel s.fidx s.input) = true := by
      rw [overStore, hc, Doc.size_eq]
      exact decide_eq_true hover
    exact seqSetblk_raises hs (setblkMicros_capacity hd hsel hfits hframe hlen hstore)

end Sys2Proof.Machine
end

section
/-!
SUPPORT. The blocks of the container stream, read backwards (spec/30_encoding.md R97 to R110, spec/40_block_parser.md R133 to R153): whatever is cut
as a block has the shape of that block, so that an item at the cursor is whole and joins the frame attempt, or ends the frame loop.
-/

namespace Sys2Proof.Machine

/-! ### What is cut has the shape of its block -/

/-- The bytes `take(n)` gives (R13). -/
theorem Cut.take_bytes {n : Nat} {c c' : Cut} {bs : List Byte} (h : c.take n = .ok (bs, c')) : bs = c.rest.take n := by
  unfold Cut.take at h
  split at h
  · cases h
    rfl
  · cases h

/-- A walk that reaches the terminator, `k` bytes into a sub-block's payload from its end, passed those bytes and then a chain (R109, R151). -/
theorem chainWalk_reached {k pos : Nat} {bs : List Byte} (h : (chainWalk k pos bs).2 = true) :
    ∃ payload blocks rest, payload.length = k ∧ SubBlocks blocks ∧ bs = payload ++ (chainBytes blocks ++ rest) ∧
      (chainWalk k pos bs).1.getLast? = some (pos + k + (chainBytes blocks).length) := by
  induction bs generalizing k pos with
  | nil => simp [chainWalk] at h
  | cons b bs ih =>
    cases k with
    | zero =>
      rw [chainWalk] at h ⊢
      by_cases hb : b = 0
      · subst hb
        exact ⟨[], [], bs, rfl, List.forall_mem_nil _, rfl, rfl⟩
      · rw [if_neg hb] at h ⊢
        obtain ⟨payload, blocks, rest, hlen, hblocks, rfl, hlast⟩ := ih h
        have hpos : 1 ≤ payload.length := by
          rw [hlen]
          exact Nat.one_le_iff_ne_zero.2 fun h0 => hb (BitVec.eq_of_toNat_eq h0)
        have hle : payload.length ≤ 255 := by
          have := b.isLt
          omega
        have hhead : BitVec.ofNat 8 payload.length = b := by rw [hlen, BitVec.ofNat_toNat, BitVec.setWidth_eq]
        have hbytes : chainBytes (payload :: blocks) = b :: (payload ++ chainBytes blocks) := by simp [chainBytes, hhead]
        refine ⟨[], payload :: blocks, rest, rfl, List.forall_mem_cons.2 ⟨⟨hpos, hle⟩, hblocks⟩, by simp [hbytes], ?_⟩
        rw [List.getLast?_cons, hlast, hbytes, List.length_cons, List.length_append, hlen]
        exact congrArg some (by simp only [Option.getD_some]; omega)
    | succ k =>
      rw [chainWalk] at h ⊢
      have hreached : (chainWalk k (pos + 1) bs).2 = true := by split at h <;> exact h
      obtain ⟨payload, blocks, rest, hlen, hblocks, rfl, hlast⟩ := ih hreached
      refine ⟨b :: payload, blocks, rest, by rw [List.length_cons, hlen], hblocks, rfl, ?_⟩
      rw [show pos + (k + 1) = pos + 1 + k by omega]
      split
      · rw [List.getLast?_cons, hlast, Option.getD_some]
      · exact hlast

/-- `chain()` passes a chain (R109, R151). -/
theorem Cut.chain_shape {c c' : Cut} (h : c.chain = .ok c') : IsChain (c.since c') := by
  simp only [Cut.chain] at h
  split at h
  · rename_i hreached
    obtain ⟨payload, blocks, rest, hlen, hblocks, hbytes, hlast⟩ := chainWalk_reached hreached
    obtain rfl := List.length_eq_zero_iff.1 hlen
    cases h
    refine ⟨blocks, hblocks, ?_⟩
    rw [List.nil_append] at hbytes
    rw [Cut.since, List.getLastD_eq_getLast?, hlast, Option.getD_some, hbytes, Nat.add_zero, Nat.add_sub_cancel_left, List.take_left]
  · cases h

/-- The instruction of each kind of extension (R101). -/
def ExtKind.item : ExtKind → Instr
  | .gce => .extGce
  | .app => .extApp
  | .pte => .extPte
  | .com => .extCom

theorem mem_ext_items {k : ExtKind} {i : Instr} :
    (k, i) ∈ [(ExtKind.gce, Instr.extGce), (.app, .extApp), (.pte, .extPte), (.com, .extCom)] ↔ i = k.item := by
  cases k <;> simp [ExtKind.item]

/-- The label of each kind of extension (R101). -/
def ExtKind.label : ExtKind → Byte
  | .gce => Config.labelGce
  | .app => Config.labelApp
  | .pte => Config.labelPte
  | .com => Config.labelCom

theorem ExtKind.encode_item (k : ExtKind) : encode k.item = .blk [Config.extIntro, k.label] := by cases k <;> rfl

/-- An extension that is cut where the decoder reads one has its shape (R135 to R138). -/
theorem cutExt_shape {k : ExtKind} {o c : Cut} {rest : List Byte} (ho : o.rest = [Config.extIntro, k.label] ++ rest)
    (h : cutExt k o = .ok c) : ExtShape k (o.since c) := by
  cases k with
  | gce | app =>
    obtain ⟨⟨bs, c₁⟩, h₁, h⟩ := bind_eq_ok h
    cases h
    have hlen := Cut.take_length h₁
    have hbytes := Cut.take_bytes h₁
    obtain ⟨-, rfl⟩ := Cut.take_ok h₁
    rw [hbytes, ho] at hlen ⊢
    exact ⟨_, Nat.succ.inj (Nat.succ.inj hlen), rfl⟩
  | pte =>
    obtain ⟨⟨hdr, c₁⟩, h₁, h⟩ := bind_eq_ok h
    obtain ⟨⟨len, c₂⟩, h₂, h⟩ := bind_eq_ok h
    obtain ⟨⟨body, c₃⟩, h₃, h₄⟩ := bind_eq_ok h
    have hhdr : hdr = [0x21, 0x01] := (Cut.take_bytes h₁).trans (by rw [ho]; rfl)
    obtain ⟨b, rfl⟩ := List.length_eq_one_iff.1 (Cut.take_length h₂)
    have hbody : body.length = b.toNat := Cut.take_length h₃
    obtain ⟨a₁, e₁⟩ := Cut.take_ok h₁
    obtain ⟨a₂, e₂⟩ := Cut.take_ok h₂
    obtain ⟨a₃, e₃⟩ := Cut.take_ok h₃
    have a₄ := Cut.chain_ok h₄
    refine ⟨body, c₃.since c, by rw [hbody]; exact Nat.le_of_lt_succ b.isLt, Cut.chain_shape h₄, ?_⟩
    rw [← Cut.since_append ((a₁.trans a₂).trans a₃) a₄, ← Cut.since_append (a₁.trans a₂) a₃, ← Cut.since_append a₁ a₂, ← e₁, ← e₂, ← e₃,
      hhdr, hbody, BitVec.ofNat_toNat, BitVec.setWidth_eq]
    simp
  | com =>
    obtain ⟨⟨hdr, c₁⟩, h₁, h⟩ := bind_eq_ok h
    have hhdr : hdr = [0x21, 0xFE] := (Cut.take_bytes h₁).trans (by rw [ho]; rfl)
    obtain ⟨a₁, e₁⟩ := Cut.take_ok h₁
    refine ⟨c₁.since c, Cut.chain_shape h, ?_⟩
    rw [← Cut.since_append a₁ (Cut.chain_ok h), ← e₁, hhdr]
    rfl

/-- An image that is cut has the shape of an image (R106, R107, R139, R140). -/
theorem cutImg_shape {o : Cut} {r : ImgCut} (h : cutImg o = .ok r) : ImageShape r.id r.lct r.idb := by
  obtain ⟨⟨id, c₁⟩, h₁, h⟩ := bind_eq_ok h
  split at h
  · cases h
  · rename_i hsep
    obtain ⟨⟨lct, c₂⟩, h₂, h⟩ := bind_eq_ok h
    obtain ⟨⟨m, c₃⟩, h₃, h⟩ := bind_eq_ok h
    obtain ⟨c₄, h₄, h⟩ := bind_eq_ok h
    cases h
    have hid : id.length = 10 := Cut.take_length h₁
    obtain ⟨b, id, rfl⟩ := List.exists_cons_of_length_pos (l := id) (by omega)
    obtain ⟨b', rfl⟩ := List.length_eq_one_iff.1 (Cut.take_length h₃)
    obtain ⟨a₃, e₃⟩ := Cut.take_ok h₃
    refine ⟨hid, congrArg some (not_not.1 hsep), ?_, b', c₃.since c₄, Cut.chain_shape h₄, ?_⟩
    · rw [getLsbD_seven, tableLen_eq] at h₂
      split at h₂
      · exact (if_pos (of_decide_eq_true ‹_›)).symm ▸ Cut.take_length h₂
      · cases h₂
        exact (if_neg (mt decide_eq_true ‹_›)).symm ▸ rfl
    · rw [← Cut.since_append a₃ (Cut.chain_ok h₄), ← e₃]
      rfl

/-! ### An item at the cursor -/

section
variable {s : State} {w : ParseWork}

/-- What the cursor passes is there at the cursor (R30). -/
theorem cursorAt_since (c : Cut) : CursorAt ((cutHere s).since c) s := List.take_prefix _ _

/-- A decode error of the attempt, wherever it left the cursor (R141). -/
theorem runMicros_cursorMoves_endOfFrames (hb : s.busy = true) (c : Cut) :
    runMicros (cursorMoves c ++ endOfFrames w s) s = framesEnd w s := by
  rw [runMicros_cursorMoves c _ hb, runMicros_endOfFrames w (s := s) (by exact hb) (by constructor <;> rfl)]
  rfl

/-- An extension at the cursor is whole and of a new kind, or ends the frame loop (R135 to R138, R141, R152). -/
theorem extMicros_fits_or_ends (hb : s.busy = true) {k : ExtKind} {rest : List Byte}
    (hrest : (cutHere s).rest = [Config.extIntro, k.label] ++ rest) :
    ItemFits k.item w s ∨ runMicros (extMicros k w s) s = framesEnd w s := by
  rw [extMicros]
  split
  · exact .inr (runMicros_endOfFrames w hb .rfl)
  · rename_i hnew
    cases hcut : cutExt k (cutHere s) with
    | error c => exact .inr (runMicros_cursorMoves_endOfFrames hb c)
    | ok c =>
      exact .inl (.inl ⟨k, _, mem_ext_items.2 rfl, mt any_kind_iff.2 hnew, cutExt_shape hrest hcut, cursorAt_since c⟩)

/-- An image at the cursor is whole, or ends the frame loop (R139, R140, R141). -/
theorem imgMicros_fits_or_ends (hb : s.busy = true) : ItemFits .img w s ∨ runMicros (imgMicros w s) s = framesEnd w s := by
  rw [imgMicros]
  cases hcut : cutImg (cutHere s) with
  | error c => exact .inr (runMicros_cursorMoves_endOfFrames hb c)
  | ok r =>
    obtain ⟨-, hbytes⟩ := cutImg_ok hcut
    exact .inl (.inr ⟨rfl, r.id, r.lct, r.idb, cutImg_shape hcut, hbytes ▸ cursorAt_since r.cur⟩)

/-- The items of the container stream (R101). -/
theorem decodeBlk_item {bytes : List Byte} {i : Instr} (h : decodeBlk bytes = .ok i) :
    (∃ k rest, i = ExtKind.item k ∧ bytes = [Config.extIntro, k.label] ++ rest) ∨ i = .img ∨ i = .trailer := by
  obtain ⟨-, bs, rest, hi, rfl⟩ := decodeBlk_ok h
  have hext (k : ExtKind) (hk : encode k.item = .blk bs) :
      ∃ k' rest', k.item = ExtKind.item k' ∧ bs ++ rest = [Config.extIntro, k'.label] ++ rest' := by
    rw [k.encode_item] at hk
    cases hk
    exact ⟨k, rest, rfl, rfl⟩
  cases i with
  | extGce => exact .inl (hext .gce hi)
  | extApp => exact .inl (hext .app hi)
  | extPte => exact .inl (hext .pte hi)
  | extCom => exact .inl (hext .com hi)
  | img => exact .inr (.inl rfl)
  | trailer => exact .inr (.inr rfl)
  | _ => cases hi

/-- An item that the decoder reads at the cursor is whole and may join the attempt, or ends the frame loop (R134, R141). -/
theorem item_fits_or_ends {i : Instr} (hb : s.busy = true) (hd : decodeBlk (cutHere s).rest = .ok i) :
    ItemFits i w s ∨ runMicros (attemptMicros w s) s = framesEnd w s := by
  rw [attemptMicros, hd]
  rcases decodeBlk_item hd with ⟨k, rest, rfl, hrest⟩ | rfl | rfl
  · have hcases := extMicros_fits_or_ends (w := w) hb hrest
    cases k <;> exact hcases
  · exact imgMicros_fits_or_ends hb
  · exact .inr (runMicros_noSeparatorMicros hb)

/-- Whatever the decoder refuses at the cursor ends the frame loop (R134, R139, R141, R153). -/
theorem decodeError_ends {e : DecodeError} (hb : s.busy = true) (hd : decodeBlk (cutHere s).rest = .error e) :
    runMicros (attemptMicros w s) s = framesEnd w s := by
  rw [attemptMicros, hd]
  cases e with
  | missingLabel | unknownLabel => exact runMicros_endOfFrames w hb .rfl
  | reservedOpcode | exhausted | absentSeparator | shortCode | badWidth => exact runMicros_noSeparatorMicros hb

/-- An image for which there is no room (R145, R303). -/
theorem runMicros_imgMicros_full {id lct idb : List Byte} {c : Nat} (hb : s.busy = true) (hi : ImageShape id lct idb)
    (hc : CursorAt (id ++ lct ++ idb) s) (hcap : s.caps.frames = some c) (hfull : c ≤ w.frames.length) :
    runMicros (imgMicros w s) s =
      stopped 0x42 (Word.ofNat w.start) { s with ipos := s.ipos + Word.ofNat (id ++ lct ++ idb).length } := by
  obtain ⟨⟨rest, hrest⟩, hpos⟩ := hc.split hi.ne_nil
  obtain ⟨cur, hcut, hpass⟩ := cutImg_passes hi hrest
  have hno : framesFull s.caps w = true := by
    rw [framesFull, hcap]
    exact decide_eq_true hfull
  rw [imgMicros, hcut]
  simp only
  rw [hno, if_pos rfl, runMicros_cursorMoves cur _ hb, runMicros_raise, hpass.ipos hpos]
  rfl

/-- A block item where a frame attempt waits for it (R134). -/
theorem AttemptWaits.inAttempt (h : AttemptWaits w s) (ms : ParseWork → State → List Micro) :
    Machine.inAttempt ms s = .next (runMicros (ms w s) s) := by
  obtain ⟨hb, ht, hw, hg⟩ := h
  have ha : s.attempt = some w := by simp [State.attempt, hb, ht, hw]
  unfold Machine.inAttempt issue
  rw [ha, hg]

theorem exec_ext_item (k : ExtKind) (s : State) : exec k.item s = inAttempt (extMicros k) s := by cases k <;> rfl

end

/-! ### The statements -/

/-- Settles O19: the whole extension is cut. -/
theorem extensionJoinsAttempt : Obligations.ExtensionJoinsAttempt := by
  intro s w k i bs hi h hk hbs hc
  obtain rfl := mem_ext_items.1 hi
  rw [exec_ext_item, h.inAttempt, runMicros_extMicros h.1 hk hbs hc]

/-- Settles O20: the whole image is cut, and then `FRAMES_MAX` decides. -/
theorem imageMakesAFrame : Obligations.ImageMakesAFrame := by
  intro s w id lct idb h hi hc
  have hexec : exec .img s = .next (runMicros (imgMicros w s) s) := h.inAttempt imgMicros
  refine ⟨fun hroom => ?_, fun c hcap hfull => ?_⟩
  · rw [hexec, runMicros_imgMicros h.1 hi hc hroom]
  · rw [hexec, runMicros_imgMicros_full h.1 hi hc hcap hfull]

/-- Settles O21: what is read at the cursor is a whole item, or it ends the frame loop. -/
theorem decodeErrorEndsFrames : Obligations.DecodeErrorEndsFrames := by
  refine ⟨fun s w h => ?_, fun s w i h hd hno => ?_, fun s w e h hd => ?_⟩
  · rw [← runMicros_noSeparatorMicros h.1]
    exact h.inAttempt noSeparatorMicros
  · obtain ⟨hb, ht, hw, -⟩ := id h
    rw [exec_fetched hb (fetched_of_decoded ht (.inl ⟨w, hw, hd⟩)), h.coreTick, (item_fits_or_ends hb hd).resolve_left hno]
  · obtain ⟨hb, -, -, hg⟩ := id h
    have htick : coreTick s = framesEnd w s := h.coreTick.trans (decodeError_ends hb hd)
    have hstay : (coreTick s).grant = none := (coreTick_sameInputs s).grant.trans hg
    rw [step_core hb (by rw [hostMoves, hg]; rfl), show spendGrant s = s by rw [spendGrant, hg], endIfDone_waits hstay, htick]

end Sys2Proof.Machine
end

section
/-!
SUPPORT. How a `SEQ.PARSE` of a host that waits ends (spec/40_block_parser.md R130 to R145): it leaves a document of the grammar that spells the
input, or it faults and leaves none.
-/

namespace Sys2Proof.Machine

/-! ### Before the frames (R130, R131, R132) -/

section
variable {s : State} (hb : s.busy = true)
include hb

theorem runMicros_parsePrelude_overCap (h : ¬ inputFits s) :
    runMicros (parsePrelude s) s = raiseFault .badOperand s.ilen { s with doc := none, ipos := 0 } := by
  have hcap : overCap s.caps.ibuf s.ilen = true := Bool.eq_true_of_not_eq_false (mt overCap_eq_false_iff.1 h)
  rw [parsePrelude, hcap, if_pos rfl, runMicros_dropDoc _ hb, runMicros_raise]

variable (hfits : inputFits s)
include hfits

theorem runMicros_parsePrelude_noHeader (h : s.input.length < 6) :
    runMicros (parsePrelude s) s = raiseFault .fmtTruncated 0 { s with doc := none, ipos := 0 } := by
  rw [parsePrelude, overCap_eq_false_iff.2 hfits, if_neg (by decide), if_pos h, runMicros_dropDoc _ hb, runMicros_raise]

theorem runMicros_parsePrelude_noLsd (h6 : 6 ≤ s.input.length) (h : s.input.length < 13) :
    runMicros (parsePrelude s) s = raiseFault .fmtTruncated 6 { s with doc := none, ipos := 6 } := by
  rw [parsePrelude, overCap_eq_false_iff.2 hfits, if_neg (by decide), if_neg (Nat.not_lt.2 h6), if_pos h, runMicros_dropDoc _ hb,
    runMicros_ipos _ (by exact hb), runMicros_raise]

theorem runMicros_parsePrelude_noGct (h13 : 13 ≤ s.input.length) (h : s.input.length < 13 + tableLen (rawAt s.input 10)) :
    runMicros (parsePrelude s) s = raiseFault .fmtTruncated 13 { s with doc := none, ipos := 13 } := by
  rw [parsePrelude, overCap_eq_false_iff.2 hfits, if_neg (by decide), if_neg (by omega), if_neg (by omega), if_pos h,
    runMicros_dropDoc _ hb, runMicros_ipos _ (by exact hb), runMicros_ipos _ (by exact hb), runMicros_raise]

/-- The blocks before the frames are all there. -/
theorem runMicros_parsePrelude_passes (h : 13 + tableLen (rawAt s.input 10) ≤ s.input.length) :
    runMicros (parsePrelude s) s =
      State.parsing { s with doc := none } (13 + tableLen (rawAt s.input 10)) (ParseWork.beforeFrames s.input) := by
  rw [parsePrelude_passes hfits h, runMicros_dropDoc _ hb, runMicros_ipos _ (by exact hb), runMicros_ipos _ (by exact hb),
    runMicros_ipos _ (by exact hb), runMicros_work _ (by exact hb), runMicros_nil]
  rfl

end

/-- A `SEQ.PARSE` that ends before its frame loop. -/
theorem seqParse_ends {s t : State} (hs : Starts s) (hb : t.busy = false)
    (h : runMicros (parsePrelude (commandStart { s with cmd := 0x10 })) (commandStart { s with cmd := 0x10 }) = t) :
    exec .seqParse s = .next t := by
  show Host.Outcome.next (command 0x10 parsePrelude s) = _
  rw [command_starts 0x10 parsePrelude hs, h, settle_ended hb]

/-- Settles O17: the first item that does not fit raises the fault. -/
theorem parseTruncatedBeforeFrames : Obligations.ParseTruncatedBeforeFrames := by
  intro s hs
  refine ⟨fun hover => ?_, fun hfits h => ?_, fun hfits h6 h => ?_, fun hfits h13 h => ?_⟩
  · exact seqParse_ends hs rfl (runMicros_parsePrelude_overCap rfl hover)
  · exact seqParse_ends hs rfl (runMicros_parsePrelude_noHeader rfl hfits h)
  · exact seqParse_ends hs rfl (runMicros_parsePrelude_noLsd rfl hfits h6 h)
  · rw [← tableLen_eq] at h
    exact seqParse_ends hs rfl (runMicros_parsePrelude_noGct rfl hfits h13 h)

/-! ### The frame loop -/

/-- The blocks cut so far are as they stand in a document of the grammar that `FRAMES_MAX` allows (R97, R145). -/
structure ParseWork.Shaped (caps : Caps) (w : ParseWork) : Prop where
  header : w.header.length = 6
  lsd : w.lsd.length = 7
  gct : w.gct.length = 3 * 2 ^ ((w.lsd.getD 4 0).toNat % 8 + 1)
  frames : ∀ f ∈ w.frames, FrameShape f
  count : ∀ c, caps.frames = some c → w.frames.length ≤ c
  kinds : (w.exts.map (fun e => e.1)).Nodup
  exts : ∀ e ∈ w.exts, ExtShape e.1 e.2

namespace ParseWork.Shaped
variable {caps : Caps} {w : ParseWork} (h : w.Shaped caps)
include h

/-- An extension joins the attempt (R134, R152). -/
theorem addExt {k : ExtKind} {bs : List Byte} (hk : k ∉ w.exts.map (fun e => e.1)) (hbs : ExtShape k bs) :
    ParseWork.Shaped caps { w with exts := w.exts ++ [(k, bs)] } where
  header := h.header
  lsd := h.lsd
  gct := h.gct
  frames := h.frames
  count := h.count
  kinds := by
    rw [List.map_append]
    exact h.kinds.append (List.nodup_singleton k) (List.disjoint_singleton.2 hk)
  exts := List.forall_mem_append.2 ⟨h.exts, List.forall_mem_singleton.2 hbs⟩

/-- An image makes the attempt a frame (R133). -/
theorem addFrame {id lct idb : List Byte} (hi : ImageShape id lct idb) (hroom : ∀ c, caps.frames = some c → w.frames.length < c)
    (start : Nat) : ParseWork.Shaped caps { w with frames := w.frames ++ [⟨w.exts, id, lct, idb⟩], start := start, exts := [] } where
  header := h.header
  lsd := h.lsd
  gct := h.gct
  frames := List.forall_mem_append.2 ⟨h.frames, List.forall_mem_singleton.2 ⟨h.kinds, h.exts, hi⟩⟩
  count c hc := by
    rw [List.length_append]
    exact hroom c hc
  kinds := List.nodup_nil
  exts := List.forall_mem_nil _

theorem docShape : DocShape (w.toDoc [0x3B]) := ⟨h.header, h.lsd, h.gct, h.frames, rfl⟩

end ParseWork.Shaped

/-- The blocks before the frames have their shapes (R97, R100). -/
theorem ParseWork.beforeFrames_shaped {input : List Byte} (h : 13 + tableLen (rawAt input 10) ≤ input.length) (caps : Caps) :
    (ParseWork.beforeFrames input).Shaped caps where
  header := by simp only [beforeFrames, List.length_take]; omega
  lsd := by simp only [beforeFrames, List.length_take, List.length_drop]; omega
  gct := by
    have hpacked : ((input.drop 6).take 7).getD 4 0 = rawAt input 10 := by simp [rawAt, List.getD_eq_getElem?_getD, List.getElem?_drop]
    simp only [beforeFrames, hpacked, ← tableLen_eq, List.length_take, List.length_drop]
    omega
  frames := List.forall_mem_nil _
  count _ _ := Nat.zero_le _
  kinds := List.nodup_nil
  exts := List.forall_mem_nil _

/-- What a step of the frame loop comes to: the loop ends, or there is no room for a frame, or the cursor goes behind the bytes of an item and the
blocks cut so far keep their shapes. -/
inductive AttemptGoes (w : ParseWork) (s : State) : State → Prop where
  /-- the frame loop ends (R141) -/
  | loopEnds : AttemptGoes w s (framesEnd w s)
  /-- no room for the attempt's frame (R145) -/
  | noRoom (p : Word) : AttemptGoes w s (stopped 0x42 (Word.ofNat w.start) { s with ipos := p })
  /-- an extension joins the attempt, or an image makes it a frame (R133, R134) -/
  | goesOn {bs : List Byte} {w' : ParseWork} (hne : bs ≠ []) (hc : CursorAt bs s) (hw : w.Shaped s.caps → w'.Shaped s.caps) :
    AttemptGoes w s { s with ipos := s.ipos + Word.ofNat bs.length, work := .parse w' }

/-- A whole item takes the frame loop on, if there is room. -/
theorem ItemFits.goes {i : Instr} {w : ParseWork} {s : State} (hb : s.busy = true) (h : ItemFits i w s) :
    AttemptGoes w s (runMicros (attemptMicros w s) s) := by
  rcases h with ⟨k, bs, -, hk, hbs, hc⟩ | ⟨-, id, lct, idb, hi, hc⟩
  · rw [attemptMicros_ext hbs hc, runMicros_extMicros hb hk hbs hc]
    exact .goesOn hbs.ne_nil hc fun hw => hw.addExt hk hbs
  · rw [attemptMicros_img hi hc]
    by_cases hroom : ∀ c, s.caps.frames = some c → w.frames.length < c
    · rw [runMicros_imgMicros hb hi hc hroom]
      exact .goesOn hi.ne_nil hc fun hw => hw.addFrame hi hroom _
    · simp only [not_forall, Nat.not_lt] at hroom
      obtain ⟨c, hcap, hfull⟩ := hroom
      rw [runMicros_imgMicros_full hb hi hc hcap hfull]
      exact .noRoom _

theorem coreTick_goes {w : ParseWork} {s : State} (h : AttemptWaits w s) : AttemptGoes w s (coreTick s) := by
  obtain ⟨hb, -⟩ := id h
  rw [h.coreTick]
  cases hd : decodeBlk (cutHere s).rest with
  | error e => exact decodeError_ends hb hd ▸ .loopEnds
  | ok i =>
    rcases item_fits_or_ends hb hd with hfits | hends
    · exact hfits.goes hb
    · exact hends ▸ .loopEnds

/-! ### The end of the frame loop -/

/-- The fault codes of `SEQ.PARSE` (R291). -/
def parseCauses : List Byte := [0x10, 0x11, 0x12, 0x41, 0x42]

/-- How the running `SEQ.PARSE` in state `s` ends. -/
inductive LoopOutcome (s : State) : State → Prop where
  | completes {d : Doc} (hd : DocShape d) (hstore : docFits s.caps d) (hin : d.bytes = s.input) :
    LoopOutcome s (ended { s with ipos := s.ilen, doc := some d })
  | faults {cause : Byte} (hcause : cause ∈ parseCauses) (info p : Word) : LoopOutcome s (stopped cause info { s with ipos := p })

theorem LoopOutcome.busy {s t : State} (h : LoopOutcome s t) : t.busy = false := by cases h <;> rfl

/-- The outcome does not depend on where the loop stands. -/
theorem LoopOutcome.of_moved {s t : State} {p : Word} {w : Work} (h : LoopOutcome { s with ipos := p, work := w } t) :
    LoopOutcome s t := by
  cases h with
  | completes hd hstore hin => exact LoopOutcome.completes (s := s) hd hstore hin
  | faults hcause info p => exact LoopOutcome.faults (s := s) hcause info p

/-- The end of the frame loop faults, or stores the document (R142, R143, R145). -/
theorem framesEnd_cases (w : ParseWork) (s : State) :
    (∃ cause ∈ parseCauses, ∃ info p, framesEnd w s = stopped cause info { s with ipos := p }) ∨
    ((∀ c, s.caps.bstore = some c → (w.toDoc [0x3B]).bytes.length ≤ c) ∧
      framesEnd w s = ended { s with ipos := s.ilen, doc := some (w.toDoc [0x3B]) }) := by
  unfold framesEnd
  split
  · exact .inl ⟨0x11, by decide, _, _, rfl⟩
  · rename_i hone
    split
    · exact .inl ⟨0x12, by decide, _, _, rfl⟩
    · split
      · rename_i hstore
        have hend : Word.ofNat (w.start + 1) = s.ilen := by rw [show w.start + 1 = s.ilen.toNat by omega, Word.ofNat_toNat]
        exact .inr ⟨fun c hc => of_decide_eq_true ((Option.all_eq_true _ _).1 hstore c hc), by rw [hend]; rfl⟩
      · exact .inl ⟨0x42, by decide, _, _, rfl⟩

/-- The document that the end of the frame loop stores (R142, R143, R145). -/
theorem framesEnd_outcome {w : ParseWork} {s : State} (hruns : ParseRuns s) (hb : s.busy = true) (hw : s.work = .parse w)
    (hshape : w.Shaped s.caps) : LoopOutcome s (framesEnd w s) := by
  obtain ⟨hd, hf, w', hw', hspells⟩ := hruns.running hb
  obtain rfl := Work.parse.inj (hw.symm.trans hw')
  have hend := (framesEnd_parseRuns hruns.waits hd hf hspells).completed
  rcases framesEnd_cases w s with ⟨cause, hcause, info, p, e⟩ | ⟨hstore, e⟩
  · exact e ▸ .faults hcause info p
  · rw [e] at hend ⊢
    obtain ⟨-, -, d, hdoc, hbytes⟩ := hend rfl
    obtain rfl := Option.some.inj hdoc
    exact .completes hshape.docShape ⟨hstore, hshape.count⟩ hbytes

/-- The cursor register behind bytes that are there (R30). -/
theorem CursorAt.toNat_ipos {bs : List Byte} {s : State} (h : CursorAt bs s) (hne : bs ≠ []) :
    (s.ipos + Word.ofNat bs.length).toNat = s.ipos.toNat + bs.length := by
  obtain ⟨-, hpos⟩ := h.split hne
  have hle := h.length_le
  rw [List.length_drop] at hle
  have hlen := s.input_length
  have hlt := s.ilen.isLt
  rw [BitVec.toNat_add, BitVec.toNat_ofNat, Nat.add_mod_mod, Nat.mod_eq_of_lt (by omega)]

/-- The frame loop ends within a step for each byte that is left and one more (R130, R274). -/
theorem settle_loop {n : Nat} {w : ParseWork} {s : State} (h : AttemptWaits w s) (hruns : ParseRuns s) (hshape : w.Shaped s.caps)
    (hn : s.ilen.toNat < s.ipos.toNat + n) : LoopOutcome s (settle n s) := by
  induction n generalizing w s with
  | zero =>
    obtain ⟨-, -, w', -, hspells⟩ := hruns.running h.1
    have hle := hspells.pos_le
    rw [s.input_length] at hle
    omega
  | succ n ih =>
    obtain ⟨hb, ht, hw, hg⟩ := id h
    have hgoes := coreTick_goes h
    have hnext := coreTick_parseRuns hb hruns
    rw [settle, if_pos hb]
    generalize coreTick s = t at hgoes hnext
    cases hgoes with
    | loopEnds =>
      have houtcome := framesEnd_outcome hruns hb hw hshape
      rwa [settle_ended houtcome.busy]
    | noRoom p =>
      rw [settle_ended rfl]
      exact .faults (by decide) _ p
    | @goesOn bs w' hne hc hw' =>
      have hwaits : AttemptWaits w' { s with ipos := s.ipos + Word.ofNat bs.length, work := .parse w' } := ⟨hb, ht, rfl, hg⟩
      have hpos := hc.toNat_ipos hne
      have hlen := List.length_pos_iff.2 hne
      have hn' : s.ilen.toNat < (s.ipos + Word.ofNat bs.length).toNat + n := by omega
      exact (ih hwaits hnext (hw' hshape) hn').of_moved

/-! ### SEQ.PARSE -/

/-- How a `SEQ.PARSE` started in state `s` ends (R130, R143, R144). -/
inductive ParseOutcome (s : State) : State → Prop where
  | completes {d : Doc} (hfits : inputFits s) (hd : DocShape d) (hstore : docFits s.caps d) (hin : d.bytes = s.input) :
    ParseOutcome s (finished 0x10 false { s with doc := some d, ipos := s.ilen })
  | faults {cause : Byte} (hcause : cause ∈ parseCauses) (info p : Word) :
    ParseOutcome s (faulted 0x10 cause info { s with doc := none, ipos := p })

/-- The outcome of the loop is that of the command. -/
theorem LoopOutcome.parse {s t : State} (hfits : inputFits s)
    (h : LoopOutcome { commandStart { s with cmd := 0x10 } with doc := none } t) : ParseOutcome s t := by
  cases h with
  | completes hd hstore hin => exact ParseOutcome.completes (s := s) hfits hd hstore hin
  | faults hcause info p => exact ParseOutcome.faults (s := s) hcause info p

theorem seqParse_outcome {s : State} (hs : Starts s) : ∃ t, exec .seqParse s = .next t ∧ ParseOutcome s t := by
  obtain ⟨hover, hheader, hlsd, hgct⟩ := parseTruncatedBeforeFrames s hs
  by_cases hfits : inputFits s
  case neg => exact ⟨_, hover hfits, .faults (by decide) _ _⟩
  by_cases h6 : s.input.length < 6
  · exact ⟨_, hheader hfits h6, .faults (by decide) _ _⟩
  by_cases h13 : s.input.length < 13
  · exact ⟨_, hlsd hfits (Nat.not_lt.1 h6) h13, .faults (by decide) _ _⟩
  by_cases htable : s.input.length < 13 + tableLen (rawAt s.input 10)
  · exact ⟨_, hgct hfits (Nat.not_lt.1 h13) (tableLen_eq _ ▸ htable), .faults (by decide) _ _⟩
  have hlen := Nat.not_lt.1 htable
  refine ⟨_, rfl, ?_⟩
  have hloop := runMicros_parsePrelude_passes (s := commandStart { s with cmd := 0x10 }) rfl hfits hlen
  have hruns := parsePrelude_parseRuns (s := commandStart { s with cmd := 0x10 }) rfl rfl hs.fault hs.grant rfl
  rw [command_starts 0x10 parsePrelude hs]
  rw [hloop] at hruns ⊢
  have hwaits := parsing_waits (s := { commandStart { s with cmd := 0x10 } with doc := none }) rfl rfl hs.grant
    (13 + tableLen (rawAt s.input 10)) (ParseWork.beforeFrames s.input)
  have hn : s.ilen.toNat < stepBound s := by
    rw [stepBound]
    omega
  exact ((settle_loop hwaits hruns (ParseWork.beforeFrames_shaped hlen _) (Nat.lt_add_left _ hn)).of_moved).parse hfits

/-- Settles O15: the blocks a parse cuts have their shapes and spell the input. -/
theorem parsedDocumentSpellsTheInput : Obligations.ParsedDocumentSpellsTheInput := by
  intro s t hs h hdone
  obtain ⟨u, hu, houtcome⟩ := seqParse_outcome hs
  obtain rfl := Host.Outcome.next.inj (h.symm.trans hu)
  cases houtcome with
  | completes hfits hd hstore hin => exact ⟨hfits, _, hd, hstore, hin, rfl⟩
  | faults => cases hdone

end Sys2Proof.Machine
end

section
/-!
SUPPORT. `SEQ.PARSE` and the document (spec/40_block_parser.md R130, R144, spec/45_system_commands.md R272): a failed parse leaves none, and a
running one has none between its steps.
-/

namespace Sys2Proof.Machine

/-! ### A document is stored last -/

/-- A document is stored by the last of the micro-steps but the bare completion, which comes with it (R143, R274). -/
def StoresLast : List Micro → Prop
  | [] => True
  | m :: ms => (∀ d, m = .doc d → ms = [.finish false]) ∧ StoresLast ms

theorem StoresLast.append {ms ns : List Micro} (hms : ∀ m ∈ ms, ∀ d, m ≠ .doc d) (hns : StoresLast ns) : StoresLast (ms ++ ns) := by
  induction ms with
  | nil => exact hns
  | cons m ms ih =>
    obtain ⟨hm, hms⟩ := List.forall_mem_cons.1 hms
    exact ⟨fun d e => absurd e (hm d), ih hms⟩

theorem storesLast_of_none {ms : List Micro} (h : ∀ m ∈ ms, ∀ d, m ≠ .doc d) : StoresLast ms :=
  List.append_nil ms ▸ StoresLast.append h trivial

theorem cursorMoves_storesLast (c : Cut) {ms : List Micro} (h : StoresLast ms) : StoresLast (cursorMoves c ++ ms) := by
  refine .append (fun m hm d => ?_) h
  obtain ⟨p, -, rfl⟩ := List.mem_map.1 hm
  exact nofun

theorem endOfFrames_storesLast (w : ParseWork) (s : State) : StoresLast (endOfFrames w s) := by
  unfold endOfFrames
  repeat' split
  all_goals simp [StoresLast]

theorem attemptMicros_storesLast (w : ParseWork) (s : State) : StoresLast (attemptMicros w s) := by
  have hdoes := attemptMicros_does w s
  generalize attemptMicros w s = ms at hdoes ⊢
  cases hdoes with
  | loopEnds c => exact cursorMoves_storesLast c (endOfFrames_storesLast w s)
  | extJoins | frameJoins | noRoom => exact cursorMoves_storesLast _ ⟨nofun, trivial⟩

/-- The two loops of the codec store no document (R223, R254), and `SEQ.PARSE` stores it last (R130). -/
theorem loopMicros_storesLast (s : State) : StoresLast (loopMicros s) := by
  have hdoc (hparts : Part.doc ∉ s.work.parts) : StoresLast (loopMicros s) :=
    storesLast_of_none fun m hm d e => hparts ((loopMicros_micro s m hm).parts _ (by simp [e, Micro.parts]))
  cases hw : s.work with
  | parse w =>
    rw [loopMicros, hw]
    exact attemptMicros_storesLast w s
  | idle | enc | dec => exact hdoc (by simp [hw, Work.parts])

/-- The part of `SEQ.PARSE` before its frame loop drops the old document and stores none (R130). -/
theorem parsePrelude_storesLast (s : State) : ∃ ms, parsePrelude s = .dropDoc :: ms ∧ StoresLast ms := by
  refine ⟨_, rfl, ?_⟩
  repeat' split
  all_goals simp [StoresLast]

/-! ### A `SEQ.PARSE` that runs step by step -/

/-- A command of a host that interleaves and has no action left: while it runs there is no document, and one is stored only at its end. -/
structure RunsWithoutDoc (s : State) : Prop where
  paced : ∃ n, s.grant = some n
  alone : s.host = []
  running : s.busy = true → s.doc = none ∧ StoresLast s.todo

/-- A step of the command: the next state has no document, or nothing but the completion is left. -/
theorem RunsWithoutDoc.coreTick {s : State} (h : RunsWithoutDoc s) (hb : s.busy = true) (hb' : (coreTick s).busy = true) :
    ((Machine.coreTick s).doc = none ∧ StoresLast (Machine.coreTick s).todo) ∨ (Machine.coreTick s).todo = [.finish false] := by
  obtain ⟨n, hg⟩ := h.paced
  obtain ⟨hdoc, hlast⟩ := h.running hb
  have hloop := loopMicros_storesLast s
  rcases coreTick_cases s with ⟨m, ms, ht, e⟩ | ⟨-, -, e⟩ | ⟨w, -, hw, e⟩ | ⟨w, -, hw, e⟩ | ⟨w, -, hw, e⟩
  · rw [e] at hb' ⊢
    rw [ht] at hlast
    obtain ⟨hm, hms⟩ := hlast
    have htodo : (m.apply { s with todo := ms }).todo = ms := by
      rcases m.apply_todo (s := { s with todo := ms }) hb with ⟨-, e⟩ | ⟨hend, -⟩
      · exact e
      · simp [hend] at hb'
    rw [htodo]
    rcases m.apply_doc { s with todo := ms } with e | e | ⟨d, hd, -⟩
    · exact .inl ⟨e.trans hdoc, hms⟩
    · exact .inl ⟨e, hms⟩
    · exact .inr (hm d hd)
  · simp [e] at hb'
  all_goals
    rw [loopMicros, hw] at hloop
    unfold issue at e
    rw [hg] at e
    rw [e]
    exact .inl ⟨hdoc, hloop⟩

theorem catchUp_ended {s : State} (h : s.busy = false) (n : Nat) : catchUp n s = s := by
  cases n with
  | zero => rfl
  | succ n => rw [catchUp, State.quiet, h, Bool.false_and, if_neg (by decide)]

/-- The bare completion comes with the micro-step before it (R274). -/
theorem catchUp_finish {s : State} (h : s.todo = [.finish false]) (n : Nat) : (catchUp (n + 1) s).busy = false := by
  rw [catchUp]
  split
  · have hdone : coreTick s = complete false { s with todo := [] } := by rw [coreTick, h]; rfl
    rw [hdone, catchUp_ended (complete_busy _ _), complete_busy]
  · rename_i hquiet
    simpa [State.quiet, h, Micro.joins] using hquiet

theorem endIfDone_of_ended {s : State} {n : Nat} (hg : s.grant = some n) (h : (catchUp 32 s).busy = false) :
    (endIfDone s).busy = false := by
  unfold endIfDone
  rw [hg]
  exact (congrArg State.busy (if_neg (by simp [h]))).trans h

/-- What comes with a step of the command: it goes on without a document, or has ended. -/
theorem RunsWithoutDoc.endIfDone {s : State} (hg : ∃ n, s.grant = some n) (hh : s.host = [])
    (h : s.busy = true → (s.doc = none ∧ StoresLast s.todo) ∨ s.todo = [.finish false]) : RunsWithoutDoc (endIfDone s) := by
  have hsame := endIfDone_sameInputs s
  refine ⟨by rwa [hsame.grant], hsame.host.trans hh, fun hb => ?_⟩
  obtain ⟨n, hg⟩ := hg
  rcases endIfDone_cases s with e | ⟨-, hend⟩
  · have hrest (ht : s.todo = [.finish false]) : False := by simp [endIfDone_of_ended hg (catchUp_finish ht 31)] at hb
    rw [e] at hb ⊢
    exact (h hb).resolve_right hrest
  · simp [endIfDone_of_ended hg hend] at hb

theorem RunsWithoutDoc.step {s : State} (h : RunsWithoutDoc s) : ∃ t, step s = .next t ∧ RunsWithoutDoc t := by
  have hmoves : hostMoves s = false := by simp [hostMoves, h.alone]
  cases hb : s.busy with
  | true =>
    have hcore := spendGrant_sameCore s
    have hspend : RunsWithoutDoc (spendGrant s) := by
      obtain ⟨n, hg⟩ := h.paced
      refine ⟨?_, ?_, by rw [hcore.busy, hcore.doc, hcore.todo]; exact h.running⟩
      · cases n <;> simp [spendGrant, hg]
      · cases n <;> simp [spendGrant, hg, h.alone]
    have hsame := coreTick_sameInputs (spendGrant s)
    refine ⟨_, step_core hb hmoves, .endIfDone ?_ (hsame.host.trans hspend.alone) (hspend.coreTick (hcore.busy.trans hb))⟩
    rw [hsame.grant]
    exact hspend.paced
  | false => exact ⟨s, by simp [Machine.step, hb, hostStep, h.alone], h⟩

/-- A run goes on with the next state. -/
theorem run_succ_of_step {M : Host.Core} {k : Nat} {s t : M.State} (h : M.step s = .next t) : M.run (k + 1) s = M.run k t := by
  rw [Host.Core.run, h]

theorem RunsWithoutDoc.run {k : Nat} {s t : State} (h : RunsWithoutDoc s) (ht : Host.Core.run core k s = .next t) :
    RunsWithoutDoc t := by
  induction k generalizing s with
  | zero =>
    obtain rfl := Host.Outcome.next.inj ht
    exact h
  | succ k ih =>
    obtain ⟨u, hu, hruns⟩ := h.step
    exact ih hruns ((run_succ_of_step (M := core) hu).symm.trans ht)

/-- The start of a paced `SEQ.PARSE` (R144, R272). -/
theorem seqParse_runsWithoutDoc {s : State} {n : Nat} (hb : s.busy = false) (hf : s.fault = false) (hg : s.grant = some n)
    (hh : s.host = []) : ∃ t, exec .seqParse s = .next t ∧ RunsWithoutDoc t := by
  refine ⟨_, rfl, ?_⟩
  rcases command_cases 0x10 parsePrelude s with ⟨hno | hno, -⟩ | ⟨-, -, e⟩
  · simp [hb] at hno
  · simp [hf] at hno
  obtain ⟨ms, hms, hlast⟩ := parsePrelude_storesLast (commandStart { s with cmd := 0x10 })
  have hbegin (u : State) : beginPaced (.dropDoc :: ms) u = { u with doc := none, ipos := 0, todo := ms } := if_pos rfl
  rw [e, startCommand, launch, hms, hbegin]
  simp only [commandStart_grant, hg]
  exact .endIfDone ⟨n, rfl⟩ hh fun _ => .inl ⟨rfl, hlast⟩

/-- Settles O16: what is outside the grammar cannot complete, and the micro-step that stores a document ends the command. -/
theorem failedParseLeavesNoDocument : Obligations.FailedParseLeavesNoDocument := by
  refine ⟨fun s hs hno => ?_, fun s u v n k hs hh hu hv hb => ?_⟩
  · obtain ⟨t, ht, houtcome⟩ := seqParse_outcome hs
    cases houtcome with
    | completes _ hd hstore hin => exact absurd ⟨_, hd, hstore, hin⟩ hno
    | faults hcause info p => exact ⟨_, info, p, ht, hcause⟩
  · obtain ⟨t, ht, hruns⟩ := seqParse_runsWithoutDoc (s := { s with grant := some n }) hs.busy hs.fault rfl hh
    obtain rfl := Host.Outcome.next.inj (hu.symm.trans ht)
    exact ((hruns.run hv).running hb).1

end Sys2Proof.Machine
end

section
/-!
SUPPORT. `SEQ.GETBLK` and `SEQ.SETBLK` where no test fails (spec/40_block_parser.md R147 to R150).
-/

namespace Sys2Proof.Machine

/-! ### SEQ.GETBLK (R147, R148) -/

section
variable {s : State} {d : Doc} {sel : BlockSel} (hs : Starts s) (hd : s.doc = some d) (hsel : blockSel s.bkind = some sel)
include hs hd hsel

/-- A block that is there is output, or as many bytes as fit. -/
theorem seqGetblk_emits {bs : List Byte} (h : findBlock d sel s.fidx = .bytes bs) :
    exec .seqGetblk s = .next (emitted 0x12 bs s) := by
  have hm : getblkMicros s = .olen0 :: (outAll bs ++ [.finish false]) := by
    rw [getblkMicros, hd, hsel]
    simp only [h]
  exact congrArg Host.Outcome.next (command_emits 0x12 bs hs hm)

/-- An absent extension completes without output (R148). -/
theorem seqGetblk_absent (h : findBlock d sel s.fidx = .absent) :
    exec .seqGetblk s = .next (finished 0x12 true { s with obuf := [], olen := 0 }) := by
  have hm : getblkMicros (commandStart { s with cmd := 0x12 }) = [.olen0, .finish true] := by
    show getblkMicros s = _
    rw [getblkMicros, hd, hsel]
    simp only [h]
  show Host.Outcome.next (command 0x12 getblkMicros s) = _
  rw [command_starts 0x12 getblkMicros hs, hm, runMicros_olen0 _ rfl, runMicros_finish, settle_ended (complete_busy _ _)]
  rfl

end

/-- The first extension of a kind is the one a frame has of it (R35, R147). -/
theorem Frame.extBytes_of_split {f : Frame} {k : ExtKind} {pre post : List (ExtKind × List Byte)} {bs : List Byte}
    (h : f.exts = pre ++ (k, bs) :: post) (hpre : k ∉ pre.map (fun e => e.1)) : f.extBytes k = some bs := by
  have hnone : pre.find? (fun e => e.1 == k) = none :=
    List.find?_eq_none.2 fun e he hk => hpre (List.mem_map.2 ⟨e, he, beq_iff_eq.1 hk⟩)
  rw [Frame.extBytes, h, List.find?_append, hnone]
  simp

theorem Frame.extBytes_of_not_mem {f : Frame} {k : ExtKind} (h : k ∉ f.exts.map (fun e => e.1)) : f.extBytes k = none := by
  have hnone : f.exts.find? (fun e => e.1 == k) = none :=
    List.find?_eq_none.2 fun e he hk => h (List.mem_map.2 ⟨e, he, beq_iff_eq.1 hk⟩)
  rw [Frame.extBytes, hnone, Option.map_none]

section
variable {d : Doc} {fidx : Word} {f : Frame} (hf : d.frames[fidx.toNat]? = some f) {get : Frame → Option (List Byte)}
include hf

/-- A block of a frame that is there (R147). -/
theorem frameBlock_bytes {bs : List Byte} (h : get f = some bs) : frameBlock d fidx get = .bytes bs := by
  rw [frameBlock, hf]
  simp only [h]

/-- An extension that the frame does not have (R148). -/
theorem frameBlock_absent (h : get f = none) : frameBlock d fidx get = .absent := by
  rw [frameBlock, hf]
  simp only [h]

end

/-- Settles O24: the block that `BKIND` and `FIDX` select is found, or is an extension the frame does not have. -/
theorem getblkCopiesOneBlock : Obligations.GetblkCopiesOneBlock := by
  refine ⟨fun s d hs hd => ⟨fun hk => ?_, fun hk => ?_, fun hk => ?_, fun hk => ?_⟩,
    fun s d f hs hd hf => ⟨fun p hp hk => ⟨fun pre bs post hexts hpre => ?_, fun hnone => ?_⟩, fun hk => ?_, fun hk => ?_, fun hk => ?_⟩⟩
  · exact seqGetblk_emits (sel := .header) hs hd (by rw [hk]; rfl) rfl
  · exact seqGetblk_emits (sel := .lsd) hs hd (by rw [hk]; rfl) rfl
  · exact seqGetblk_emits (sel := .gct) hs hd (by rw [hk]; rfl) rfl
  · exact seqGetblk_emits (sel := .trailer) hs hd (by rw [hk]; rfl) rfl
  · exact seqGetblk_emits hs hd (blockSel_ext (k := p.2) (hk ▸ hp)) (frameBlock_bytes hf (Frame.extBytes_of_split hexts hpre))
  · exact seqGetblk_absent hs hd (blockSel_ext (k := p.2) (hk ▸ hp)) (frameBlock_absent hf (Frame.extBytes_of_not_mem hnone))
  · exact seqGetblk_emits (sel := .id) hs hd (by rw [hk]; rfl) (frameBlock_bytes (get := fun f => some f.id) hf rfl)
  · exact seqGetblk_emits (sel := .lct) hs hd (by rw [hk]; rfl) (frameBlock_bytes (get := fun f => some f.lct) hf rfl)
  · exact seqGetblk_emits (sel := .idb) hs hd (by rw [hk]; rfl) (frameBlock_bytes (get := fun f => some f.idb) hf rfl)

/-! ### SEQ.SETBLK (R149, R150) -/

/-- A block that its kind takes replaces the selected one, if the store holds the new document. -/
theorem seqSetblk_replaces {s : State} {d d' : Doc} (hs : Starts s) (hfits : inputFits s) (hd : s.doc = some d)
    (hstore : ∀ c, s.caps.bstore = some c → d'.bytes.length ≤ c) (h : BlockReplaced s d d') :
    exec .seqSetblk s = .next (finished 0x13 false { s with doc := some d', ipos := s.ilen }) := by
  obtain ⟨sel, hsel, hframe, hok, rfl⟩ := h.setBlock
  have hroom : overStore s.caps (d.setBlock sel s.fidx s.input) = false := by
    rw [overStore, Doc.size_eq, Option.any_eq_false]
    exact fun c hc => by simpa using hstore c hc
  have hm : setblkMicros (commandStart { s with cmd := 0x13 }) =
      [.doc (d.setBlock sel s.fidx s.input), .ipos s.ilen, .finish false] := by
    show setblkMicros s = _
    rw [setblkMicros_fits hd hsel hfits, if_neg fun hno => Nat.not_le.2 (hframe hno.1) hno.2, if_neg (by simp [hok]),
      if_neg (by simp [hroom])]
  show Host.Outcome.next (command 0x13 setblkMicros s) = _
  rw [command_starts 0x13 setblkMicros hs, hm, runMicros_doc _ rfl, runMicros_ipos _ rfl, runMicros_finish,
    settle_ended (complete_busy _ _)]
  rfl

/-- Settles O26: the seven kinds that are no extensions. -/
theorem setblkReplacesOneBlock : Obligations.SetblkReplacesOneBlock := by
  intro s d d' hs hfits hd hstore h
  refine seqSetblk_replaces hs hfits hd hstore ?_
  rcases h with h | h | h | h | ⟨pre, f, post, hframes, hi, ⟨hk, hlen, rfl⟩ | ⟨hk, rfl⟩ | ⟨hk, rfl⟩⟩
  · exact .inl h
  · exact .inr (.inl h)
  · exact .inr (.inr (.inl h))
  · exact .inr (.inr (.inr (.inl h)))
  · exact .inr (.inr (.inr (.inr ⟨pre, f, post, _, hframes, hi, rfl, .inl ⟨hk, hlen, rfl⟩⟩)))
  · exact .inr (.inr (.inr (.inr ⟨pre, f, post, _, hframes, hi, rfl, .inr (.inl ⟨hk, rfl⟩)⟩)))
  · exact .inr (.inr (.inr (.inr ⟨pre, f, post, _, hframes, hi, rfl, .inr (.inr (.inl ⟨hk, rfl⟩))⟩)))

/-- Settles O27: the four kinds of extension. -/
theorem setblkChangesOneExtension : Obligations.SetblkChangesOneExtension := by
  intro s d d' pre post f k exts' hs hfits hd hframes hi hk hkinds hgce happ hexts hd' hstore
  refine seqSetblk_replaces hs hfits hd hstore (.inr (.inr (.inr (.inr ⟨pre, f, post, _, hframes, hi, hd', ?_⟩))))
  exact .inr (.inr (.inr ⟨k, exts', hk, hkinds, hgce, happ, hexts, rfl⟩))

end Sys2Proof.Machine
end

section
/-!
SUPPORT. `SEQ.SERIALIZE` of a document, and the three document commands without one (spec/41_serializer.md R160, R161, R163).
-/

namespace Sys2Proof.Machine

/-! ### The bytes of a document (R160, R161) -/

theorem Frame.bytes_eq_flatMap (f : Frame) : f.bytes = f.exts.flatMap (fun e => e.2) ++ f.id ++ f.lct ++ f.idb := by
  rw [Frame.bytes, List.flatMap_def]

theorem Doc.bytes_eq_flatMap (d : Doc) :
    d.bytes = d.header ++ d.lsd ++ d.gct ++
      d.frames.flatMap (fun f => f.exts.flatMap (fun e => e.2) ++ f.id ++ f.lct ++ f.idb) ++ d.trailer := by
  rw [Doc.bytes, ← List.flatMap_def, funext Frame.bytes_eq_flatMap]

/-- Settles O22: what the serializer outputs is the document's bytes, and these are its blocks in parse order. -/
theorem serializeEmitsTheDocument : Obligations.SerializeEmitsTheDocument := by
  intro s d hs hd
  rw [seqSerialize_emits hs hd, Doc.bytes_eq_flatMap]

/-! ### No document (R163) -/

section
variable {s : State} (hd : s.doc = none)
include hd

theorem serializeMicros_noDocument : serializeMicros s = [.raise .noDocument 0] := by rw [serializeMicros, hd]

theorem getblkMicros_noDocument : getblkMicros s = [.raise .noDocument 0] := by rw [getblkMicros, hd]

theorem setblkMicros_noDocument : setblkMicros s = [.raise .noDocument 0] := by rw [setblkMicros, hd]

end

theorem seqSerialize_raises {code : FaultCode} {info : Word} {s : State} (h : Starts s) (hm : serializeMicros s = [.raise code info]) :
    exec .seqSerialize s = .next (faulted 0x11 code.byte info s) :=
  congrArg Host.Outcome.next (command_raises 0x11 code info h hm)

/-- Settles O23: the test for a document is the first of each command. -/
theorem noDocumentFaults : Obligations.NoDocumentFaults := by
  intro s hs hd
  exact ⟨seqSerialize_raises hs (serializeMicros_noDocument hd), seqGetblk_raises hs (getblkMicros_noDocument hd),
    seqSetblk_raises hs (setblkMicros_noDocument hd)⟩

end Sys2Proof.Machine
end

section
/-!
SUPPORT. The FLD commands, one argument for every record (spec/42_field_codec.md R170 to R172): what an unpack writes, when it faults, and what makes
unpack and pack inverse to each other (R171).
-/

namespace Sys2Proof.Machine

/-! ### The field registers and their memories -/

/-- What an unpack writes besides the cursor: the field registers, `CTM` and `COMB` (R22, R33, R34). -/
structure FieldFile where
  fld : Fields
  ctm : Memory Color
  comb : List Host.Cell

/-- The field registers and memories of a state. -/
def State.fieldFile (s : State) : FieldFile := ⟨s.fld, s.ctm, s.comb⟩

/-- The state with other field registers and memories. -/
def State.withFields (s : State) (f : FieldFile) : State := { s with fld := f.fld, ctm := f.ctm, comb := f.comb }

/-- What a micro-step writes of them. -/
def FieldFile.write (f : FieldFile) : Micro → FieldFile
  | .field r v => { f with fld := f.fld.set v r }
  | .ctm k c => { f with ctm := Memory.write f.ctm k c }
  | .comb k b => { f with comb := Memory.write f.comb k b }
  | .out _ | .outs _ | .olen0 | .solen0 | .ipos _ | .mcs _ | .clearFault | .clearCause | .clearInfo | .dropDoc | .doc _ | .work _
  | .raise _ _ | .finish _ => f

/-- What a list of micro-steps writes of them, one after the other. -/
def FieldFile.writeAll (f : FieldFile) (ms : List Micro) : FieldFile := ms.foldl FieldFile.write f

/-- A micro-step that writes a field register or a cell of a field memory, and nothing else. -/
def Micro.IsFieldWrite (m : Micro) : Prop := ∀ s : State, m.apply s = s.withFields (s.fieldFile.write m)

@[simp] theorem Micro.isFieldWrite_field (r : FieldReg) (v : Word) : (Micro.field r v).IsFieldWrite := fun _ => rfl
@[simp] theorem Micro.isFieldWrite_ctm (k : Nat) (c : Color) : (Micro.ctm k c).IsFieldWrite := fun _ => rfl
@[simp] theorem Micro.isFieldWrite_comb (k : Nat) (b : Byte) : (Micro.comb k b).IsFieldWrite := fun _ => rfl
@[simp] theorem setByte_isFieldWrite (r : FieldReg) (b : Byte) : (setByte r b).IsFieldWrite := fun _ => rfl
@[simp] theorem setU16_isFieldWrite (r : FieldReg) (v : BitVec 16) : (setU16 r v).IsFieldWrite := fun _ => rfl

/-- Field writes, then the rest of the command. -/
theorem runMicros_fieldWrites {ms : List Micro} {s : State} (rest : List Micro) (hms : ∀ m ∈ ms, m.IsFieldWrite) (hb : s.busy = true) :
    runMicros (ms ++ rest) s = runMicros rest (s.withFields (s.fieldFile.writeAll ms)) := by
  induction ms generalizing s with
  | nil => rfl
  | cons m ms ih =>
    obtain ⟨hm, hrest⟩ := List.forall_mem_cons.1 hms
    rw [List.cons_append, runMicros_cons_busy _ (by rw [hm s]; exact hb), hm s]
    exact ih hrest hb

/-! ### Unpack (R170, R172) -/

/-- `ILEN` counts the input (R26). -/
theorem State.ilen_of_input {s : State} {raw : List Byte} (h : s.input = raw) : s.ilen = Word.ofNat raw.length := by
  rw [← h, s.input_length, Word.ofNat_toNat]

section
variable (op : Byte) {lengthOk : List Byte → Bool} {writes : List Byte → List Micro} {s : State} (hs : Starts s)
include hs

theorem unpack_badOperand (h : ¬ inputFits s) : command op (unpackMicros lengthOk writes) s = faulted op 0x41 s.ilen s := by
  have hover : overCap s.caps.ibuf s.ilen = true := Bool.eq_true_of_not_eq_false (mt overCap_eq_false_iff.1 h)
  exact command_raises op .badOperand s.ilen hs (if_pos hover)

theorem unpack_fldLength (hfits : inputFits s) (h : lengthOk s.input = false) :
    command op (unpackMicros lengthOk writes) s = faulted op 0x44 s.ilen { s with ipos := 0 } := by
  have hm : unpackMicros lengthOk writes (commandStart { s with cmd := op }) = [.ipos 0, .raise .fldLength s.ilen] := by
    show unpackMicros lengthOk writes s = _
    rw [unpackMicros, overCap_eq_false_iff.2 hfits, h]
    rfl
  rw [command_starts op _ hs, hm, runMicros_ipos _ rfl, runMicros_raise, settle_ended (raiseFault_busy _ _ _)]
  rfl

theorem unpack_completes (hfits : inputFits s) (h : lengthOk s.input = true) (hw : ∀ m ∈ writes s.input, m.IsFieldWrite) :
    command op (unpackMicros lengthOk writes) s =
      finished op false { s.withFields (s.fieldFile.writeAll (writes s.input)) with ipos := s.ilen } := by
  have hm : unpackMicros lengthOk writes (commandStart { s with cmd := op }) =
      .ipos 0 :: (writes s.input ++ [.ipos s.ilen, .finish false]) := by
    show unpackMicros lengthOk writes s = _
    rw [unpackMicros, overCap_eq_false_iff.2 hfits, h]
    rfl
  rw [command_starts op _ hs, hm, runMicros_ipos _ rfl, runMicros_fieldWrites _ hw rfl, runMicros_ipos _ rfl, runMicros_finish,
    settle_ended (complete_busy _ _)]
  rfl

end

/-! ### Pack (R170) -/

/-- The micro-steps of a pack tell the record. -/
theorem packMicros_injective {as bs : List Byte} (h : packMicros as = packMicros bs) : as = bs := by
  have hout : outAll as = outAll bs := List.append_cancel_right (List.cons.inj h).2
  exact (List.map_injective_iff.2 fun _ _ => Micro.out.inj) hout

/-! ### One record's codec -/

/-- The two commands of a record, and that they are inverse to each other (R171).  A pack outputs a record or faults at once (R301). -/
structure RecordCodec (unpack pack : Instr) (unpackOp packOp : Byte) (lengthOk : List Byte → Bool) (writes : List Byte → List Micro) :
    Prop where
  exec_unpack : ∀ s, exec unpack s = .next (command unpackOp (unpackMicros lengthOk writes) s)
  exec_pack : ∀ s, exec pack s = .next (command packOp (commandMicros pack) s)
  writes_fields : ∀ raw, ∀ m ∈ writes raw, m.IsFieldWrite
  pack_cases : ∀ s, (∃ bs, commandMicros pack s = packMicros bs) ∨ ∃ code info, commandMicros pack s = [.raise code info]
  pack_unpack : ∀ (f : FieldFile) (t : State) (raw : List Byte), lengthOk raw = true → t.fieldFile = f.writeAll (writes raw) →
    commandMicros pack t = packMicros raw
  unpack_pack : ∀ (s v : State) (raw : List Byte), commandMicros pack s = packMicros raw → v.era = s.era →
    v.fieldFile = s.fieldFile.writeAll (writes raw) →
      lengthOk raw = true ∧ v.fld = s.fld ∧ (∀ k, v.ctmAt k = s.ctmAt k) ∧ ∀ k, v.combAt k = s.combAt k

/-- The field memories are as they were where no cell of them changed. -/
theorem fieldMemories_eq {s v : State} (hera : v.era = s.era) (h : v.fieldFile = s.fieldFile) :
    v.fld = s.fld ∧ (∀ k, v.ctmAt k = s.ctmAt k) ∧ ∀ k, v.combAt k = s.combAt k := by
  obtain ⟨hfld, hctm, hcomb⟩ := FieldFile.mk.inj h
  exact ⟨hfld, fun k => by rw [State.ctmAt, hctm, hera, State.ctmAt], fun k => by rw [State.combAt, hcomb, hera, State.combAt]⟩

namespace RecordCodec
variable {unpack pack : Instr} {unpackOp packOp : Byte} {lengthOk : List Byte → Bool} {writes : List Byte → List Micro}

/-- A record of fixed length, all of it in registers. -/
theorem ofFixed {len : Nat} {bytes : Fields → List Byte}
    (hunpack : ∀ s, exec unpack s = .next (command unpackOp (unpackFixed len writes) s))
    (hpack : ∀ s, exec pack s = .next (command packOp (commandMicros pack) s))
    (hmicros : ∀ s, commandMicros pack s = packMicros (bytes s.fld)) (hw : ∀ raw, ∀ m ∈ writes raw, m.IsFieldWrite)
    (hlen : ∀ f, (bytes f).length = len) (hraw : ∀ (f : FieldFile) raw, raw.length = len → bytes (f.writeAll (writes raw)).fld = raw)
    (hfields : ∀ f : FieldFile, f.writeAll (writes (bytes f.fld)) = f) :
    RecordCodec unpack pack unpackOp packOp (fun raw => raw.length == len) writes where
  exec_unpack := hunpack
  exec_pack := hpack
  writes_fields := hw
  pack_cases s := .inl ⟨_, hmicros s⟩
  pack_unpack f t raw hok ht := by
    rw [hmicros, show t.fld = (f.writeAll (writes raw)).fld from congrArg FieldFile.fld ht, hraw f raw (beq_iff_eq.1 hok)]
  unpack_pack s v raw hp hera hv := by
    obtain rfl : bytes s.fld = raw := packMicros_injective ((hmicros s).symm.trans hp)
    exact ⟨beq_iff_eq.2 (hlen _), fieldMemories_eq hera (hv.trans (hfields _))⟩

variable (h : RecordCodec unpack pack unpackOp packOp lengthOk writes)
include h

theorem unpackFaults {fits : List Byte → Prop} (hok : ∀ raw, lengthOk raw = true ↔ fits raw) {s : State} (hs : Starts s) :
    UnpackFaults unpack unpackOp fits s := by
  refine ⟨fun hno => ?_, fun hfits hno => ?_⟩ <;> rw [h.exec_unpack]
  · rw [unpack_badOperand _ hs hno]
  · rw [unpack_fldLength _ hs hfits (Bool.eq_false_iff.2 (mt (hok _).1 hno))]

/-- An unpack of a record it takes (R170). -/
theorem exec_unpack_record {s : State} {raw : List Byte} {f : FieldFile} {n : Word} (hs : Starts s) (hfits : inputFits s)
    (hin : s.input = raw) (hok : lengthOk raw = true) (hf : s.fieldFile.writeAll (writes raw) = f) (hn : s.ilen = n) :
    exec unpack s = .next (finished unpackOp false { s.withFields f with ipos := n }) := by
  subst hin hf hn
  rw [h.exec_unpack, unpack_completes _ hs hfits hok (h.writes_fields _)]

theorem exec_pack_emits {s : State} {bs : List Byte} (hs : Starts s)
    (hm : commandMicros pack (commandStart { s with cmd := packOp }) = packMicros bs) : exec pack s = .next (emitted packOp bs s) := by
  rw [h.exec_pack, command_emits packOp bs hs hm]

/-- `pack(unpack(raw)) == raw` (R171). -/
theorem packs_unpacked {s t : State} (hs : Starts s) (ht : exec unpack s = .next t) (hdone : t.done = true) :
    exec pack t = .next (emitted packOp s.input t) := by
  rw [h.exec_unpack] at ht
  obtain rfl := Host.Outcome.next.inj ht
  by_cases hfits : inputFits s
  · cases hok : lengthOk s.input with
    | false =>
      rw [unpack_fldLength _ hs hfits hok] at hdone
      cases hdone
    | true =>
      rw [unpack_completes _ hs hfits hok (h.writes_fields _)]
      exact h.exec_pack_emits ⟨rfl, hs.fault, hs.grant⟩ (h.pack_unpack s.fieldFile _ _ hok rfl)
  · rw [unpack_badOperand _ hs hfits] at hdone
    cases hdone

/-- A pack that completed has output a record (R170, R303). -/
theorem packed {s t : State} (hs : Starts s) (ht : exec pack s = .next t) (hdone : t.done = true) :
    ∃ raw, commandMicros pack (commandStart { s with cmd := packOp }) = packMicros raw ∧ raw.length ≤ outLimit s.caps.obuf ∧
      t = finished packOp false { s with obuf := cells raw, olen := Word.ofNat raw.length } := by
  rcases h.pack_cases (commandStart { s with cmd := packOp }) with ⟨raw, hm⟩ | ⟨code, info, hm⟩
  · rw [h.exec_pack_emits hs hm] at ht
    obtain rfl := Host.Outcome.next.inj ht
    refine ⟨raw, hm, ?_⟩
    rw [emitted] at hdone ⊢
    split at hdone
    · exact ⟨‹_›, if_pos ‹_›⟩
    · cases hdone
  · rw [h.exec_pack, command_raises packOp code info hs hm] at ht
    obtain rfl := Host.Outcome.next.inj ht
    cases hdone

/-- `unpack(pack(record)) == record` (R171). -/
theorem unpacks_packed {s t u : State} (hs : Starts s) (ht : exec pack s = .next t) (hdone : t.done = true)
    (hmv : hostAct .mv t = .next u) :
    ∃ v, exec unpack u = .next v ∧ v.done = true ∧ v.fld = s.fld ∧
      (∀ k, k < 256 → v.ctmAt k = s.ctmAt k) ∧ ∀ k, k < 255 → v.combAt k = s.combAt k := by
  obtain ⟨raw, hm, hfit, rfl⟩ := h.packed hs ht hdone
  have hlen : raw.length < 2 ^ 32 := lt_of_le_of_lt hfit (outLimit_lt _)
  obtain ⟨hu, hfits⟩ := hostAct_mv rfl rfl hlen hmv
  have hin : u.input = raw := by rw [hu, input_of_fill hlen]
  have hus : Starts u := hu ▸ ⟨rfl, hs.fault, hs.grant⟩
  have hera : u.era = s.era := by rw [hu]; rfl
  have hfile : u.fieldFile = s.fieldFile := by rw [hu]; rfl
  obtain ⟨hok, hfld, hctm, hcomb⟩ := h.unpack_pack (commandStart { s with cmd := packOp })
    (u.withFields (u.fieldFile.writeAll (writes raw))) raw hm hera (by rw [hfile]; rfl)
  exact ⟨_, h.exec_unpack_record hus hfits hin hok rfl rfl, rfl, hfld, fun k _ => hctm k, fun k _ => hcomb k⟩

end RecordCodec

end Sys2Proof.Machine
end

section
/-!
SUPPORT. The records of fixed length: their fields as numbers (spec/20_memory.md R61, R62, spec/30_encoding.md R113), their commands bit by bit
(spec/42_field_codec.md R174, R175, R178, R179, R182, R183, R186, R187, R198, R199).
-/

namespace Sys2Proof.Machine

/-! ### Fields as numbers -/

/-- What a register keeps of a value of its own width (R22). -/
theorem setWidth_word {n : Nat} (v : BitVec n) (h : n ≤ 32 := by decide) : (v.setWidth 32).setWidth n = v := by
  rw [BitVec.setWidth_setWidth_of_le _ h, BitVec.setWidth_eq]

/-- A 16-bit field, low byte first (R61). -/
theorem u16le_eq (lo hi : Byte) : u16le lo hi = BitVec.ofNat 16 (lo.toNat + 256 * hi.toNat) := by
  apply BitVec.eq_of_toNat_eq
  have hlo := lo.isLt
  have hhi := hi.isLt
  rw [u16le, BitVec.toNat_append, ← Nat.shiftLeft_add_eq_or_of_lt hlo, BitVec.toNat_ofNat, Nat.shiftLeft_eq]
  omega

/-- The bytes of a 16-bit field, low byte first (R61). -/
theorem bytes16_eq (v : BitVec 16) : bytes16 v = [BitVec.ofNat 8 v.toNat, BitVec.ofNat 8 (v.toNat / 256)] := by
  have hlo : v.setWidth 8 = BitVec.ofNat 8 v.toNat := by simp
  have hhi : (v >>> 8).setWidth 8 = BitVec.ofNat 8 (v.toNat / 256) := by simp [← BitVec.toNat_inj, Nat.shiftRight_eq_div_pow]
  rw [bytes16, hlo, hhi]

/-- A 16-bit field from its bytes (R61). -/
theorem ofNat_low_high (v : BitVec 16) :
    BitVec.ofNat 16 ((BitVec.ofNat 8 v.toNat).toNat + 256 * (BitVec.ofNat 8 (v.toNat / 256)).toNat) = v := by
  apply BitVec.eq_of_toNat_eq
  have hv := v.isLt
  simp only [BitVec.toNat_ofNat]
  omega

section
variable (lo hi : Byte)

/-- The low byte of a 16-bit field (R61). -/
theorem ofNat_low : BitVec.ofNat 8 (BitVec.ofNat 16 (lo.toNat + 256 * hi.toNat)).toNat = lo := by
  apply BitVec.eq_of_toNat_eq
  have hlo := lo.isLt
  simp only [BitVec.toNat_ofNat]
  omega

/-- The high byte of a 16-bit field (R61). -/
theorem ofNat_high : BitVec.ofNat 8 ((BitVec.ofNat 16 (lo.toNat + 256 * hi.toNat)).toNat / 256) = hi := by
  apply BitVec.eq_of_toNat_eq
  have hlo := lo.isLt
  have hhi := hi.isLt
  simp only [BitVec.toNat_ofNat]
  omega

end

/-- A sub-field of a packed byte (R62, R113). -/
theorem bitsAt_eq (p : Byte) (lo n : Nat) (h : n ≤ 32 := by decide) : (bitsAt p lo n).setWidth n = BitVec.ofNat n (p.toNat / 2 ^ lo) := by
  rw [bitsAt, setWidth_word _ h]
  apply BitVec.eq_of_toNat_eq
  rw [BitVec.toNat_setWidth, BitVec.toNat_ushiftRight, BitVec.toNat_ofNat, Nat.shiftRight_eq_div_pow]

/-- A sub-field put in front of the `k` bits below it (R62, R200). -/
theorem shiftLeft_or_ofNat {n k : Nat} (v : BitVec n) {low : Nat} (hlow : low < 2 ^ k) (hn : n ≤ 8 := by decide) :
    v.setWidth 8 <<< k ||| BitVec.ofNat 8 low = BitVec.ofNat 8 (2 ^ k * v.toNat + low) := by
  have hv : v.toNat < 2 ^ 8 := lt_of_lt_of_le v.isLt (Nat.pow_le_pow_right (by decide) hn)
  apply BitVec.eq_of_toNat_eq
  rw [BitVec.toNat_or, BitVec.toNat_shiftLeft, BitVec.toNat_setWidth, BitVec.toNat_ofNat, BitVec.toNat_ofNat, Nat.mod_eq_of_lt hv,
    ← Nat.or_mod_two_pow, ← Nat.shiftLeft_add_eq_or_of_lt hlow, Nat.shiftLeft_eq, Nat.mul_comm]

/-- A sub-field at bit 0. -/
theorem setWidth_eq_ofNat {n : Nat} (v : BitVec n) : v.setWidth 8 = BitVec.ofNat 8 v.toNat := by simp

/-- The bytes of a record of a given length (R172). -/
theorem map_rawAt_range {raw : List Byte} {n : Nat} (h : raw.length = n) : (List.range n).map (rawAt raw) = raw := by
  apply List.ext_getElem (by simp [h])
  intro i hi hraw
  simp [rawAt, hraw]

/-! ### LogicalScreenDescriptor (R174, R175) -/

theorem lsdPacked_eq (f : Fields) : lsdPacked f =
    BitVec.ofNat 8 (128 * f.lsdGcf.toNat + 16 * f.lsdCres.toNat + 8 * f.lsdSort.toNat + f.lsdGctsz.toNat) := by
  have hcres := f.lsdCres.isLt
  have hsort := f.lsdSort.isLt
  have hsize := f.lsdGctsz.isLt
  rw [lsdPacked, BitVec.or_assoc, BitVec.or_assoc, setWidth_eq_ofNat f.lsdGctsz, shiftLeft_or_ofNat _ (by omega),
    shiftLeft_or_ofNat _ (by omega), shiftLeft_or_ofNat _ (by omega)]
  simp only [Nat.reducePow, Nat.add_assoc]

theorem lsdBytes_eq (f : Fields) : lsdBytes f =
    [BitVec.ofNat 8 f.lsdWidth.toNat, BitVec.ofNat 8 (f.lsdWidth.toNat / 256), BitVec.ofNat 8 f.lsdHeight.toNat,
      BitVec.ofNat 8 (f.lsdHeight.toNat / 256),
      BitVec.ofNat 8 (128 * f.lsdGcf.toNat + 16 * f.lsdCres.toNat + 8 * f.lsdSort.toNat + f.lsdGctsz.toNat),
      f.lsdBg, f.lsdAspect] := by
  rw [lsdBytes, bytes16_eq, bytes16_eq, lsdPacked_eq]
  rfl

theorem lsdWrites_fields (f : FieldFile) (raw : List Byte) : f.writeAll (lsdWrites raw) =
    { f with fld := { f.fld with
      lsdWidth := BitVec.ofNat 16 ((rawAt raw 0).toNat + 256 * (rawAt raw 1).toNat)
      lsdHeight := BitVec.ofNat 16 ((rawAt raw 2).toNat + 256 * (rawAt raw 3).toNat)
      lsdGcf := BitVec.ofNat 1 ((rawAt raw 4).toNat / 128)
      lsdCres := BitVec.ofNat 3 ((rawAt raw 4).toNat / 16)
      lsdSort := BitVec.ofNat 1 ((rawAt raw 4).toNat / 8)
      lsdGctsz := BitVec.ofNat 3 (rawAt raw 4).toNat
      lsdBg := rawAt raw 5
      lsdAspect := rawAt raw 6 } } := by
  simp [FieldFile.writeAll, FieldFile.write, lsdWrites, setByte, setU16, Fields.set, rawU16, u16le_eq, bitsAt_eq]

/-- The packed byte from its fields. -/
theorem lsdPacked_fields (p : Byte) :
    BitVec.ofNat 8 (128 * (BitVec.ofNat 1 (p.toNat / 128)).toNat + 16 * (BitVec.ofNat 3 (p.toNat / 16)).toNat +
      8 * (BitVec.ofNat 1 (p.toNat / 8)).toNat + (BitVec.ofNat 3 p.toNat).toNat) = p := by
  apply BitVec.eq_of_toNat_eq
  have hp := p.isLt
  simp only [BitVec.toNat_ofNat]
  omega

/-- The fields from the packed byte. -/
theorem lsdFields_packed (f : Fields) {p : Nat}
    (hp : p = (BitVec.ofNat 8 (128 * f.lsdGcf.toNat + 16 * f.lsdCres.toNat + 8 * f.lsdSort.toNat + f.lsdGctsz.toNat)).toNat) :
    BitVec.ofNat 1 (p / 128) = f.lsdGcf ∧ BitVec.ofNat 3 (p / 16) = f.lsdCres ∧ BitVec.ofNat 1 (p / 8) = f.lsdSort ∧
      BitVec.ofNat 3 p = f.lsdGctsz := by
  have hflag := f.lsdGcf.isLt
  have hcres := f.lsdCres.isLt
  have hsort := f.lsdSort.isLt
  have hsize := f.lsdGctsz.isLt
  rw [BitVec.toNat_ofNat] at hp
  refine ⟨?_, ?_, ?_, ?_⟩ <;> refine BitVec.eq_of_toNat_eq ((BitVec.toNat_ofNat _ _).trans ?_) <;> omega

theorem lsdCodec : RecordCodec .fldUnpackLsd .fldPackLsd 0x20 0x21 (fun raw => raw.length == 7) lsdWrites :=
  .ofFixed (bytes := lsdBytes) (fun _ => rfl) (fun _ => rfl) (fun _ => rfl) (fun raw => by simp [lsdWrites]) (fun _ => rfl)
    (fun f raw h => by
      rw [lsdWrites_fields, lsdBytes_eq]
      simp only [ofNat_low, ofNat_high, lsdPacked_fields]
      exact map_rawAt_range h)
    (fun f => by
      obtain ⟨hflag, hcres, hsort, hsize⟩ := lsdFields_packed f.fld rfl
      rw [lsdWrites_fields, lsdBytes_eq]
      simp only [rawAt, List.getD_cons_zero, List.getD_cons_succ, ofNat_low_high, hflag, hcres, hsort, hsize])

/-- Settles O28: the writes and the record are those of the bits; what is left is the common part of every codec. -/
theorem fieldCodecLsd : Obligations.FieldCodecLsd := by
  refine ⟨fun s hs => ⟨lsdCodec.unpackFaults (fun _ => beq_iff_eq) hs, fun hfits b0 b1 b2 b3 b4 b5 b6 hin => ?_⟩, fun s hs => ?_⟩
  · exact lsdCodec.exec_unpack_record hs hfits hin rfl (lsdWrites_fields _ _) (State.ilen_of_input hin)
  · exact lsdCodec.exec_pack_emits hs (congrArg packMicros (lsdBytes_eq s.fld))

/-! ### GraphicsControlExtension (R178, R179) -/

theorem gcePacked_eq (f : Fields) : gcePacked f =
    BitVec.ofNat 8 (32 * f.gceRsvd.toNat + 4 * f.gceDisp.toNat + 2 * f.gceUin.toNat + f.gceTcf.toNat) := by
  have hdisp := f.gceDisp.isLt
  have hinput := f.gceUin.isLt
  have htransparent := f.gceTcf.isLt
  rw [gcePacked, BitVec.or_assoc, BitVec.or_assoc, setWidth_eq_ofNat f.gceTcf, shiftLeft_or_ofNat _ (by omega),
    shiftLeft_or_ofNat _ (by omega), shiftLeft_or_ofNat _ (by omega)]
  simp only [Nat.reducePow, Nat.add_assoc]

theorem gceBytes_eq (f : Fields) : gceBytes f =
    [f.gceIntro, f.gceLabel, f.gceBsize,
      BitVec.ofNat 8 (32 * f.gceRsvd.toNat + 4 * f.gceDisp.toNat + 2 * f.gceUin.toNat + f.gceTcf.toNat),
      BitVec.ofNat 8 f.gceDelay.toNat, BitVec.ofNat 8 (f.gceDelay.toNat / 256), f.gceTci, f.gceTerm] := by
  rw [gceBytes, bytes16_eq, gcePacked_eq]
  rfl

theorem gceWrites_fields (f : FieldFile) (raw : List Byte) : f.writeAll (gceWrites raw) =
    { f with fld := { f.fld with
      gceIntro := rawAt raw 0
      gceLabel := rawAt raw 1
      gceBsize := rawAt raw 2
      gceRsvd := BitVec.ofNat 3 ((rawAt raw 3).toNat / 32)
      gceDisp := BitVec.ofNat 3 ((rawAt raw 3).toNat / 4)
      gceUin := BitVec.ofNat 1 ((rawAt raw 3).toNat / 2)
      gceTcf := BitVec.ofNat 1 (rawAt raw 3).toNat
      gceDelay := BitVec.ofNat 16 ((rawAt raw 4).toNat + 256 * (rawAt raw 5).toNat)
      gceTci := rawAt raw 6
      gceTerm := rawAt raw 7 } } := by
  simp [FieldFile.writeAll, FieldFile.write, gceWrites, setByte, setU16, Fields.set, rawU16, u16le_eq, bitsAt_eq]

/-- The packed byte from its fields. -/
theorem gcePacked_fields (p : Byte) :
    BitVec.ofNat 8 (32 * (BitVec.ofNat 3 (p.toNat / 32)).toNat + 4 * (BitVec.ofNat 3 (p.toNat / 4)).toNat +
      2 * (BitVec.ofNat 1 (p.toNat / 2)).toNat + (BitVec.ofNat 1 p.toNat).toNat) = p := by
  apply BitVec.eq_of_toNat_eq
  have hp := p.isLt
  simp only [BitVec.toNat_ofNat]
  omega

/-- The fields from the packed byte. -/
theorem gceFields_packed (f : Fields) {p : Nat}
    (hp : p = (BitVec.ofNat 8 (32 * f.gceRsvd.toNat + 4 * f.gceDisp.toNat + 2 * f.gceUin.toNat + f.gceTcf.toNat)).toNat) :
    BitVec.ofNat 3 (p / 32) = f.gceRsvd ∧ BitVec.ofNat 3 (p / 4) = f.gceDisp ∧ BitVec.ofNat 1 (p / 2) = f.gceUin ∧
      BitVec.ofNat 1 p = f.gceTcf := by
  have hreserved := f.gceRsvd.isLt
  have hdisp := f.gceDisp.isLt
  have hinput := f.gceUin.isLt
  have htransparent := f.gceTcf.isLt
  rw [BitVec.toNat_ofNat] at hp
  refine ⟨?_, ?_, ?_, ?_⟩ <;> refine BitVec.eq_of_toNat_eq ((BitVec.toNat_ofNat _ _).trans ?_) <;> omega

theorem gceCodec : RecordCodec .fldUnpackGce .fldPackGce 0x22 0x23 (fun raw => raw.length == 8) gceWrites :=
  .ofFixed (bytes := gceBytes) (fun _ => rfl) (fun _ => rfl) (fun _ => rfl) (fun raw => by simp [gceWrites]) (fun _ => rfl)
    (fun f raw h => by
      rw [gceWrites_fields, gceBytes_eq]
      simp only [ofNat_low, ofNat_high, gcePacked_fields]
      exact map_rawAt_range h)
    (fun f => by
      obtain ⟨hreserved, hdisp, hinput, htransparent⟩ := gceFields_packed f.fld rfl
      rw [gceWrites_fields, gceBytes_eq]
      simp only [rawAt, List.getD_cons_zero, List.getD_cons_succ, ofNat_low_high, hreserved, hdisp, hinput, htransparent])

/-- Settles O29: the writes and the record are those of the bits, the reserved ones too. -/
theorem fieldCodecGce : Obligations.FieldCodecGce := by
  refine ⟨fun s hs => ⟨gceCodec.unpackFaults (fun _ => beq_iff_eq) hs, fun hfits b0 b1 b2 b3 b4 b5 b6 b7 hin => ?_⟩, fun s hs => ?_⟩
  · exact gceCodec.exec_unpack_record hs hfits hin rfl (gceWrites_fields _ _) (State.ilen_of_input hin)
  · exact gceCodec.exec_pack_emits hs (congrArg packMicros (gceBytes_eq s.fld))

/-! ### ImageDescriptor (R182, R183) -/

theorem idPacked_eq (f : Fields) : idPacked f =
    BitVec.ofNat 8 (128 * f.idLctf.toNat + 64 * f.idIlace.toNat + 32 * f.idSort.toNat + 8 * f.idRsvd.toNat + f.idLctsz.toNat) := by
  have hlace := f.idIlace.isLt
  have hsort := f.idSort.isLt
  have hreserved := f.idRsvd.isLt
  have hsize := f.idLctsz.isLt
  rw [idPacked, BitVec.or_assoc, BitVec.or_assoc, BitVec.or_assoc, setWidth_eq_ofNat f.idLctsz, shiftLeft_or_ofNat _ (by omega),
    shiftLeft_or_ofNat _ (by omega), shiftLeft_or_ofNat _ (by omega), shiftLeft_or_ofNat _ (by omega)]
  simp only [Nat.reducePow, Nat.add_assoc]

theorem idBytes_eq (f : Fields) : idBytes f =
    [f.idSep, BitVec.ofNat 8 f.idLeft.toNat, BitVec.ofNat 8 (f.idLeft.toNat / 256), BitVec.ofNat 8 f.idTop.toNat,
      BitVec.ofNat 8 (f.idTop.toNat / 256), BitVec.ofNat 8 f.idWidth.toNat, BitVec.ofNat 8 (f.idWidth.toNat / 256),
      BitVec.ofNat 8 f.idHeight.toNat, BitVec.ofNat 8 (f.idHeight.toNat / 256),
      BitVec.ofNat 8 (128 * f.idLctf.toNat + 64 * f.idIlace.toNat + 32 * f.idSort.toNat + 8 * f.idRsvd.toNat + f.idLctsz.toNat)] := by
  rw [idBytes, bytes16_eq, bytes16_eq, bytes16_eq, bytes16_eq, idPacked_eq]
  rfl

theorem idWrites_fields (f : FieldFile) (raw : List Byte) : f.writeAll (idWrites raw) =
    { f with fld := { f.fld with
      idSep := rawAt raw 0
      idLeft := BitVec.ofNat 16 ((rawAt raw 1).toNat + 256 * (rawAt raw 2).toNat)
      idTop := BitVec.ofNat 16 ((rawAt raw 3).toNat + 256 * (rawAt raw 4).toNat)
      idWidth := BitVec.ofNat 16 ((rawAt raw 5).toNat + 256 * (rawAt raw 6).toNat)
      idHeight := BitVec.ofNat 16 ((rawAt raw 7).toNat + 256 * (rawAt raw 8).toNat)
      idLctf := BitVec.ofNat 1 ((rawAt raw 9).toNat / 128)
      idIlace := BitVec.ofNat 1 ((rawAt raw 9).toNat / 64)
      idSort := BitVec.ofNat 1 ((rawAt raw 9).toNat / 32)
      idRsvd := BitVec.ofNat 2 ((rawAt raw 9).toNat / 8)
      idLctsz := BitVec.ofNat 3 (rawAt raw 9).toNat } } := by
  simp [FieldFile.writeAll, FieldFile.write, idWrites, setByte, setU16, Fields.set, rawU16, u16le_eq, bitsAt_eq]

/-- The packed byte from its fields. -/
theorem idPacked_fields (p : Byte) :
    BitVec.ofNat 8 (128 * (BitVec.ofNat 1 (p.toNat / 128)).toNat + 64 * (BitVec.ofNat 1 (p.toNat / 64)).toNat +
      32 * (BitVec.ofNat 1 (p.toNat / 32)).toNat + 8 * (BitVec.ofNat 2 (p.toNat / 8)).toNat + (BitVec.ofNat 3 p.toNat).toNat) = p := by
  apply BitVec.eq_of_toNat_eq
  have hp := p.isLt
  simp only [BitVec.toNat_ofNat]
  omega

/-- The fields from the packed byte. -/
theorem idFields_packed (f : Fields) {p : Nat}
    (hp : p = (BitVec.ofNat 8 (128 * f.idLctf.toNat + 64 * f.idIlace.toNat + 32 * f.idSort.toNat + 8 * f.idRsvd.toNat +
      f.idLctsz.toNat)).toNat) :
    BitVec.ofNat 1 (p / 128) = f.idLctf ∧ BitVec.ofNat 1 (p / 64) = f.idIlace ∧ BitVec.ofNat 1 (p / 32) = f.idSort ∧
      BitVec.ofNat 2 (p / 8) = f.idRsvd ∧ BitVec.ofNat 3 p = f.idLctsz := by
  have hflag := f.idLctf.isLt
  have hlace := f.idIlace.isLt
  have hsort := f.idSort.isLt
  have hreserved := f.idRsvd.isLt
  have hsize := f.idLctsz.isLt
  rw [BitVec.toNat_ofNat] at hp
  refine ⟨?_, ?_, ?_, ?_, ?_⟩ <;> refine BitVec.eq_of_toNat_eq ((BitVec.toNat_ofNat _ _).trans ?_) <;> omega

theorem idCodec : RecordCodec .fldUnpackId .fldPackId 0x24 0x25 (fun raw => raw.length == 10) idWrites :=
  .ofFixed (bytes := idBytes) (fun _ => rfl) (fun _ => rfl) (fun _ => rfl) (fun raw => by simp [idWrites]) (fun _ => rfl)
    (fun f raw h => by
      rw [idWrites_fields, idBytes_eq]
      simp only [ofNat_low, ofNat_high, idPacked_fields]
      exact map_rawAt_range h)
    (fun f => by
      obtain ⟨hflag, hlace, hsort, hreserved, hsize⟩ := idFields_packed f.fld rfl
      rw [idWrites_fields, idBytes_eq]
      simp only [rawAt, List.getD_cons_zero, List.getD_cons_succ, ofNat_low_high, hflag, hlace, hsort, hreserved, hsize])

/-- Settles O30: the writes and the record are those of the bits, the reserved ones too. -/
theorem fieldCodecId : Obligations.FieldCodecId := by
  refine ⟨fun s hs => ⟨idCodec.unpackFaults (fun _ => beq_iff_eq) hs, fun hfits b0 b1 b2 b3 b4 b5 b6 b7 b8 b9 hin => ?_⟩,
    fun s hs => ?_⟩
  · exact idCodec.exec_unpack_record hs hfits hin rfl (idWrites_fields _ _) (State.ilen_of_input hin)
  · exact idCodec.exec_pack_emits hs (congrArg packMicros (idBytes_eq s.fld))

/-! ### ApplicationExtension (R186, R187) -/

theorem appBytes_eq (f : Fields) : appBytes f =
    [f.appIntro, f.appLabel, f.appBsize, f.appIdent0, f.appIdent1, f.appIdent2, f.appIdent3, f.appIdent4, f.appIdent5, f.appIdent6,
      f.appIdent7, f.appAuth0, f.appAuth1, f.appAuth2, f.appSblen, f.appLoopind, BitVec.ofNat 8 f.appLoopcnt.toNat,
      BitVec.ofNat 8 (f.appLoopcnt.toNat / 256), f.appTerm] := by
  rw [appBytes, bytes16_eq]
  rfl

theorem appWrites_fields (f : FieldFile) (raw : List Byte) : f.writeAll (appWrites raw) =
    { f with fld := { f.fld with
      appIntro := rawAt raw 0
      appLabel := rawAt raw 1
      appBsize := rawAt raw 2
      appIdent0 := rawAt raw 3
      appIdent1 := rawAt raw 4
      appIdent2 := rawAt raw 5
      appIdent3 := rawAt raw 6
      appIdent4 := rawAt raw 7
      appIdent5 := rawAt raw 8
      appIdent6 := rawAt raw 9
      appIdent7 := rawAt raw 10
      appAuth0 := rawAt raw 11
      appAuth1 := rawAt raw 12
      appAuth2 := rawAt raw 13
      appSblen := rawAt raw 14
      appLoopind := rawAt raw 15
      appLoopcnt := BitVec.ofNat 16 ((rawAt raw 16).toNat + 256 * (rawAt raw 17).toNat)
      appTerm := rawAt raw 18 } } := by
  simp [FieldFile.writeAll, FieldFile.write, appWrites, setByte, setU16, Fields.set, rawU16, u16le_eq]

theorem appCodec : RecordCodec .fldUnpackApp .fldPackApp 0x26 0x27 (fun raw => raw.length == 19) appWrites :=
  .ofFixed (bytes := appBytes) (fun _ => rfl) (fun _ => rfl) (fun _ => rfl) (fun raw => by simp [appWrites]) (fun _ => rfl)
    (fun f raw h => by
      rw [appWrites_fields, appBytes_eq]
      simp only [ofNat_low, ofNat_high]
      exact map_rawAt_range h)
    (fun f => by
      rw [appWrites_fields, appBytes_eq]
      simp only [rawAt, List.getD_cons_zero, List.getD_cons_succ, ofNat_low_high])

/-- Settles O31: the writes and the record, byte by byte. -/
theorem fieldCodecApp : Obligations.FieldCodecApp := by
  refine ⟨fun s hs => ⟨appCodec.unpackFaults (fun _ => beq_iff_eq) hs,
    fun hfits b0 b1 b2 b3 b4 b5 b6 b7 b8 b9 b10 b11 b12 b13 b14 b15 b16 b17 b18 hin => ?_⟩, fun s hs => ?_⟩
  · exact appCodec.exec_unpack_record hs hfits hin rfl (appWrites_fields _ _) (State.ilen_of_input hin)
  · exact appCodec.exec_pack_emits hs (congrArg packMicros (appBytes_eq s.fld))

/-! ### The 16-bit integer (R198, R199) -/

theorem u16Writes_fields (f : FieldFile) (raw : List Byte) : f.writeAll (u16Writes raw) =
    { f with fld := { f.fld with u16Val := BitVec.ofNat 16 ((rawAt raw 0).toNat + 256 * (rawAt raw 1).toNat) } } := by
  simp [FieldFile.writeAll, FieldFile.write, u16Writes, setU16, Fields.set, rawU16, u16le_eq]

theorem u16Codec : RecordCodec .fldUnpackU16 .fldPackU16 0x2C 0x2D (fun raw => raw.length == 2) u16Writes :=
  .ofFixed (bytes := u16Bytes) (fun _ => rfl) (fun _ => rfl) (fun _ => rfl) (fun raw => by simp [u16Writes]) (fun _ => rfl)
    (fun f raw h => by
      rw [u16Writes_fields, u16Bytes, bytes16_eq, ofNat_low, ofNat_high]
      exact map_rawAt_range h)
    (fun f => by
      rw [u16Writes_fields, u16Bytes, bytes16_eq]
      simp only [rawAt, List.getD_cons_zero, List.getD_cons_succ, ofNat_low_high])

/-- Settles O32: the write and the record, low byte first. -/
theorem fieldCodecU16 : Obligations.FieldCodecU16 := by
  refine ⟨fun s hs => ⟨u16Codec.unpackFaults (fun _ => beq_iff_eq) hs, fun hfits b0 b1 hin => ?_⟩, fun s hs => ?_⟩
  · exact u16Codec.exec_unpack_record hs hfits hin rfl (u16Writes_fields _ _) (State.ilen_of_input hin)
  · exact u16Codec.exec_pack_emits hs (congrArg packMicros (bytes16_eq s.fld.u16Val))

end Sys2Proof.Machine
end

section
/-!
SUPPORT. The records with a field memory: the comment extension and the colour table (spec/42_field_codec.md R190, R191, R194, R195), and the two
directions of R171 for all seven records.
-/

namespace Sys2Proof.Machine

/-! ### Runs of cells -/

section
variable {α : Type} {n : Nat}

/-- Consecutive cells written one by one are a load (R190, R194). -/
theorem foldl_write_range (m : Memory α) (g : Nat → α) (n : Nat) :
    (List.range n).foldl (fun m k => Memory.write m k (g k)) m = Memory.fill m 0 ((List.range n).map g) := by
  induction n with
  | zero => rfl
  | succ n ih =>
    rw [List.range_succ, List.foldl_append, ih, List.map_append, Memory.fill_append, List.length_map, List.length_range, Nat.zero_add]
    rfl

/-- A cell of a memory whose first cells are written: with what was there, nothing changes. -/
theorem read_fill_getD (m : Memory α) (g d : Nat → α) (hg : ∀ k, g k = (Memory.read m k).getD (d k)) (k : Nat) :
    (Memory.read (Memory.fill m 0 ((List.range n).map g)) k).getD (d k) = (Memory.read m k).getD (d k) := by
  rw [Memory.read_fill]
  split
  · rename_i hk
    rw [List.length_map, List.length_range] at hk
    rw [Nat.sub_zero, List.getElem?_map, List.getElem?_range (by omega), Option.map_some, Option.getD_some, hg]
  · rfl

/-- The first cells of a memory after they are written. -/
theorem map_read_fill (m : Memory α) (xs : List α) (d : Nat → α) :
    (List.range xs.length).map (fun k => (Memory.read (Memory.fill m 0 xs) k).getD (d k)) = xs := by
  apply List.ext_getElem (by simp)
  intro k hk hxs
  simp [Memory.read_fill, hxs]

end

namespace FieldFile

theorem writeAll_append (f : FieldFile) (ms ns : List Micro) : f.writeAll (ms ++ ns) = (f.writeAll ms).writeAll ns :=
  List.foldl_append

theorem writeAll_comb (f : FieldFile) (g : Nat → Byte) (n : Nat) :
    f.writeAll ((List.range n).map (fun k => Micro.comb k (g k))) = { f with comb := Memory.fill f.comb 0 ((List.range n).map g) } := by
  rw [writeAll, List.foldl_map, ← foldl_write_range]
  exact List.foldl_hom (fun m => { f with comb := m }) (g₂ := fun f k => f.write (.comb k (g k))) fun _ _ => rfl

theorem writeAll_ctm (f : FieldFile) (g : Nat → Color) (n : Nat) :
    f.writeAll ((List.range n).map (fun k => Micro.ctm k (g k))) = { f with ctm := Memory.fill f.ctm 0 ((List.range n).map g) } := by
  rw [writeAll, List.foldl_map, ← foldl_write_range]
  exact List.foldl_hom (fun m => { f with ctm := m }) (g₂ := fun f k => f.write (.ctm k (g k))) fun _ _ => rfl

end FieldFile

/-! ### CommentExtension (R190, R191) -/

/-- The record with the given parts. -/
def comRecord (intro label term : Byte) (body : List Byte) : List Byte := intro :: label :: BitVec.ofNat 8 body.length :: (body ++ [term])

section
variable (intro label term : Byte) {body : List Byte} (hbody : body.length ≤ 255)

theorem comRecord_length : (comRecord intro label term body).length = body.length + 4 := by simp [comRecord]

theorem comLengthOk_iff (raw : List Byte) : comLengthOk raw = true ↔ 4 ≤ raw.length ∧ raw.length = (raw.getD 2 0).toNat + 4 := by
  simp [comLengthOk, rawAt]

include hbody

theorem comRecord_size : (rawAt (comRecord intro label term body) 2).toNat = body.length := by
  show (BitVec.ofNat 8 body.length).toNat = _
  rw [BitVec.toNat_ofNat]
  omega

theorem comLengthOk_comRecord : comLengthOk (comRecord intro label term body) = true :=
  (comLengthOk_iff _).2 ⟨by simp [comRecord_length], by
    rw [comRecord_length]; exact congrArg (· + 4) (comRecord_size intro label term hbody).symm⟩

theorem comWrites_fields (f : FieldFile) : f.writeAll (comWrites (comRecord intro label term body)) =
    { f with
      comb := Memory.fill f.comb 0 body
      fld := { f.fld with comIntro := intro, comLabel := label, comSize := BitVec.ofNat 8 body.length, comTerm := term } } := by
  have hcells : (List.range body.length).map (fun k => rawAt (comRecord intro label term body) (3 + k)) = body := by
    apply List.ext_getElem (by simp)
    intro k hk hkb
    simp [rawAt, comRecord, Nat.add_comm 3, List.getElem?_append_left hkb, hkb]
  have hterm : rawAt (comRecord intro label term body) (3 + body.length) = term := by simp [rawAt, comRecord, Nat.add_comm 3]
  rw [comWrites, comRecord_size _ _ _ hbody, hterm, FieldFile.writeAll_append, FieldFile.writeAll_append, FieldFile.writeAll_comb, hcells]
  simp [FieldFile.writeAll, FieldFile.write, setByte, Fields.set, rawAt, comRecord]

end

/-- A record of the right length has a body between its first three bytes and its last (R190). -/
theorem exists_comRecord {raw : List Byte} (h : comLengthOk raw = true) :
    ∃ intro label term body, body.length ≤ 255 ∧ raw = comRecord intro label term body := by
  obtain ⟨hfour, hlen⟩ := (comLengthOk_iff raw).1 h
  obtain ⟨intro, label, size, rest, rfl⟩ : ∃ a b c rest, raw = a :: b :: c :: rest := by
    match raw, hfour with
    | a :: b :: c :: rest, _ => exact ⟨a, b, c, rest, rfl⟩
  have hne : rest ≠ [] := by rintro rfl; simp at hfour
  have hsize : rest.dropLast.length = size.toNat := by
    simp only [List.length_cons, List.getD_cons_succ, List.getD_cons_zero] at hlen
    rw [List.length_dropLast]
    omega
  refine ⟨intro, label, rest.getLast hne, rest.dropLast, by have := size.isLt; omega, ?_⟩
  rw [comRecord, hsize, BitVec.ofNat_toNat, BitVec.setWidth_eq, List.dropLast_append_getLast hne]

/-- What a pack outputs is a record (R191). -/
theorem comBytes_eq (s : State) :
    comBytes s = comRecord s.fld.comIntro s.fld.comLabel s.fld.comTerm ((List.range s.fld.comSize.toNat).map s.combAt) := by
  simp [comBytes, comRecord]

theorem comCodec : RecordCodec .fldUnpackCom .fldPackCom 0x28 0x29 comLengthOk comWrites where
  exec_unpack _ := rfl
  exec_pack _ := rfl
  writes_fields raw := by
    simp only [comWrites, List.forall_mem_append, List.forall_mem_map]
    simp
  pack_cases s := .inl ⟨comBytes s, rfl⟩
  pack_unpack f t raw hok ht := by
    obtain ⟨intro, label, term, body, hbody, rfl⟩ := exists_comRecord hok
    rw [comWrites_fields _ _ _ hbody] at ht
    obtain ⟨hfld, -, hcomb⟩ := FieldFile.mk.inj ht
    refine congrArg packMicros ((comBytes_eq t).trans ?_)
    have hsize : t.fld.comSize.toNat = body.length := by
      rw [hfld, BitVec.toNat_ofNat]
      omega
    have hcells : (List.range body.length).map t.combAt = body := by
      have hread := map_read_fill f.comb body (Config.freeByte true t.era)
      rw [← hcomb] at hread
      exact hread
    rw [hsize, hcells, hfld]
  unpack_pack s v raw hp hera hv := by
    obtain rfl : comBytes s = raw := packMicros_injective hp
    have hbody : ((List.range s.fld.comSize.toNat).map s.combAt).length ≤ 255 := by
      have := s.fld.comSize.isLt
      simp
      omega
    rw [comBytes_eq] at hv ⊢
    rw [comWrites_fields _ _ _ hbody] at hv
    obtain ⟨hfld, hctm, hcomb⟩ := FieldFile.mk.inj hv
    refine ⟨comLengthOk_comRecord _ _ _ hbody, ?_, fun k => ?_, fun k => ?_⟩
    · rw [hfld]
      simp [State.fieldFile]
    · rw [State.ctmAt, hctm, hera]
      rfl
    · rw [State.combAt, hcomb, hera]
      exact read_fill_getD _ _ (Config.freeByte true s.era) (fun _ => rfl) k

/-- Settles O33: a record of the right length is one sub-block, and its body is a load of `COMB`. -/
theorem fieldCodecCom : Obligations.FieldCodecCom := by
  refine ⟨fun s hs => ⟨comCodec.unpackFaults comLengthOk_iff hs, fun hfits intro label term body hbody hin => ?_⟩, fun s hs => ?_⟩
  · exact comCodec.exec_unpack_record hs hfits hin (comLengthOk_comRecord _ _ _ hbody) (comWrites_fields _ _ _ hbody _) rfl
  · exact comCodec.exec_pack_emits hs rfl

/-! ### Colour tables (R194, R195) -/

/-- A colour from its bytes, as a number (R64). -/
theorem colorOf_eq (r g b : Byte) : colorOf r g b = BitVec.ofNat 24 (r.toNat * 65536 + g.toNat * 256 + b.toNat) := by
  apply BitVec.eq_of_toNat_eq
  have hr := r.isLt
  have hg := g.isLt
  have hb := b.isLt
  rw [colorOf, BitVec.toNat_append, BitVec.toNat_append, ← Nat.shiftLeft_add_eq_or_of_lt hg, ← Nat.shiftLeft_add_eq_or_of_lt hb,
    BitVec.toNat_ofNat, Nat.shiftLeft_eq, Nat.shiftLeft_eq]
  omega

/-- The bytes of a colour, red first, as numbers (R195). -/
theorem colorBytes_eq (c : Color) :
    colorBytes c = [BitVec.ofNat 8 (c.toNat / 65536), BitVec.ofNat 8 (c.toNat / 256), BitVec.ofNat 8 c.toNat] := by
  have hr : (c >>> 16).setWidth 8 = BitVec.ofNat 8 (c.toNat / 65536) := by simp [← BitVec.toNat_inj, Nat.shiftRight_eq_div_pow]
  have hg : (c >>> 8).setWidth 8 = BitVec.ofNat 8 (c.toNat / 256) := by simp [← BitVec.toNat_inj, Nat.shiftRight_eq_div_pow]
  have hb : c.setWidth 8 = BitVec.ofNat 8 c.toNat := by simp
  rw [colorBytes, hr, hg, hb]

/-- The bytes of a colour that is made of them. -/
theorem colorBytes_colorOf (r g b : Byte) : colorBytes (colorOf r g b) = [r, g, b] := by
  have hr := r.isLt
  have hg := g.isLt
  have hb := b.isLt
  rw [colorBytes_eq, colorOf_eq, BitVec.toNat_ofNat]
  simp only [List.cons.injEq, and_true, ← BitVec.toNat_inj, BitVec.toNat_ofNat]
  omega

/-- The colour that is made of a colour's bytes. -/
theorem colorOf_bytes (c : Color) :
    colorOf (BitVec.ofNat 8 (c.toNat / 65536)) (BitVec.ofNat 8 (c.toNat / 256)) (BitVec.ofNat 8 c.toNat) = c := by
  have hc := c.isLt
  rw [colorOf_eq]
  apply BitVec.eq_of_toNat_eq
  simp only [BitVec.toNat_ofNat]
  omega

/-- The record with the given entries, red first (R64, R195). -/
def ctRecord (entries : List (Byte × Byte × Byte)) : List Byte := entries.flatMap (fun e => [e.1, e.2.1, e.2.2])

/-- Entry `k` of a record (R194). -/
def rawEntry (raw : List Byte) (k : Nat) : Byte × Byte × Byte := (rawAt raw (3 * k), rawAt raw (3 * k + 1), rawAt raw (3 * k + 2))

/-- The colour an entry spells (R64). -/
def entryColor (e : Byte × Byte × Byte) : Color := colorOf e.1 e.2.1 e.2.2

theorem ctRecord_length (entries : List (Byte × Byte × Byte)) : (ctRecord entries).length = 3 * entries.length := by
  simp [ctRecord, List.length_flatMap, Nat.mul_comm]

/-- The entries of a record that is made of them. -/
theorem map_rawEntry_ctRecord (entries : List (Byte × Byte × Byte)) :
    (List.range entries.length).map (rawEntry (ctRecord entries)) = entries := by
  induction entries with
  | nil => rfl
  | cons e entries ih =>
    rw [List.length_cons, List.range_succ_eq_map, List.map_cons, List.map_map]
    exact congrArg (e :: ·) ih

/-- The record that is made of a record's entries. -/
theorem ctRecord_rawEntry {raw : List Byte} {n : Nat} (h : raw.length = 3 * n) : ctRecord ((List.range n).map (rawEntry raw)) = raw := by
  refine Eq.trans ?_ (map_rawAt_range h)
  clear h
  induction n with
  | zero => rfl
  | succ n ih =>
    rw [List.range_succ, List.map_append, ctRecord, List.flatMap_append, ← ctRecord, ih, Nat.mul_succ, List.range_succ, List.range_succ,
      List.range_succ]
    simp [rawEntry]

theorem ctLengthOk_iff (raw : List Byte) : ctLengthOk raw = true ↔ raw.length % 3 = 0 ∧ raw.length ≤ 768 := by simp [ctLengthOk]

theorem ctLengthOk_ctRecord {entries : List (Byte × Byte × Byte)} (h : entries.length ≤ 256) : ctLengthOk (ctRecord entries) = true := by
  rw [ctLengthOk_iff, ctRecord_length]
  omega

/-- A record of the right length is made of entries (R194). -/
theorem exists_ctRecord {raw : List Byte} (h : ctLengthOk raw = true) : ∃ entries, entries.length ≤ 256 ∧ raw = ctRecord entries := by
  obtain ⟨hthree, hmax⟩ := (ctLengthOk_iff raw).1 h
  refine ⟨(List.range (raw.length / 3)).map (rawEntry raw), ?_, (ctRecord_rawEntry (by omega)).symm⟩
  rw [List.length_map, List.length_range]
  omega

theorem ctWrites_fields (f : FieldFile) (entries : List (Byte × Byte × Byte)) : f.writeAll (ctWrites (ctRecord entries)) =
    { f with
      ctm := Memory.fill f.ctm 0 (entries.map entryColor)
      fld := { f.fld with ctN := BitVec.ofNat 9 entries.length } } := by
  have hn : (ctRecord entries).length / 3 = entries.length := by rw [ctRecord_length]; omega
  have hcells : (List.range entries.length).map (fun k => entryColor (rawEntry (ctRecord entries) k)) = entries.map entryColor := by
    rw [← map_rawEntry_ctRecord entries, List.map_map, map_rawEntry_ctRecord]
    rfl
  rw [ctWrites, hn, ← hcells, ← Fields.set_ctN]
  exact FieldFile.writeAll_ctm { f with fld := f.fld.set (Word.ofNat entries.length) .ctN } _ _

/-- What a pack outputs, colour by colour (R195). -/
theorem ctBytes_eq (s : State) : ctBytes s = ((List.range s.fld.ctN.toNat).map s.ctmAt).flatMap colorBytes := by
  rw [ctBytes, List.flatMap_def, List.map_map]
  rfl

/-- The bytes of a colour as an entry of a record (R195). -/
def colorEntry (c : Color) : Byte × Byte × Byte := (BitVec.ofNat 8 (c.toNat / 65536), BitVec.ofNat 8 (c.toNat / 256), BitVec.ofNat 8 c.toNat)

theorem flatMap_colorBytes (cs : List Color) : cs.flatMap colorBytes = ctRecord (cs.map colorEntry) := by
  rw [ctRecord, List.flatMap_map, funext colorBytes_eq]
  rfl

theorem flatMap_colorBytes_entryColor (entries : List (Byte × Byte × Byte)) :
    (entries.map entryColor).flatMap colorBytes = ctRecord entries := by
  rw [List.flatMap_map]
  simp only [entryColor, colorBytes_colorOf]
  rfl

theorem packCtMicros_fits {s : State} (h : s.fld.ctN.toNat ≤ 256) : packCtMicros s = packMicros (ctBytes s) := if_neg (Nat.not_lt.2 h)

theorem packCtMicros_raises {s : State} (h : 256 < s.fld.ctN.toNat) : packCtMicros s = [.raise .badOperand (s.fld.ctN.setWidth 32)] :=
  if_pos h

theorem ctCodec : RecordCodec .fldUnpackCt .fldPackCt 0x2A 0x2B ctLengthOk ctWrites where
  exec_unpack _ := rfl
  exec_pack _ := rfl
  writes_fields raw := List.forall_mem_cons.2 ⟨Micro.isFieldWrite_field _ _, List.forall_mem_map.2 fun _ _ => Micro.isFieldWrite_ctm _ _⟩
  pack_cases s := by
    rcases Nat.lt_or_ge 256 s.fld.ctN.toNat with h | h
    · exact .inr ⟨_, _, packCtMicros_raises h⟩
    · exact .inl ⟨_, packCtMicros_fits h⟩
  pack_unpack f t raw hok ht := by
    obtain ⟨entries, hmax, rfl⟩ := exists_ctRecord hok
    rw [ctWrites_fields] at ht
    obtain ⟨hfld, hctm, -⟩ := FieldFile.mk.inj ht
    have hn : t.fld.ctN.toNat = (entries.map entryColor).length := by
      rw [hfld, BitVec.toNat_ofNat, List.length_map]
      omega
    have hcells := map_read_fill f.ctm (entries.map entryColor) (Config.freeColor t.era)
    rw [← hctm, ← hn] at hcells
    refine (packCtMicros_fits (by rw [hn, List.length_map]; exact hmax)).trans (congrArg packMicros ?_)
    rw [ctBytes_eq, ← flatMap_colorBytes_entryColor]
    exact congrArg (List.flatMap colorBytes) hcells
  unpack_pack s v raw hp hera hv := by
    rcases Nat.lt_or_ge 256 s.fld.ctN.toNat with h | h
    · cases (packCtMicros_raises h).symm.trans hp
    · obtain rfl : ctBytes s = raw := packMicros_injective ((packCtMicros_fits h).symm.trans hp)
      have hcolors (cs : List Color) : (cs.map colorEntry).map entryColor = cs := by
        rw [List.map_map]
        exact List.map_id'' colorOf_bytes cs
      rw [ctBytes_eq, flatMap_colorBytes] at hv ⊢
      rw [ctWrites_fields, hcolors] at hv
      obtain ⟨hfld, hctm, hcomb⟩ := FieldFile.mk.inj hv
      refine ⟨ctLengthOk_ctRecord (by simpa using h), ?_, fun k => ?_, fun k => ?_⟩
      · rw [hfld]
        simp [State.fieldFile]
      · rw [State.ctmAt, hctm, hera]
        exact read_fill_getD _ _ (Config.freeColor s.era) (fun _ => rfl) k
      · rw [State.combAt, hcomb, hera]
        rfl

/-- Settles O34: a record of the right length is a list of entries, and their colours are a load of `CTM`. -/
theorem fieldCodecCt : Obligations.FieldCodecCt := by
  refine ⟨fun s hs => ⟨ctCodec.unpackFaults ctLengthOk_iff hs, fun hfits entries hmax hin => ?_⟩, fun s hs => ⟨fun h => ?_, fun h => ?_⟩⟩
  · have hcolor : entries.map (fun e => BitVec.ofNat 24 (e.1.toNat * 65536 + e.2.1.toNat * 256 + e.2.2.toNat)) = entries.map entryColor :=
      List.map_congr_left fun e _ => (colorOf_eq e.1 e.2.1 e.2.2).symm
    rw [hcolor]
    exact ctCodec.exec_unpack_record hs hfits hin (ctLengthOk_ctRecord hmax) (ctWrites_fields _ entries) rfl
  · exact congrArg Host.Outcome.next (command_raises 0x2B .badOperand _ hs (packCtMicros_raises h))
  · refine ctCodec.exec_pack_emits hs ((packCtMicros_fits h).trans (congrArg packMicros ?_))
    show ctBytes s = _
    rw [ctBytes_eq, List.flatMap_map, funext colorBytes_eq]

/-! ### The round trips (R171) -/

/-- Settles O35: each record's codec is inverse in both directions, and one argument turns that into runs of the commands. -/
theorem fieldRoundTrip : Obligations.FieldRoundTrip := by
  refine ⟨fun p hp s t => ?_, fun p hp s t u => ?_⟩ <;>
    simp only [List.mem_cons, List.not_mem_nil, or_false] at hp <;>
    rcases hp with rfl | rfl | rfl | rfl | rfl | rfl | rfl
  · exact lsdCodec.packs_unpacked
  · exact gceCodec.packs_unpacked
  · exact idCodec.packs_unpacked
  · exact appCodec.packs_unpacked
  · exact comCodec.packs_unpacked
  · exact ctCodec.packs_unpacked
  · exact u16Codec.packs_unpacked
  · exact lsdCodec.unpacks_packed
  · exact gceCodec.unpacks_packed
  · exact idCodec.unpacks_packed
  · exact appCodec.unpacks_packed
  · exact comCodec.unpacks_packed
  · exact ctCodec.unpacks_packed
  · exact u16Codec.unpacks_packed

end Sys2Proof.Machine
end

section
/-!
The statements about `LZW.ENC` (spec/43_lzw_encoder.md R211 to R223, R227, R228; spec/60_exceptions.md R301, R304, R308): its minimum code size, its
checks in order, and its output.
-/

namespace Sys2Proof.Machine

/-! ### The minimum code size (R11, R211) -/

/-- `bitlen` is the least width that holds a number (R11). -/
theorem bitlen_le_iff {n m : Nat} : bitlen n ≤ m ↔ n < 2 ^ m := by
  unfold bitlen
  split
  · subst n
    simp
  · exact Nat.log2_lt ‹_›

theorem shortestForm_eq_bitlen {n : Nat} (h : n < 2 ^ 16) : shortestForm n = bitlen n := by
  have hfind : (List.range 17).find? (fun m => decide (n < 2 ^ m)) = some (bitlen n) := by
    refine List.find?_range_eq_some.2 ⟨decide_eq_true (bitlen_le_iff.1 le_rfl),
      List.mem_range.2 (Nat.lt_succ_of_le (bitlen_le_iff.2 h)), fun m hm => ?_⟩
    simpa using mt bitlen_le_iff.2 (Nat.not_le.2 hm)
  rw [shortestForm, hfind, Option.getD_some]

theorem maxSymbol_eq_foldr (xs : List Symbol) : maxSymbol xs = (xs.map BitVec.toNat).foldr max 0 := by
  rw [← List.foldl_eq_foldr, List.foldl_map]
  rfl

/-- A symbol has 16 bits (R69). -/
theorem maxSymbol_lt (xs : List Symbol) : maxSymbol xs < 2 ^ 16 := by
  rw [maxSymbol_eq_foldr]
  induction xs with
  | nil => decide
  | cons x xs ih => exact max_lt x.isLt ih

/-- What `LZW.ENC` computes as its code size is the shortest form that R211 asks for. -/
theorem encRawMcs_eq_codeSize (s : State) : encRawMcs s.ctcnt.toNat s.symbols = codeSize s := by
  rw [codeSize, encRawMcs]
  by_cases h : s.ctcnt = 0
  · rw [if_pos h, if_neg (by simp [h]), ← maxSymbol_eq_foldr, shortestForm_eq_bitlen (maxSymbol_lt _)]
  · have hpos : 0 < s.ctcnt.toNat := Nat.pos_of_ne_zero fun h0 => h (BitVec.eq_of_toNat_eq h0)
    have hlt := s.ctcnt.isLt
    rw [if_neg h, if_pos hpos, shortestForm_eq_bitlen (by omega)]

theorem State.encMcs_eq (s : State) : s.encMcs = max 2 (codeSize s) := congrArg (max 2) (encRawMcs_eq_codeSize s)

/-! ### The checks (R211, R227) -/

/-- The operand test of a length register against an input capacity (R26, R28). -/
theorem overCap_eq_true_iff {cap : Option Nat} {len : Word} : overCap cap len = true ↔ ∃ c, cap = some c ∧ c < len.toNat := by
  simp [overCap, Option.any_eq_true]

theorem overCap_eq_false {cap : Option Nat} {len : Word} (h : ∀ c, cap = some c → len.toNat ≤ c) : overCap cap len = false := by
  rw [Bool.eq_false_iff, ne_eq, overCap_eq_true_iff]
  rintro ⟨c, hc, hlt⟩
  exact Nat.not_lt.2 (h c hc) hlt

/-- The first symbol out of range, by what stands before it (R211). -/
theorem firstBadSymbol_append {mcs : Nat} {pre post : List Symbol} {x : Symbol} (hpre : ∀ y ∈ pre, y.toNat < 2 ^ mcs)
    (hx : 2 ^ mcs ≤ x.toNat) : firstBadSymbol mcs (pre ++ x :: post) = some pre.length := by
  have hnone : pre.findIdx? (fun y => decide (2 ^ mcs ≤ y.toNat)) = none :=
    List.findIdx?_eq_none_iff.2 fun y hy => decide_eq_false (Nat.not_le.2 (hpre y hy))
  rw [firstBadSymbol, List.findIdx?_append, hnone, List.findIdx?_cons, if_pos (decide_eq_true hx)]
  simp

section
variable {s : State}

theorem encPrelude_overCap (h : overCap s.caps.sin s.silen = true) : encPrelude s = [.raise .badOperand s.silen] := if_pos h

variable (hcap : overCap s.caps.sin s.silen = false)
include hcap

theorem encPrelude_overTable (h : 256 < s.ctcnt.toNat) : encPrelude s = [.raise .badOperand (s.ctcnt.setWidth 32)] := by
  rw [encPrelude, hcap, if_neg (by decide), if_pos h]

theorem encPrelude_overSize (htable : s.ctcnt.toNat ≤ 256) (h : 11 < codeSize s) :
    encPrelude s = [.raise .encMcsRange (Word.ofNat (codeSize s))] := by
  rw [← encRawMcs_eq_codeSize] at h ⊢
  rw [encPrelude, hcap, if_neg (by decide), if_neg (Nat.not_lt.2 htable), if_pos h]

theorem encPrelude_badSymbol (htable : s.ctcnt.toNat ≤ 256) (hsize : codeSize s ≤ 11) {j : Nat}
    (h : firstBadSymbol s.encMcs s.symbols = some j) :
    encPrelude s = [.mcs (BitVec.ofNat 4 s.encMcs), .raise .encSymbolRange (Word.ofNat j)] := by
  rw [← encRawMcs_eq_codeSize] at hsize
  rw [State.encMcs] at h
  rw [encPrelude, hcap, if_neg (by decide), if_neg (Nat.not_lt.2 htable), if_neg (Nat.not_lt.2 hsize), h]
  rfl

theorem encPasses_of_codeSize (htable : s.ctcnt.toNat ≤ 256) (hsize : codeSize s ≤ 11)
    (hsym : ∀ x ∈ s.symbols, x.toNat < 2 ^ max 2 (codeSize s)) : EncPasses s where
  operand := hcap
  table := htable
  size := (encRawMcs_eq_codeSize s).trans_le hsize
  symbols := by rwa [s.encMcs_eq]

end

/-- A check before any write (R227, R305). -/
theorem lzwEnc_raises {s : State} {code : FaultCode} {info : Word} (hs : Starts s) (h : encPrelude s = [.raise code info]) :
    exec .lzwEnc s = .next (faulted 0x30 code.byte info s) :=
  congrArg Host.Outcome.next (command_raises 0x30 code info hs h)

/-- The symbol check comes after `MCS` is written (R211, R227, R305). -/
theorem lzwEnc_mcs_raises {s : State} {m : BitVec 4} {code : FaultCode} {info : Word} (hs : Starts s)
    (h : encPrelude s = [.mcs m, .raise code info]) :
    exec .lzwEnc s = .next (faulted 0x30 code.byte info { s with mcs := m }) := by
  have hpre : encPrelude (commandStart { s with cmd := 0x30 }) = [.mcs m, .raise code info] := h
  show Host.Outcome.next (command 0x30 encPrelude s) = _
  rw [command_starts 0x30 _ hs, hpre, runMicros_mcs _ (by rfl), runMicros_raise, settle_ended (raiseFault_busy _ _ _)]
  rfl

/-! ### The obligations -/

/-- Settles O37: a sequence that passes the checks is encoded to the encoder's bytes, and those are a chain of greedy sub-blocks that carries
the code stream. -/
theorem encoderEmitsTheCodeStream : Obligations.EncoderEmitsTheCodeStream := by
  intro s hs hcap htable hsize hsym
  have hpass := encPasses_of_codeSize (overCap_eq_false hcap) htable hsize hsym
  obtain ⟨hmin, hmax⟩ := hpass.mcs_range
  obtain ⟨blocks, ⟨hsub, hfull⟩, hcodes, hbytes⟩ := encBytes_block hmin hmax hpass.symbols
  rw [← s.encMcs_eq]
  exact ⟨blocks, hsub, hfull, hcodes, hbytes ▸ hpass.lzwEnc_emits hs⟩

/-- Settles O36: each check's micro-steps, given that those before it pass. -/
theorem encoderChecks : Obligations.EncoderChecks := by
  refine fun s hs => ⟨fun hover => lzwEnc_raises hs (encPrelude_overCap (overCap_eq_true_iff.2 hover)), fun hfits => ?_⟩
  have hcap := overCap_eq_false hfits
  refine ⟨fun htable => lzwEnc_raises hs (encPrelude_overTable hcap htable),
    fun htable hsize => lzwEnc_raises hs (encPrelude_overSize hcap htable hsize),
    fun htable hsize pre x post hsymbols hpre hx => ?_⟩
  rw [← s.encMcs_eq] at hpre hx ⊢
  exact lzwEnc_mcs_raises hs (encPrelude_badSymbol hcap htable hsize (hsymbols ▸ firstBadSymbol_append hpre hx))

end Sys2Proof.Machine
end

section
/-!
SUPPORT. `LZW.DEC` step by step (spec/44_lzw_decoder.md R241 to R255): its checks, the byte its deframer takes, and the faults of its codes.
-/

namespace Sys2Proof.Machine

/-! ### The checks before the code loop (R241) -/

section
variable {s : State}

theorem decPrelude_overCap (h : ¬ inputFits s) : decPrelude s = [.raise .badOperand s.ilen] :=
  if_pos (Bool.eq_true_of_not_eq_false (mt overCap_eq_false_iff.1 h))

variable (hfits : inputFits s)
include hfits

theorem decPrelude_empty (h : s.ilen = 0) : decPrelude s = [.ipos 0, .solen0, .raise .decTruncated 0] := by
  rw [decPrelude, overCap_eq_false_iff.2 hfits, if_neg (by decide), if_pos h]

theorem decPrelude_badMcs (hlen : s.ilen ≠ 0) (h : (s.ibufAt 0).toNat < 2 ∨ 11 < (s.ibufAt 0).toNat) :
    decPrelude s = [.ipos 0, .solen0, .ipos 1, .raise .decBadMcs ((s.ibufAt 0).setWidth 32)] := by
  rw [decPrelude, overCap_eq_false_iff.2 hfits, if_neg (by decide), if_neg hlen, if_pos h]

end

/-- A `LZW.DEC` that ends before its code loop (R241, R274). -/
theorem lzwDec_ends {s t : State} (hs : Starts s) (hrun : runMicros (decPrelude s) (commandStart { s with cmd := 0x31 }) = t)
    (hend : t.busy = false) : exec .lzwDec s = .next t := by
  subst hrun
  exact congrArg Host.Outcome.next ((command_starts 0x31 decPrelude hs).trans (settle_ended hend _))

/-! ### The deframer (R243, R244, R245) -/

section
variable {s : State} {w : DecWork}

theorem pullMicros_exhausted (h : w.ended = true ∨ s.ilen ≤ s.ipos) : pullMicros w s = [.raise .decTruncated s.ipos] := by
  rw [pullMicros]
  rcases h with h | h
  · exact if_pos h
  · rw [if_pos h, ite_self]

variable (hended : w.ended = false) (hleft : s.ipos < s.ilen)
include hended hleft

theorem pullMicros_terminator (hrem : w.rem = 0) (hbyte : s.ibufAt s.ipos.toNat = 0) :
    pullMicros w s =
      [.ipos (s.ipos + 1), .work (.dec { w with ended := true }), .raise .decTruncated (s.ipos + 1)] := by
  rw [pullMicros, hended, if_neg (by decide), if_neg (BitVec.not_le.2 hleft), if_pos hrem, if_pos hbyte]

theorem pullMicros_length (hrem : w.rem = 0) (hbyte : s.ibufAt s.ipos.toNat ≠ 0) :
    pullMicros w s = [.ipos (s.ipos + 1), .work (.dec { w with rem := (s.ibufAt s.ipos.toNat).toNat })] := by
  rw [pullMicros, hended, if_neg (by decide), if_neg (BitVec.not_le.2 hleft), if_pos hrem, if_neg hbyte]

/-- The payload byte stands above the bits already buffered (R40, R244). -/
theorem pullMicros_payload (hrem : w.rem ≠ 0) (hacc : w.acc < 2 ^ w.nb) :
    pullMicros w s = [.ipos (s.ipos + 1), .work (.dec { w with
      acc := w.acc + (s.ibufAt s.ipos.toNat).toNat * 2 ^ w.nb, nb := w.nb + 8, rem := w.rem - 1 })] := by
  have hor : w.acc ||| ((s.ibufAt s.ipos.toNat).toNat <<< w.nb) = w.acc + (s.ibufAt s.ipos.toNat).toNat * 2 ^ w.nb := by
    rw [Nat.lor_comm, ← Nat.shiftLeft_add_eq_or_of_lt hacc, Nat.shiftLeft_eq, Nat.add_comm]
  rw [pullMicros, hended, if_neg (by decide), if_neg (BitVec.not_le.2 hleft), if_neg hrem, hor]

end

/-- A step of a core that works for a host that waits (R274). -/
theorem step_waits {s : State} (hb : s.busy = true) (hg : s.grant = none) : step s = .next (coreTick s) := by
  have hstay : (coreTick s).grant = none := (coreTick_sameInputs s).grant.trans hg
  rw [step_core hb (by rw [hostMoves, hg]; rfl), show spendGrant s = s by rw [spendGrant, hg], endIfDone_waits hstay]

/-- While a code is not buffered, a step of a running `LZW.DEC` is one of its deframer (R244, R254). -/
theorem step_pullMicros {s : State} {w : DecWork} (hb : s.busy = true) (hg : s.grant = none) (ht : s.todo = [])
    (hw : s.work = .dec w) (hshort : w.nb < w.width) : step s = .next (runMicros (pullMicros w s) s) := by
  rw [step_waits hb hg]
  unfold coreTick issue
  rw [ht, hw, hg]
  simp only [decMicros, if_pos hshort]

/-! ### Output of symbols without room (R255, R303) -/

/-- `outs(x)` without room. -/
theorem runMicros_outs_full {s : State} (x : Symbol) (ms : List Micro) (h : outLimit s.caps.sout ≤ s.solen.toNat) :
    runMicros (.outs x :: ms) s = raiseFault .capacity s.solen s := by
  have houts : (Micro.outs x).apply s = raiseFault .capacity s.solen s := if_pos ((outFull_iff _ _).2 h)
  rw [runMicros_cons, houts, raiseFault_busy, if_neg (by decide)]

/-- Appending symbols that do not fit ends the command with `CAPACITY` and the part that fits. -/
theorem runMicros_outsAll_full {xs : List Symbol} {s : State} (rest : List Micro) (hb : s.busy = true)
    (hle : s.solen.toNat ≤ outLimit s.caps.sout) (hfull : outLimit s.caps.sout < s.solen.toNat + xs.length) :
    runMicros (outsAll xs ++ rest) s =
      raiseFault .capacity (Word.ofNat (outLimit s.caps.sout)) { s with
        sout := Memory.fill s.sout s.solen.toNat (xs.take (outLimit s.caps.sout - s.solen.toNat))
        solen := Word.ofNat (outLimit s.caps.sout) } := by
  obtain ⟨k, hk⟩ : ∃ k, outLimit s.caps.sout = s.solen.toNat + k := Nat.exists_eq_add_of_le hle
  have hlt : k < xs.length := by omega
  obtain ⟨ys, x, zs, rfl, hlen⟩ : ∃ ys x zs, xs = ys ++ x :: zs ∧ ys.length = k :=
    ⟨xs.take k, xs[k], xs.drop (k + 1), by rw [← List.drop_eq_getElem_cons hlt, List.take_append_drop],
      List.length_take_of_le hlt.le⟩
  have hsplit : outsAll (ys ++ x :: zs) ++ rest = outsAll ys ++ .outs x :: (outsAll zs ++ rest) := by simp [outsAll]
  have hsolen : s.solen + Word.ofNat k = Word.ofNat (outLimit s.caps.sout) := by
    rw [hk, Word.ofNat, Word.ofNat, BitVec.ofNat_add, BitVec.ofNat_toNat, BitVec.setWidth_eq]
  rw [hsplit, runMicros_outsAll _ hb (by omega), hlen, hsolen,
    runMicros_outs_full _ _ (by exact (Word.toNat_ofNat_of_lt (outLimit_lt _)).ge), hk, Nat.add_sub_cancel_left, List.take_left' hlen]

/-! ### What a code does (R246 to R254) -/

/-- A code above End-of-Information at the start of a segment (R250). -/
theorem codeMicros_first_desync {w : DecWork} {c : Nat} (hprev : w.prev = none) (hc : eoiCode w.mcs < c) :
    codeMicros w c = [.raise .decDesync (Word.ofNat c)] := by
  rw [codeMicros, if_neg hc.ne', if_neg (by unfold clearCode eoiCode at *; omega), hprev]
  exact if_pos hc

section
variable {w : DecWork} {c : Nat} {prev : List Symbol} (hprev : w.prev = some prev) (hclear : c ≠ clearCode w.mcs)
  (heoi : c ≠ eoiCode w.mcs)
include hprev hclear heoi

/-- A data code with a full table (R252). -/
theorem codeMicros_tableFull (hfull : w.dict.length = 4096) : codeMicros w c = [.raise .decTableFull (Word.ofNat c)] := by
  rw [codeMicros, if_neg heoi, if_neg hclear, hprev]
  exact if_pos hfull

/-- A code above the size of the dictionary (R250). -/
theorem codeMicros_later_desync (hroom : w.dict.length ≠ 4096) (hc : w.dict.length < c) :
    codeMicros w c = [.raise .decDesync (Word.ofNat c)] := by
  rw [codeMicros, if_neg heoi, if_neg hclear, hprev]
  exact (if_neg hroom).trans (if_pos hc)

end

/-- The code leaves the accumulator (R244). -/
theorem DecWork.shift_eq (w : DecWork) : w.shift = { w with acc := w.acc / 2 ^ w.width, nb := w.nb - w.width } := by
  rw [DecWork.shift, Nat.shiftRight_eq_div_pow]

section
variable {s : State} {w : DecWork} (h : CodeWaits w s)
include h

theorem CodeWaits.busy : s.busy = true := h.1

/-- A code where a running `LZW.DEC` waits for one (R254). -/
theorem CodeWaits.exec_code (code : BitVec 12) :
    exec (.lzwCode w.width code) s = .next (runMicros (codeMicros w.shift code.toNat) s) := by
  obtain ⟨hb, ht, hw, hg, hnb⟩ := h
  have hready : s.codeReady w.width = some w := by simp [State.codeReady, hb, ht, hw, hnb]
  show execLzwCode w.width code s = _
  unfold execLzwCode issue
  rw [hready, hg]

/-- A code that is a fault changes nothing else (R250, R252, R305). -/
theorem CodeWaits.raises {code : BitVec 12} {cause : FaultCode}
    (hdo : codeMicros w.shift code.toNat = [.raise cause (Word.ofNat code.toNat)]) :
    exec (.lzwCode w.width code) s = .next (stopped cause.byte (code.setWidth 32) s) := by
  rw [h.exec_code, hdo, runMicros_raise, Word.ofNat, BitVec.ofNat_toNat]
  rfl

end

end Sys2Proof.Machine
end

section
/-!
The statements about `LZW.DEC` (spec/44_lzw_decoder.md R241 to R258; spec/60_exceptions.md R303, R305): its checks, the byte its deframer takes, what
each class of code does, and its output.
-/

namespace Sys2Proof.Machine

/-- Settles O39: the run of the decoder over the block, as for the round trip. -/
theorem decoderReadsTheCodeStream : Obligations.DecoderReadsTheCodeStream :=
  fun _ _ _ hs hfits hmin hmax hxs hin hroom => lzwDec_encodedBlock hs hfits hmin hmax hxs hin hroom

/-- Settles O38: each check's micro-steps, given that those before it pass. -/
theorem decoderChecks : Obligations.DecoderChecks := by
  refine fun s hs => ⟨fun hover => lzwDec_ends hs ?_ rfl, fun hfits hlen => lzwDec_ends hs ?_ rfl,
    fun hfits hlen hbyte => lzwDec_ends hs ?_ rfl⟩
  · rw [decPrelude_overCap hover, runMicros_raise]
    rfl
  · rw [decPrelude_empty hfits hlen, runMicros_ipos _ (by rfl), runMicros_solen0 _ (by rfl), runMicros_raise]
    rfl
  · rw [decPrelude_badMcs hfits hlen hbyte, runMicros_ipos _ (by rfl), runMicros_solen0 _ (by rfl), runMicros_ipos _ (by rfl),
      runMicros_raise]
    rfl

/-- Settles O44: the four ends of the deframer, each with its micro-steps. -/
theorem deframerTakesOneByte : Obligations.DeframerTakesOneByte := by
  intro s w hb hg ht hw hrange hshort
  obtain ⟨-, -, -, -, -, -, -, -, hacc, -, -⟩ := hrange
  rw [step_pullMicros hb hg ht hw hshort]
  refine ⟨fun hnone => ?_, fun hended hleft hrem hbyte => ?_, fun hended hleft hrem hbyte => ?_, fun hended hleft hrem => ?_⟩
  · rw [pullMicros_exhausted hnone, runMicros_raise]
    rfl
  · rw [pullMicros_terminator hended hleft hrem hbyte, runMicros_ipos _ hb, runMicros_work _ (by exact hb), runMicros_raise]
    rfl
  · rw [pullMicros_length hended hleft hrem hbyte, runMicros_ipos _ hb, runMicros_work _ (by exact hb), runMicros_nil]
  · rw [pullMicros_payload hended hleft hrem hacc, runMicros_ipos _ hb, runMicros_work _ (by exact hb), runMicros_nil]

/-- Settles O41: what the two reserved codes do to the working state left by the code's bits. -/
theorem reservedCodes : Obligations.ReservedCodes := by
  refine fun s w code h => ⟨fun hclear => ?_, fun heoi => ?_⟩
  · rw [h.exec_code, hclear, DecWork.shift_eq]
    exact congrArg Host.Outcome.next ((congrArg (runMicros · s) (codeMicros_clear _)).trans (runMicros_work [] h.busy _))
  · rw [h.exec_code, heoi]
    exact congrArg Host.Outcome.next ((congrArg (runMicros · s) (codeMicros_eoi w.shift)).trans (runMicros_finish _ _ _))

/-- Settles O42: a literal is one symbol of output, with room or without; any other data code is a fault. -/
theorem firstCodeOfASegment : Obligations.FirstCodeOfASegment := by
  intro s w code h hprev
  have hliteral (hlit : code.toNat < 2 ^ w.mcs) : codeMicros w.shift code.toNat =
      outsAll [code.setWidth 16] ++ [.work (.dec { w.shift with prev := some [code.setWidth 16] })] := by
    rw [codeMicros_literal (w := w.shift) hprev hlit, BitVec.ofNat_toNat]
    rfl
  refine ⟨fun hlit hroom => ?_, fun hlit hfull => ?_, fun hhigh => h.raises (codeMicros_first_desync (w := w.shift) hprev hhigh)⟩
  · rw [h.exec_code, hliteral hlit, runMicros_outsAll _ h.busy (by exact hroom), runMicros_work _ (by exact h.busy), runMicros_nil,
      DecWork.shift_eq]
    rfl
  · rw [h.exec_code, hliteral hlit]
    exact congrArg Host.Outcome.next (runMicros_outs_full _ _ hfull)

/-- Settles O43: the code means a sequence, which is output as far as there is room; or it is a fault. -/
theorem laterDataCode : Obligations.LaterDataCode := by
  refine ⟨fun s w code prev cur entry h hprev hroom hclear heoi hmeans hfit => ?_,
    fun s w code prev cur h hprev hroom hclear heoi hcur hle hfull => ?_, fun s w code prev h hprev hclear heoi => ⟨fun hfull => ?_,
      fun hroom hhigh => ?_⟩⟩
  · rw [h.exec_code, codeMicros_later (w := w.shift) hprev hroom hclear heoi hmeans, runMicros_outsAll _ h.busy hfit,
      runMicros_work _ (by exact h.busy), runMicros_nil, DecWork.shift_eq]
    rfl
  · obtain ⟨entry, hmeans⟩ : ∃ entry, CodeMeans w.shift.dict prev code.toNat cur entry := by
      rcases hcur with hget | ⟨hlast, rfl⟩
      · exact ⟨_, .inl ⟨hget, rfl⟩⟩
      · exact ⟨_, .inr ⟨hlast, rfl, rfl⟩⟩
    rw [h.exec_code, codeMicros_later (w := w.shift) hprev hroom hclear heoi hmeans, runMicros_outsAll_full _ h.busy hle hfull]
    rfl
  · exact h.raises (codeMicros_tableFull (w := w.shift) hprev hclear heoi hfull)
  · exact h.raises (codeMicros_later_desync (w := w.shift) hprev hclear heoi hroom hhigh)

end Sys2Proof.Machine
end

section
/-!
SUPPORT. Every command ends (spec/45_system_commands.md R274, spec/60_exceptions.md R305): most with their first micro-steps, the three with a loop
after as many pieces of it as their input allows.
-/

namespace Sys2Proof.Machine

/-! ### The start of a command -/

/-- A command but `SYS.RESET` starts on a core that is ready, whatever the host's pace (R274). -/
theorem exec_starts {i : Instr} {op : Byte} {s : State} (hi : encode i = .cmd op) (hreset : op ≠ 0x03) (hb : s.busy = false)
    (hf : s.fault = false) : exec i s = .next (startCommand (commandMicros i) { s with cmd := op }) := by
  have hstart (op : Byte) (micros : State → List Micro) : command op micros s = startCommand micros { s with cmd := op } := by
    rw [command, hb, hf, Bool.or_self, if_neg (by decide)]
  by_cases hclr : op = 0x01
  · subst hclr
    obtain rfl := eq_of_encode_cmd hi (j := .sysClrfault) rfl
    exact congrArg Host.Outcome.next (if_neg (by simp [hb]))
  · by_cases habort : op = 0x02
    · subst habort
      obtain rfl := eq_of_encode_cmd hi (j := .sysAbort) rfl
      exact congrArg Host.Outcome.next ((if_neg (by simp [hb])).trans (hstart _ _))
    · rw [exec_command hi hclr habort hreset, hstart]

/-- The same for a host that waits, with the run of the command written out. -/
theorem exec_run {i : Instr} {op : Byte} {s : State} (hi : encode i = .cmd op) (hreset : op ≠ 0x03) (hs : Starts s) :
    exec i s = .next (settle (stepBound s)
      (runMicros (commandMicros i (commandStart { s with cmd := op })) (commandStart { s with cmd := op }))) := by
  rw [exec_starts hi hreset hs.busy hs.fault, startCommand_waits _ (by exact hs.grant)]
  rfl

/-- The next piece of a running command's loop, for a host that waits. -/
theorem coreTick_waits {s : State} (ht : s.todo = []) (hg : s.grant = none) : coreTick s = runMicros (loopMicros s) s := by
  rcases coreTick_does s with ⟨m, ms, h, -⟩ | ⟨-, e⟩ | ⟨n, -, h, -⟩
  · simp [ht] at h
  · exact e
  · simp [hg] at h

/-! ### How a command ends -/

/-- While a command runs it has neither completed nor faulted; when it has ended it did one of the two (R274, R305). -/
structure EndsOneWay (s : State) : Prop where
  running : s.busy = true → s.done = false ∧ s.fault = false
  ended : s.busy = false → s.done = !s.fault

theorem raiseFault_endsOneWay {s : State} (hb : s.busy = true) (h : EndsOneWay s) (code : FaultCode) (info : Word) :
    EndsOneWay (raiseFault code info s) :=
  ⟨nofun, fun _ => (h.running hb).1⟩

/-- Every micro-step of a running command leaves it running or ends it in one of the two ways. -/
theorem endsOneWay_keeps : Keeps EndsOneWay (fun _ => True) where
  todo _ h := ⟨h.running, h.ended⟩
  loop _ _ _ _ := trivial
  apply {m s} hb _ h := by
    cases m with
    | out b =>
      rcases outByte_cases b s with ⟨-, e⟩ | ⟨-, e⟩ <;> simp only [Micro.apply, e]
      · exact raiseFault_endsOneWay hb h _ _
      · exact ⟨h.running, h.ended⟩
    | outs x =>
      rcases outSymbol_cases x s with ⟨-, e⟩ | ⟨-, e⟩ <;> simp only [Micro.apply, e]
      · exact raiseFault_endsOneWay hb h _ _
      · exact ⟨h.running, h.ended⟩
    | raise code info => exact raiseFault_endsOneWay hb h code info
    | finish np => exact ⟨nofun, fun _ => by simp [Micro.apply, (h.running hb).2]⟩
    | clearFault => exact ⟨fun hb => ⟨(h.running hb).1, rfl⟩, fun hb' => absurd hb (by simpa [Micro.apply] using hb')⟩
    | olen0 | solen0 | ipos | mcs | clearCause | clearInfo | dropDoc | doc | field | ctm | comb | work => exact ⟨h.running, h.ended⟩

/-- The run of a command for a host that waits puts no micro-step off, and a command that has ended has no working state (R42). -/
structure Undelayed (s : State) : Prop where
  waits : s.grant = none
  todo : s.todo = []
  ended : s.busy = false → s.work = .idle

theorem Undelayed.runMicros {s : State} (h : Undelayed s) (hb : s.busy = true) (ms : List Micro) : Undelayed (runMicros ms s) := by
  have hg := (runMicros_sameInputs ms s).grant.trans h.waits
  rcases runMicros_todo ms hb with ⟨hb', ht⟩ | ⟨-, ht, hw⟩
  · exact ⟨hg, ht.trans h.todo, fun hend => by simp [hb'] at hend⟩
  · exact ⟨hg, ht, fun _ => hw⟩

theorem Undelayed.settle {s : State} (h : Undelayed s) (n : Nat) : Undelayed (settle n s) :=
  settle_keeps h (fun u hb hu => by
    rw [coreTick_waits hu.todo hu.waits]
    exact hu.runMicros hb _) n

/-- The start of a command (R42, R274). -/
theorem commandStart_undelayed {s : State} (hg : s.grant = none) : Undelayed (commandStart s) := ⟨hg, rfl, nofun⟩

/-! ### Commands without a loop -/

/-- The micro-steps that end their command: the fault entry and the completion (R305, R274). -/
def Micro.ends : Micro → Bool
  | .raise _ _ | .finish _ => true
  | .out _ | .outs _ | .olen0 | .solen0 | .ipos _ | .mcs _ | .clearFault | .clearCause | .clearInfo | .dropDoc | .doc _ | .field _ _
  | .ctm _ _ | .comb _ _ | .work _ => false

/-- One of the micro-steps ends the command, if no earlier one does. -/
def MustEnd (ms : List Micro) : Prop := ∃ m ∈ ms, m.ends = true

theorem Micro.apply_ends {m : Micro} (h : m.ends = true) (s : State) : (m.apply s).busy = false := by
  cases m with
  | raise | finish => rfl
  | out | outs | olen0 | solen0 | ipos | mcs | clearFault | clearCause | clearInfo | dropDoc | doc | field | ctm | comb | work => cases h

theorem MustEnd.runMicros {ms : List Micro} (h : MustEnd ms) (s : State) : (runMicros ms s).busy = false := by
  induction ms generalizing s with
  | nil => simp [MustEnd] at h
  | cons m ms ih =>
    rw [runMicros_cons]
    split
    · rename_i hb
      refine ih ?_ _
      obtain ⟨m', hm', hends⟩ := h
      rcases List.mem_cons.1 hm' with rfl | hm'
      · simp [m'.apply_ends hends] at hb
      · exact ⟨m', hm', hends⟩
    · simp_all

theorem MustEnd.raise (code : FaultCode) (info : Word) (pre : List Micro) : MustEnd (pre ++ [.raise code info]) :=
  ⟨.raise code info, by simp, rfl⟩

theorem MustEnd.finish (np : Bool) (pre : List Micro) : MustEnd (pre ++ [.finish np]) := ⟨.finish np, by simp, rfl⟩

theorem packMicros_mustEnd (bytes : List Byte) : MustEnd (packMicros bytes) := .finish false (.olen0 :: outAll bytes)

theorem unpackMicros_mustEnd (lengthOk : List Byte → Bool) (writes : List Byte → List Micro) (s : State) :
    MustEnd (unpackMicros lengthOk writes s) := by
  unfold unpackMicros
  split
  · exact .raise _ _ []
  · split
    · have e : writes s.input ++ [.ipos s.ilen, .finish false] = (writes s.input ++ [.ipos s.ilen]) ++ [.finish false] := by simp
      rw [e]
      exact .finish false (.ipos 0 :: (writes s.input ++ [.ipos s.ilen]))
    · exact .raise _ _ [.ipos 0]

theorem unpackFixed_mustEnd (len : Nat) (writes : List Byte → List Micro) (s : State) : MustEnd (unpackFixed len writes s) :=
  unpackMicros_mustEnd _ writes s

theorem packCtMicros_mustEnd (s : State) : MustEnd (packCtMicros s) := by
  unfold packCtMicros
  split
  · exact .raise _ _ []
  · exact packMicros_mustEnd _

theorem serializeMicros_mustEnd (s : State) : MustEnd (serializeMicros s) := by
  unfold serializeMicros
  split
  · exact .raise _ _ []
  · exact packMicros_mustEnd _

theorem getblkMicros_mustEnd (s : State) : MustEnd (getblkMicros s) := by
  unfold getblkMicros
  split
  · exact .raise _ _ []
  · split
    · exact .raise _ _ []
    · split
      · exact .raise _ _ [.olen0]
      · exact .finish true [.olen0]
      · exact packMicros_mustEnd _

theorem setblkMicros_mustEnd (s : State) : MustEnd (setblkMicros s) := by
  unfold setblkMicros
  split
  · exact .raise _ _ []
  · split
    · exact .raise _ _ []
    · split
      · exact .raise _ _ []
      · split
        · exact .raise _ _ []
        · split
          · exact .raise _ _ []
          · split
            · exact .raise _ _ []
            · exact .finish false [_, _]

/-- Every command but the three with a loop ends with its first micro-steps. -/
theorem commandMicros_mustEnd {i : Instr} {op : Byte} (hi : encode i = .cmd op) (hreset : op ≠ 0x03) (hparse : i ≠ .seqParse)
    (henc : i ≠ .lzwEnc) (hdec : i ≠ .lzwDec) (s : State) : MustEnd (commandMicros i s) := by
  cases i with
  | sysReset => cases hi; exact absurd rfl hreset
  | seqParse => exact absurd rfl hparse
  | lzwEnc => exact absurd rfl henc
  | lzwDec => exact absurd rfl hdec
  | extGce | extApp | extPte | extCom | img | trailer | lzwCode => cases hi
  | sysNop | sysAbort => exact .finish false []
  | sysClrfault => exact .finish false clearFaultMicros
  | seqSerialize => exact serializeMicros_mustEnd s
  | seqGetblk => exact getblkMicros_mustEnd s
  | seqSetblk => exact setblkMicros_mustEnd s
  | fldUnpackLsd | fldUnpackGce | fldUnpackId | fldUnpackApp | fldUnpackU16 => exact unpackFixed_mustEnd _ _ s
  | fldUnpackCom | fldUnpackCt => exact unpackMicros_mustEnd _ _ s
  | fldPackLsd | fldPackGce | fldPackId | fldPackApp | fldPackCom | fldPackU16 => exact packMicros_mustEnd _
  | fldPackCt => exact packCtMicros_mustEnd s

/-! ### LZW.DEC -/

/-- The byte access ends the command, or takes a byte that adds at most eight bits (R243, R244, R245). -/
theorem pullMicros_cases (w : DecWork) (s : State) :
    MustEnd (pullMicros w s) ∨
    ∃ w', pullMicros w s = [.ipos (s.ipos + 1), .work (.dec w')] ∧ s.ipos < s.ilen ∧ w'.nb ≤ w.nb + 8 := by
  unfold pullMicros
  split
  · exact .inl (.raise _ _ [])
  · split
    · exact .inl (.raise _ _ [])
    · rename_i hleft
      have hlt := BitVec.not_le.1 hleft
      split
      · split
        · exact .inl (.raise _ _ [_, _])
        · exact .inr ⟨_, rfl, hlt, Nat.le_add_right _ _⟩
      · exact .inr ⟨_, rfl, hlt, le_rfl⟩

/-- A code ends the command, or outputs symbols and leaves the bits that are buffered (R246 to R253). -/
theorem codeMicros_cases (w : DecWork) (c : Nat) :
    MustEnd (codeMicros w c) ∨ ∃ ys w', codeMicros w c = outsAll ys ++ [.work (.dec w')] ∧ w'.nb = w.nb := by
  unfold codeMicros
  split
  · exact .inl (.finish false [])
  · split
    · exact .inr ⟨[], _, rfl, rfl⟩
    · split
      · split
        · exact .inl (.raise _ _ [])
        · exact .inr ⟨[_], _, rfl, rfl⟩
      · split
        · exact .inl (.raise _ _ [])
        · split
          · exact .inl (.raise _ _ [])
          · exact .inr ⟨_, _, rfl, by rw [DecWork.grow_eq]⟩

/-- Output of symbols and a change of the working state leave the cursor where it is. -/
theorem runMicros_outsAll_work {ys : List Symbol} {w : Work} {s : State} (hb : s.busy = true)
    (h : (runMicros (outsAll ys ++ [.work w]) s).busy = true) :
    (runMicros (outsAll ys ++ [.work w]) s).work = w ∧ (runMicros (outsAll ys ++ [.work w]) s).ipos = s.ipos := by
  have hcursor : SamePart .cursor s (runMicros (outsAll ys) s) := by
    refine runMicros_keeps (P := SamePart .cursor s) rfl fun m hm u hu => hu.trans (Micro.apply_samePart ?_ u)
    obtain ⟨x, -, rfl⟩ := List.mem_map.1 hm
    simp [Micro.parts]
  rw [runMicros_append _ _ _ hb] at h ⊢
  split
  · rename_i hgo
    rw [runMicros_work [] hgo]
    exact ⟨rfl, hcursor⟩
  · rename_i hend
    rw [if_neg hend] at h
    exact absurd h hend

/-- What the pieces of the code loop use up: eleven for each byte that is left and one for each buffered bit.  A byte gives eight bits, a code takes
three or more, so that every piece uses three or more (R244). -/
def decFuel (w : DecWork) (s : State) : Nat := 11 * (s.ilen.toNat - s.ipos.toNat) + w.nb

/-- A piece of the code loop ends the command or goes on with less left. -/
theorem decMicros_goes {w : DecWork} {s : State} (hb : s.busy = true) (hwidth : 3 ≤ w.width) :
    (runMicros (decMicros w s) s).busy = false ∨
    ∃ w', (runMicros (decMicros w s) s).work = .dec w' ∧ decFuel w' (runMicros (decMicros w s) s) + 3 ≤ decFuel w s := by
  have hilen := (runMicros_sameInputs (decMicros w s) s).ilen
  unfold decMicros at hilen ⊢
  by_cases hshort : w.nb < w.width
  · rw [if_pos hshort] at hilen ⊢
    rcases pullMicros_cases w s with h | ⟨w', e, hlt, hnb⟩
    · exact .inl (h.runMicros s)
    · rw [e, runMicros_ipos _ hb, runMicros_work _ (by exact hb), runMicros_nil]
      have hnext : (s.ipos + 1).toNat = s.ipos.toNat + 1 := by
        have := BitVec.lt_def.1 hlt
        have := s.ilen.isLt
        rw [BitVec.toNat_add]
        exact Nat.mod_eq_of_lt (by simp; omega)
      have := BitVec.lt_def.1 hlt
      refine .inr ⟨w', rfl, ?_⟩
      simp only [decFuel, hnext]
      omega
  · rw [if_neg hshort] at hilen ⊢
    rcases codeMicros_cases w.shift (w.acc % 2 ^ w.width) with h | ⟨ys, w', e, hnb⟩
    · exact .inl (h.runMicros s)
    · rw [e] at hilen ⊢
      cases hend : (runMicros (outsAll ys ++ [.work (.dec w')]) s).busy with
      | false => exact .inl rfl
      | true =>
        obtain ⟨hw, hipos⟩ := runMicros_outsAll_work hb hend
        have hshift : w.shift.nb = w.nb - w.width := rfl
        refine .inr ⟨w', hw, ?_⟩
        rw [decFuel, decFuel, hilen, hipos]
        omega

/-- The code loop of `LZW.DEC` ends (R254, R274). -/
theorem settle_dec {n : Nat} {w : DecWork} {s : State} (h : Undelayed s) (hw : s.work = .dec w) (hrange : DecInRange w)
    (hn : decFuel w s < 3 * n) : (settle n s).busy = false := by
  induction n generalizing w s with
  | zero => omega
  | succ n ih =>
    rw [settle]
    split
    · rename_i hb
      have hwork : LzwWorkInRange s.work := hw ▸ ⟨nofun, fun _ e => Work.dec.inj e ▸ hrange⟩
      have hpending := lzwInRange_invariant.toKeeps.coreTick hb ⟨hwork, by simp [h.todo]⟩
      have hloop : loopMicros s = decMicros w s := by rw [loopMicros, hw]
      rw [coreTick_waits h.todo h.waits, hloop] at hpending ⊢
      obtain ⟨hmcs, -, hwidth, -⟩ := hrange
      rcases decMicros_goes hb (by omega : 3 ≤ w.width) with hend | ⟨w', hw', hfuel⟩
      · rwa [settle_ended hend]
      · exact ih (h.runMicros hb _) hw' (hpending.1.2 _ hw') (by omega)
    · simp_all

/-- The checks of `LZW.DEC` end it, or its code loop starts behind the first byte (R241). -/
theorem decPrelude_cases (s : State) :
    MustEnd (decPrelude s) ∨ ∃ mcs, 2 ≤ mcs ∧ mcs ≤ 11 ∧ 0 < s.ilen.toNat ∧
      decPrelude s = [.ipos 0, .solen0, .ipos 1, .mcs (BitVec.ofNat 4 mcs), .work (.dec (DecWork.init mcs))] := by
  by_cases hfits : inputFits s
  case neg => exact .inl (decPrelude_overCap hfits ▸ .raise _ _ [])
  by_cases hlen : s.ilen = 0
  · exact .inl (decPrelude_empty hfits hlen ▸ .raise _ _ [_, _])
  by_cases hmcs : (s.ibufAt 0).toNat < 2 ∨ 11 < (s.ibufAt 0).toNat
  · exact .inl (decPrelude_badMcs hfits hlen hmcs ▸ .raise _ _ [_, _, _])
  have hpos : 0 < s.ilen.toNat := Nat.pos_of_ne_zero fun h => hlen (BitVec.eq_of_toNat_eq h)
  exact .inr ⟨(s.ibufAt 0).toNat, by omega, by omega, hpos,
    decPrelude_passes hfits hlen (by simp) (by omega) (by omega)⟩

/-- `LZW.DEC` ends. -/
theorem settle_decPrelude {s : State} (h : Undelayed s) (hb : s.busy = true) :
    (settle (stepBound s) (runMicros (decPrelude s) s)).busy = false := by
  rcases decPrelude_cases s with hend | ⟨mcs, hmin, hmax, hpos, e⟩
  · have hend := hend.runMicros s
    rwa [settle_ended hend]
  · have hrun : runMicros (decPrelude s) s =
        { s with ipos := 1, solen := 0, sout := [], mcs := BitVec.ofNat 4 mcs, work := .dec (DecWork.init mcs) } := by
      rw [e, runMicros_ipos _ hb, runMicros_solen0 _ (by exact hb), runMicros_ipos _ (by exact hb), runMicros_mcs _ (by exact hb),
        runMicros_work _ (by exact hb), runMicros_nil]
    have hundelayed := h.runMicros hb (decPrelude s)
    rw [hrun] at hundelayed ⊢
    refine settle_dec hundelayed rfl (decInit_inRange hmin hmax) ?_
    simp [decFuel, stepBound, DecWork.init]
    omega

/-! ### Every command -/

theorem emitted_busy (op : Byte) (bytes : List Byte) (s : State) : (emitted op bytes s).busy = false := by
  unfold emitted
  split <;> rfl

/-- A command of a host that waits ends (R274). -/
theorem exec_ends {i : Instr} {op : Byte} {s : State} (hi : encode i = .cmd op) (hreset : op ≠ 0x03) (hs : Starts s) :
    ∃ t, exec i s = .next t ∧ t.busy = false := by
  by_cases hparse : i = .seqParse
  · subst hparse
    obtain ⟨t, ht, houtcome⟩ := seqParse_outcome hs
    exact ⟨t, ht, by cases houtcome <;> rfl⟩
  by_cases henc : i = .lzwEnc
  · subst henc
    rcases encPrelude_cases s with h | ⟨code, info, h⟩ | ⟨m, code, info, h⟩
    · exact ⟨_, h.lzwEnc_emits hs, emitted_busy _ _ _⟩
    · exact ⟨_, lzwEnc_raises hs h, rfl⟩
    · exact ⟨_, lzwEnc_mcs_raises hs h, rfl⟩
  refine ⟨_, exec_run hi hreset hs, ?_⟩
  by_cases hdec : i = .lzwDec
  · subst hdec
    exact settle_decPrelude (commandStart_undelayed hs.grant) rfl
  have hend := (commandMicros_mustEnd hi hreset hparse henc hdec (commandStart { s with cmd := op })).runMicros
    (commandStart { s with cmd := op })
  rwa [settle_ended hend]

/-- Settles O12: the run ends, every micro-step keeps the flags of a running or ended command, and no working state is left. -/
theorem everyCommandEnds : Obligations.EveryCommandEnds := by
  intro i op s hi hreset hs
  obtain ⟨t, ht, hb⟩ := exec_ends hi hreset hs
  have hundelayed : Undelayed t := by
    obtain rfl := Host.Outcome.next.inj ((exec_run hi hreset hs).symm.trans ht)
    exact ((commandStart_undelayed (s := { s with cmd := op }) hs.grant).runMicros rfl _).settle _
  obtain rfl := Host.Outcome.next.inj ((exec_starts hi hreset hs.busy hs.fault).symm.trans ht)
  have hstart : EndsOneWay (commandStart { s with cmd := op }) := ⟨fun _ => ⟨rfl, hs.fault⟩, nofun⟩
  have hflags := (endsOneWay_keeps.startCommand (micros := commandMicros i) hstart fun _ _ => trivial).1
  exact ⟨_, ht, hb, hflags.ended hb, hundelayed.ended hb, hundelayed.todo, (startCommand_sameInputs _ _).cmd⟩

end Sys2Proof.Machine
end

section
/-!
SUPPORT. The run of a command for a host that interleaves, against its run for a host that waits (spec/45_system_commands.md R274; log entry 4).
-/

namespace Sys2Proof.Machine

/-! ### Where a run ends -/

/-- The running command in state `s` ends in state `e`. -/
def EndsIn (s e : State) : Prop := e.busy = false ∧ ∃ n, settle n s = e

theorem settle_add (m n : Nat) (s : State) : settle (m + n) s = settle n (settle m s) := by
  induction m generalizing s with
  | zero => rw [Nat.zero_add, settle]
  | succ m ih =>
    rw [Nat.succ_add, settle, settle]
    split
    · exact ih _
    · exact (settle_ended (by simp_all) n).symm

namespace EndsIn
variable {s t e e' : State}

theorem self (h : e.busy = false) : EndsIn e e := ⟨h, 0, rfl⟩

theorem unique (h : EndsIn s e) (h' : EndsIn s e') : e = e' := by
  obtain ⟨hb, m, rfl⟩ := h
  obtain ⟨hb', n, rfl⟩ := h'
  rw [← settle_ended hb n, ← settle_add, Nat.add_comm, settle_add, settle_ended hb']

/-- What a state comes to ends where the state does. -/
theorem of_settle {n : Nat} (hn : settle n s = t) (h : EndsIn t e) : EndsIn s e := by
  obtain ⟨hb, m, hm⟩ := h
  exact ⟨hb, n + m, by rw [settle_add, hn, hm]⟩

end EndsIn

/-- The joined transitions are steps of the command. -/
theorem catchUp_eq_settle (n : Nat) (s : State) : ∃ m, catchUp n s = settle m s := by
  induction n generalizing s with
  | zero => exact ⟨0, rfl⟩
  | succ n ih =>
    rw [catchUp]
    split
    · rename_i hq
      obtain ⟨m, hm⟩ := ih (coreTick s)
      have hb : s.busy = true := by
        rw [State.quiet, Bool.and_eq_true] at hq
        exact hq.1
      exact ⟨m + 1, by rw [hm, settle, if_pos hb]⟩
    · exact ⟨0, rfl⟩

/-- Where the command ends at once, it ends in the same state. -/
theorem endIfDone_eq_or {s e : State} (h : EndsIn s e) : endIfDone s = s ∨ endIfDone s = e := by
  rcases endIfDone_cases s with heq | ⟨heq, hend⟩
  · exact .inl heq
  · obtain ⟨m, hm⟩ := catchUp_eq_settle 32 s
    exact .inr (heq.trans (EndsIn.unique ⟨hend, m, hm.symm⟩ h))

theorem EndsIn.endIfDone {s e : State} (h : EndsIn s e) : EndsIn (endIfDone s) e := by
  rcases endIfDone_eq_or h with heq | heq <;> rw [heq]
  · exact h
  · exact .self h.1

/-! ### Micro-steps that are put off -/

/-- A step of the running command that does a pending micro-step. -/
theorem coreTick_pending {m : Micro} {ms : List Micro} {s : State} (h : s.todo = m :: ms) :
    coreTick s = m.apply { s with todo := ms } := by
  rw [coreTick, h]

/-- A step of the running command that puts the next piece of its loop off. -/
theorem coreTick_paced {s : State} {n : Nat} (hg : s.grant = some n) (ht : s.todo = []) :
    coreTick s = if s.work = .idle then complete false s else { s with todo := loopMicros s } := by
  have hissue (ms : List Micro) : issue ms s = { s with todo := ms } := by rw [issue, hg]
  rcases coreTick_cases s with ⟨m, ms, h, -⟩ | ⟨-, hw, e⟩ | ⟨w, -, hw, e⟩ | ⟨w, -, hw, e⟩ | ⟨w, -, hw, e⟩
  · simp [ht] at h
  · rw [e, if_pos hw]
  all_goals rw [e, hissue, if_neg (by simp [hw]), loopMicros, hw]

/-- A micro-step does the same with others to come after it, unless it ends the command (R305). -/
theorem Micro.apply_before (m : Micro) (ms : List Micro) {s : State} (hb : s.busy = true) :
    ((m.apply s).busy = true ∧ m.apply { s with todo := ms } = { m.apply s with todo := ms }) ∨
    ((m.apply s).busy = false ∧ m.apply { s with todo := ms } = m.apply s) := by
  cases m with
  | out b => rcases outByte_cases b s with ⟨hf, -⟩ | ⟨hf, -⟩ <;> simp [Micro.apply, outByte, hf, hb, raiseFault, faultFlags]
  | outs x => rcases outSymbol_cases x s with ⟨hf, -⟩ | ⟨hf, -⟩ <;> simp [Micro.apply, outSymbol, hf, hb, raiseFault, faultFlags]
  | raise | finish => exact .inr ⟨rfl, rfl⟩
  | olen0 | solen0 | ipos | mcs | clearFault | clearCause | clearInfo | dropDoc | doc | field | ctm | comb | work => exact .inl ⟨hb, rfl⟩

theorem State.eq_setTodo {s : State} (h : s.todo = []) : { s with todo := [] } = s := by rw [← h]

/-- Micro-steps one by one come to where they come all at once. -/
theorem settle_todo (ms : List Micro) {s : State} (hb : s.busy = true) (ht : s.todo = []) :
    settle ms.length { s with todo := ms } = runMicros ms s := by
  induction ms generalizing s with
  | nil => exact State.eq_setTodo ht
  | cons m ms ih =>
    rw [List.length_cons, settle, if_pos hb, coreTick_pending rfl, runMicros_cons]
    rcases m.apply_before ms hb with ⟨hb', e⟩ | ⟨hb', e⟩ <;> rw [e]
    · have ht' : (m.apply s).todo = [] := by
        rcases m.apply_todo hb with ⟨-, h⟩ | ⟨-, h, -⟩
        · exact h.trans ht
        · exact h
      rw [if_pos hb']
      exact ih hb' ht'
    · rw [if_neg (by simp [hb']), settle_ended hb']

/-- The micro-steps of a paced command's start, one by one (R144, R274). -/
theorem settle_beginPaced (ms : List Micro) {s : State} (hb : s.busy = true) (ht : s.todo = []) :
    ∃ n, settle n (beginPaced ms s) = runMicros ms s := by
  rcases beginPaced_cases ms s with e | ⟨rest, rfl, e⟩ <;> rw [e]
  · exact ⟨_, settle_todo ms hb ht⟩
  · rw [runMicros_dropDoc _ hb]
    exact ⟨_, settle_todo rest (s := { s with doc := none, ipos := 0 }) hb ht⟩

/-! ### The host's pace -/

/-- The same state with another pace of the host. -/
def State.atPace (s : State) (g : Option Nat) : State := { s with grant := g }

theorem State.atPace_self {s : State} {g : Option Nat} (h : s.grant = g) : s.atPace g = s := by rw [State.atPace, ← h]

section
variable (g : Option Nat)

theorem Micro.apply_atPace (m : Micro) (s : State) : m.apply (s.atPace g) = (m.apply s).atPace g := by
  cases m with
  | out b =>
    have hfull : outFull (s.atPace g).caps.obuf (s.atPace g).olen = outFull s.caps.obuf s.olen := rfl
    rw [Micro.apply, Micro.apply, outByte, outByte, hfull]
    split <;> rfl
  | outs x =>
    have hfull : outFull (s.atPace g).caps.sout (s.atPace g).solen = outFull s.caps.sout s.solen := rfl
    rw [Micro.apply, Micro.apply, outSymbol, outSymbol, hfull]
    split <;> rfl
  | olen0 | solen0 | ipos | mcs | clearFault | clearCause | clearInfo | dropDoc | doc | field | ctm | comb | work | raise | finish => rfl

theorem runMicros_atPace (ms : List Micro) (s : State) :
    runMicros ms (s.atPace g) = (runMicros ms s).atPace g := by
  induction ms generalizing s with
  | nil => rfl
  | cons m ms ih =>
    have hbusy : ((m.apply s).atPace g).busy = (m.apply s).busy := rfl
    rw [runMicros_cons, runMicros_cons, Micro.apply_atPace, hbusy]
    split
    · exact ih _
    · rfl

theorem attemptMicros_atPace (w : ParseWork) (s : State) : attemptMicros w (s.atPace g) = attemptMicros w s := by
  have hcut : cutHere (s.atPace g) = cutHere s := rfl
  rw [attemptMicros, attemptMicros, hcut]
  cases decodeBlk (cutHere s).rest with
  | ok i => cases i <;> rfl
  | error e => cases e <;> rfl

/-- What comes next in a command's loop does not depend on the pace. -/
theorem loopMicros_atPace (s : State) : loopMicros (s.atPace g) = loopMicros s := by
  have hwork : (s.atPace g).work = s.work := rfl
  rw [loopMicros, loopMicros, hwork]
  cases s.work with
  | idle | enc | dec => rfl
  | parse w => exact attemptMicros_atPace g w s

/-- A command's first micro-steps do not depend on the pace. -/
theorem commandMicros_atPace (i : Instr) (s : State) : commandMicros i (s.atPace g) = commandMicros i s := by
  cases i <;> rfl

end

section
variable {s : State} {n : Nat} (hg : s.grant = some n) (m : Nat)
include hg

/-- A step of the command does not depend on how many steps the host still leaves the core. -/
theorem coreTick_atPace : coreTick (s.atPace (some m)) = (coreTick s).atPace (some m) := by
  cases ht : s.todo with
  | cons μ ms =>
    rw [coreTick_pending ht, coreTick_pending (s := s.atPace (some m)) ht]
    exact Micro.apply_atPace _ μ { s with todo := ms }
  | nil =>
    have hwork : (s.atPace (some m)).work = s.work := rfl
    rw [coreTick_paced hg ht, coreTick_paced (s := s.atPace (some m)) rfl ht, loopMicros_atPace, hwork]
    split <;> rfl

theorem settle_atPace (k : Nat) : settle k (s.atPace (some m)) = (settle k s).atPace (some m) := by
  induction k generalizing s with
  | zero => rfl
  | succ k ih =>
    have hbusy : (s.atPace (some m)).busy = s.busy := rfl
    rw [settle, settle, coreTick_atPace hg, hbusy]
    split
    · exact ih ((coreTick_sameInputs s).grant.trans hg)
    · rfl

theorem EndsIn.atPace {e : State} (h : EndsIn s e) : EndsIn (s.atPace (some m)) (e.atPace (some m)) := by
  obtain ⟨hb, k, rfl⟩ := h
  exact ⟨hb, k, settle_atPace hg m k⟩

theorem spendGrant_eq : ∃ m, spendGrant s = s.atPace (some m) := by
  cases n with
  | zero => exact ⟨0, by rw [State.atPace_self hg, spendGrant, hg]⟩
  | succ n => exact ⟨n, by rw [spendGrant, hg, State.atPace]⟩

end

/-! ### The simulation -/

/-- A piece of the command's loop, one micro-step at a time, comes to where the whole piece comes. -/
theorem settle_piece {s : State} (hb : s.busy = true) (ht : s.todo = []) (hg : s.grant = none) (n : Nat) :
    ∃ k, settle k (s.atPace (some n)) = (coreTick s).atPace (some n) := by
  have hpiece : runMicros (loopMicros (s.atPace (some n))) (s.atPace (some n)) = (coreTick s).atPace (some n) := by
    rw [loopMicros_atPace, runMicros_atPace, coreTick_waits ht hg]
  have hb' : (s.atPace (some n)).busy = true := hb
  have ht' : (s.atPace (some n)).todo = [] := ht
  rcases coreTick_does (s.atPace (some n)) with ⟨m, ms, h, -⟩ | ⟨-, e⟩ | ⟨m, -, -, e⟩
  · simp [ht'] at h
  · exact ⟨1, by rw [settle, if_pos hb', settle, e, hpiece]⟩
  · refine ⟨(loopMicros (s.atPace (some n))).length + 1, ?_⟩
    rw [settle, if_pos hb', e, settle_todo _ hb' ht', hpiece]

/-- A command ends in the same state whatever the pace. -/
theorem EndsIn.paced {s e : State} (hs : Undelayed s) (h : EndsIn s e) (n : Nat) :
    EndsIn (s.atPace (some n)) (e.atPace (some n)) := by
  obtain ⟨hend, k, hk⟩ := h
  induction k generalizing s with
  | zero =>
    obtain rfl := hk
    exact .self hend
  | succ k ih =>
    rw [settle] at hk
    split at hk
    · rename_i hb
      have htick : Undelayed (coreTick s) := by
        rw [coreTick_waits hs.todo hs.waits]
        exact hs.runMicros hb _
      obtain ⟨j, hj⟩ := settle_piece hb hs.todo hs.waits n
      exact .of_settle hj (ih htick hk)
    · obtain rfl := hk
      exact .self hend

/-- A command that starts with the host's next action to come ends where it ends for a host that waits. -/
theorem startCommand_paced {i : Instr} {s : State} (hg : s.grant = none) (hend : (startCommand (commandMicros i) s).busy = false)
    (n : Nat) : EndsIn (startCommand (commandMicros i) (s.atPace (some n)))
      ((startCommand (commandMicros i) s).atPace (some n)) := by
  have hrun : EndsIn (runMicros (commandMicros i (commandStart s)) (commandStart s)) (startCommand (commandMicros i) s) :=
    ⟨hend, _, (startCommand_waits _ hg).symm⟩
  have hpaced := hrun.paced ((commandStart_undelayed hg).runMicros rfl _) n
  rw [← runMicros_atPace, ← commandMicros_atPace (some n)] at hpaced
  obtain ⟨k, hk⟩ := settle_beginPaced (commandMicros i (commandStart (s.atPace (some n))))
    (s := commandStart (s.atPace (some n))) rfl rfl
  exact (EndsIn.of_settle hk hpaced).endIfDone

/-- The steps of the machine, with a host that has no action left, come to the end of the command. -/
theorem EndsIn.run {s e : State} {n : Nat} (h : EndsIn s e) (hg : s.grant = some n) (hh : s.host = []) :
    ∃ k m, Host.Core.run core k s = .next (e.atPace (some m)) := by
  obtain ⟨hend, j, hj⟩ := h
  induction j generalizing s e n with
  | zero =>
    obtain rfl : s = e := hj
    exact ⟨0, n, by rw [State.atPace_self hg]; rfl⟩
  | succ j ih =>
    rw [settle] at hj
    split at hj
    · rename_i hb
      obtain ⟨m, hspend⟩ := spendGrant_eq hg
      have hstep := step_core hb (by rw [hostMoves, hh]; simp)
      rw [hspend, coreTick_atPace hg] at hstep
      have hg' : (coreTick s).grant = some n := (coreTick_sameInputs s).grant.trans hg
      have hnext := EndsIn.atPace hg' m ⟨hend, j, hj⟩
      rcases endIfDone_eq_or hnext with heq | heq <;> rw [heq] at hstep
      · obtain ⟨k, m', hk⟩ := ih (s := (coreTick s).atPace (some m)) (e := e.atPace (some m)) rfl
          ((coreTick_sameInputs s).host.trans hh) hend (by rw [settle_atPace hg', hj])
        exact ⟨k + 1, m', (run_succ_of_step (M := core) hstep).trans hk⟩
      · exact ⟨1, m, run_succ_of_step (M := core) hstep⟩
    · obtain rfl := hj
      exact ⟨0, n, by rw [State.atPace_self hg]; rfl⟩

/-- Settles O13: both runs do the same pieces of the command, at once or one micro-step at a time; `SYS.RESET` has one step. -/
theorem pacedRunReachesAtomicResult : Obligations.PacedRunReachesAtomicResult := by
  intro i op s t n hi hs hh ht
  by_cases hreset : op = 0x03
  · subst hreset
    obtain rfl := eq_of_encode_cmd hi (j := .sysReset) rfl
    obtain rfl := Host.Outcome.next.inj ht
    exact ⟨_, 0, n, rfl, rfl⟩
  · obtain ⟨t', ht', hend⟩ := exec_ends hi hreset hs
    obtain rfl := Host.Outcome.next.inj (ht'.symm.trans ht)
    obtain rfl := Host.Outcome.next.inj ((exec_starts hi hreset hs.busy hs.fault).symm.trans ht)
    have hpaced := startCommand_paced (s := { s with cmd := op }) hs.grant hend n
    have hsame := startCommand_sameInputs (commandMicros i) { s with cmd := op, grant := some n }
    obtain ⟨k, m, hk⟩ := hpaced.run hsame.grant (hsame.host.trans hh)
    exact ⟨_, k, m, exec_starts (s := s.atPace (some n)) hi hreset hs.busy hs.fault, hk⟩

end Sys2Proof.Machine
end

section
/-!
The statements about the SYS commands and the writes of `CMD` (spec/45_system_commands.md R270 to R274, spec/60_exceptions.md R306,
spec/70_reset_and_hazards.md R330, R334).
-/

namespace Sys2Proof.Machine

/-! ### SYS.NOP, SYS.CLRFAULT, SYS.ABORT (R270, R271, R272) -/

/-- A command that only completes (R274). -/
theorem command_completes (op : Byte) {s : State} (h : Starts s) : command op (fun _ => [.finish false]) s = finished op false s := by
  rw [command_starts op _ h, runMicros_finish, settle_ended (complete_busy _ _)]
  rfl

/-- Settles O5: the command has no micro-step but its completion. -/
theorem nopOnlyCompletes : Obligations.NopOnlyCompletes := by
  refine ⟨fun s hs => congrArg Host.Outcome.next (command_completes 0x00 hs),
    fun s hf => congrArg Host.Outcome.next (command_turnedAway (.inr hf) 0x00 _), fun t ht => ?_⟩
  obtain rfl := Host.Outcome.next.inj ht
  rw [command_completes 0x00 (s := State.reset) ⟨rfl, rfl, rfl⟩]
  rfl

/-- Settles O6: the three micro-steps of the return from a fault, then the completion. -/
theorem clrfaultClearsTheRecord : Obligations.ClrfaultClearsTheRecord := by
  intro s hb hg
  have hidle : ¬ s.busy = true := by simp [hb]
  refine congrArg Host.Outcome.next ((if_neg hidle).trans ((startCommand_clrfault { s with cmd := 0x01 }).trans ?_))
  rw [show State.grant { s with cmd := 0x01 } = none from hg]
  rfl

/-- Settles O7: it looks at `BUSY` first; a core that does not run takes it for a command that only completes. -/
theorem abortStops : Obligations.AbortStops := by
  have hidle {s : State} (hb : s.busy = false) : exec .sysAbort s = .next (command 0x02 (fun _ => [.finish false]) s) :=
    congrArg Host.Outcome.next (if_neg (by simp [hb]))
  refine ⟨fun s hb => congrArg Host.Outcome.next (if_pos hb), fun s hs => ?_, fun s hb hf => ?_⟩
  · rw [hidle hs.busy, command_completes 0x02 hs]
  · rw [hidle hb, command_turnedAway (.inr hf)]

/-! ### SYS.RESET (R273, R330) -/

/-- What the host reads after a reset is what it reads after power-on (R45). -/
theorem readReg_resetCore (s : State) (n : Nat) : readReg (resetCore s) n = readReg State.reset n := rfl

/-- Settles O8: both are one reset of the core. -/
theorem resetRestores : Obligations.ResetRestores :=
  fun s => ⟨resetCore s, rfl, rfl, fun n hn => (readReg_resetCore s n).trans (resetValues.1 n hn), rfl, rfl, rfl, rfl, rfl, rfl, rfl, rfl,
    rfl, rfl, rfl, rfl, rfl⟩

/-! ### Writes of CMD (R274, R306) -/

/-- A command is never refused (R274, R306). -/
theorem exec_next {i : Instr} {op : Byte} (hi : encode i = .cmd op) (s : State) : ∃ t, exec i s = .next t := by
  cases i with
  | extGce | extApp | extPte | extCom | img | trailer | lzwCode => cases hi
  | sysNop | sysClrfault | sysAbort | sysReset | seqParse | seqSerialize | seqGetblk | seqSetblk | fldUnpackLsd | fldPackLsd
  | fldUnpackGce | fldPackGce | fldUnpackId | fldPackId | fldUnpackApp | fldPackApp | fldUnpackCom | fldPackCom | fldUnpackCt
  | fldPackCt | fldUnpackU16 | fldPackU16 | lzwEnc | lzwDec => exact ⟨_, rfl⟩

/-- A write of `CMD` has a next state whatever the opcode, the reserved ones included (R95, R274, R300). -/
theorem hostCmd_next (v : Word) (pace : Option Nat) (s : State) : ∃ t, hostCmd v pace s = .next t := by
  cases hd : decodeCmd (v.setWidth 8) with
  | ok i =>
    rw [hostCmd_decoded hd]
    exact exec_next (encode_of_decodeCmd hd) _
  | error e => exact ⟨_, by rw [hostCmd, hd]⟩

section
variable {s : State} {a : HostAction} {v : Word} {rest : List HostAction} (hh : s.host = a :: rest) (ha : a.toCmd = some v)
  (hm : s.busy = false ∨ hostMoves s = true)
include hh ha hm

/-- The host's write to `CMD`, by name or by number, is a step. -/
theorem step_writesCmd : ∃ t, step s = .next t := by
  rw [step_host hm hh]
  cases a with
  | cmd w pace => exact hostCmd_next w pace _
  | wr r w =>
    have hr : r = 0 := by
      by_contra h
      simp [HostAction.toCmd, h] at ha
    subst hr
    exact hostCmd_next w none _
  | poll | rd | put | peek | ibuf | sin | ctm | comb | mv | mvs | resetLine => cases ha

/-- A write of `CMD` is a step a session may rely on exactly when the command is not turned away (R306, R334). -/
theorem safeStep_iff : SafeStep s ↔ ¬ TurnedAway (v.setWidth 8) s := by
  refine ⟨fun h => h.2 a rest v hh ha hm, fun h => ⟨step_writesCmd hh ha hm, fun a' rest' v' hh' ha' _ => ?_⟩⟩
  obtain ⟨rfl, rfl⟩ := List.cons.inj (hh.symm.trans hh')
  obtain rfl := Option.some.inj (ha.symm.trans ha')
  exact h

end

/-! ### The end of a session (R334) -/

section
variable {s : State} (hb : s.busy = false)
include hb

/-- A core that does not run, with no action left, stays as it is (R317). -/
theorem step_exhausted (hh : s.host = []) : step s = .next s := by
  rcases step_cases s with ⟨hrun, -⟩ | ⟨-, -, e⟩ | ⟨a, rest, -, hh', -⟩
  · simp [hb] at hrun
  · exact e
  · simp [hh] at hh'

theorem safeStep_exhausted (hh : s.host = []) : SafeStep s :=
  ⟨⟨s, step_exhausted hb hh⟩, fun a rest v hh' => by simp [hh] at hh'⟩

/-- A session with no action left ends badly exactly under a fault. -/
theorem endedBadly_exhausted (hh : s.host = []) : EndedBadly s ↔ s.fault = true := by
  refine ⟨fun h => ?_, fun hf => .inl ⟨hb, hf, fun a v hnext => by simp [hh] at hnext⟩⟩
  rcases h with ⟨-, hf, -⟩ | hunsafe
  · exact hf
  · exact absurd (safeStep_exhausted hb hh) hunsafe

/-- Under a fault a session ends badly with any command next but `SYS.CLRFAULT`. -/
theorem endedBadly_command {v : Word} {pace : Option Nat} {rest : List HostAction} (hf : s.fault = true)
    (hh : s.host = .cmd v pace :: rest) : EndedBadly s ↔ v.setWidth 8 ≠ 0x01#8 := by
  have hnext : (s.host.dropWhile HostAction.looks).head? = some (.cmd v pace) := by simp [hh, HostAction.looks]
  refine ⟨fun h hclr => ?_, fun hno => .inl ⟨hb, hf, fun a w ha hw => ?_⟩⟩
  · rcases h with ⟨-, -, hother⟩ | hunsafe
    · exact hother _ v hnext rfl hclr
    · refine hunsafe ((safeStep_iff hh rfl (.inl hb)).2 fun haway => ?_)
      rcases haway with ⟨hrun, -⟩ | ⟨-, -, hclr', -⟩
      · simp [hb] at hrun
      · exact hclr' hclr
  · obtain rfl := Option.some.inj (hnext.symm.trans ha)
    obtain rfl := Option.some.inj hw
    exact hno

end

/-- Settles O48: every opcode has an effect, a refusal by R306 is one; and the ends of a session, by what is left of the host's list. -/
theorem commandWritesAlwaysStep : Obligations.CommandWritesAlwaysStep := by
  refine ⟨fun s v rest hh hm => ?_, fun s ⟨hh, hb, hf⟩ => ⟨step_exhausted hb hh, fun hbad => ?_⟩,
    fun s hb hf => ⟨fun hh => (endedBadly_exhausted hb hh).2 hf, fun v pace rest hh => endedBadly_command hb hf hh⟩⟩
  · obtain ⟨a, ha, hh⟩ : ∃ a, a.toCmd = some v ∧ s.host = a :: rest := by
      rcases hh with ⟨pace, hh⟩ | hh
      · exact ⟨_, rfl, hh⟩
      · exact ⟨_, rfl, hh⟩
    exact ⟨step_writesCmd hh ha hm, safeStep_iff hh ha hm⟩
  · have hfault := (endedBadly_exhausted hb hh).1 hbad
    simp [hf] at hfault

end Sys2Proof.Machine
end

section
/-!
The statement about a reserved opcode (spec/30_encoding.md R95, spec/60_exceptions.md R300).
-/

namespace Sys2Proof.Machine

/-- The opcode of a write of `CMD` is `v[7:0]` (R23): widened again it is `v` masked. -/
theorem setWidth_opcode (v : Word) : (v.setWidth 8).setWidth 32 = v &&& 0xFF := by
  apply BitVec.eq_of_toNat_eq
  calc ((v.setWidth 8).setWidth 32).toNat
    _ = v.toNat % 2 ^ 8 := by rw [BitVec.toNat_setWidth_of_le (by decide), BitVec.toNat_setWidth]
    _ = v.toNat &&& 0xFF := (Nat.and_two_pow_sub_one_eq_mod v.toNat 8).symm
    _ = (v &&& 0xFF).toNat := (BitVec.toNat_and v 0xFF).symm

/-- A reserved opcode written to a core that is ready, by a host that waits (R95, R300). -/
theorem hostCmd_reserved_raises {s : State} {v : Word} {e : DecodeError} (hd : decodeCmd (v.setWidth 8) = .error e)
    (hb : s.busy = false) (hf : s.fault = false) :
    hostCmd v none s = .next (faulted (v.setWidth 8) FaultCode.badCommand.byte (v &&& 0xFF) { s with grant := none }) := by
  have hs : Starts { s with grant := none } := ⟨hb, hf, rfl⟩
  rw [hostCmd, hd, ← setWidth_opcode]
  exact congrArg Host.Outcome.next (command_raises _ .badCommand _ hs rfl)

/-- Settles O11: the command has no micro-step but the fault, and its record is the opcode that was written. -/
theorem reservedOpcodeFaults : Obligations.ReservedOpcodeFaults := fun s _ rest _ hh hb hf hd =>
  (step_host (.inl hb) hh).trans (hostCmd_reserved_raises (s := { s with host := rest }) hd hb hf)

end Sys2Proof.Machine
end

section
/-!
The statement about host writes to a busy core (spec/70_reset_and_hazards.md R341, spec/20_memory.md R74).
-/

namespace Sys2Proof.Machine

/-- A running core refuses the host's move, whatever it would have written (R341, U4). -/
theorem whenIdle_busy {s : State} (hb : s.busy = true) (act : State → Host.Outcome State Fault Refusal) :
    whenIdle act s = .refused .hostWriteWhileBusy := by
  rw [whenIdle, if_pos hb]

/-- Settles O46: each of these moves waits for an idle core; a register write does so because its register is not `CMD`. -/
theorem noHostWritesWhileBusy : Obligations.NoHostWritesWhileBusy := by
  intro s a hb ha
  rcases ha with ⟨r, v, hr, rfl⟩ | ⟨m, i, v, rfl⟩ | ⟨bs, rfl⟩ | ⟨xs, rfl⟩ | ⟨cs, rfl⟩ | ⟨bs, rfl⟩ | rfl | rfl
  · show (if r = 0 then hostCmd v none s else whenIdle (writeReg r v) s) = _
    rw [if_neg hr, whenIdle_busy hb]
  · exact whenIdle_busy hb (hostPut m i v)
  · exact whenIdle_busy hb (hostIbuf bs)
  · exact whenIdle_busy hb (hostSin xs)
  · exact whenIdle_busy hb (hostCtm cs)
  · exact whenIdle_busy hb (hostComb bs)
  · exact whenIdle_busy hb hostMv
  · exact whenIdle_busy hb hostMvs

end Sys2Proof.Machine
end
